-- ==== Sys2Proof/Word.lean ====
section
/-! DEFINITION. The word types of the Orendal 3620 and the index types of its blocks. -/

namespace Sys2Proof

/-- A byte is 8 bits (00_scope, "Sizes"). -/
abbrev Byte := BitVec 8

/-- A word is 16 bits (00_scope, "Sizes"). -/
abbrev Word := BitVec 16

/-- A Timebase value in microseconds, which wraps as the Timebase does (R161). -/
abbrev Micros := BitVec 32

/-- A lane, L0 to L7 (R1). -/
abbrev LaneId := Fin 8

/-- A stream, 0 to 31 (R77). -/
abbrev StreamId := Fin 32

/-- A route entry, index 0 to 63 (R43). -/
abbrev RouteId := Fin 64

/-- A buffer cell, 0 to 16383 (R59). -/
abbrev CellId := Fin 16384

/-- A descriptor, 0 to 4095 (R62). -/
abbrev DescId := Fin 4096

/-- A hold slot, 0 to 15 (R100). -/
abbrev SlotId := Fin 16

end Sys2Proof
end

