-- ==== Sys2Proof/Syntax.lean ====
section
/-! DEFINITION. The commands of the part: one constructor per row of spec/opcode_table.json, each one indivisible step
(spec/95). The table gives the rows no bits; the operands are those the row's rule names. -/

namespace Sys2Proof

/-- Which word of a LO/HI register pair is written (R170): streams 0 to 15 or streams 16 to 31. -/
inductive Half where
  | lo
  | hi
  deriving DecidableEq, Repr

/-- The commands. Rows that come from outside (pins, bus) carry what comes with them; the part's own acts carry the
lane or stream they belong to, where there are several. -/
inductive Instr where
  /-- HARD_RESET (R176): RESET_n goes low. -/
  | hardReset
  /-- RESET_RELEASE (R69): RESET_n returns high. -/
  | resetRelease
  /-- CANDIDATE (R9): a rising edge of the lane's clock with this level on its data line. -/
  | candidate (lane : LaneId) (bit : Bool)
  /-- PROVISIONAL_HEADER (R10): a rising edge of the lane's clock. -/
  | provisionalHeader (lane : LaneId) (bit : Bool)
  /-- HEADER (R12): a rising edge of the lane's clock. -/
  | header (lane : LaneId) (bit : Bool)
  /-- BODY_BYTE (R30): a rising edge of the lane's clock. -/
  | bodyByte (lane : LaneId) (bit : Bool)
  /-- TRAILER_CHECK (R34): a rising edge of the lane's clock. -/
  | trailerCheck (lane : LaneId) (bit : Bool)
  /-- SILENCE (R15) on a lane. -/
  | silence (lane : LaneId)
  /-- PORT_GRANT (R136). -/
  | portGrant
  /-- CELL_WRITE_COMPLETE (R32). -/
  | cellWriteComplete
  /-- CELL_READ_COMPLETE (R125). -/
  | cellReadComplete
  /-- REFRESH_COMPLETE (R134). -/
  | refreshComplete
  /-- INTERVAL_EXPIRY (R138). -/
  | intervalExpiry
  /-- MILLISECOND_TICK (R162). -/
  | millisecondTick
  /-- AGE_EXPIRY (R92) of the first expired record of a stream. -/
  | ageExpiry (stream : StreamId)
  /-- HOLD_EXPIRY (R114) of the lowest expired hold slot. -/
  | holdExpiry
  /-- POOL_BUILD_END (R71). -/
  | poolBuildEnd
  /-- TAKE (R104): the end act of an accepted TAKE. -/
  | take
  /-- PEEK (R106): the end act of an accepted PEEK. -/
  | peek
  /-- RELEASE (R107): the end act of an accepted RELEASE. -/
  | release
  /-- RETURN (R108): the end act of an accepted RETURN. -/
  | returnRecord
  /-- PURGE (R156): a write of 0005h to CMD. -/
  | purge
  /-- PURGE_REMOVAL (R96). -/
  | purgeRemoval
  /-- CLEAR (R157): a write of 0006h to CMD. -/
  | clear
  /-- CLEAR_SECOND_STEP (R158). -/
  | clearSecondStep
  /-- CLEAR_THIRD_STEP (R159). -/
  | clearThirdStep
  /-- CLEAR_FOURTH_STEP (R159). -/
  | clearFourthStep
  /-- CAPTURE (R154): the end act of an accepted CAPTURE. -/
  | capture
  /-- TABLE_READ (R152): the end act of an accepted TABLE_READ. -/
  | tableRead
  /-- TABLE_WRITE (R153): the end act of an accepted TABLE_WRITE. -/
  | tableWrite
  /-- COLLISION (R151): a write of CMD. -/
  | collision (code : Word)
  /-- POINTING (R123): a write of WIN_OFFSET. -/
  | pointing (value : Word)
  /-- WIN_HANDLE_WRITE (R122). -/
  | winHandleWrite (value : Word)
  /-- WIN_DATA_READ (R126). -/
  | winDataRead
  /-- HELD_READ_ABANDON (R175): the host raises CS_n or RD_n. -/
  | heldReadAbandon
  /-- TIME_LO_READ (R163). -/
  | timeLoRead
  /-- EVENT_LATCH_WRITE (R167). -/
  | eventLatchWrite (value : Word)
  /-- EVENT_ENABLE_WRITE (R169). -/
  | eventEnableWrite (value : Word)
  /-- WMARK_WRITE (R90): a write of WMARK_LO or WMARK_HI. -/
  | wmarkWrite (half : Half) (value : Word)
  /-- WMARK_EN_WRITE (R170): a write of WMARK_EN_LO or WMARK_EN_HI. -/
  | wmarkEnWrite (half : Half) (value : Word)
  /-- READY_EN_WRITE (R170): a write of READY_EN_LO or READY_EN_HI. -/
  | readyEnWrite (half : Half) (value : Word)
  /-- REFRESH_CFG_WRITE (R140). -/
  | refreshCfgWrite (value : Word)
  /-- POOL_LOW_WRITE (R75). -/
  | poolLowWrite (value : Word)
  /-- HOLD_LIMIT_WRITE (R113). -/
  | holdLimitWrite (value : Word)
  /-- REGISTER_WRITE (R174): a write of a word of the window that has no row of its own. -/
  | registerWrite (address : BitVec 7) (value : Word)
  /-- LANE_CLOCK_EDGE (R1): a rising edge of the lane's clock. -/
  | laneClockEdge (lane : LaneId) (bit : Bool)
  /-- COMMAND_ACCEPTANCE (R148): a write of CMD. -/
  | commandAcceptance (code : Word)
  /-- FAILED_TEST_END_ACT (R150). -/
  | failedTestEndAct
  /-- TIMEBASE_COUNT (R161): the sixteenth rising edge of REFCLK. -/
  | timebaseCount
  deriving DecidableEq, Repr

end Sys2Proof
end

