-- ==== Sys2Proof/WellFormed.lean ====
section
/-! DEFINITION. Which commands are well formed. Lane and stream numbers, register words and addresses are in range by
their types; what is left to check is that REGISTER_WRITE names a word that has no write row of its own. -/

namespace Sys2Proof

/-- The addresses of Table 11-1 whose write has a row of its own in the opcode table: REFRESH_CFG, POOL_LOW,
HOLD_LIMIT, CMD, WIN_HANDLE, WIN_OFFSET, EVENT_LATCH, EVENT_ENABLE, READY_EN, WMARK, WMARK_EN. -/
def ownRowAddresses : List (BitVec 7) :=
  [0x07, 0x08, 0x09, 0x0C, 0x28, 0x29, 0x30, 0x31, 0x34, 0x35, 0x36, 0x37, 0x3C, 0x3D]

/-- A well-formed command: REGISTER_WRITE is "a write to any other register" (its row). -/
def Instr.wellFormed : Instr → Bool
  | .registerWrite a _ => !ownRowAddresses.contains a
  | _ => true

end Sys2Proof
end

