-- ==== Sys2Proof/Decode.lean ====
section
/-! DEFINITION. Decoding of the rows of the opcode table that give bits. No row of this block's table gives any: commands
reach the part as pin events and bus accesses, not as words. -/

namespace Sys2Proof

/-- The command that a word spells by the table's bits: the table gives no row any bits, so no word spells one. -/
def decodeTableWord (_nbits _w : Nat) : Option Instr := none

end Sys2Proof
end

