-- ==== Sys2Proof/Config.lean ====
section
/-! DEFINITION. What is fixed for the part, and the free values: what the manual leaves open, as constants with no body. -/

namespace Sys2Proof.Config

/-- Bytes of one cell (R59). -/
def cellBytes : Nat := 64

/-- Cells of the pool (R59). -/
def cellCount : Nat := 16384

/-- Descriptors of the pool (R62). -/
def descCount : Nat := 4096

/-- Microseconds without an edge after which a lane is silent (R15). -/
def silenceMicros : Nat := 50

/-- Microseconds the build of the pool takes (R71). -/
def buildMicros : Nat := 200

/-- The Refresh Interval after hard reset, in units of 0.25 µs (R146). -/
def resetInterval : BitVec 8 := 31

/-- Time a cell write or a cell read takes at the memory port, in units of 0.01 µs (R134). -/
def cellTime : Nat := 16

/-- Time a refresh takes at the memory port, in units of 0.01 µs (R134). -/
def refreshTime : Nat := 64

/-- DEV_ID (R179). -/
def devId : Word := 0x3620

/-- DEV_REV (R179). -/
def devRev : Word := 0x0001

/-- FREE VALUE (entry 9). What a byte of buffer memory that nothing has written since hard reset reads as: "After hard
reset the contents of every cell are undefined" (R59). Arguments: the model's epoch and the byte address. -/
opaque undefinedByte : Nat → Nat → Byte

/-- FREE VALUE (entry 10). What a cell read of a Suspect record returns for a byte: "Those bytes are not guaranteed to
equal the bytes written by the record's reception" (R143). Arguments: the model's epoch, the byte address, the byte
written. -/
opaque suspectByte : Nat → Nat → Byte → Byte

end Sys2Proof.Config
end

