-- ==== Sys2Proof/Machine/State.lean ====
section
/-! DEFINITION. The state of the part, block by block as Table 0-1 lists them, its values after reset, and the reasons a
step can stop. -/

namespace Sys2Proof.Machine

/-- Sparse data by key, keys strictly rising, no entry equal to what an unlisted key reads as (Ops: `Tab.rising`). -/
abbrev Tab (β : Type) := List (Nat × β)

/-! ### Lane Receiver and lane configuration (Chapter 1) -/

/-- The delineation state of a lane (R7 to R11), in the order of its codes (Table 11-9). -/
inductive Delineation where
  | disabled | hunt | provisional | locked
  deriving DecidableEq, Repr

/-- The sub-state of a LOCKED lane (R12, R13), in the order of its codes (Table 11-9). -/
inductive SubState where
  | awaitHeader | body | trailer | skip
  deriving DecidableEq, Repr

/-- Action of a route entry and Default Action of a lane entry (Tables 3-1 and 1-3). -/
inductive Action where
  | discard | store
  deriving DecidableEq, Repr

/-- The lane configuration entry (Table 1-3). -/
structure LaneEntry where
  enable : Bool
  confirmCount : BitVec 2
  missTolerance : BitVec 2
  keepDamaged : Bool
  defaultAction : Action
  defaultStream : StreamId
  deriving DecidableEq, Repr

/-- The state of a Lane Receiver (section 1.3.1). `bits` holds, oldest first, the search window in HUNT and otherwise the
bits of the header or byte being assembled; `sub` has a meaning in LOCKED and is AWAIT_HEADER in every other state. -/
structure Receiver where
  delin : Delineation
  sub : SubState
  remaining : Nat
  missCount : Nat
  byteCount : Nat
  bits : List Bool
  silent : Bool
  lastEdge : Micros
  deriving DecidableEq, Repr

/-! ### Lane Reception Unit (Chapter 2) -/

/-- What a staging cell that is not FREE names: its descriptor (none once the write is a retiring one, R38), its chain
position, the cell of buffer memory it serves and the bytes it holds (Table 2-1). -/
structure Staged where
  owner : Option DescId
  pos : Nat
  cell : CellId
  bytes : List Byte
  deriving DecidableEq, Repr

/-- A staging cell (Table 2-1). -/
inductive StagingCell where
  | free
  | filling (c : Staged)
  | pending (c : Staged)
  | writing (c : Staged)
  deriving DecidableEq, Repr

/-- The state of a Lane Reception Unit (Table 2-1). -/
structure Reception where
  list : List DescId
  staging : Vector StagingCell 4
  order : List (Fin 4)
  retiring : Option CellId
  countdown : Nat
  chainCell : Nat
  chainByte : Nat
  check : Word
  trailer : List Byte
  deriving DecidableEq, Repr

/-- One lane: its configuration entry, its receiver and its reception unit. -/
structure Lane where
  entry : LaneEntry
  rx : Receiver
  unit : Reception
  deriving DecidableEq, Repr

/-! ### Route Table (Chapter 3) -/

/-- A route entry (Table 3-1). `laneMatch` none is Any. -/
structure RouteEntry where
  valid : Bool
  laneMatch : Option LaneId
  tag : Byte
  tagMask : Byte
  action : Action
  stream : StreamId
  seqCheck : Bool
  expected : Word
  expectedKnown : Bool
  edition : Byte
  deriving DecidableEq, Repr

/-! ### Cell Pool (Chapter 4) -/

/-- The five states of a descriptor (R63). -/
inductive DescState where
  | free | receiving | completing | queued | held
  deriving DecidableEq, Repr

/-- A descriptor (Table 4-1). Optional parts are Options: absent is none (R62). -/
structure Desc where
  state : DescState
  stream : StreamId
  lane : LaneId
  tag : Byte
  kind : BitVec 4
  length : BitVec 12
  sequence : Option Word
  arrival : Micros
  completion : Option (BitVec 32)
  firstCell : CellId
  cellCount : Nat
  route : Option (RouteId × Byte)
  damaged : Bool
  gapBefore : Bool
  outOfOrder : Bool
  unchecked : Bool
  suspect : Bool
  gapSize : Option Word
  deliveryCount : BitVec 4
  deriving DecidableEq, Repr

/-- The Cell Pool. `links` and `descs` are sparse: an unlisted link is End (none), an unlisted descriptor is
`Desc.blank`. The free counts are the lengths of the free lists (R61, R64). -/
structure Pool where
  ready : Bool
  buildStart : Micros
  freeCells : List CellId
  freeDescs : List DescId
  links : Tab (Option CellId)
  descs : Tab Desc
  lowThreshold : Nat
  deriving DecidableEq, Repr

/-! ### Stream Queues (Chapter 5) -/

/-- Policy of a stream (Table 5-1). -/
inductive Policy where
  | refuseNewest | evictOldest
  deriving DecidableEq, Repr

/-- The stream configuration entry (Table 5-1). -/
structure StreamEntry where
  enable : Bool
  quota : Nat
  policy : Policy
  watermark : Nat
  ageLimit : Nat
  deriving DecidableEq, Repr

/-- One stream (R77): its entry, its queue (head first), its held count and its charge. Of the present millisecond tick
(R92, entry 7): `examine` is the Age Limit by which the stream has still to examine its queue, 0 where it has not, and
`expired` the queued records its examination found expired and that are still to be removed. -/
structure Stream where
  entry : StreamEntry
  queue : List DescId
  heldCount : Nat
  charge : Nat
  examine : Nat
  expired : List DescId
  deriving DecidableEq, Repr

/-! ### Delivery Unit (Chapter 6) -/

/-- What a HELD slot holds: the descriptor and its Hold Start (R100). -/
structure Holding where
  desc : DescId
  start : Micros
  deriving DecidableEq, Repr

/-- A hold slot (R100): EMPTY when `held` is none. -/
structure HoldSlot where
  generation : BitVec 4
  held : Option Holding
  deriving DecidableEq, Repr

/-- The Record View (Table 6-2). -/
structure RecordView where
  handle : Byte
  held : Bool
  deliveryCount : BitVec 4
  stream : StreamId
  lane : LaneId
  tag : Byte
  kind : BitVec 4
  damaged : Bool
  gapBefore : Bool
  outOfOrder : Bool
  unchecked : Bool
  suspect : Bool
  length : BitVec 12
  sequence : Word
  arrival : Micros
  gapSize : Word
  deriving DecidableEq, Repr

/-! ### Data Window (Chapter 7) -/

/-- The state of the Data Window (R121), in the order of its codes (Table 11-9). -/
inductive WindowMode where
  | idle | fetching | ready | stale
  deriving DecidableEq, Repr

/-- The Data Window (Table 7-1), less its read in flight, which is the memory port's operation (`PortOp.read`). -/
structure Window where
  handleReg : Byte
  pointed : Byte
  offset : Word
  mode : WindowMode
  pastEnd : Bool
  buffer : Option (Nat × List Byte)
  request : Option Nat
  deriving DecidableEq, Repr

/-! ### Buffer Memory Controller (Chapter 8) -/

/-- The operation in flight at the memory port (R134): a cell write of a lane's WRITING staging cell, the window's cell
read with its chain position, its descriptor and its discard mark (R125), or a refresh. -/
inductive PortOp where
  | write (lane : LaneId)
  | read (cell : CellId) (pos : Nat) (desc : DescId) (discard : Bool)
  | refresh
  deriving DecidableEq, Repr

/-- A requester of the round-robin order (R136, R137): 0 to 7 are the lanes L0 to L7, 8 is the window. -/
abbrev Requester := Fin 9

/-- What is known of the time at the memory port, in units of 0.01 µs from the last microsecond count (R134, entry 23):
`reached`, the latest time that the port's completions and the interval expiries taken so far are known to have reached,
and `ends`, the earliest time at which the operation in flight can end. -/
structure PortTimes where
  reached : Nat
  ends : Nat
  deriving DecidableEq, Repr

/-- The Buffer Memory Controller. `interval` is the Refresh Interval setting, `left` the time in units of 0.25 µs from the
last microsecond count to the next interval expiry (R139, R140, entry 22), `nextSlice` the slice the next refresh takes
(R134). -/
structure Port where
  op : Option PortOp
  position : Requester
  balance : Int
  interval : BitVec 8
  left : Nat
  nextSlice : BitVec 8
  times : PortTimes
  deriving DecidableEq, Repr

/-! ### Command Unit (Chapter 9) -/

/-- The result codes, in the order of Table 11-4. -/
inductive Result where
  | noResult | ok | empty | noSlot | stale | badArgument | refused | notReady
  deriving DecidableEq, Repr

/-- The step CLEAR takes next after its first (R158, R159). -/
inductive ClearStep where
  | second | third | fourth
  deriving DecidableEq, Repr

/-- What the Command Unit is doing: IDLE, or BUSY with a command that awaits its end act, with one that failed a test of
R149, with a PURGE and its boundary (R95), with a PURGE that found no target at its acceptance and awaits its end act
(R156), or with a CLEAR (R157). -/
inductive Phase where
  | idle
  | running
  | failed (result : Result)
  | purging (stream : StreamId) (boundary : BitVec 32)
  | purged
  | clearing (next : ClearStep)
  deriving DecidableEq, Repr

/-- The Command Unit (R147). `code` is what CMD reads, `arg` the argument fixed at acceptance, `argReg` is CMD_ARG,
`taken` the entry image as it stood at acceptance (R153). -/
structure CmdUnit where
  phase : Phase
  code : Word
  arg : Word
  argReg : Word
  result : Result
  collision : Bool
  image : Vector Word 8
  taken : Vector Word 8
  capture : Vector Word 8
  deriving DecidableEq, Repr

/-! ### Timebase, counters and event latches (Chapter 10) -/

/-- The Timebase (R161 to R163). `judging` is the Hold Limit by which the holds are judged at the present millisecond tick,
as it stood at the tick, and 0 when there is none to end (R113, R114, entry 7). -/
structure Timebase where
  count : Micros
  sub : Nat
  hiHold : Word
  judging : Word
  deriving DecidableEq, Repr

/-- The Counter Bank (R164), each group in the order of its capture words (Table 10-1), and the device completion count
(R165). -/
structure Counters where
  lanes : Vector (Vector Word 8) 8
  streams : Vector (Vector Word 8) 32
  device : Vector Word 6
  completions : BitVec 32
  deriving DecidableEq, Repr

/-- EVENT_LATCH and EVENT_ENABLE at the positions of Table 11-10 (the WATERMARK position of `latches` stays 0: the item
is computed, R168), the watermark bits and the enables of the per-stream words, stream s at bit s (R170). -/
structure Events where
  latches : Word
  enables : Word
  watermarks : BitVec 32
  watermarkEnables : BitVec 32
  readyEnables : BitVec 32
  deriving DecidableEq, Repr

/-! ### Host Port (Chapter 11) -/

/-- The Host Port and its bus cycle (Table 0-1): the level of RESET_n, whether a WIN_DATA read is held (R175), and the
word the part drives on D15 to D0, none while the lines are released (R173, entry 20). -/
structure HostPort where
  resetHigh : Bool
  heldRead : Bool
  driven : Option Word
  deriving DecidableEq, Repr

/-! ### The whole part -/

/-- The state of the part. `memory` is the buffer memory, byte by byte; an unlisted byte has not been written since hard
reset and reads as a free value (entry 9). `epoch` is the counter free values are taken at; `pending` the commands that
wait, first in first out. -/
structure State where
  lanes : Vector Lane 8
  routes : Vector RouteEntry 64
  pool : Pool
  streams : Vector Stream 32
  slots : Vector HoldSlot 16
  holdLimit : Word
  view : RecordView
  window : Window
  port : Port
  cmd : CmdUnit
  time : Timebase
  counts : Counters
  events : Events
  host : HostPort
  memory : List Host.Cell
  epoch : Nat
  pending : List Instr
  deriving DecidableEq, Repr

/-! ### Values after reset -/

/-- R19: the lane configuration entry after hard reset. -/
def LaneEntry.reset : LaneEntry := ⟨false, 2, 1, false, .discard, 0⟩

/-- R19: the receiver after hard reset. The time of the last edge is entry 12's. -/
def Receiver.reset : Receiver := ⟨.disabled, .awaitHeader, 0, 0, 0, [], false, 0⟩

/-- R42: the reception unit after hard reset. -/
def Reception.reset : Reception := ⟨[], Vector.replicate 4 .free, [], none, 0, 0, 0, 0xFFFF, []⟩

/-- R19, R42. -/
def Lane.reset : Lane := ⟨LaneEntry.reset, Receiver.reset, Reception.reset⟩

/-- R57. -/
def RouteEntry.reset : RouteEntry := ⟨false, some 0, 0, 0, .discard, 0, false, 0, false, 0⟩

/-- What an unlisted descriptor is: FREE, every other field 0 or absent (entry 12). -/
def Desc.blank : Desc :=
  ⟨.free, 0, 0, 0, 0, 0, none, 0, none, 0, 0, none, false, false, false, false, false, none, 0⟩

/-- R69, R76: the pool after hard reset, its build begun at Timebase 0 (R71, R161). Links and descriptors: entry 12. -/
def Pool.reset : Pool := ⟨false, 0, [], [], [], [], 0⟩

/-- R98. -/
def Stream.reset : Stream := ⟨⟨false, 0, .refuseNewest, 0, 0⟩, [], 0, 0, 0, []⟩

/-- R118. -/
def HoldSlot.reset : HoldSlot := ⟨0, none⟩

/-- R118: zero in every item. -/
def RecordView.reset : RecordView :=
  ⟨0, false, 0, 0, 0, 0, 0, false, false, false, false, false, 0, 0, 0, 0⟩

/-- R132. -/
def Window.reset : Window := ⟨0, 0, 0, .idle, false, none, none⟩

/-- R146, R137, R139. The next slice and the times are entry 12's. -/
def Port.reset : Port := ⟨none, 8, 0, Config.resetInterval, Config.resetInterval.toNat, 0, ⟨0, 0⟩⟩

/-- Chapter 9, after R160. The current argument and the taken image are entry 12's. -/
def CmdUnit.reset : CmdUnit :=
  ⟨.idle, 0, 0, 0, .noResult, false, Vector.replicate 8 0, Vector.replicate 8 0, Vector.replicate 8 0⟩

/-- R172. -/
def Timebase.reset : Timebase := ⟨0, 0, 0, 0⟩

/-- R172. -/
def Counters.reset : Counters :=
  ⟨Vector.replicate 8 (Vector.replicate 8 0), Vector.replicate 32 (Vector.replicate 8 0), Vector.replicate 6 0, 0⟩

/-- R172. -/
def Events.reset : Events := ⟨0, 0, 0, 0, 0⟩

/-- The Host Port once RESET_n has returned high (R176, entry 3). -/
def HostPort.reset : HostPort := ⟨true, false, none⟩

/-- The part right after reset: hard reset values, RESET_n just returned high, "before any other event" (section 11.4;
entry 3). -/
def State.reset : State where
  lanes := Vector.replicate 8 Lane.reset
  routes := Vector.replicate 64 RouteEntry.reset
  pool := Pool.reset
  streams := Vector.replicate 32 Stream.reset
  slots := Vector.replicate 16 HoldSlot.reset
  holdLimit := 0
  view := RecordView.reset
  window := Window.reset
  port := Port.reset
  cmd := CmdUnit.reset
  time := Timebase.reset
  counts := Counters.reset
  events := Events.reset
  host := HostPort.reset
  memory := []
  epoch := 0
  pending := []

/-! ### How a step can stop -/

/-- No act of the manual stops the part (entry 4): there is no fault. -/
inductive Fault where
  deriving DecidableEq, Repr

/-- Why a command is refused. -/
inductive Refusal where
  /-- Raised by exec's arm of a row that has no meaning yet. Safe: the run stops. -/
  | notModelled (mnemonic : String)
  /-- Raised by one of the part's own acts (never by a pin event or a bus access) when its rule does not let it happen in
  this state: the act is not taken by the part there, and the manual gives it no effect. Safe: the run stops. -/
  | notEnabled (mnemonic : String)
  deriving DecidableEq, Repr

end Sys2Proof.Machine
end

