-- ==== Sys2Proof/Machine/Flags.lean ====
section
/-! DEFINITION. The accounts of the part: counters, event latches, the computed Ready, WATERMARK and INT_n, and the status
words and view words the host reads (Chapters 10 and 11). -/

namespace Sys2Proof.Machine

/-! ### Counters (R164) -/

/-- A lane's counters in the order of their capture words (Table 10-1). -/
inductive LaneCounter where
  | recordsStored | headersMissed | recordsDamaged | runts | recordsRefused | stagingOverruns | syncLosses | recordsCut
  deriving DecidableEq, Repr

/-- The capture word of a lane counter (Table 10-1). -/
def LaneCounter.index : LaneCounter → Fin 8
  | .recordsStored => 0
  | .headersMissed => 1
  | .recordsDamaged => 2
  | .runts => 3
  | .recordsRefused => 4
  | .stagingOverruns => 5
  | .syncLosses => 6
  | .recordsCut => 7

/-- A stream's counters in the order of their capture words (Table 10-1). -/
inductive StreamCounter where
  | recordsQueued | recordsDelivered | recordsEvicted | recordsAgedOut | recordsPurged | recordsRefused | gapEvents
  | sequenceErrors
  deriving DecidableEq, Repr

/-- The capture word of a stream counter (Table 10-1). -/
def StreamCounter.index : StreamCounter → Fin 8
  | .recordsQueued => 0
  | .recordsDelivered => 1
  | .recordsEvicted => 2
  | .recordsAgedOut => 3
  | .recordsPurged => 4
  | .recordsRefused => 5
  | .gapEvents => 6
  | .sequenceErrors => 7

/-- The device counters in the order of their capture words (Table 10-1). -/
inductive DeviceCounter where
  | holdExpiries | refreshLate | windowErrors | commandCollisions | configErrors | poolLowEvents
  deriving DecidableEq, Repr

/-- The capture word of a device counter (Table 10-1). -/
def DeviceCounter.index : DeviceCounter → Fin 6
  | .holdExpiries => 0
  | .refreshLate => 1
  | .windowErrors => 2
  | .commandCollisions => 3
  | .configErrors => 4
  | .poolLowEvents => 5

/-- One more on a saturating counter: "an increment of a counter at FFFFh leaves it at FFFFh" (R164). -/
def bump (c : Word) : Word := if c = 0xFFFF then c else c + 1

/-- A lane counter's value. -/
def State.laneCount (s : State) (l : LaneId) (k : LaneCounter) : Word := (s.counts.lanes[l.val])[k.index.val]

/-- A stream counter's value. -/
def State.streamCount (s : State) (t : StreamId) (k : StreamCounter) : Word := (s.counts.streams[t.val])[k.index.val]

/-- A device counter's value. -/
def State.deviceCount (s : State) (k : DeviceCounter) : Word := s.counts.device[k.index.val]

/-- Raise a lane counter by 1 (R164). -/
def State.bumpLane (s : State) (l : LaneId) (k : LaneCounter) : State :=
  { s with counts := { s.counts with
      lanes := s.counts.lanes.set l.val ((s.counts.lanes[l.val]).set k.index.val (bump (s.laneCount l k))) } }

/-- Raise a stream counter by 1 (R164). -/
def State.bumpStream (s : State) (t : StreamId) (k : StreamCounter) : State :=
  { s with counts := { s.counts with
      streams := s.counts.streams.set t.val ((s.counts.streams[t.val]).set k.index.val (bump (s.streamCount t k))) } }

/-- Raise a device counter by 1 (R164). -/
def State.bumpDevice (s : State) (k : DeviceCounter) : State :=
  { s with counts := { s.counts with device := s.counts.device.set k.index.val (bump (s.deviceCount k)) } }

/-! ### Event latches (R167) -/

/-- The nine event latches (R167). WATERMARK is not one of them (R168). -/
inductive Event where
  | laneSync | laneSilent | recordDrop | poolLow | refreshLate | holdExpired | commandDone | windowError | configError
  deriving DecidableEq, Repr

/-- The position of a latch in EVENT_LATCH (Table 11-10). -/
def Event.position : Event → Nat
  | .laneSync => 0
  | .laneSilent => 1
  | .recordDrop => 2
  | .poolLow => 4
  | .refreshLate => 5
  | .holdExpired => 6
  | .commandDone => 7
  | .windowError => 8
  | .configError => 9

/-- The position of the WATERMARK item (Table 11-10). -/
def watermarkPosition : Nat := 3

/-- The ten positions of EVENT_LATCH and EVENT_ENABLE: bits 15 to 10 read 0 (Table 11-10). -/
def eventPositions : Word := 0x03FF

/-- Set an event latch (R167). -/
def State.latch (s : State) (e : Event) : State :=
  { s with events := { s.events with latches := s.events.latches ||| ((1 : Word) <<< e.position) } }

/-- A latch reads 1. -/
def State.latched (s : State) (e : Event) : Bool := s.events.latches.getLsbD e.position

/-! ### Computed items: Ready, WATERMARK, INT_n -/

/-- A stream's Ready bit: "1 while the stream's queue holds at least one record" (R83). -/
def State.readyBit (s : State) (t : StreamId) : Bool := !(s.streams[t.val]).queue.isEmpty

/-- The 32 Ready bits, stream t at bit t (R83, R170). -/
def State.readyBits (s : State) : BitVec 32 :=
  (List.finRange 32).foldl (fun w t => if s.readyBit t then w ||| ((1 : BitVec 32) <<< t.val) else w) 0

/-- The WATERMARK item: some stream has its watermark bit and its enable set (R168). -/
def State.watermarkItem (s : State) : Bool := s.events.watermarks &&& s.events.watermarkEnables != 0

/-- What a read of EVENT_LATCH returns: the latches with the WATERMARK item in its place (R167, R168). -/
def State.eventLatchWord (s : State) : Word :=
  s.events.latches ||| (if s.watermarkItem then (1 : Word) <<< watermarkPosition else 0)

/-- INT_n is driven low (R171): an enabled latch or the enabled WATERMARK item is 1, or an enabled Ready bit is 1; while
RESET_n is low it is high (R176). -/
def State.intLow (s : State) : Bool :=
  s.host.resetHigh &&
    (s.eventLatchWord &&& s.events.enables != 0 ||
      (List.finRange 32).any fun t => s.readyBit t && s.events.readyEnables.getLsbD t.val)

/-- RDY is high except while a WIN_DATA read is held (R175). -/
def State.rdyHigh (s : State) : Bool := !s.host.heldRead

/-- The number of HELD slots (R102). -/
def State.heldSlots (s : State) : Nat := s.slots.toList.countP fun h => h.held.isSome

/-! ### Packing of words (Chapter 11) -/

/-- A single-bit item at a bit of a word. -/
def bitAt (b : Bool) (n : Nat) : Word := if b then (1 : Word) <<< n else 0

/-- A numeric item at the bits of a word that begin at n. -/
def itemAt (v : Nat) (n : Nat) : Word := BitVec.ofNat 16 v <<< n

/-- The low or high half of a 32-bit value. -/
def halfOf (w : BitVec 32) : Half → Word
  | .lo => w.extractLsb' 0 16
  | .hi => w.extractLsb' 16 16

/-- A 32-bit value with one half replaced. -/
def withHalf (w : BitVec 32) (h : Half) (v : Word) : BitVec 32 :=
  match h with
  | .lo => w.extractLsb' 16 16 ++ v
  | .hi => v ++ w.extractLsb' 0 16

/-- The codes of Table 11-9. -/
def Delineation.code : Delineation → Nat
  | .disabled => 0
  | .hunt => 1
  | .provisional => 2
  | .locked => 3

/-- The codes of Table 11-9. -/
def SubState.code : SubState → Nat
  | .awaitHeader => 0
  | .body => 1
  | .trailer => 2
  | .skip => 3

/-- The codes of Table 11-9. -/
def WindowMode.code : WindowMode → Nat
  | .idle => 0
  | .fetching => 1
  | .ready => 2
  | .stale => 3

/-- The codes of Table 11-4. -/
def Result.code : Result → Nat
  | .noResult => 0
  | .ok => 1
  | .empty => 2
  | .noSlot => 3
  | .stale => 4
  | .badArgument => 5
  | .refused => 6
  | .notReady => 7

/-- LANE_STATUSn (R18, Table 11-9): "While the lane is not LOCKED, the sub-state field reads as AWAIT_HEADER." -/
def State.laneStatus (s : State) (l : LaneId) : Word :=
  let rx := (s.lanes[l.val]).rx
  itemAt rx.delin.code 0 ||| itemAt (if rx.delin = .locked then rx.sub.code else 0) 4 ||| bitAt rx.silent 8
    ||| itemAt (rx.missCount % 8) 12

/-- Any lane is LOCKED (R11, R179). -/
def State.anyLocked (s : State) : Bool := s.lanes.toList.any fun l => l.rx.delin == .locked

/-- The Command Unit is BUSY (R147). -/
def State.busy (s : State) : Bool := s.cmd.phase != .idle

/-- DEV_STATUS (R179, Table 11-9). -/
def State.devStatus (s : State) : Word := bitAt s.pool.ready 0 ||| bitAt s.busy 1 ||| bitAt s.anyLocked 2

/-- CMD_STATUS (R147, Table 11-4). -/
def State.cmdStatus (s : State) : Word :=
  bitAt s.busy 15 ||| bitAt s.cmd.collision 14 ||| itemAt s.cmd.result.code 0

/-- WIN_STATUS (R133, Table 11-9). -/
def State.winStatus (s : State) : Word := itemAt s.window.mode.code 0 ||| bitAt s.window.pastEnd 4

/-- The eight view words (Table 11-8). -/
def RecordView.words (v : RecordView) : Vector Word 8 :=
  #v[bitAt v.held 15 ||| itemAt v.deliveryCount.toNat 8 ||| itemAt v.handle.toNat 0,
     itemAt v.lane.val 13 ||| itemAt v.stream.val 8 ||| itemAt v.tag.toNat 0,
     itemAt v.kind.toNat 12 ||| itemAt v.length.toNat 0,
     v.sequence,
     halfOf v.arrival .lo,
     halfOf v.arrival .hi,
     v.gapSize &&& 0x7FFF,
     bitAt v.suspect 4 ||| bitAt v.unchecked 3 ||| bitAt v.outOfOrder 2 ||| bitAt v.gapBefore 1 ||| bitAt v.damaged 0]

end Sys2Proof.Machine
end

