-- ==== Sys2Proof/Machine/Operands.lean ====
section
/-! DEFINITION. How the commands' operands are read: frame headers and their checks from lane bits (Chapter 1), handles
(R101), command codes and arguments (Chapter 9, Table 11-3) and the entry images (Tables 11-5 to 11-7). -/

namespace Sys2Proof.Machine

/-! ### Frames (R2 to R6) -/

/-- One step of the Header Check register (R3). -/
def headerCheckStep (r : Byte) : Byte := if r.msb then (r <<< 1) ^^^ 0x07 else r <<< 1

/-- One byte into the Header Check register: combined by exclusive-OR, then eight steps (R3). -/
def headerCheckByte (r b : Byte) : Byte := Nat.repeat headerCheckStep 8 (r ^^^ b)

/-- The Header Check over the first three bytes of a header (R3). -/
def headerCheck (b0 b1 b2 : Byte) : Byte := headerCheckByte (headerCheckByte (headerCheckByte 0 b0) b1) b2

/-- One step of the Record Check register (R6). -/
def recordCheckStep (r : Word) : Word := if r.msb then (r <<< 1) ^^^ 0x1021 else r <<< 1

/-- One body byte into the Record Check register: into the high eight bits, then eight steps (R6). -/
def recordCheckByte (r : Word) (b : Byte) : Word := Nat.repeat recordCheckStep 8 (r ^^^ (b.setWidth 16 <<< 8))

/-- A byte from its bits, most significant first (R1). -/
def byteOfBits (bits : List Bool) : Byte := bits.foldl (fun acc b => (acc <<< 1) ||| (if b then 1 else 0)) 0

/-- A frame header as the receiver reads it (R2). -/
structure Header where
  length : BitVec 12
  kind : BitVec 4
  tag : Byte
  passes : Bool
  deriving DecidableEq, Repr

/-- A header from its four bytes (R2, Table 1-1). -/
def headerOfBytes (b0 b1 b2 b3 : Byte) : Header where
  length := b0 ++ b1.extractLsb' 4 4
  kind := b1.extractLsb' 0 4
  tag := b2
  passes := headerCheck b0 b1 b2 == b3

/-- A header from 32 bits in lane order (R1, R2, R8). -/
def headerOfBits (bits : List Bool) : Header :=
  headerOfBytes (byteOfBits (bits.take 8)) (byteOfBits ((bits.drop 8).take 8)) (byteOfBits ((bits.drop 16).take 8))
    (byteOfBits ((bits.drop 24).take 8))

/-- The bytes of a frame that follow its header (R4, Table 1-2). -/
def frameBytes (length : BitVec 12) : Nat :=
  if length = 0 then 0 else if length = 1 then 3 else length.toNat + 2

/-- The cells a record of this Length occupies: Length divided by 64, rounded up (R25). -/
def cellsFor (length : BitVec 12) : Nat := (length.toNat + 63) / 64

/-- Two bytes as a word, the first as the high half (R5, R6, R126). -/
def wordOf (hi lo : Byte) : Word := hi ++ lo

/-! ### Handles (R101) -/

/-- The slot a handle names: its low four bits (R101). -/
def handleSlot (h : Byte) : SlotId := ⟨(h.extractLsb' 0 4).toNat, (h.extractLsb' 0 4).isLt⟩

/-- The generation a handle names: its high four bits (R101). -/
def handleGeneration (h : Byte) : BitVec 4 := h.extractLsb' 4 4

/-- The handle of a slot at a generation (R101). -/
def handleOf (generation : BitVec 4) (slot : SlotId) : Byte := generation ++ BitVec.ofNat 4 slot.val

/-! ### Command codes and arguments (R149, Tables 9-2 and 11-3) -/

/-- The nine commands (Table 11-3). -/
inductive Command where
  | take | peek | release | returnRecord | purge | clear | capture | tableRead | tableWrite
  deriving DecidableEq, Repr

/-- The command a word written to CMD names; none for a word that is none of the nine codes (R149, Table 11-3). -/
def commandOf (code : Word) : Option Command :=
  match code.toNat with
  | 1 => some .take
  | 2 => some .peek
  | 3 => some .release
  | 4 => some .returnRecord
  | 5 => some .purge
  | 6 => some .clear
  | 7 => some .capture
  | 8 => some .tableRead
  | 9 => some .tableWrite
  | _ => none

/-- The low byte of an argument. -/
def argLow (arg : Word) : Byte := arg.extractLsb' 0 8

/-- The high byte of an argument. -/
def argHigh (arg : Word) : Byte := arg.extractLsb' 8 8

/-- The stream an argument's low byte names, where it names one (Table 9-2). -/
def argStream (arg : Word) : Option StreamId :=
  if h : (argLow arg).toNat < 32 then some ⟨(argLow arg).toNat, h⟩ else none

/-- What a table argument names: table in the high byte, index in the low byte (Table 9-2). -/
inductive TableEntry where
  | route (i : RouteId)
  | stream (i : StreamId)
  | lane (i : LaneId)
  deriving DecidableEq, Repr

/-- The table entry an argument names, where it is in range (Table 9-2). -/
def argTable (arg : Word) : Option TableEntry :=
  let i := (argLow arg).toNat
  match (argHigh arg).toNat with
  | 0 => if h : i < 64 then some (.route ⟨i, h⟩) else none
  | 1 => if h : i < 32 then some (.stream ⟨i, h⟩) else none
  | 2 => if h : i < 8 then some (.lane ⟨i, h⟩) else none
  | _ => none

/-- A counter group (R154). -/
inductive CounterGroup where
  | lane (l : LaneId)
  | stream (t : StreamId)
  | device
  deriving DecidableEq, Repr

/-- The counter group an argument's low byte names: 0 to 7 lanes, 8 to 39 streams, 40 the device (R154). -/
def argGroup (arg : Word) : Option CounterGroup :=
  let g := (argLow arg).toNat
  if h : g < 8 then some (.lane ⟨g, h⟩)
  else if h : g - 8 < 32 then some (.stream ⟨g - 8, h⟩)
  else if g = 40 then some .device
  else none

/-- The argument is in the range Table 9-2 gives the command. -/
def argLegal (c : Command) (arg : Word) : Bool :=
  match c with
  | .take | .peek | .purge => (argStream arg).isSome
  | .release | .returnRecord | .clear => true
  | .capture => (argGroup arg).isSome
  | .tableRead | .tableWrite => (argTable arg).isSome

/-- The commands that need the pool READY (R149, third test). -/
def needsReady (c : Command) : Bool :=
  match c with
  | .take | .peek | .release | .returnRecord | .purge | .clear => true
  | .capture | .tableRead | .tableWrite => false

/-! ### Entry images (R180, Tables 11-5 to 11-7) -/

/-- Bits n to n+w-1 of a word, as a number. -/
def fieldOf (v : Word) (n w : Nat) : Nat := (v.extractLsb' n w).toNat

/-- A single-bit field that names an Action: 0 Discard, 1 Store (Tables 11-5 and 11-7). -/
def actionOf (b : Bool) : Action := if b then .store else .discard

/-- A stream number from five bits. -/
def streamOfWord (v : Word) : StreamId := ⟨fieldOf v 0 5, (v.extractLsb' 0 5).isLt⟩

/-- Lane Match from its code: 0 to 7 a lane, 8 Any, 9 to 15 no value (Table 11-5). The outer option is none for a code
that names no value. -/
def laneMatchOf (code : Nat) : Option (Option LaneId) :=
  if h : code < 8 then some (some ⟨code, h⟩) else if code = 8 then some none else none

/-- The route entry a legal image commits (R48, R49, Table 11-5), on an entry whose Edition was `edition`; none when the
image is refused: a code that names no value, or Sequence Check with Lane Match Any or a mask other than FFh. -/
def routeOfImage (img : Vector Word 8) (edition : Byte) : Option RouteEntry :=
  match laneMatchOf (fieldOf img[0] 8 4) with
  | none => none
  | some m =>
    let mask := img[1].extractLsb' 0 8
    let check := img[0].getLsbD 13
    if check && (m.isNone || mask != 0xFF) then none
    else some {
      valid := img[0].getLsbD 15
      laneMatch := m
      tag := img[1].extractLsb' 8 8
      tagMask := mask
      action := actionOf (img[0].getLsbD 14)
      stream := streamOfWord img[0]
      seqCheck := check
      expected := 0
      expectedKnown := false
      edition := edition + 1 }

/-- The stream entry of an image whose codes all name values (R88 first case, Table 11-6). -/
def streamOfImage (img : Vector Word 8) : Option StreamEntry :=
  if img[1].toNat ≤ 16384 ∧ img[2].toNat ≤ 16384 then
    some {
      enable := img[0].getLsbD 15
      quota := img[1].toNat
      policy := if img[0].getLsbD 14 then .evictOldest else .refuseNewest
      watermark := img[2].toNat
      ageLimit := img[3].toNat }
  else none

/-- The lane entry of an image; none for Confirm Count 0 (R17, Table 11-7). -/
def laneOfImage (img : Vector Word 8) : Option LaneEntry :=
  if img[0].extractLsb' 12 2 = 0 then none
  else some {
    enable := img[0].getLsbD 15
    confirmCount := img[0].extractLsb' 12 2
    missTolerance := img[0].extractLsb' 8 2
    keepDamaged := img[0].getLsbD 7
    defaultAction := actionOf (img[0].getLsbD 6)
    defaultStream := streamOfWord img[0] }

end Sys2Proof.Machine
end

