-- ==== Sys2Proof/Machine/Ops.lean ====
section
/-! DEFINITION. The named operations over the state that several commands share: sparse tables and memory, accessors, the
Cell Pool's books, the queues, the hold slots, the Data Window's invalidation and the end act of a command. -/

namespace Sys2Proof.Machine

/-! ### Sparse tables -/

/-- The entry a key has in a table. -/
def Tab.look {β : Type} : Tab β → Nat → Option β
  | [], _ => none
  | (k, v) :: t, i => if i = k then some v else Tab.look t i

/-- Set a key's entry, keeping the keys in rising order. -/
def Tab.put {β : Type} : Tab β → Nat → β → Tab β
  | [], i, x => [(i, x)]
  | (k, v) :: t, i, x => if i < k then (i, x) :: (k, v) :: t else if i = k then (i, x) :: t else (k, v) :: Tab.put t i x

/-- Remove a key's entry. -/
def Tab.erase {β : Type} (t : Tab β) (i : Nat) : Tab β := t.filter fun e => e.1 != i

/-- The value of a key, `d` where it is not listed. -/
def Tab.get {β : Type} (d : β) (t : Tab β) (i : Nat) : β := (Tab.look t i).getD d

/-- Set a key's value; a value equal to `d` is not listed. -/
def Tab.set {β : Type} [DecidableEq β] (d : β) (t : Tab β) (i : Nat) (x : β) : Tab β :=
  if x = d then Tab.erase t i else Tab.put t i x

/-- Apply a function to every listed value; a result equal to `d` is not listed. -/
def Tab.mapValues {β : Type} [DecidableEq β] (d : β) (f : β → β) : Tab β → Tab β
  | [] => []
  | (k, v) :: t => Tab.set d (Tab.mapValues d f t) k (f v)

/-- The keys are strictly rising. -/
def Tab.rising {β : Type} : Tab β → Bool
  | [] => true
  | [_] => true
  | (a, _) :: (b, v) :: t => decide (a < b) && Tab.rising ((b, v) :: t)

/-- The canonical form of a table with default `d`: keys strictly rising, no entry equal to the default. -/
def Tab.wf {β : Type} [DecidableEq β] (d : β) (t : Tab β) : Bool := Tab.rising t && t.all fun e => e.2 != d

/-! ### Buffer memory (R59) -/

/-- The canonical form of the buffer memory: addresses strictly rising and below 1 MiB. An unlisted byte reads as a free
value, so no entry can be equal to it (entry 9). -/
def Memory.wf (m : List Host.Cell) : Bool := Tab.rising m && m.all fun e => decide (e.1 < Config.cellCount * Config.cellBytes)

/-- Write bytes from an address on. -/
def Memory.write (m : List Host.Cell) (base : Nat) : List Byte → List Host.Cell
  | [] => m
  | b :: bs => Memory.write (Tab.put m base b) (base + 1) bs

/-- The byte of the buffer memory at an address: what was last written there, or a free value (R59, entry 9). -/
def State.byteAt (s : State) (a : Nat) : Byte :=
  match Tab.look s.memory a with
  | some b => b
  | none => Config.undefinedByte s.epoch a

/-- The address of the first byte of a cell: "Cell k holds the 64 bytes of buffer memory that begin at byte k × 64"
(R59). -/
def cellBase (c : CellId) : Nat := c.val * Config.cellBytes

/-- What a cell read returns (R134); for a Suspect record the bytes are not guaranteed (R143, entry 10). -/
def State.readCell (s : State) (c : CellId) (suspect : Bool) : List Byte :=
  (List.range Config.cellBytes).map fun i =>
    let b := s.byteAt (cellBase c + i)
    if suspect then Config.suspectByte s.epoch (cellBase c + i) b else b

/-! ### Accessors -/

/-- A lane. -/
def State.lane (s : State) (l : LaneId) : Lane := s.lanes[l.val]

/-- Replace a lane. -/
def State.setLane (s : State) (l : LaneId) (x : Lane) : State := { s with lanes := s.lanes.set l.val x }

/-- Replace a lane's receiver. -/
def State.setRx (s : State) (l : LaneId) (rx : Receiver) : State := s.setLane l { s.lane l with rx := rx }

/-- Replace a lane's reception unit. -/
def State.setUnit (s : State) (l : LaneId) (u : Reception) : State := s.setLane l { s.lane l with unit := u }

/-- A route entry. -/
def State.route (s : State) (i : RouteId) : RouteEntry := s.routes[i.val]

/-- Replace a route entry. -/
def State.setRoute (s : State) (i : RouteId) (e : RouteEntry) : State := { s with routes := s.routes.set i.val e }

/-- A stream. -/
def State.stream (s : State) (t : StreamId) : Stream := s.streams[t.val]

/-- Replace a stream. -/
def State.setStream (s : State) (t : StreamId) (x : Stream) : State := { s with streams := s.streams.set t.val x }

/-- A hold slot. -/
def State.slot (s : State) (i : SlotId) : HoldSlot := s.slots[i.val]

/-- Replace a hold slot. -/
def State.setSlot (s : State) (i : SlotId) (h : HoldSlot) : State := { s with slots := s.slots.set i.val h }

/-- A descriptor. -/
def State.desc (s : State) (d : DescId) : Desc := Tab.get Desc.blank s.pool.descs d.val

/-- Replace a descriptor. -/
def State.setDesc (s : State) (d : DescId) (x : Desc) : State :=
  { s with pool := { s.pool with descs := Tab.set Desc.blank s.pool.descs d.val x } }

/-- Replace the operation in flight at the port. -/
def State.setOp (s : State) (op : Option PortOp) : State := { s with port := { s.port with op := op } }

/-- Replace the round-robin position (R137). -/
def State.setPosition (s : State) (r : Requester) : State := { s with port := { s.port with position := r } }

/-- Fill the Record View (R110). -/
def State.setView (s : State) (v : RecordView) : State := { s with view := v }

/-- Replace what the Command Unit is doing. -/
def State.setPhase (s : State) (p : Phase) : State := { s with cmd := { s.cmd with phase := p } }

/-- Now, as the other blocks read it (R161). -/
def State.now (s : State) : Micros := s.time.count

/-- The time since a stamp, modulo 2^32 µs (R92, R114). -/
def State.since (s : State) (t : Micros) : Nat := (s.time.count - t).toNat

/-! ### Cell chains (R60, R61) -/

/-- The link of a cell; none is End. -/
def linkOf (links : Tab (Option CellId)) (c : CellId) : Option CellId := Tab.get none links c.val

/-- The cells of a chain from a cell on, at most n of them, up to the cell whose link is End (R61). -/
def chainFrom (links : Tab (Option CellId)) : Nat → CellId → List CellId
  | 0, _ => []
  | n + 1, c =>
    c :: match linkOf links c with
      | none => []
      | some c' => chainFrom links n c'

/-- The chain of a descriptor, from its First Cell (R60). -/
def State.chain (s : State) (d : DescId) : List CellId :=
  chainFrom s.pool.links (s.desc d).cellCount (s.desc d).firstCell

/-- Follow p links from a cell (R60). Past the end of the chain, where no run leads and R60 gives no cell, it stays at the
last cell: the model's choice (entry 16). -/
def walkLinks (links : Tab (Option CellId)) : Nat → CellId → CellId
  | 0, c => c
  | n + 1, c =>
    match linkOf links c with
    | none => c
    | some c' => walkLinks links n c'

/-- The chain lookup: the cell at chain position p of a descriptor, p below its Cell Count (R60); for another p see `walkLinks`
(entry 16). -/
def State.chainCellAt (s : State) (d : DescId) (p : Nat) : CellId := walkLinks s.pool.links p (s.desc d).firstCell

/-- Link cells in order, the last to End (R28, R60). -/
def linkChain (links : Tab (Option CellId)) : List CellId → Tab (Option CellId)
  | [] => links
  | [c] => Tab.set none links c.val none
  | c :: c' :: cs => linkChain (Tab.set none links c.val (some c')) (c' :: cs)

/-- Set the links of cells to End (R60). -/
def endLinks (links : Tab (Option CellId)) (cs : List CellId) : Tab (Option CellId) :=
  cs.foldl (fun t c => Tab.set none t c.val none) links

/-! ### Giving back (R61, R64, R67) -/

/-- Cells join the tail of the free cell list in order, their links set to End (R60, R61). -/
def State.returnCells (s : State) (cs : List CellId) : State :=
  { s with pool := { s.pool with freeCells := s.pool.freeCells ++ cs, links := endLinks s.pool.links cs } }

/-- A descriptor becomes FREE and joins the tail of the free descriptor list; its other fields keep their values (R62,
R64). -/
def State.returnDesc (s : State) (d : DescId) : State :=
  let s' := s.setDesc d { s.desc d with state := .free }
  { s' with pool := { s'.pool with freeDescs := s'.pool.freeDescs ++ [d] } }

/-- A stream's charge falls (Table 5-2). -/
def State.lowerCharge (s : State) (t : StreamId) (n : Nat) : State :=
  s.setStream t { s.stream t with charge := (s.stream t).charge - n }

/-- A stored record is freed: its chain, its descriptor and its charge (R67). The caller takes it out of its queue or
slot. -/
def State.freeRecord (s : State) (d : DescId) : State :=
  ((s.returnCells (s.chain d)).returnDesc d).lowerCharge (s.desc d).stream (s.desc d).cellCount

/-- A record leaves its stream's queue (R80). -/
def State.dequeue (s : State) (t : StreamId) (d : DescId) : State :=
  s.setStream t { s.stream t with queue := (s.stream t).queue.erase d }

/-! ### Queue order (R80, R82) -/

/-- A record's age in completions, modulo 2^32 (R80). -/
def State.age (s : State) (d : DescId) : Nat :=
  (s.counts.completions - ((s.desc d).completion.getD 0)).toNat

/-- Put a record at its place in completion order: behind every record of greater age, ahead of the others (R82): ahead of the
first record that is not of greater age. Two points of that are the model's choice (entry 21): R80 orders by greater age
alone, and the record goes ahead of a queued one of equal age; and in a queue whose ages no longer fall from head to tail,
since a queued record's age has wrapped past 2^32, no place is behind every greater and ahead of every lesser age, and the
record still goes ahead of the first record that is not of greater age. -/
def insertByAge (ageOf : DescId → Nat) (d : DescId) : List DescId → List DescId
  | [] => [d]
  | x :: xs => if ageOf d < ageOf x then x :: insertByAge ageOf d xs else d :: x :: xs

/-- What is left of a tick's findings when a record joins the queue: the tick has not examined it there (R94). -/
def Stream.unexamined (x : Stream) (d : DescId) : List DescId := x.expired.filter fun e => e != d

/-- A held record goes back into its stream's queue, which loses one from its held count (R82, R108). -/
def State.requeue (s : State) (d : DescId) : State :=
  let t := (s.desc d).stream
  let s' := s.setDesc d { s.desc d with state := .queued }
  s'.setStream t { s'.stream t with
    queue := insertByAge s.age d (s'.stream t).queue
    expired := (s'.stream t).unexamined d
    heldCount := (s'.stream t).heldCount - 1 }

/-! ### Data Window (R129, R130) -/

/-- The port's read in flight is given the discard mark (R123, R130). -/
def discardRead : Option PortOp → Option PortOp
  | some (.read c p d _) => some (.read c p d true)
  | op => op

/-- A WIN_DATA read is answered with no holding: 0000h, WINDOW_ERROR and Window Errors (R129). -/
def State.answerError (s : State) : State :=
  let s' := (s.latch .windowError).bumpDevice .windowErrors
  { s' with host := { s'.host with driven := some 0, heldRead := false } }

/-- The window enters STALE: buffer emptied, request withdrawn, read in flight marked, and a held read answered by R129
(R130). -/
def State.staleWindow (s : State) : State :=
  let s' := { s with
    window := { s.window with mode := .stale, buffer := none, request := none }
    port := { s.port with op := discardRead s.port.op } }
  if s.host.heldRead then s'.answerError else s'

/-- The holding the window is pointed at: the slot named by the pointed handle (R121). -/
def State.pointedHolding (s : State) : Option Holding := (s.slot (handleSlot s.window.pointed)).held

/-! ### Hold slots (R100, R101) -/

/-- A handle is current: its slot is HELD and the slot's Generation is the handle's (R101). -/
def State.currentHandle (s : State) (h : Byte) : Option Holding :=
  let x := s.slot (handleSlot h)
  if x.generation = handleGeneration h then x.held else none

/-- The window serves the slot: it is FETCHING or READY and pointed at it (R130). -/
def State.windowServes (s : State) (i : SlotId) : Bool :=
  handleSlot s.window.pointed == i && (s.window.mode == .fetching || s.window.mode == .ready)

/-- A hold slot becomes EMPTY: its Generation rises by 1, from 15 to 0, and a window that serves it becomes STALE (R100,
R107, R108, R114, R130). -/
def State.emptySlot (s : State) (i : SlotId) : State :=
  let s' := s.setSlot i ⟨(s.slot i).generation + 1, none⟩
  if s.windowServes i then s'.staleWindow else s'

/-! ### Command Unit (R150, R95, R96, R156) -/

/-- The end act of a command: result posted, unit IDLE, COMMAND_DONE latched (R150). -/
def State.endCommand (s : State) (r : Result) : State :=
  { s with cmd := { s.cmd with phase := .idle, result := r } }.latch .commandDone

/-- A record is a purge target: its age in completions is greater than the number of completions made since the
acceptance (R95; both modulo 2^32, entry 15). -/
def State.purgeTarget (s : State) (boundary : BitVec 32) (d : DescId) : Bool :=
  decide ((s.counts.completions - boundary).toNat < s.age d)

/-- The purge's stream has a purge target at the head of its queue (R96). -/
def State.purgeHead (s : State) (t : StreamId) (boundary : BitVec 32) : Option DescId :=
  match (s.stream t).queue with
  | [] => none
  | d :: _ => if s.purgeTarget boundary d then some d else none

/-- A running purge ends at the first moment its stream's queue is empty or has a head that is not a target: its end act,
with OK (R96, R156, entry 8). Applied in every act that can take the head from a queue or change what is a target. -/
def State.settlePurge (s : State) : State :=
  match s.cmd.phase with
  | .purging t boundary => if (s.purgeHead t boundary).isNone then s.endCommand .ok else s
  | _ => s

/-- A one-act command `c` has passed its tests and awaits its end act (R150). -/
def State.awaits (s : State) (c : Command) : Bool := s.cmd.phase == .running && commandOf s.cmd.code == some c

/-! ### Acts -/

/-- One of the part's own acts: taken when RESET_n is high and its rule's condition holds, otherwise refused by name
(entry 4). -/
def act (name : String) (s : State) (enabled : Bool) (next : State) : Host.Outcome State Fault Refusal :=
  if s.host.resetHigh && enabled then .next next else .refused (.notEnabled name)

/-- The part releases D15 to D0: CS_n or RD_n has risen (R173). -/
def State.released (s : State) : State := { s with host := { s.host with driven := none } }

/-- A write by the host: the cycle before it is over and its lines are released (R173). It is ignored while RESET_n is low
(R176), and none reaches the part while a WIN_DATA read is held (R127, entry 18). -/
def hostAccess (s : State) (next : State) : Host.Outcome State Fault Refusal :=
  if s.host.heldRead then .next s else if s.host.resetHigh then .next next.released else .next s.released

end Sys2Proof.Machine
end

