-- ==== Sys2Proof/Machine/Delivery.lean ====
section
/-! DEFINITION. The Delivery Unit's commands (Chapter 6): TAKE, PEEK, RELEASE and RETURN, each one act that is the command's
end act (R150). -/

namespace Sys2Proof.Machine

/-- The Record View a descriptor fills (R110, Table 6-2): absent parts read 0 (R111). -/
def viewOf (d : Desc) (handle : Byte) (held : Bool) : RecordView where
  handle := handle
  held := held
  deliveryCount := d.deliveryCount
  stream := d.stream
  lane := d.lane
  tag := d.tag
  kind := d.kind
  damaged := d.damaged
  gapBefore := d.gapBefore
  outOfOrder := d.outOfOrder
  unchecked := d.unchecked
  suspect := d.suspect
  length := d.length
  sequence := d.sequence.getD 0
  arrival := d.arrival
  gapSize := d.gapSize.getD 0

/-- The lowest-numbered EMPTY slot (R104). -/
def State.emptySlotIndex (s : State) : Option SlotId := (List.finRange 16).find? fun i => (s.slot i).held.isNone

/-- A Delivery Count after one more TAKE: it stops at 15 (R112). -/
def raiseDelivery (n : BitVec 4) : BitVec 4 := if n = 15 then n else n + 1

/-- The descriptor after a TAKE (R104). -/
def Desc.taken (d : Desc) : Desc := { d with state := .held, deliveryCount := raiseDelivery d.deliveryCount }

/-- A record at the head of stream t's queue goes into slot i, in one act (R104). -/
def State.hold (s : State) (t : StreamId) (d : DescId) (i : SlotId) : State :=
  let x := (s.desc d).taken
  let s1 := s.setStream t { s.stream t with
    queue := (s.stream t).queue.tail
    heldCount := (s.stream t).heldCount + 1 }
  (((s1.setDesc d x).setSlot i ⟨(s.slot i).generation, some ⟨d, s.now⟩⟩).bumpStream t .recordsDelivered).setView
    (viewOf x (handleOf (s.slot i).generation i) true)

/-- The work and end of a TAKE of stream t (R104, R105). -/
def State.doTake (s : State) (t : StreamId) : State :=
  match (s.stream t).queue with
  | [] => s.endCommand .empty
  | d :: _ =>
    match s.emptySlotIndex with
    | none => s.endCommand .noSlot
    | some i => (s.hold t d i).endCommand .ok

/-- The work and end of a PEEK of stream t (R106). -/
def State.doPeek (s : State) (t : StreamId) : State :=
  match (s.stream t).queue with
  | [] => s.endCommand .empty
  | d :: _ => (s.setView (viewOf (s.desc d) 0 false)).endCommand .ok

/-- A delivery command on the stream its argument names (R103). An accepted one always names one (entry 16). -/
def State.onStream (s : State) (work : StreamId → State) : State :=
  match argStream s.cmd.arg with
  | some t => work t
  | none => s.endCommand .badArgument

/-- TAKE (R104): the end act of an accepted TAKE. -/
def execTake (s : State) : Host.Outcome State Fault Refusal := act "TAKE" s (s.awaits .take) (s.onStream s.doTake)

/-- PEEK (R106): the end act of an accepted PEEK. -/
def execPeek (s : State) : Host.Outcome State Fault Refusal := act "PEEK" s (s.awaits .peek) (s.onStream s.doPeek)

/-- A held record's stream loses one from its held count (R107). -/
def State.lowerHeld (s : State) (t : StreamId) : State :=
  s.setStream t { s.stream t with heldCount := (s.stream t).heldCount - 1 }

/-- The work and end of a RELEASE of handle h (R107, R109). -/
def State.doRelease (s : State) (h : Byte) : State :=
  match s.currentHandle h with
  | none => s.endCommand .stale
  | some x =>
    (((s.freeRecord x.desc).lowerHeld (s.desc x.desc).stream).emptySlot (handleSlot h)).endCommand .ok

/-- RELEASE (R107): the end act of an accepted RELEASE. -/
def execRelease (s : State) : Host.Outcome State Fault Refusal :=
  act "RELEASE" s (s.awaits .release) (s.doRelease (argLow s.cmd.arg))

/-- The work and end of a RETURN of handle h (R108, R109). -/
def State.doReturn (s : State) (h : Byte) : State :=
  match s.currentHandle h with
  | none => s.endCommand .stale
  | some x => ((s.requeue x.desc).emptySlot (handleSlot h)).endCommand .ok

/-- RETURN (R108): the end act of an accepted RETURN. -/
def execReturnRecord (s : State) : Host.Outcome State Fault Refusal :=
  act "RETURN" s (s.awaits .returnRecord) (s.doReturn (argLow s.cmd.arg))

end Sys2Proof.Machine
end

