-- ==== Sys2Proof/Machine/Reception.lean ====
section
/-! DEFINITION. Classification, admission, acceptance, staging, trailer, completion and abort: Chapters 2, 3 and the
admission of Chapter 5, as the acts of the lanes use them. -/

namespace Sys2Proof.Machine

/-! ### The header tests (R21 to R25) -/

/-- The readiness test fails: the pool is INITIALIZING, or a CLEAR has been accepted and has not yet taken the step that
starts the rebuild (R22). -/
def State.notReady (s : State) : Bool := !s.pool.ready || s.cmd.phase == .clearing .second

/-- A route entry matches a header (R44). -/
def RouteEntry.matchesHeader (e : RouteEntry) (l : LaneId) (tag : Byte) : Bool :=
  e.valid && (e.laneMatch.isNone || e.laneMatch == some l) && (e.tag ^^^ tag) &&& e.tagMask == 0

/-- The entry that decides a header: the matching one of lowest index (R45). -/
def State.decidingRoute (s : State) (l : LaneId) (tag : Byte) : Option RouteId :=
  (List.finRange 64).find? fun i => (s.route i).matchesHeader l tag

/-- The outcome of classification: none is Discard, otherwise the stream with the index and Edition of the entry that
decided, absent for the lane default (R23, R45, R46). -/
def State.classify (s : State) (l : LaneId) (tag : Byte) : Option (StreamId × Option (RouteId × Byte)) :=
  match s.decidingRoute l tag with
  | some i =>
    match (s.route i).action with
    | .store => some ((s.route i).stream, some (i, (s.route i).edition))
    | .discard => none
  | none =>
    match (s.lane l).entry.defaultAction with
    | .store => some ((s.lane l).entry.defaultStream, none)
    | .discard => none

/-- The causes of a refusal (Table 2-2). They are stored nowhere (R26). -/
inductive RefusalCause where
  | notReady | routeDiscard | streamDisabled | quota | poolExhausted | noDescriptor
  deriving DecidableEq, Repr

/-- The first condition of R84 that fails for n cells, none when all hold. -/
def State.roomFailure (s : State) (t : StreamId) (n : Nat) : Option RefusalCause :=
  if (s.stream t).entry.quota < (s.stream t).charge + n then some .quota
  else if s.pool.freeCells.length < n then some .poolExhausted
  else if s.pool.freeDescs.length < 1 then some .noDescriptor
  else none

/-- The total Cell Count of a stream's queue (R79, R86). -/
def State.queuedCells (s : State) (t : StreamId) : Nat := ((s.stream t).queue.map fun d => (s.desc d).cellCount).sum

/-- Evicting every queued record would be enough (R86). -/
def State.evictionEnough (s : State) (t : StreamId) (n : Nat) : Bool :=
  let c := s.queuedCells t
  let q := (s.stream t).queue.length
  decide ((s.stream t).charge - c + n ≤ (s.stream t).entry.quota) && decide (n ≤ s.pool.freeCells.length + c)
    && decide (1 ≤ s.pool.freeDescs.length + q)

/-- One eviction: the record leaves the queue and is freed, Records Evicted rises, RECORD_DROP is latched (R86). -/
def State.evict (s : State) (t : StreamId) (d : DescId) : State :=
  (((s.dequeue t d).freeRecord d).bumpStream t .recordsEvicted).latch .recordDrop

/-- Evict head records, oldest first, until the conditions of R84 all hold (R86). -/
def State.evictUntil (s : State) (t : StreamId) (n : Nat) : List DescId → State
  | [] => s
  | d :: ds => if (s.roomFailure t n).isNone then s else State.evictUntil (s.evict t d) t n ds

/-- Admission of a record of n cells (R84 to R86): the state after any evictions, and the cause of a refusal. Where
eviction is enough the conditions hold after it; a state in which they do not is reached by no run (entry 16). -/
def State.admission (s : State) (t : StreamId) (n : Nat) : State × Option RefusalCause :=
  match s.roomFailure t n with
  | none => (s, none)
  | some cause =>
    if (s.stream t).entry.policy = .evictOldest ∧ s.evictionEnough t n = true then
      let s' := (s.evictUntil t n (s.stream t).queue).settlePurge
      (s', s'.roomFailure t n)
    else (s, some cause)

/-! ### Refusal and acceptance (R26 to R28) -/

/-- The lane enters SKIP with Length + 2 bytes to pass (R12, R26). -/
def State.skipRecord (s : State) (l : LaneId) (h : Header) : State :=
  s.setRx l { (s.lane l).rx with sub := .skip, byteCount := h.length.toNat + 2, bits := [] }

/-- A header is refused, with the stream where one was chosen (R26). -/
def State.refuse (s : State) (l : LaneId) (h : Header) (chosen : Option StreamId) : State :=
  let s1 := s.bumpLane l .recordsRefused
  let s2 := match chosen with
    | some t => s1.bumpStream t .recordsRefused
    | none => s1
  (s2.latch .recordDrop).skipRecord l h

/-- The descriptor of an accepted record (Table 2-3). -/
def acceptedDesc (l : LaneId) (h : Header) (t : StreamId) (route : Option (RouteId × Byte)) (arrival : Micros)
    (first : CellId) (n : Nat) : Desc where
  state := .receiving
  stream := t
  lane := l
  tag := h.tag
  kind := h.kind
  length := h.length
  sequence := none
  arrival := arrival
  completion := none
  firstCell := first
  cellCount := n
  route := route
  damaged := false
  gapBefore := false
  outOfOrder := false
  unchecked := false
  suspect := false
  gapSize := none
  deliveryCount := 0

/-- A stream's watermark bit is latched (R91). -/
def State.latchWatermark (s : State) (t : StreamId) : State :=
  { s with events := { s.events with watermarks := s.events.watermarks ||| ((1 : BitVec 32) <<< t.val) } }

/-- The stream's charge rises by n; its watermark bit is latched when the charge rises from below its Watermark to it or
above (R28, R91). -/
def State.raiseCharge (s : State) (t : StreamId) (n : Nat) : State :=
  let x := s.stream t
  let s' := s.setStream t { x with charge := x.charge + n }
  if x.charge < x.entry.watermark ∧ x.entry.watermark ≤ x.charge + n then s'.latchWatermark t else s'

/-- POOL_LOW: the acceptance takes the free cell count from at or above the threshold to below it (R74). -/
def State.notePoolLow (s : State) (before after : Nat) : State :=
  if s.pool.lowThreshold ≤ before ∧ after < s.pool.lowThreshold then
    (s.latch .poolLow).bumpDevice .poolLowEvents
  else s

/-- The pool hands out the head descriptor and the head n cells, linked in the order taken (R27, R28). -/
def State.takeFromPool (s : State) (d : DescId) (n : Nat) (x : Desc) : State :=
  let s' := s.setDesc d x
  { s' with pool := { s'.pool with
      freeDescs := s.pool.freeDescs.tail
      freeCells := s.pool.freeCells.drop n
      links := linkChain s.pool.links (s.pool.freeCells.take n) } }

/-- A header is accepted (R27, R28): descriptor, cells, charge, reception list, and the lane enters BODY (R12). -/
def State.accept (s : State) (l : LaneId) (h : Header) (t : StreamId) (route : Option (RouteId × Byte)) (d : DescId) : State :=
  let n := cellsFor h.length
  let before := s.pool.freeCells.length
  let x := acceptedDesc l h t route s.now (s.pool.freeCells.headD 0) n
  let s1 := ((s.takeFromPool d n x).notePoolLow before (before - n)).raiseCharge t n
  let u := (s1.lane l).unit
  let s2 := s1.setUnit l { u with
    list := u.list ++ [d]
    countdown := h.length.toNat
    chainCell := 0
    chainByte := 0
    check := 0xFFFF
    trailer := [] }
  s2.setRx l { (s2.lane l).rx with sub := .body, byteCount := h.length.toNat, bits := [] }

/-- A passing record header is offered to the reception unit (R21): the four tests in the order of Table 2-2. -/
def State.offer (s : State) (l : LaneId) (h : Header) : State :=
  if s.notReady then s.refuse l h none
  else
    match s.classify l h.tag with
    | none => s.refuse l h none
    | some (t, route) =>
      if (s.stream t).entry.enable then
        let (s', cause) := s.admission t (cellsFor h.length)
        match cause, s'.pool.freeDescs with
        | none, d :: _ => s'.accept l h t route d
        | _, _ => s'.refuse l h (some t)
      else s.refuse l h (some t)

/-! ### Staging (R30 to R33) -/

/-- The lane's RECEIVING record: the last of its reception list, when it is RECEIVING (R29). -/
def State.receiving (s : State) (l : LaneId) : Option DescId :=
  match (s.lane l).unit.list.getLast? with
  | none => none
  | some d => if (s.desc d).state = .receiving then some d else none

/-- The bytes a staging cell holds for a record in one of the three states that name one. -/
def StagingCell.staged : StagingCell → Option Staged
  | .free => none
  | .filling c => some c
  | .pending c => some c
  | .writing c => some c

/-- A staging cell is PENDING or WRITING for this record (R36). -/
def StagingCell.busyFor (d : DescId) : StagingCell → Bool
  | .pending c => c.owner == some d
  | .writing c => c.owner == some d
  | _ => false

/-- A staging cell is FILLING for this record. -/
def StagingCell.fillingFor (d : DescId) : StagingCell → Bool
  | .filling c => c.owner == some d
  | _ => false

/-- A staging cell is FREE. -/
def StagingCell.isFree : StagingCell → Bool
  | .free => true
  | _ => false

/-- A staging cell is WRITING. -/
def StagingCell.isWriting : StagingCell → Bool
  | .writing _ => true
  | _ => false

/-- A staging cell is PENDING. -/
def StagingCell.isPending : StagingCell → Bool
  | .pending _ => true
  | _ => false

/-- The first staging cell that satisfies a test. Which FREE cell is claimed the manual does not say: the lowest (entry
11). -/
def Reception.findStaging (u : Reception) (p : StagingCell → Bool) : Option (Fin 4) :=
  (List.finRange 4).find? fun i => p u.staging[i.val]

/-- The staging cell the next body byte of record d goes into: its FILLING cell, or a FREE one claimed for the chain cell
at the chain position; none is a staging overrun (R30, R33). -/
def State.stagingFor (s : State) (l : LaneId) (d : DescId) : Option (Fin 4 × Staged) :=
  let u := (s.lane l).unit
  match u.findStaging (StagingCell.fillingFor d) with
  | some i => (u.staging[i.val]).staged.map fun c => (i, c)
  | none =>
    match u.findStaging StagingCell.isFree with
    | none => none
    | some i => some (i, ⟨some d, u.chainCell, s.chainCellAt d u.chainCell, []⟩)

/-- Bytes padded to 64 with 00h (R31). -/
def padCell (bytes : List Byte) : List Byte := bytes ++ List.replicate (Config.cellBytes - bytes.length) 0

/-- The 64 bytes a cell write puts into its cell (R31, R134): a PENDING staging cell holds 64 bytes (entry 16). -/
def Staged.image (c : Staged) : List Byte := (padCell c.bytes).take Config.cellBytes

/-- The first two bytes of a body as the record's Sequence (R5, R30). -/
def sequenceOf : List Byte → Word
  | b0 :: b1 :: _ => wordOf b0 b1
  | _ => 0

/-- The RECEIVING record d takes a body byte into staging cell i, whose bytes so far are those of c (R30, R31). -/
def State.stageByte (s : State) (l : LaneId) (d : DescId) (i : Fin 4) (c : Staged) (b : Byte) : State :=
  let u := (s.lane l).unit
  let bytes := c.bytes ++ [b]
  let countdown := u.countdown - 1
  let wraps := u.chainByte + 1 == Config.cellBytes
  let ends := bytes.length == Config.cellBytes || countdown == 0
  let u' := { u with
    check := recordCheckByte u.check b
    countdown := countdown
    chainCell := if wraps then u.chainCell + 1 else u.chainCell
    chainByte := if wraps then 0 else u.chainByte + 1
    staging := u.staging.set i.val
      (if ends then .pending { c with bytes := padCell bytes } else .filling { c with bytes := bytes })
    order := if ends then u.order ++ [i] else u.order }
  let s' := s.setUnit l u'
  if u.chainCell = 0 ∧ u.chainByte = 1 then s'.setDesc d { s'.desc d with sequence := some (sequenceOf bytes) } else s'

/-! ### Abort (R37, R38, R39) -/

/-- A staging cell after the abort of record d: its PENDING and FILLING cells FREE, its WRITING cell no longer its own
(R37, R38). -/
def StagingCell.abort (d : DescId) : StagingCell → StagingCell
  | .free => .free
  | .filling c => if c.owner = some d then .free else .filling c
  | .pending c => if c.owner = some d then .free else .pending c
  | .writing c => if c.owner = some d then .writing { c with owner := none } else .writing c

/-- The cell of the record's WRITING staging cell, where it has one (R37). -/
def Reception.writingCell (u : Reception) (d : DescId) : Option CellId :=
  u.staging.toList.findSome? fun x => match x with
    | .writing c => if c.owner = some d then some c.cell else none
    | _ => none

/-- The reception unit after the abort of record d (R37). -/
def Reception.abort (u : Reception) (d : DescId) : Reception :=
  { u with
    list := u.list.erase d
    staging := Vector.ofFn fun i => (u.staging[i]).abort d
    order := u.order.filter fun i => !(u.staging[i.val]).busyFor d
    retiring := (u.writingCell d).or u.retiring }

/-- Abort of a record in reception, in one act (R37): the rest of its chain and its descriptor go back to the pool, the
stream's charge falls, RECORD_DROP is latched. The counter is the caller's (Table 2-4). -/
def State.abort (s : State) (l : LaneId) (d : DescId) : State :=
  let u := (s.lane l).unit
  let cells := (s.chain d).filter fun c => u.writingCell d != some c
  ((((s.setUnit l (u.abort d)).returnCells cells).returnDesc d).lowerCharge (s.desc d).stream (s.desc d).cellCount).latch
    .recordDrop

/-- Abort with cause Cut or Clear: Records Cut rises by 1 (Table 2-4). -/
def State.cut (s : State) (l : LaneId) (d : DescId) : State := (s.abort l d).bumpLane l .recordsCut

/-- Abort of every record on a lane's list, oldest first (R39). -/
def State.cutAll (s : State) (l : LaneId) : State := (s.lane l).unit.list.foldl (fun s d => s.cut l d) s

/-! ### Sequence tracking (R51 to R53) -/

/-- Sequence tracking at completion, in the same act (R51, R52, Table 3-4). -/
def State.track (s : State) (d : DescId) : State :=
  let x := s.desc d
  match x.damaged, x.route with
  | false, some (i, edition) =>
    let e := s.route i
    if e.seqCheck then
      if edition = e.edition then
        let n := x.sequence.getD 0
        let gap := n - e.expected
        if !e.expectedKnown || gap == 0 then
          s.setRoute i { e with expected := n + 1, expectedKnown := true }
        else if gap.toNat ≤ 32767 then
          ((s.setDesc d { x with gapBefore := true, gapSize := some gap }).setRoute i { e with expected := n + 1 }).bumpStream
            x.stream .gapEvents
        else
          (s.setDesc d { x with outOfOrder := true }).bumpStream x.stream .sequenceErrors
      else s.setDesc d { x with unchecked := true }
    else s
  | _, _ => s

/-! ### Completion (R36, R81, R165) -/

/-- The record is given the next Completion Number and the count rises, wrapping (R165). -/
def State.number (s : State) (d : DescId) : State :=
  let s' := s.setDesc d { s.desc d with completion := some s.counts.completions }
  { s' with counts := { s'.counts with completions := s'.counts.completions + 1 } }

/-- The record joins the tail of its stream's queue in state QUEUED; Records Queued rises (R81). -/
def State.enqueue (s : State) (d : DescId) : State :=
  let t := (s.desc d).stream
  let s' := s.setDesc d { s.desc d with state := .queued }
  (s'.setStream t { s'.stream t with
    queue := (s'.stream t).queue ++ [d]
    expired := (s'.stream t).unexamined d }).bumpStream t .recordsQueued

/-- Completion of the record at the head of a lane's list, in one act (R36). The count of completions has moved, and a
record's age with it: a purge whose head is no target any more ends (R80, R95, R96). -/
def State.complete (s : State) (l : LaneId) (d : DescId) : State :=
  let u := (s.lane l).unit
  (((((s.setUnit l { u with list := u.list.tail }).number d).track d).enqueue d).bumpLane l .recordsStored).settlePurge

/-- The head of the lane's list completes when it is COMPLETING and none of its staging cells is PENDING or WRITING
(R36). -/
def State.tryComplete (s : State) (l : LaneId) : State :=
  match (s.lane l).unit.list with
  | [] => s
  | d :: _ =>
    if (s.desc d).state = .completing ∧ ((s.lane l).unit.findStaging (StagingCell.busyFor d)).isNone then s.complete l d
    else s

/-! ### Trailer (R34, R35) -/

/-- The record stands at the head of its lane's list. -/
def State.atHead (s : State) (l : LaneId) (d : DescId) : Bool := (s.lane l).unit.list.head? == some d

/-- The trailer matches, or a damaged record is kept: the record becomes COMPLETING, and at the head of the list it
completes at once when it has no write outstanding (R34, R35). -/
def State.toCompleting (s : State) (l : LaneId) (d : DescId) (damaged : Bool) : State :=
  let s' := s.setDesc d { s.desc d with state := .completing, damaged := (s.desc d).damaged || damaged }
  if s.atHead l d then s'.tryComplete l else s'

/-- The trailer check of the RECEIVING record (R34, R35). -/
def State.checkTrailer (s : State) (l : LaneId) : State :=
  match s.receiving l with
  | none => s
  | some d =>
    let u := (s.lane l).unit
    if u.check = sequenceOf u.trailer then s.toCompleting l d false
    else
      let s' := s.bumpLane l .recordsDamaged
      if (s'.lane l).entry.keepDamaged then s'.toCompleting l d true else s'.abort l d

end Sys2Proof.Machine
end

