-- ==== Sys2Proof/Machine/Window.lean ====
section
/-! DEFINITION. The Data Window (Chapter 7): the handle register, pointing, reads of WIN_DATA, and the abandoning of a held
read. -/

namespace Sys2Proof.Machine

/-- The Length of the record the window is pointed at (R121). -/
def State.windowLength (s : State) : Nat :=
  match s.pointedHolding with
  | some h => (s.desc h.desc).length.toNat
  | none => 0

/-- The body byte at an offset, from the fetch buffer (R126). With an empty buffer 00h (entry 16). -/
def Window.byteAt (w : Window) (offset : Nat) : Byte :=
  match w.buffer with
  | some (_, bytes) => bytes.getD (offset % Config.cellBytes) 0
  | none => 0

/-- The word a read at the offset returns (R126). -/
def State.windowWord (s : State) : Word :=
  let o := s.window.offset.toNat
  wordOf (s.window.byteAt o) (if o + 1 = s.windowLength then 0 else s.window.byteAt (o + 1))

/-- A read below the Length: two body bytes, the offset moves on, and at a cell boundary the next cell is requested
(R126). -/
def State.readBody (s : State) : State :=
  let o := s.window.offset.toNat + 2
  let crosses := o % Config.cellBytes = 0 ∧ o < s.windowLength
  { s with
    window := { s.window with
      offset := s.window.offset + 2
      mode := if crosses then .fetching else .ready
      request := if crosses then some (o / Config.cellBytes) else s.window.request }
    host := { s.host with driven := some s.windowWord, heldRead := false } }

/-- A read at or beyond the Length: 0000h and Past End (R128). -/
def State.readPastEnd (s : State) : State :=
  { s with
    window := { s.window with pastEnd := true }
    host := { s.host with driven := some 0, heldRead := false } }

/-- A read answered in READY (R126, R128). -/
def State.answerReady (s : State) : State :=
  if s.window.offset.toNat < s.windowLength then s.readBody else s.readPastEnd

/-- A read of WIN_DATA (R126 to R129). -/
def State.readWindow (s : State) : State :=
  match s.window.mode with
  | .idle => s.answerError
  | .stale => s.answerError
  | .ready => s.answerReady
  | .fetching => { s with host := { s.host with heldRead := true, driven := none } }

/-- A read by the host: the word is fixed in the act that takes it and is driven on D15 to D0 (R173). A part in reset
answers 0000h (R176), and no access reaches the part while a WIN_DATA read is held (R127, entry 18). -/
def hostRead (s : State) (next : State) : Host.Outcome State Fault Refusal :=
  if s.host.heldRead then .next s
  else if s.host.resetHigh then .next next
  else .next { s with host := { s.host with driven := some 0 } }

/-- WIN_DATA_READ (R126). -/
def execWinDataRead (s : State) : Host.Outcome State Fault Refusal := hostRead s s.readWindow

/-- The host raises CS_n or RD_n: a held read is abandoned (R175), and a word that is driven is so no longer (R173). -/
def State.abandonRead (s : State) : State := { s with host := { s.host with heldRead := false, driven := none } }

/-- HELD_READ_ABANDON (R175): the host raises CS_n or RD_n; with no read held this is the end of its bus cycle (entry
20). -/
def execHeldReadAbandon (s : State) : Host.Outcome State Fault Refusal := .next s.abandonRead

/-- WIN_HANDLE takes the low byte of a written word (R122). -/
def State.writeWinHandle (s : State) (v : Word) : State := { s with window := { s.window with handleReg := argLow v } }

/-- WIN_HANDLE_WRITE (R122). -/
def execWinHandleWrite (v : Word) (s : State) : Host.Outcome State Fault Refusal := hostAccess s (s.writeWinHandle v)

/-- An illegal direct write: CONFIG_ERROR is latched and Config Errors rises (R178). -/
def State.configError (s : State) : State := (s.latch .configError).bumpDevice .configErrors

/-- The state of the window a pointing with this handle and offset leaves, with the request it makes (R123). -/
def State.pointedMode (s : State) (handle : Byte) (offset : Word) : WindowMode × Option Nat :=
  match s.currentHandle handle with
  | none => (.stale, none)
  | some h =>
    if offset.toNat < (s.desc h.desc).length.toNat then (.fetching, some (offset.toNat / Config.cellBytes))
    else (.ready, none)

/-- A pointing at an even offset below 4096, in one act (R123). -/
def State.point (s : State) (offset : Word) : State :=
  let (mode, request) := s.pointedMode s.window.handleReg offset
  { s with
    window := { s.window with
      pointed := s.window.handleReg
      offset := offset
      mode := mode
      pastEnd := false
      buffer := none
      request := request }
    port := { s.port with op := discardRead s.port.op } }

/-- A write of WIN_OFFSET (R123, Table 11-2). -/
def State.writeWinOffset (s : State) (v : Word) : State :=
  if 4096 ≤ v.toNat then s.configError
  else if v.getLsbD 0 then s.configError.point (v - 1)
  else s.point v

/-- POINTING (R123). -/
def execPointing (v : Word) (s : State) : Host.Outcome State Fault Refusal := hostAccess s (s.writeWinOffset v)

end Sys2Proof.Machine
end

