-- ==== Sys2Proof/Machine/Port.lean ====
section
/-! DEFINITION. The Buffer Memory Controller (Chapter 8): the arbiter's grants, the completions of the three operations,
and the expiry of the Refresh Interval. -/

namespace Sys2Proof.Machine

/-! ### Requesters (R135) -/

/-- The PENDING staging cell a lane's next grant names: the first of its pending write order (R32). -/
def Reception.nextWrite (u : Reception) : Option (Fin 4 × Staged) :=
  match u.order with
  | [] => none
  | i :: _ =>
    match u.staging[i.val] with
    | .pending c => some (i, c)
    | _ => none

/-- A lane is waiting: it has a PENDING staging cell and none WRITING (R135). -/
def State.laneWaiting (s : State) (l : LaneId) : Bool :=
  let u := (s.lane l).unit
  u.nextWrite.isSome && (u.findStaging StagingCell.isWriting).isNone

/-- An operation is a cell read. -/
def PortOp.isRead : PortOp → Bool
  | .read _ _ _ _ => true
  | _ => false

/-- The window is waiting: it holds a fetch request and has no read in flight (R135). -/
def State.windowWaiting (s : State) : Bool :=
  s.window.request.isSome && !(s.port.op.any PortOp.isRead)

/-- A requester is waiting (R135): 0 to 7 the lanes, 8 the window. -/
def State.requesterWaiting (s : State) (r : Requester) : Bool :=
  if h : r.val < 8 then s.laneWaiting ⟨r.val, h⟩ else s.windowWaiting

/-- The round-robin order beginning after a position (R136, R137). -/
def roundRobin (p : Requester) : List Requester := (List.finRange 9).map fun k => p + 1 + k

/-- The requester step 2 grants (R136). -/
def State.nextRequester (s : State) : Option Requester := (roundRobin s.port.position).find? s.requesterWaiting

/-! ### Time at the port (R134, R139; entry 23) -/

/-- Units of 0.01 µs in one microsecond count. -/
def portTimePerMicrosecond : Nat := 100

/-- Units of 0.01 µs in one unit of the Refresh Interval (R139). -/
def portTimePerUnit : Nat := 25

/-- The time an operation takes (R134). -/
def PortOp.duration : PortOp → Nat
  | .refresh => Config.refreshTime
  | _ => Config.cellTime

/-- The time of the next interval expiry (R139). -/
def Port.expiryTime (p : Port) : Nat := portTimePerUnit * p.left

/-- The operation in flight can have ended: its earliest end falls neither after the next interval expiry nor after the next
microsecond count (R134, R139). R161 lets REFCLK stop and says of the count, the tick and the times measured against the
Timebase alone that they stop with it. That the port's own times stand still too, so that the port does no more than the rest
of its microsecond of work until REFCLK returns, is the model's choice (entry 23). -/
def State.portEnds (s : State) : Bool :=
  decide (s.port.times.ends ≤ s.port.expiryTime) && decide (s.port.times.ends ≤ portTimePerMicrosecond)

/-- An operation begins: it cannot end before the time it takes has passed (R134). -/
def State.startOp (s : State) (op : PortOp) : State :=
  { s with port := { s.port with
      op := some op
      times := { s.port.times with ends := s.port.times.reached + op.duration } } }

/-! ### Grants (R136) -/

/-- A refresh is granted: the balance falls by 1 (R138). -/
def State.grantRefresh (s : State) : State :=
  let s1 := s.startOp .refresh
  { s1 with port := { s1.port with balance := s1.port.balance - 1 } }

/-- A lane's cell write is granted: the staging cell leaves the pending write order and becomes WRITING (R32). -/
def State.grantWrite (s : State) (l : LaneId) : State :=
  let u := (s.lane l).unit
  match u.nextWrite with
  | none => s
  | some (i, c) =>
    (s.setUnit l { u with order := u.order.tail, staging := u.staging.set i.val (.writing c) }).startOp (.write l)

/-- The window's fetch request is gone. -/
def State.dropRequest (s : State) : State := { s with window := { s.window with request := none } }

/-- The window's cell read is granted: the request becomes the read in flight of the cell the chain lookup gives (R125,
R60). Without a holding the request is dropped (entry 16). -/
def State.grantRead (s : State) : State :=
  match s.window.request, s.pointedHolding with
  | some p, some h =>
    s.dropRequest.startOp (.read (s.chainCellAt h.desc p) p h.desc false)
  | _, _ => s.dropRequest

/-- Step 2 grants a requester, which becomes the round-robin position (R136, R137). -/
def State.grantRequester (s : State) (r : Requester) : State :=
  (if h : r.val < 8 then s.grantWrite ⟨r.val, h⟩ else s.grantRead).setPosition r

/-- The arbiter's choice at a free port: the four steps of R136 in order. -/
def State.arbitrate (s : State) : State :=
  if 6 ≤ s.port.balance then s.grantRefresh
  else
    match s.nextRequester with
    | some r => s.grantRequester r
    | none => if -8 < s.port.balance then s.grantRefresh else s

/-- The port is free (R136). -/
def State.portFree (s : State) : Bool := s.port.op.isNone

/-- PORT_GRANT (R136). -/
def execPortGrant (s : State) : Host.Outcome State Fault Refusal := act "PORT_GRANT" s s.portFree s.arbitrate

/-! ### Completions (R134) -/

/-- The port is free again, and the earliest end of its operation has been reached (R134, entry 23). -/
def State.freePort (s : State) : State :=
  { s with port := { s.port with
      op := none
      times := { s.port.times with reached := max s.port.times.reached s.port.times.ends } } }

/-- The bytes of a cell are written (R59, R134). -/
def State.storeCell (s : State) (c : CellId) (bytes : List Byte) : State :=
  { s with memory := Memory.write s.memory (cellBase c) bytes }

/-- The cell write of a lane ends: the bytes stand in the cell, the staging cell is FREE, and a retiring cell returns to
the pool or a record may complete (R32, R36, R38). -/
def State.finishWrite (s : State) (l : LaneId) : State :=
  let u := (s.lane l).unit
  match u.findStaging StagingCell.isWriting with
  | none => s.freePort
  | some i =>
    match (u.staging[i.val]).staged with
    | none => s.freePort
    | some c =>
      let s2 := (s.freePort.storeCell c.cell c.image).setUnit l
        { u with staging := u.staging.set i.val .free, retiring := none }
      match u.retiring with
      | some k => s2.returnCells [k]
      | none => s2.tryComplete l

/-- The lane whose cell write is in flight. -/
def State.writingLane (s : State) : Option LaneId :=
  match s.port.op with
  | some (.write l) => some l
  | _ => none

/-- CELL_WRITE_COMPLETE (R32), no earlier than the write can have ended (R134). -/
def execCellWriteComplete (s : State) : Host.Outcome State Fault Refusal :=
  match s.writingLane with
  | some l => act "CELL_WRITE_COMPLETE" s s.portEnds (s.finishWrite l)
  | none => act "CELL_WRITE_COMPLETE" s false s

/-- The fetched bytes and their chain position go into the fetch buffer, and the window is READY (R125). -/
def State.fillBuffer (s : State) (p : Nat) (bytes : List Byte) : State :=
  { s with window := { s.window with mode := .ready, buffer := some (p, bytes) } }

/-- Free values are taken afresh from here (entry 10). -/
def State.nextEpoch (s : State) : State := { s with epoch := s.epoch + 1 }

/-- The window's cell read ends: its bytes go into the fetch buffer and the window is READY, answering a held read in the
same act; a discarded read leaves the window as it is (R125, R127). The bytes of a Suspect record's next read are free of
this one's (entry 10). -/
def State.finishRead (s : State) : State :=
  match s.port.op with
  | some (.read c p d discard) =>
    if discard then s.freePort
    else
      let s1 := s.freePort.fillBuffer p (s.readCell c (s.desc d).suspect)
      let s2 := if (s.desc d).suspect then s1.nextEpoch else s1
      if s.host.heldRead then s2.answerReady else s2
  | _ => s

/-- The operation in flight is a cell read. -/
def State.readInFlight (s : State) : Bool := s.port.op.any PortOp.isRead

/-- CELL_READ_COMPLETE (R125), no earlier than the read can have ended (R134). -/
def execCellReadComplete (s : State) : Host.Outcome State Fault Refusal :=
  act "CELL_READ_COMPLETE" s (s.readInFlight && s.portEnds) s.finishRead

/-- A refresh ends: the next one takes the next slice; the balance does not move (R134, R138). -/
def State.finishRefresh (s : State) : State :=
  let s1 := s.freePort
  { s1 with port := { s1.port with nextSlice := s1.port.nextSlice + 1 } }

/-- REFRESH_COMPLETE (R134), no earlier than the refresh can have ended: an expiry that falls within its 0.64 µs comes
first, so at a Refresh Interval of 1 or 2 units the balance does not fall below +6 once it is there (R144). -/
def execRefreshComplete (s : State) : Host.Outcome State Fault Refusal :=
  act "REFRESH_COMPLETE" s (s.port.op == some .refresh && s.portEnds) s.finishRefresh

/-! ### Interval expiry (R138, R139, R141) -/

/-- Units of the Refresh Interval in one microsecond count: four REFCLK periods each, of sixteen (R161, R139). -/
def unitsPerMicrosecond : Nat := 4

/-- A descriptor in one of the four live states has its Suspect flag set (R141). -/
def Desc.markSuspect (d : Desc) : Desc := if d.state = .free then d else { d with suspect := true }

/-- Every live descriptor is marked Suspect; while the pool is INITIALIZING none is (R141, entry 13). -/
def State.markSuspects (s : State) : State :=
  if s.pool.ready then
    { s with pool := { s.pool with descs := Tab.mapValues Desc.blank Desc.markSuspect s.pool.descs } }
  else s

/-- A Late refresh (R141). The epoch of free values advances (entry 10). -/
def State.lateRefresh (s : State) : State :=
  (((s.latch .refreshLate).bumpDevice .refreshLate).markSuspects).nextEpoch

/-- The refresh balance rises by 1 (R138). -/
def State.oweRefresh (s : State) : State := { s with port := { s.port with balance := s.port.balance + 1 } }

/-- The time of an expiry has been reached, and the interval that follows is measured from it with the present setting
(R139, R140, entry 23). -/
def State.startInterval (s : State) : State :=
  { s with port := { s.port with
      left := s.port.left + s.port.interval.toNat
      times := { s.port.times with reached := max s.port.times.reached s.port.expiryTime } } }

/-- The Refresh Interval expires (R138); the interval that follows is measured with the present setting (R140). -/
def State.intervalExpiry (s : State) : State :=
  (if s.port.balance < 8 then s.oweRefresh else s.lateRefresh).startInterval

/-- The expiry falls before the next microsecond count, or with it (R139, entry 22). -/
def State.intervalDue (s : State) : Bool := s.port.left ≤ unitsPerMicrosecond

/-- INTERVAL_EXPIRY (R138). -/
def execIntervalExpiry (s : State) : Host.Outcome State Fault Refusal :=
  act "INTERVAL_EXPIRY" s s.intervalDue s.intervalExpiry

/-- The expiries that fall before the next microsecond count and have not been taken, at most n of them (R139). -/
def State.takeIntervals (s : State) : Nat → State
  | 0 => s
  | n + 1 => if s.port.left < unitsPerMicrosecond then s.intervalExpiry.takeIntervals n else s

end Sys2Proof.Machine
end

