-- ==== Sys2Proof/Machine/Lanes.lean ====
section
/-! DEFINITION. The Lane Receivers (Chapter 1): a rising clock edge in each delineation state, and silence. -/

namespace Sys2Proof.Machine

/-- The receiver enters HUNT with an empty search window (R8, R10, R14, R15, R20). -/
def Receiver.hunt (rx : Receiver) : Receiver :=
  { rx with delin := .hunt, sub := .awaitHeader, remaining := 0, missCount := 0, byteCount := 0, bits := [] }

/-- An edge is noted: Silent becomes 0 and the silence measure restarts (R1, R15). -/
def State.noteEdge (s : State) (l : LaneId) : State :=
  s.setRx l { (s.lane l).rx with silent := false, lastEdge := s.now }

/-! ### HUNT and PROVISIONAL (R8 to R11) -/

/-- The last 32 bits of the window with a new one appended (R8). -/
def slideWindow (bits : List Bool) (bit : Bool) : List Bool :=
  (bits ++ [bit]).drop (bits.length + 1 - 32)

/-- A candidate is found: PROVISIONAL, its own frame still to be passed over (R9). -/
def State.enterProvisional (s : State) (l : LaneId) (h : Header) : State :=
  s.setRx l { (s.lane l).rx with
    delin := .provisional
    sub := .awaitHeader
    remaining := (s.lane l).entry.confirmCount.toNat
    byteCount := frameBytes h.length
    bits := [] }

/-- An edge in HUNT: the window slides and is tested when it holds 32 bits (R8, R9). -/
def State.huntEdge (s : State) (l : LaneId) (bit : Bool) : State :=
  let w := slideWindow (s.lane l).rx.bits bit
  if w.length = 32 ∧ (headerOfBits w).passes = true then s.enterProvisional l (headerOfBits w)
  else s.setRx l { (s.lane l).rx with bits := w }

/-- A passing header on a LOCKED lane in AWAIT_HEADER is acted on by its frame kind (R12). -/
def State.actOnHeader (s : State) (l : LaneId) (h : Header) : State :=
  let s1 := s.setRx l { (s.lane l).rx with sub := .awaitHeader, missCount := 0, byteCount := 0, bits := [] }
  if h.length = 0 then s1
  else if h.length = 1 then
    (s1.bumpLane l .runts).setRx l { (s1.lane l).rx with sub := .skip, byteCount := frameBytes h.length }
  else s1.offer l h

/-- The lane becomes LOCKED (R11). -/
def State.enterLocked (s : State) (l : LaneId) : State :=
  (s.setRx l { (s.lane l).rx with delin := .locked, sub := .awaitHeader, remaining := 0, missCount := 0 }).latch .laneSync

/-- A header completes in PROVISIONAL (R10, R11). -/
def State.confirmHeader (s : State) (l : LaneId) (h : Header) : State :=
  let rx := (s.lane l).rx
  if h.passes = false then s.setRx l rx.hunt
  else if 1 < rx.remaining then
    s.setRx l { rx with remaining := rx.remaining - 1, byteCount := frameBytes h.length, bits := [] }
  else (s.enterLocked l).actOnHeader l h

/-- A completed byte of a frame that is passed over (R9, R13). -/
def Receiver.passByte (rx : Receiver) : Receiver := { rx with byteCount := rx.byteCount - 1, bits := [] }

/-- An edge in PROVISIONAL: the rest of the frame is passed over, then the next header is read (R9, R10). -/
def State.provisionalEdge (s : State) (l : LaneId) (bit : Bool) : State :=
  let rx := (s.lane l).rx
  let bits := rx.bits ++ [bit]
  if 0 < rx.byteCount then
    if bits.length = 8 then s.setRx l rx.passByte else s.setRx l { rx with bits := bits }
  else if bits.length = 32 then s.confirmHeader l (headerOfBits bits)
  else s.setRx l { rx with bits := bits }

/-! ### LOCKED (R12 to R14) -/

/-- A miss: a failing header in AWAIT_HEADER (R14). -/
def State.missHeader (s : State) (l : LaneId) (h : Header) : State :=
  let rx := (s.lane l).rx
  let s1 := s.bumpLane l .headersMissed
  if (s.lane l).entry.missTolerance.toNat < rx.missCount + 1 then
    ((s1.bumpLane l .syncLosses).latch .laneSync).setRx l rx.hunt
  else if h.length = 0 then s1.setRx l { rx with missCount := rx.missCount + 1, bits := [] }
  else s1.setRx l { rx with
    missCount := rx.missCount + 1, sub := .skip, byteCount := frameBytes h.length, bits := [] }

/-- A body byte has been handed over: the count falls, and at 0 the lane enters TRAILER with 2 bytes to pass (R13). -/
def State.passBody (s : State) (l : LaneId) : State :=
  let rx := (s.lane l).rx
  if rx.byteCount ≤ 1 then s.setRx l { rx with sub := .trailer, byteCount := 2, bits := [] }
  else s.setRx l rx.passByte

/-- A staging overrun: the byte is discarded, the record aborted, and the lane skips the body bytes still to come and
the trailer (R33, R13). -/
def State.overrun (s : State) (l : LaneId) (d : DescId) : State :=
  let s1 := (s.abort l d).bumpLane l .stagingOverruns
  let rx := (s1.lane l).rx
  s1.setRx l { rx with sub := .skip, byteCount := rx.byteCount - 1 + 2, bits := [] }

/-- A completed byte in BODY (R13, R30, R33). With no RECEIVING record it is passed over (entry 16). -/
def State.bodyByte (s : State) (l : LaneId) (b : Byte) : State :=
  match s.receiving l with
  | none => s.passBody l
  | some d =>
    match s.stagingFor l d with
    | none => s.overrun l d
    | some (i, c) => (s.stageByte l d i c b).passBody l

/-- A completed byte in TRAILER; the second one brings the trailer check (R13, R34). -/
def State.trailerByte (s : State) (l : LaneId) (b : Byte) : State :=
  let u := (s.lane l).unit
  let s1 := s.setUnit l { u with trailer := u.trailer ++ [b] }
  let rx := (s1.lane l).rx
  if rx.byteCount ≤ 1 then
    (s1.setRx l { rx with sub := .awaitHeader, byteCount := 0, bits := [] }).checkTrailer l
  else s1.setRx l rx.passByte

/-- A completed byte in SKIP; at the last the lane awaits the next header (R13). -/
def State.skipByte (s : State) (l : LaneId) : State :=
  let rx := (s.lane l).rx
  if rx.byteCount ≤ 1 then s.setRx l { rx with sub := .awaitHeader, byteCount := 0, bits := [] }
  else s.setRx l rx.passByte

/-- A header completes in AWAIT_HEADER (R12, R14). -/
def State.lockedHeader (s : State) (l : LaneId) (h : Header) : State :=
  if h.passes = true then s.actOnHeader l h else s.missHeader l h

/-- A byte completes in BODY, TRAILER or SKIP (R13). -/
def State.lockedByte (s : State) (l : LaneId) (b : Byte) : State :=
  match (s.lane l).rx.sub with
  | .body => s.bodyByte l b
  | .trailer => s.trailerByte l b
  | _ => s.skipByte l

/-- An edge on a LOCKED lane (R12, R13). -/
def State.lockedEdge (s : State) (l : LaneId) (bit : Bool) : State :=
  let rx := (s.lane l).rx
  let bits := rx.bits ++ [bit]
  if rx.sub = .awaitHeader then
    if bits.length = 32 then s.lockedHeader l (headerOfBits bits) else s.setRx l { rx with bits := bits }
  else if bits.length = 8 then s.lockedByte l (byteOfBits bits)
  else s.setRx l { rx with bits := bits }

/-! ### Silence (R15) -/

/-- Silence is due: the lane is not DISABLED, is not silent already, and 50 µs of the Timebase have passed since its last
edge (R15). It is detected at the latest before the lane's next edge (`State.clockEdge`) and before the next microsecond
count (`State.finishMicrosecond`); that another act may come between is the model's choice (entry 24). -/
def State.silenceDue (s : State) (l : LaneId) : Bool :=
  let rx := (s.lane l).rx
  rx.delin != .disabled && !rx.silent && decide (Config.silenceMicros ≤ s.since rx.lastEdge)

/-- The record in BODY or TRAILER is cut (R15, R39). -/
def State.cutReceiving (s : State) (l : LaneId) : State :=
  let rx := (s.lane l).rx
  if rx.delin = .locked ∧ (rx.sub = .body ∨ rx.sub = .trailer) then
    match s.receiving l with
    | some d => s.cut l d
    | none => s
  else s

/-- A LOCKED lane loses its lock: Sync Losses and LANE_SYNC (R14, R15). -/
def State.noteSyncLoss (s : State) (l : LaneId) : State :=
  if (s.lane l).rx.delin = .locked then (s.bumpLane l .syncLosses).latch .laneSync else s

/-- Silence is detected (R15). -/
def State.fallSilent (s : State) (l : LaneId) : State :=
  let s1 := ((s.latch .laneSilent).cutReceiving l).noteSyncLoss l
  s1.setRx l { (s1.lane l).rx.hunt with silent := true }

/-- Silence is detected where it is due (R15). -/
def State.silenceStep (s : State) (l : LaneId) : State := if s.silenceDue l then s.fallSilent l else s

/-- The lanes on which silence is due, in ascending order (R15). -/
def State.finishSilences (s : State) : State := (List.finRange 8).foldl State.silenceStep s

/-- SILENCE (R15). -/
def execSilence (l : LaneId) (s : State) : Host.Outcome State Fault Refusal :=
  act "SILENCE" s (s.silenceDue l) (s.fallSilent l)

/-! ### An edge (R1) -/

/-- A rising edge with this level on its data line, as the lane's state has it (R1; entry 5). A DISABLED lane ignores it. -/
def State.takeEdge (s : State) (l : LaneId) (bit : Bool) : State :=
  match (s.lane l).rx.delin with
  | .disabled => s
  | .hunt => (s.noteEdge l).huntEdge l bit
  | .provisional => (s.noteEdge l).provisionalEdge l bit
  | .locked => (s.noteEdge l).lockedEdge l bit

/-- A rising edge on a lane's clock. An edge after 50 µs without one finds the silence detected: it is the first bit of the
new search window (R15; entry 24). A part in reset ignores it (R176). -/
def State.clockEdge (s : State) (l : LaneId) (bit : Bool) : State :=
  if s.host.resetHigh then (s.silenceStep l).takeEdge l bit else s

/-- CANDIDATE (R9): an edge. -/
def execCandidate (l : LaneId) (bit : Bool) (s : State) : Host.Outcome State Fault Refusal := .next (s.clockEdge l bit)

/-- PROVISIONAL_HEADER (R10): an edge. -/
def execProvisionalHeader (l : LaneId) (bit : Bool) (s : State) : Host.Outcome State Fault Refusal :=
  .next (s.clockEdge l bit)

/-- HEADER (R12): an edge. -/
def execHeader (l : LaneId) (bit : Bool) (s : State) : Host.Outcome State Fault Refusal := .next (s.clockEdge l bit)

/-- BODY_BYTE (R30): an edge. -/
def execBodyByte (l : LaneId) (bit : Bool) (s : State) : Host.Outcome State Fault Refusal := .next (s.clockEdge l bit)

/-- TRAILER_CHECK (R34): an edge. -/
def execTrailerCheck (l : LaneId) (bit : Bool) (s : State) : Host.Outcome State Fault Refusal :=
  .next (s.clockEdge l bit)

/-- LANE_CLOCK_EDGE (R1). -/
def execLaneClockEdge (l : LaneId) (bit : Bool) (s : State) : Host.Outcome State Fault Refusal :=
  .next (s.clockEdge l bit)

end Sys2Proof.Machine
end

