-- ==== Sys2Proof/Machine/Tables.lean ====
section
/-! DEFINITION. The table port and the capture bank (Chapter 9): TABLE_READ, TABLE_WRITE with the commits of the three
tables, and CAPTURE. -/

namespace Sys2Proof.Machine

/-! ### TABLE_READ (R152, R180) -/

/-- The code of an Action (Tables 11-5 and 11-7). -/
def Action.isStore : Action → Bool
  | .discard => false
  | .store => true

/-- The code of a Lane Match (Table 11-5). -/
def laneMatchCode : Option LaneId → Nat
  | none => 8
  | some l => l.val

/-- A route entry's image (Table 11-5, R50). -/
def RouteEntry.image (e : RouteEntry) : Vector Word 8 :=
  #v[bitAt e.valid 15 ||| bitAt e.action.isStore 14 ||| bitAt e.seqCheck 13 ||| itemAt (laneMatchCode e.laneMatch) 8
       ||| itemAt e.stream.val 0,
     e.tag ++ e.tagMask,
     e.expected,
     bitAt e.expectedKnown 15 ||| itemAt e.edition.toNat 0,
     0, 0, 0, 0]

/-- The code of a Policy (Table 11-6). -/
def Policy.isEvict : Policy → Bool
  | .refuseNewest => false
  | .evictOldest => true

/-- A stream entry's image with its live status (Table 11-6, R79). -/
def State.streamImage (s : State) (t : StreamId) : Vector Word 8 :=
  let x := s.stream t
  #v[bitAt x.entry.enable 15 ||| bitAt x.entry.policy.isEvict 14,
     itemAt x.entry.quota 0,
     itemAt x.entry.watermark 0,
     itemAt x.entry.ageLimit 0,
     itemAt x.queue.length 0,
     itemAt (s.queuedCells t) 0,
     itemAt x.heldCount 0,
     itemAt x.charge 0]

/-- A lane entry's image (Table 11-7, R17). -/
def LaneEntry.image (e : LaneEntry) : Vector Word 8 :=
  #v[bitAt e.enable 15 ||| itemAt e.confirmCount.toNat 12 ||| itemAt e.missTolerance.toNat 8 ||| bitAt e.keepDamaged 7
       ||| bitAt e.defaultAction.isStore 6 ||| itemAt e.defaultStream.val 0,
     0, 0, 0, 0, 0, 0, 0]

/-- The image of the entry a table argument names (R152). -/
def State.imageOf (s : State) : TableEntry → Vector Word 8
  | .route i => (s.route i).image
  | .stream t => s.streamImage t
  | .lane l => (s.lane l).entry.image

/-- A table command on the entry its argument names. An accepted one always names one (entry 16). -/
def State.onTable (s : State) (work : TableEntry → State) : State :=
  match argTable s.cmd.arg with
  | some e => work e
  | none => s.endCommand .badArgument

/-- The entry image takes eight words (R152). -/
def State.setImage (s : State) (img : Vector Word 8) : State := { s with cmd := { s.cmd with image := img } }

/-- The work and end of a TABLE_READ (R152). -/
def State.doTableRead (s : State) (e : TableEntry) : State :=
  (s.setImage (s.imageOf e)).endCommand .ok

/-- TABLE_READ (R152): the end act of an accepted TABLE_READ. -/
def execTableRead (s : State) : Host.Outcome State Fault Refusal :=
  act "TABLE_READ" s (s.awaits .tableRead) (s.onTable s.doTableRead)

/-! ### TABLE_WRITE (R153) -/

/-- The commit of a legal route image (R49). -/
def State.commitRoute (s : State) (i : RouteId) (img : Vector Word 8) : Option State :=
  (routeOfImage img (s.route i).edition).map fun e => s.setRoute i e

/-- The commit of a legal stream image, refused below the charge (R88, R89). -/
def State.commitStream (s : State) (t : StreamId) (img : Vector Word 8) : Option State :=
  match streamOfImage img with
  | some e => if e.quota < (s.stream t).charge then none else some (s.setStream t { s.stream t with entry := e })
  | none => none

/-- A DISABLED lane is enabled: HUNT, silence measured from now (R7). -/
def Receiver.enabled (rx : Receiver) (now : Micros) : Receiver := { rx.hunt with silent := false, lastEdge := now }

/-- A lane is disabled: DISABLED, nothing kept (R16). -/
def Receiver.disabled (rx : Receiver) : Receiver := { rx.hunt with delin := .disabled, silent := false }

/-- A lane entry replaces the old one (R17). -/
def State.setEntry (s : State) (l : LaneId) (e : LaneEntry) : State := s.setLane l { s.lane l with entry := e }

/-- A lane entry is committed, with its effect on delineation (R17, R7, R16). -/
def State.commitLaneEntry (s : State) (l : LaneId) (e : LaneEntry) : State :=
  match (s.lane l).rx.delin, e.enable with
  | .disabled, true => (s.setRx l ((s.lane l).rx.enabled s.now)).setEntry l e
  | .disabled, false => s.setEntry l e
  | _, true => s.setEntry l e
  | _, false =>
    let s1 := s.cutAll l
    (s1.setRx l (s1.lane l).rx.disabled).setEntry l e

/-- The commit of a legal lane image (R17). -/
def State.commitLane (s : State) (l : LaneId) (img : Vector Word 8) : Option State :=
  (laneOfImage img).map fun e => s.commitLaneEntry l e

/-- The taken image is validated and committed by the block that owns the table; none is a refusal (R153). -/
def State.commit (s : State) : TableEntry → Option State
  | .route i => s.commitRoute i s.cmd.taken
  | .stream t => s.commitStream t s.cmd.taken
  | .lane l => s.commitLane l s.cmd.taken

/-- The work and end of a TABLE_WRITE (R153). -/
def State.doTableWrite (s : State) (e : TableEntry) : State :=
  match s.commit e with
  | some s' => s'.endCommand .ok
  | none => s.endCommand .refused

/-- TABLE_WRITE (R153): the end act of an accepted TABLE_WRITE. -/
def execTableWrite (s : State) : Host.Outcome State Fault Refusal :=
  act "TABLE_WRITE" s (s.awaits .tableWrite) (s.onTable s.doTableWrite)

/-! ### CAPTURE (R154) -/

/-- The eight words a capture of a group copies (R154, Table 10-1). -/
def State.groupWords (s : State) : CounterGroup → Vector Word 8
  | .lane l => s.counts.lanes[l.val]
  | .stream t => s.counts.streams[t.val]
  | .device => s.counts.device ++ #v[halfOf s.counts.completions .lo, halfOf s.counts.completions .hi]

/-- The counters of a group are set to 0; the device completion count is not one of them (R154, R166). -/
def Counters.zeroGroup (c : Counters) : CounterGroup → Counters
  | .lane l => { c with lanes := c.lanes.set l.val (Vector.replicate 8 0) }
  | .stream t => { c with streams := c.streams.set t.val (Vector.replicate 8 0) }
  | .device => { c with device := Vector.replicate 6 0 }

/-- A group's counters are copied into the capture bank and set to 0, in one act (R154, R155). -/
def State.captureGroup (s : State) (g : CounterGroup) : State :=
  { s with cmd := { s.cmd with capture := s.groupWords g }, counts := s.counts.zeroGroup g }

/-- The work and end of a CAPTURE of a group (R154). -/
def State.doCapture (s : State) (g : CounterGroup) : State :=
  (s.captureGroup g).endCommand .ok

/-- CAPTURE of the group the argument names. An accepted one always names one (entry 16). -/
def State.onGroup (s : State) (work : CounterGroup → State) : State :=
  match argGroup s.cmd.arg with
  | some g => work g
  | none => s.endCommand .badArgument

/-- CAPTURE (R154): the end act of an accepted CAPTURE. -/
def execCapture (s : State) : Host.Outcome State Fault Refusal :=
  act "CAPTURE" s (s.awaits .capture) (s.onGroup s.doCapture)

end Sys2Proof.Machine
end

