-- ==== Sys2Proof/Machine/Commands.lean ====
section
/-! DEFINITION. The Command Unit (Chapter 9): acceptance, collision and the end act of a failed command, PURGE with its
removals, and CLEAR with its steps. -/

namespace Sys2Proof.Machine

/-! ### Acceptance and its tests (R148, R149) -/

/-- The result of the first test a command fails, none when it passes all (R149). -/
def State.failedTest (s : State) (code arg : Word) : Option Result :=
  match commandOf code with
  | none => some .badArgument
  | some c =>
    if argLegal c arg = false then some .badArgument
    else if needsReady c = true ∧ s.pool.ready = false then some .notReady
    else none

/-- The Command Unit becomes BUSY with a code, the present argument and the image as it stands (R148, R153). -/
def State.takeCommand (s : State) (code : Word) (phase : Phase) : State :=
  { s with cmd := { s.cmd with
      phase := phase
      code := code
      arg := s.cmd.argReg
      result := .noResult
      collision := false
      taken := s.cmd.image } }

/-- Expected Known becomes 0 in every route entry (R58). -/
def State.restartWatches (s : State) : State :=
  { s with routes := s.routes.map fun e => { e with expectedKnown := false } }

/-- CLEAR's first step on one lane: its records are aborted, and an enabled lane enters HUNT (R157, R20). -/
def State.clearLane (s : State) (l : LaneId) : State :=
  let s1 := s.cutAll l
  if (s1.lane l).entry.enable then s1.setRx l (s1.lane l).rx.hunt else s1

/-- CLEAR's first step, lanes in the order L0 to L7 (R157). -/
def State.clearFirst (s : State) : State := ((List.finRange 8).foldl State.clearLane s).restartWatches

/-- What an accepted PURGE of stream t is doing from its acceptance on: it has taken its boundary (R95), or it has found
no target at the head and awaits its end act (R156). -/
def State.purgePhase (s : State) (t : StreamId) : Phase :=
  if (s.purgeHead t s.counts.completions).isSome then .purging t s.counts.completions else .purged

/-- A command that passes its tests begins: PURGE takes its boundary (R95, R156); CLEAR takes its first step (R157); the
others await their end act (R150). -/
def State.beginCommand (s : State) (code : Word) : Command → State
  | .purge =>
    match argStream s.cmd.argReg with
    | some t => s.takeCommand code (s.purgePhase t)
    | none => s.takeCommand code (.failed .badArgument)
  | .clear => (s.takeCommand code (.clearing .second)).clearFirst
  | _ => s.takeCommand code .running

/-- A write to CMD in IDLE accepts a command, in one act with its tests (R148, R149). -/
def State.acceptCommand (s : State) (code : Word) : State :=
  match s.failedTest code s.cmd.argReg, commandOf code with
  | some r, _ => s.takeCommand code (.failed r)
  | none, some c => s.beginCommand code c
  | none, none => s.takeCommand code (.failed .badArgument)

/-- A write to CMD in BUSY is a collision (R151). -/
def State.collide (s : State) : State :=
  State.bumpDevice { s with cmd := { s.cmd with collision := true } } .commandCollisions

/-- A write to CMD (R148, R151). -/
def State.writeCmd (s : State) (code : Word) : State := if s.busy then s.collide else s.acceptCommand code

/-- COMMAND_ACCEPTANCE (R148): a write of CMD. -/
def execCommandAcceptance (code : Word) (s : State) : Host.Outcome State Fault Refusal := hostAccess s (s.writeCmd code)

/-- COLLISION (R151): a write of CMD. -/
def execCollision (code : Word) (s : State) : Host.Outcome State Fault Refusal := hostAccess s (s.writeCmd code)

/-- The code of PURGE (Table 11-3). -/
def purgeCode : Word := 5

/-- The code of CLEAR (Table 11-3). -/
def clearCode : Word := 6

/-- PURGE (R156): a write of 0005h to CMD. -/
def execPurge (s : State) : Host.Outcome State Fault Refusal := hostAccess s (s.writeCmd purgeCode)

/-- CLEAR (R157): a write of 0006h to CMD. -/
def execClear (s : State) : Host.Outcome State Fault Refusal := hostAccess s (s.writeCmd clearCode)

/-- The result a failed command ends with, while one waits (R150). -/
def State.failedResult (s : State) : Option Result :=
  match s.cmd.phase with
  | .failed r => some r
  | _ => none

/-- FAILED_TEST_END_ACT (R150): the end act of a command that failed a test. -/
def execFailedTestEndAct (s : State) : Host.Outcome State Fault Refusal :=
  match s.failedResult with
  | some r => act "FAILED_TEST_END_ACT" s true (s.endCommand r)
  | none => act "FAILED_TEST_END_ACT" s false s

/-! ### PURGE (R96, R156) -/

/-- The head of the purged stream's queue is removed, freed and counted (R96). -/
def State.purgeRecord (s : State) (t : StreamId) (d : DescId) : State :=
  (((s.dequeue t d).freeRecord d).bumpStream t .recordsPurged).settlePurge

/-- One removal of a running purge; a head that is no target ends it (R96). -/
def State.purgeStep (s : State) (t : StreamId) (boundary : BitVec 32) : State :=
  match s.purgeHead t boundary with
  | some d => s.purgeRecord t d
  | none => s.settlePurge

/-- What a running PURGE does next: the removal of its head, or, where it found no target at its acceptance, its end act
with OK (R96, R156). -/
def State.purgeNext (s : State) : Option State :=
  match s.cmd.phase with
  | .purging t b => some (s.purgeStep t b)
  | .purged => some (s.endCommand .ok)
  | _ => none

/-- PURGE_REMOVAL (R96). The end act of a PURGE that removes nothing is taken by this row too, the one under which
spec/95 lists PURGE_END (entry 8). -/
def execPurgeRemoval (s : State) : Host.Outcome State Fault Refusal :=
  act "PURGE_REMOVAL" s s.purgeNext.isSome (s.purgeNext.getD s)

/-! ### CLEAR (R158, R159) -/

/-- The operation is a cell write. -/
def PortOp.isWrite : PortOp → Bool
  | .write _ => true
  | _ => false

/-- No cell write is in flight (R145). -/
def State.noWriteInFlight (s : State) : Bool := !(s.port.op.any PortOp.isWrite)

/-- A stream after CLEAR's second step: queue, held count and charge gone, entry kept (R99). -/
def Stream.emptied (x : Stream) : Stream := { x with queue := [], heldCount := 0, charge := 0 }

/-- A hold slot after CLEAR's second step: a HELD one is EMPTY with its Generation raised (R120). -/
def HoldSlot.emptied (h : HoldSlot) : HoldSlot :=
  match h.held with
  | some _ => ⟨h.generation + 1, none⟩
  | none => h

/-- The pool enters INITIALIZING and its build begins (R70, R71). -/
def State.startBuild (s : State) : State :=
  { s with pool := { s.pool with ready := false, buildStart := s.now, freeCells := [], freeDescs := [] } }

/-- A window in FETCHING or READY enters STALE (R131). -/
def State.clearHolds (s : State) : State :=
  if s.window.mode = .fetching ∨ s.window.mode = .ready then s.staleWindow else s

/-- Every stream queue and every hold slot is emptied (R158). -/
def State.emptyQueues (s : State) : State :=
  { s with streams := s.streams.map Stream.emptied, slots := s.slots.map HoldSlot.emptied }

/-- CLEAR's second step (R158). -/
def State.clearSecond (s : State) : State :=
  s.clearHolds.emptyQueues.startBuild.setPhase (.clearing .third)

/-- CLEAR_SECOND_STEP (R158). -/
def execClearSecondStep (s : State) : Host.Outcome State Fault Refusal :=
  act "CLEAR_SECOND_STEP" s (s.cmd.phase == .clearing .second && s.noWriteInFlight) s.clearSecond

/-- CLEAR's third step: every counter becomes 0, the completion count is kept (R159). -/
def State.clearThird (s : State) : State :=
  { s with
    counts := { Counters.reset with completions := s.counts.completions }
    cmd := { s.cmd with phase := .clearing .fourth } }

/-- CLEAR_THIRD_STEP (R159). -/
def execClearThirdStep (s : State) : Host.Outcome State Fault Refusal :=
  act "CLEAR_THIRD_STEP" s (s.cmd.phase == .clearing .third) s.clearThird

/-- The window enters IDLE, and a read in flight is discarded (R131). -/
def State.idleWindow (s : State) : State :=
  { s with window := Window.reset, port := { s.port with op := discardRead s.port.op } }

/-- CLEAR's fourth step: the window is IDLE, a read in flight is discarded, and CLEAR ends with OK (R159, R131). A read
held at this step, which no run reaches, is answered by R129 first (entry 16). -/
def State.clearFourth (s : State) : State :=
  (if s.host.heldRead then s.answerError else s).idleWindow.endCommand .ok

/-- CLEAR_FOURTH_STEP (R159). -/
def execClearFourthStep (s : State) : Host.Outcome State Fault Refusal :=
  act "CLEAR_FOURTH_STEP" s (s.cmd.phase == .clearing .fourth) s.clearFourth

end Sys2Proof.Machine
end

