-- ==== Sys2Proof/Machine/Registers.lean ====
section
/-! DEFINITION. The register window (Chapter 11): the word every address reads, and the direct writes. -/

namespace Sys2Proof.Machine

/-! ### What a read returns (Table 11-1; entry 20) -/

/-- The refresh balance as a sixteen-bit two's complement number (R140). -/
def balanceWord (b : Int) : Word := BitVec.ofInt 16 b

/-- The word at an address of the window. A read of TIME_LO and of WIN_DATA has its own row; here they read the low half
of the count and, as no word is fixed before the read is answered, the word last answered. -/
def State.readWord (s : State) (a : BitVec 7) : Word :=
  match a.toNat with
  | 0x00 => Config.devId
  | 0x01 => Config.devRev
  | 0x02 => s.devStatus
  | 0x03 => itemAt s.pool.freeCells.length 0
  | 0x04 => itemAt s.pool.freeDescs.length 0
  | 0x05 => itemAt s.heldSlots 0
  | 0x06 => balanceWord s.port.balance
  | 0x07 => s.port.interval.setWidth 16
  | 0x08 => itemAt s.pool.lowThreshold 0
  | 0x09 => s.holdLimit
  | 0x0A => halfOf s.time.count .lo
  | 0x0B => s.time.hiHold
  | 0x0C => s.cmd.code
  | 0x0D => s.cmd.argReg
  | 0x0E => s.cmdStatus
  | 0x10 => s.cmd.image[0]
  | 0x11 => s.cmd.image[1]
  | 0x12 => s.cmd.image[2]
  | 0x13 => s.cmd.image[3]
  | 0x14 => s.cmd.image[4]
  | 0x15 => s.cmd.image[5]
  | 0x16 => s.cmd.image[6]
  | 0x17 => s.cmd.image[7]
  | 0x18 => s.view.words[0]
  | 0x19 => s.view.words[1]
  | 0x1A => s.view.words[2]
  | 0x1B => s.view.words[3]
  | 0x1C => s.view.words[4]
  | 0x1D => s.view.words[5]
  | 0x1E => s.view.words[6]
  | 0x1F => s.view.words[7]
  | 0x20 => s.cmd.capture[0]
  | 0x21 => s.cmd.capture[1]
  | 0x22 => s.cmd.capture[2]
  | 0x23 => s.cmd.capture[3]
  | 0x24 => s.cmd.capture[4]
  | 0x25 => s.cmd.capture[5]
  | 0x26 => s.cmd.capture[6]
  | 0x27 => s.cmd.capture[7]
  | 0x28 => s.window.handleReg.setWidth 16
  | 0x29 => s.window.offset
  | 0x2A => s.host.driven.getD 0
  | 0x2B => s.winStatus
  | 0x30 => s.eventLatchWord
  | 0x31 => s.events.enables
  | 0x32 => halfOf s.readyBits .lo
  | 0x33 => halfOf s.readyBits .hi
  | 0x34 => halfOf s.events.readyEnables .lo
  | 0x35 => halfOf s.events.readyEnables .hi
  | 0x36 => halfOf s.events.watermarks .lo
  | 0x37 => halfOf s.events.watermarks .hi
  | 0x3C => halfOf s.events.watermarkEnables .lo
  | 0x3D => halfOf s.events.watermarkEnables .hi
  | 0x40 => s.laneStatus 0
  | 0x41 => s.laneStatus 1
  | 0x42 => s.laneStatus 2
  | 0x43 => s.laneStatus 3
  | 0x44 => s.laneStatus 4
  | 0x45 => s.laneStatus 5
  | 0x46 => s.laneStatus 6
  | 0x47 => s.laneStatus 7
  | _ => 0

/-- The word the host gets from the window: 0000h while RESET_n is low (R176). -/
def State.busWord (s : State) (a : BitVec 7) : Word := if s.host.resetHigh then s.readWord a else 0

/-- A read of TIME_LO: the low half of the count, the high half going into the TIME_HI hold in the same act (R163). -/
def State.readTimeLo (s : State) : State :=
  { s with
    time := { s.time with hiHold := halfOf s.time.count .hi }
    host := { s.host with driven := some (halfOf s.time.count .lo) } }

/-- TIME_LO_READ (R163). -/
def execTimeLoRead (s : State) : Host.Outcome State Fault Refusal := hostRead s s.readTimeLo

/-! ### Events (R167, R169, R170, R90) -/

/-- A write of EVENT_LATCH clears every latch whose position has a 1 (R167, R168). -/
def State.writeEventLatch (s : State) (v : Word) : State :=
  { s with events := { s.events with latches := s.events.latches &&& ~~~v } }

/-- EVENT_LATCH_WRITE (R167). -/
def execEventLatchWrite (v : Word) (s : State) : Host.Outcome State Fault Refusal := hostAccess s (s.writeEventLatch v)

/-- A write of EVENT_ENABLE replaces the ten enables (R169). -/
def State.writeEventEnable (s : State) (v : Word) : State :=
  { s with events := { s.events with enables := v &&& eventPositions } }

/-- EVENT_ENABLE_WRITE (R169). -/
def execEventEnableWrite (v : Word) (s : State) : Host.Outcome State Fault Refusal :=
  hostAccess s (s.writeEventEnable v)

/-- A write of WMARK_LO or WMARK_HI clears the watermark bits written with a 1 (R90, R170). -/
def State.writeWmark (s : State) (h : Half) (v : Word) : State :=
  { s with events := { s.events with watermarks := s.events.watermarks &&& ~~~(withHalf 0 h v) } }

/-- WMARK_WRITE (R90). -/
def execWmarkWrite (h : Half) (v : Word) (s : State) : Host.Outcome State Fault Refusal := hostAccess s (s.writeWmark h v)

/-- A write of WMARK_EN_LO or WMARK_EN_HI replaces its sixteen enables (R170). -/
def State.writeWmarkEn (s : State) (h : Half) (v : Word) : State :=
  { s with events := { s.events with watermarkEnables := withHalf s.events.watermarkEnables h v } }

/-- WMARK_EN_WRITE (R170). -/
def execWmarkEnWrite (h : Half) (v : Word) (s : State) : Host.Outcome State Fault Refusal :=
  hostAccess s (s.writeWmarkEn h v)

/-- A write of READY_EN_LO or READY_EN_HI replaces its sixteen enables (R170). -/
def State.writeReadyEn (s : State) (h : Half) (v : Word) : State :=
  { s with events := { s.events with readyEnables := withHalf s.events.readyEnables h v } }

/-- READY_EN_WRITE (R170). -/
def execReadyEnWrite (h : Half) (v : Word) (s : State) : Host.Outcome State Fault Refusal :=
  hostAccess s (s.writeReadyEn h v)

/-! ### Settings (R140, R75, R113) -/

/-- A write of REFRESH_CFG: a low byte of 00h is illegal (R140). -/
def State.writeRefreshCfg (s : State) (v : Word) : State :=
  if argLow v = 0 then s.configError else { s with port := { s.port with interval := argLow v } }

/-- REFRESH_CFG_WRITE (R140). -/
def execRefreshCfgWrite (v : Word) (s : State) : Host.Outcome State Fault Refusal := hostAccess s (s.writeRefreshCfg v)

/-- A write of POOL_LOW: a value above 16384 is illegal (R75). -/
def State.writePoolLow (s : State) (v : Word) : State :=
  if Config.cellCount < v.toNat then s.configError else { s with pool := { s.pool with lowThreshold := v.toNat } }

/-- POOL_LOW_WRITE (R75). -/
def execPoolLowWrite (v : Word) (s : State) : Host.Outcome State Fault Refusal := hostAccess s (s.writePoolLow v)

/-- A write of HOLD_LIMIT (R113). -/
def State.writeHoldLimit (s : State) (v : Word) : State := { s with holdLimit := v }

/-- HOLD_LIMIT_WRITE (R113). -/
def execHoldLimitWrite (v : Word) (s : State) : Host.Outcome State Fault Refusal := hostAccess s (s.writeHoldLimit v)

/-! ### Any other word (R174) -/

/-- A write of CMD_ARG (R147). -/
def State.writeArg (s : State) (v : Word) : State := { s with cmd := { s.cmd with argReg := v } }

/-- A write of an entry image word (R152). -/
def State.writeImage (s : State) (i : Fin 8) (v : Word) : State :=
  { s with cmd := { s.cmd with image := s.cmd.image.set i.val v } }

/-- A write of any word of the window: its register's effect, and nothing at a read-only or an unassigned word (R174,
R177). -/
def State.writeWord (s : State) (a : BitVec 7) (v : Word) : State :=
  match a.toNat with
  | 0x07 => s.writeRefreshCfg v
  | 0x08 => s.writePoolLow v
  | 0x09 => s.writeHoldLimit v
  | 0x0C => s.writeCmd v
  | 0x0D => s.writeArg v
  | 0x10 => s.writeImage 0 v
  | 0x11 => s.writeImage 1 v
  | 0x12 => s.writeImage 2 v
  | 0x13 => s.writeImage 3 v
  | 0x14 => s.writeImage 4 v
  | 0x15 => s.writeImage 5 v
  | 0x16 => s.writeImage 6 v
  | 0x17 => s.writeImage 7 v
  | 0x28 => s.writeWinHandle v
  | 0x29 => s.writeWinOffset v
  | 0x30 => s.writeEventLatch v
  | 0x31 => s.writeEventEnable v
  | 0x34 => s.writeReadyEn .lo v
  | 0x35 => s.writeReadyEn .hi v
  | 0x36 => s.writeWmark .lo v
  | 0x37 => s.writeWmark .hi v
  | 0x3C => s.writeWmarkEn .lo v
  | 0x3D => s.writeWmarkEn .hi v
  | _ => s

/-- REGISTER_WRITE (R174). -/
def execRegisterWrite (a : BitVec 7) (v : Word) (s : State) : Host.Outcome State Fault Refusal :=
  hostAccess s (s.writeWord a v)

/-! ### The bus cycle (R173, R175) -/

/-- A read of any word of the window: the word is fixed and driven, with the effect its owning rule gives a read (R173).
Only the reads of TIME_LO and WIN_DATA have one (R163, R126). -/
def State.readAccess (s : State) (a : BitVec 7) : State :=
  if a = 0x0A then s.readTimeLo
  else if a = 0x2A then s.readWindow
  else { s with host := { s.host with driven := some (s.readWord a) } }

/-- One cycle with CS_n low, by which of RD_n and WR_n goes low in it (R173): a read, a write, or, with both low, no access,
in which the lines are not driven. With neither low RD_n is high: a read's cycle is over, and a held read is abandoned
(R175). -/
def State.busCycle (s : State) (readLow writeLow : Bool) (a : BitVec 7) (v : Word) : Host.Outcome State Fault Refusal :=
  match readLow, writeLow with
  | true, false => hostRead s (s.readAccess a)
  | false, true => hostAccess s (s.writeWord a v)
  | true, true => .next (if s.host.heldRead then s else s.released)
  | false, false => .next s.abandonRead

end Sys2Proof.Machine
end

