-- ==== Sys2Proof/Machine/Resets.lean ====
section
/-! DEFINITION. RESET_n (Chapter 11, R176; Chapter 4, R69): hard reset and the release of the part. -/

namespace Sys2Proof.Machine

/-- RESET_n goes low: every block takes its hard reset values and holds them; a held WIN_DATA read ends, returning 0000h
(R176, R132), and a word that is driven is driven until the host ends its cycle (R173). The contents of every cell are
undefined from here (R59, entry 9); the commands that wait are not the part's own. -/
def State.hardReset (s : State) : State :=
  { State.reset with
    host := ⟨false, false, if s.host.heldRead then some 0 else s.host.driven⟩
    epoch := s.epoch + 1
    pending := s.pending }

/-- HARD_RESET (R176). -/
def execHardReset (s : State) : Host.Outcome State Fault Refusal := .next s.hardReset

/-- RESET_n returns high: the pool's build begins (R69) and the first interval is measured from here (R139, entry 22);
accesses are taken at once (R176). -/
def State.releaseReset (s : State) : State :=
  { s with
    host := { s.host with resetHigh := true }
    pool := { s.pool with buildStart := s.now }
    port := { s.port with left := s.port.interval.toNat } }

/-- RESET_RELEASE (R69). With RESET_n already high nothing happens (entry 4). -/
def execResetRelease (s : State) : Host.Outcome State Fault Refusal :=
  .next (if s.host.resetHigh then s else s.releaseReset)

end Sys2Proof.Machine
end

