-- ==== Sys2Proof/Machine/Time.lean ====
section
/-! DEFINITION. The Timebase and what is measured against it (Chapters 4, 5, 6, 8 and 10): age and hold expiry, the count
and the millisecond tick, and the end of the pool's build. -/

namespace Sys2Proof.Machine

/-! ### Age expiry (R92, R94) -/

/-- A queued record of a stream has been in the part for the Age Limit its stream examines by, or more (R92). -/
def State.expired (s : State) (t : StreamId) (d : DescId) : Bool :=
  decide ((s.stream t).examine * 1000 ≤ s.since (s.desc d).arrival)

/-- A stream examines its queue, once at a tick: what it finds expired is to be removed, and a record put back later waits
for the next tick (R92, R94). -/
def State.examination (s : State) (t : StreamId) : State :=
  s.setStream t { s.stream t with examine := 0, expired := (s.stream t).queue.filter (s.expired t) }

/-- The examination of a stream at the present tick, where it is still to come (R92). -/
def State.examined (s : State) (t : StreamId) : State := if (s.stream t).examine = 0 then s else s.examination t

/-- The first record of a stream's queue, from the head toward the tail, that the tick's examination found expired and that
is still to be removed (R92). -/
def State.expiredRecord (s : State) (t : StreamId) : Option DescId :=
  (s.stream t).queue.find? fun d => decide (d ∈ (s.stream t).expired)

/-- An expired record leaves its queue, is freed and counted, and RECORD_DROP is latched (R92). -/
def State.ageOut (s : State) (t : StreamId) (d : DescId) : State :=
  ((((s.dequeue t d).freeRecord d).bumpStream t .recordsAgedOut).latch .recordDrop).settlePurge

/-- The removal of a stream's first expired record, where there is one (R92). -/
def State.ageStep (s : State) (t : StreamId) : State :=
  match s.expiredRecord t with
  | some d => s.ageOut t d
  | none => s

/-- A stream's examination of the present tick, or the removal of a record it found expired, is still to come (R92). -/
def State.ageDue (s : State) (t : StreamId) : Bool := (s.stream t).examine != 0 || (s.expiredRecord t).isSome

/-- AGE_EXPIRY (R92): the stream's examination where it is still to come, and the removal of the first record found expired.
An examination that finds none removes none (entry 7). -/
def execAgeExpiry (t : StreamId) (s : State) : Host.Outcome State Fault Refusal :=
  act "AGE_EXPIRY" s (s.ageDue t) ((s.examined t).ageStep t)

/-- The expired records of a stream are removed one after another from the head toward the tail, at most n of them (R92). -/
def State.ageSteps (s : State) (t : StreamId) : Nat → State
  | 0 => s
  | n + 1 => (s.ageStep t).ageSteps t n

/-- What is still to come of a stream's age expiries at the present tick (R92). -/
def State.finishAges (s : State) (t : StreamId) : State := (s.examined t).ageSteps t (s.stream t).queue.length

/-! ### Hold expiry (R114) -/

/-- A hold has lasted the Hold Limit of the present tick or longer (R114). -/
def State.holdExpired (s : State) (h : Holding) : Bool :=
  s.time.judging != 0 && decide (s.time.judging.toNat * 1000 ≤ s.since h.start)

/-- The lowest slot whose hold the present tick ends (R114). -/
def State.expiredHold (s : State) : Option (SlotId × Holding) :=
  (List.finRange 16).findSome? fun i =>
    match (s.slot i).held with
    | some h => if s.holdExpired h then some (i, h) else none
    | none => none

/-- A hold expires: the record goes back to its queue as by RETURN, the slot empties, HOLD_EXPIRED and Hold Expiries
(R114). -/
def State.expireHold (s : State) (i : SlotId) (h : Holding) : State :=
  ((((s.requeue h.desc).emptySlot i).latch .holdExpired).bumpDevice .holdExpiries).settlePurge

/-- The expiry of the lowest hold the present tick ends, where there is one (R114). -/
def State.holdStep (s : State) : State :=
  match s.expiredHold with
  | some (i, h) => s.expireHold i h
  | none => s

/-- HOLD_EXPIRY (R114). -/
def execHoldExpiry (s : State) : Host.Outcome State Fault Refusal :=
  act "HOLD_EXPIRY" s s.expiredHold.isSome s.holdStep

/-- The holds the present tick ends, one after another in ascending slot order, at most n of them (R114). -/
def State.holdSteps (s : State) : Nat → State
  | 0 => s
  | n + 1 => s.holdStep.holdSteps n

/-! ### The build of the pool (R71) -/

/-- A CLEAR has been accepted and has not ended. -/
def Phase.isClearing : Phase → Bool
  | .clearing _ => true
  | _ => false

/-- The build is over: the pool is INITIALIZING and 200 µs have passed since the build began (R71). A CLEAR that began it
has ended before (R70). -/
def State.buildDue (s : State) : Bool :=
  !s.pool.ready && decide (Config.buildMicros ≤ s.since s.pool.buildStart) && !s.cmd.phase.isClearing

/-- All cells in ascending order (R71). -/
def allCells : List CellId := List.finRange Config.cellCount

/-- All descriptors in ascending order (R71). -/
def allDescs : List DescId := List.finRange Config.descCount

/-- The end of the build, in one act (R71). -/
def State.finishBuild (s : State) : State :=
  { s with pool := { s.pool with
      ready := true
      freeCells := allCells
      freeDescs := allDescs
      links := []
      descs := Tab.mapValues Desc.blank (fun d => { d with state := .free }) s.pool.descs } }

/-- The build ends where its end is due (R71). -/
def State.buildStep (s : State) : State := if s.buildDue then s.finishBuild else s

/-- POOL_BUILD_END (R71). -/
def execPoolBuildEnd (s : State) : Host.Outcome State Fault Refusal := act "POOL_BUILD_END" s s.buildDue s.finishBuild

/-! ### The count and the tick (R161, R162) -/

/-- What is still to come before the next microsecond count: the age expiries of the present tick stream by stream, its
hold expiries in slot order, silence lane by lane, the end of the pool's build, and the interval expiries (R92, R114, R15,
R71, R139; entries 7, 22 and 24). -/
def State.finishMicrosecond (s : State) : State :=
  (((List.finRange 32).foldl State.finishAges s).holdSteps 16).finishSilences.buildStep.takeIntervals unitsPerMicrosecond

/-- The sub-count is about to pass from 999 to 0 (R162). -/
def State.tickDue (s : State) : Bool := 999 ≤ s.time.sub

/-- The count rises by 1, wrapping, and the sub-count with it (R161, R162); the next interval expiry and the end of the
operation in flight are nearer by one microsecond (R134, R139). -/
def State.advance (s : State) : State :=
  { s with
    time := { s.time with
      count := s.time.count + 1
      sub := if s.tickDue then 0 else s.time.sub + 1
      judging := 0 }
    port := { s.port with
      left := s.port.left - unitsPerMicrosecond
      times := ⟨0, s.port.times.ends - portTimePerMicrosecond⟩ } }

/-- A stream at a millisecond tick: it is to examine its queue by its Age Limit as it stands (R92, R93). -/
def Stream.atTick (x : Stream) : Stream := { x with examine := x.entry.ageLimit, expired := [] }

/-- The millisecond tick: every stream is to examine its queue, and the holds are judged by the Hold Limit as it stands
(R92, R113, R114, R162). -/
def State.tick (s : State) : State :=
  { s with time := { s.time with judging := s.holdLimit }, streams := s.streams.map Stream.atTick }

/-- The count, with the millisecond tick in the act in which the sub-count passes from 999 to 0 (R161, R162). -/
def State.countMicrosecond (s : State) : State := if s.tickDue then s.advance.tick else s.advance

/-- A microsecond count: what the microsecond before it still has to bring comes first (entry 7). -/
def State.nextMicrosecond (s : State) : State := s.finishMicrosecond.countMicrosecond

/-- TIMEBASE_COUNT (R161): the sixteenth rising edge of REFCLK. While RESET_n is low the count does not advance. -/
def execTimebaseCount (s : State) : Host.Outcome State Fault Refusal :=
  .next (if s.host.resetHigh then s.nextMicrosecond else s)

/-- MILLISECOND_TICK (R162): the counting act in which the tick falls. -/
def execMillisecondTick (s : State) : Host.Outcome State Fault Refusal :=
  act "MILLISECOND_TICK" s s.tickDue s.nextMicrosecond

end Sys2Proof.Machine
end

