-- ==== Sys2Proof/Machine/Dispatch.lean ====
section
/-! DEFINITION. One command: which meaning each row has. -/

namespace Sys2Proof.Machine

/-- The effect of a command on everything but the queue. -/
def exec (i : Instr) (s : State) : Host.Outcome State Fault Refusal :=
  match i with
  | .hardReset => Sys2Proof.Machine.execHardReset s
  | .resetRelease => Sys2Proof.Machine.execResetRelease s
  | .candidate l b => Sys2Proof.Machine.execCandidate l b s
  | .provisionalHeader l b => Sys2Proof.Machine.execProvisionalHeader l b s
  | .header l b => Sys2Proof.Machine.execHeader l b s
  | .bodyByte l b => Sys2Proof.Machine.execBodyByte l b s
  | .trailerCheck l b => Sys2Proof.Machine.execTrailerCheck l b s
  | .silence l => Sys2Proof.Machine.execSilence l s
  | .portGrant => Sys2Proof.Machine.execPortGrant s
  | .cellWriteComplete => Sys2Proof.Machine.execCellWriteComplete s
  | .cellReadComplete => Sys2Proof.Machine.execCellReadComplete s
  | .refreshComplete => Sys2Proof.Machine.execRefreshComplete s
  | .intervalExpiry => Sys2Proof.Machine.execIntervalExpiry s
  | .millisecondTick => Sys2Proof.Machine.execMillisecondTick s
  | .ageExpiry t => Sys2Proof.Machine.execAgeExpiry t s
  | .holdExpiry => Sys2Proof.Machine.execHoldExpiry s
  | .poolBuildEnd => Sys2Proof.Machine.execPoolBuildEnd s
  | .take => Sys2Proof.Machine.execTake s
  | .peek => Sys2Proof.Machine.execPeek s
  | .release => Sys2Proof.Machine.execRelease s
  | .returnRecord => Sys2Proof.Machine.execReturnRecord s
  | .purge => Sys2Proof.Machine.execPurge s
  | .purgeRemoval => Sys2Proof.Machine.execPurgeRemoval s
  | .clear => Sys2Proof.Machine.execClear s
  | .clearSecondStep => Sys2Proof.Machine.execClearSecondStep s
  | .clearThirdStep => Sys2Proof.Machine.execClearThirdStep s
  | .clearFourthStep => Sys2Proof.Machine.execClearFourthStep s
  | .capture => Sys2Proof.Machine.execCapture s
  | .tableRead => Sys2Proof.Machine.execTableRead s
  | .tableWrite => Sys2Proof.Machine.execTableWrite s
  | .collision c => Sys2Proof.Machine.execCollision c s
  | .pointing v => Sys2Proof.Machine.execPointing v s
  | .winHandleWrite v => Sys2Proof.Machine.execWinHandleWrite v s
  | .winDataRead => Sys2Proof.Machine.execWinDataRead s
  | .heldReadAbandon => Sys2Proof.Machine.execHeldReadAbandon s
  | .timeLoRead => Sys2Proof.Machine.execTimeLoRead s
  | .eventLatchWrite v => Sys2Proof.Machine.execEventLatchWrite v s
  | .eventEnableWrite v => Sys2Proof.Machine.execEventEnableWrite v s
  | .wmarkWrite h v => Sys2Proof.Machine.execWmarkWrite h v s
  | .wmarkEnWrite h v => Sys2Proof.Machine.execWmarkEnWrite h v s
  | .readyEnWrite h v => Sys2Proof.Machine.execReadyEnWrite h v s
  | .refreshCfgWrite v => Sys2Proof.Machine.execRefreshCfgWrite v s
  | .poolLowWrite v => Sys2Proof.Machine.execPoolLowWrite v s
  | .holdLimitWrite v => Sys2Proof.Machine.execHoldLimitWrite v s
  | .registerWrite a v => Sys2Proof.Machine.execRegisterWrite a v s
  | .laneClockEdge l b => Sys2Proof.Machine.execLaneClockEdge l b s
  | .commandAcceptance c => Sys2Proof.Machine.execCommandAcceptance c s
  | .failedTestEndAct => Sys2Proof.Machine.execFailedTestEndAct s
  | .timebaseCount => Sys2Proof.Machine.execTimebaseCount s

end Sys2Proof.Machine
end

