-- ==== Sys2Proof/Safety.lean ====
section
/-! DEFINITION. Predicates the statements are made of: what a command comes from, the situations the rules start from, and
the invariants of the part. -/

namespace Sys2Proof

/-! ### Commands by where they come from -/

/-- The lane and the level of a row that is a rising edge of a lane's clock (entry 5). -/
def Instr.edgeOf : Instr → Option (LaneId × Bool)
  | .candidate l b => some (l, b)
  | .provisionalHeader l b => some (l, b)
  | .header l b => some (l, b)
  | .bodyByte l b => some (l, b)
  | .trailerCheck l b => some (l, b)
  | .laneClockEdge l b => some (l, b)
  | _ => none

/-- A row that is a write by the host (R173). -/
def Instr.isHostWrite : Instr → Bool
  | .purge | .clear => true
  | .collision _ | .commandAcceptance _ | .pointing _ | .winHandleWrite _ | .eventLatchWrite _ | .eventEnableWrite _ => true
  | .wmarkWrite _ _ | .wmarkEnWrite _ _ | .readyEnWrite _ _ => true
  | .refreshCfgWrite _ | .poolLowWrite _ | .holdLimitWrite _ | .registerWrite _ _ => true
  | _ => false

/-- A row that is a read by the host (R173). -/
def Instr.isHostRead : Instr → Bool
  | .winDataRead | .timeLoRead => true
  | _ => false

namespace Machine

/-! ### Situations -/

/-- A host access is taken: RESET_n is high (R176), no WIN_DATA read is held (R127), and the cycle before it is over, so
that the lines are released (R173). -/
def State.takesAccess (s : State) : Prop :=
  s.host.resetHigh = true ∧ s.host.heldRead = false ∧ s.host.driven = none

/-- No silence is due on the lane: it is DISABLED, it is silent already, or 50 µs have not passed since its last edge
(R15). -/
abbrev State.heardInTime (s : State) (l : LaneId) : Prop :=
  (s.lane l).rx.delin = .disabled ∨ (s.lane l).rx.silent = true ∨ (s.time.count - (s.lane l).rx.lastEdge).toNat < 50

/-- The build of the pool does not end before the next count: the pool is READY, 200 µs have not passed since the build
began, or a CLEAR is running (R70, R71). -/
def State.buildNotDue (s : State) : Prop :=
  s.pool.ready = true ∨ (s.time.count - s.pool.buildStart).toNat < 200 ∨ ∃ n, s.cmd.phase = .clearing n

/-- An edge with this level completes header h on a LOCKED lane in AWAIT_HEADER (R12). -/
def State.endsHeader (s : State) (l : LaneId) (b : Bool) (h : Header) : Prop :=
  s.host.resetHigh = true ∧ (s.lane l).rx.delin = .locked ∧ (s.lane l).rx.sub = .awaitHeader
    ∧ (s.lane l).rx.bits.length = 31 ∧ headerOfBits ((s.lane l).rx.bits ++ [b]) = h ∧ s.heardInTime l

/-- An edge with this level completes header h on a PROVISIONAL lane (R10). -/
def State.endsProvisionalHeader (s : State) (l : LaneId) (b : Bool) (h : Header) : Prop :=
  s.host.resetHigh = true ∧ (s.lane l).rx.delin = .provisional ∧ (s.lane l).rx.byteCount = 0
    ∧ (s.lane l).rx.bits.length = 31 ∧ headerOfBits ((s.lane l).rx.bits ++ [b]) = h ∧ s.heardInTime l

/-- An edge with this level completes byte x on a LOCKED lane in this sub-state (R13). -/
def State.endsByte (s : State) (l : LaneId) (b : Bool) (sub : SubState) (x : Byte) : Prop :=
  s.host.resetHigh = true ∧ (s.lane l).rx.delin = .locked ∧ (s.lane l).rx.sub = sub
    ∧ (s.lane l).rx.bits.length = 7 ∧ byteOfBits ((s.lane l).rx.bits ++ [b]) = x ∧ s.heardInTime l

/-- A receiver on which an edge has been noted at a time: not silent, the measure restarted (R15). -/
def Receiver.heard (rx : Receiver) (now : Micros) : Receiver := { rx with silent := false, lastEdge := now }

/-- A one-act command with this argument has been accepted and awaits its end act (R150). -/
def State.running (s : State) (c : Command) : Prop :=
  s.host.resetHigh = true ∧ s.cmd.phase = .running ∧ commandOf s.cmd.code = some c

/-- What the end act of a command does to the Command Unit and the latches: result posted, IDLE, COMMAND_DONE latched,
and nothing else there (R150). -/
def State.ended (s s' : State) (r : Result) : Prop :=
  s'.cmd = { s.cmd with phase := .idle, result := r } ∧ s'.latched .commandDone = true

/-- Every counter but the listed ones stands as it did. -/
def State.countsOnly (s s' : State) (lanes : List (LaneId × LaneCounter)) (streams : List (StreamId × StreamCounter))
    (device : List DeviceCounter) : Prop :=
  (∀ l k, (l, k) ∉ lanes → s'.laneCount l k = s.laneCount l k)
    ∧ (∀ u k, (u, k) ∉ streams → s'.streamCount u k = s.streamCount u k)
    ∧ ∀ k, k ∉ device → s'.deviceCount k = s.deviceCount k

/-- Every event latch but the listed ones stands as it did. -/
def State.latchesOnly (s s' : State) (events : List Event) : Prop := ∀ e, e ∉ events → s'.latched e = s.latched e

/-- What the emptying of hold slot i does to the Data Window. One that is FETCHING or READY on the slot is STALE: its buffer
is empty, its request withdrawn, a read in flight discarded, and a held read ends with 0000h, WINDOW_ERROR and Window
Errors; any other is not changed (R130, R129). -/
def State.windowEmptied (s s' : State) (i : SlotId) : Prop :=
  if s.window.pointed.toNat % 16 = i.val ∧ (s.window.mode = .fetching ∨ s.window.mode = .ready) then
    s'.window = { s.window with mode := .stale, buffer := none, request := none }
      ∧ s'.port = { s.port with op := match s.port.op with
        | some (.read k p d _) => some (.read k p d true)
        | op => op }
      ∧ s'.host = (if s.host.heldRead then { s.host with heldRead := false, driven := some 0 } else s.host)
      ∧ s'.latched .windowError = (s.latched .windowError || s.host.heldRead)
      ∧ s'.deviceCount .windowErrors = (if s.host.heldRead then bump (s.deviceCount .windowErrors)
          else s.deviceCount .windowErrors)
  else s'.window = s.window ∧ s'.port = s.port ∧ s'.host = s.host ∧ s'.latched .windowError = s.latched .windowError
    ∧ s'.deviceCount .windowErrors = s.deviceCount .windowErrors

/-! ### The memory port (R134, R139) -/

/-- The operation in flight may end: its earliest end falls neither after the next microsecond count nor after the next
interval expiry (R134, R139; entry 23). -/
abbrev State.opMayEnd (s : State) : Prop := s.port.times.ends ≤ 100 ∧ s.port.times.ends ≤ 25 * s.port.left

/-- The port with an operation begun that takes this time, in units of 0.01 µs (R134, entry 23). -/
def Port.started (p : Port) (op : PortOp) (time : Nat) : Port :=
  { p with op := some op, times := ⟨p.times.reached, p.times.reached + time⟩ }

/-- The port with its operation ended: free, the operation's earliest end reached (R134, entry 23). -/
def Port.freed (p : Port) : Port := { p with op := none, times := ⟨max p.times.reached p.times.ends, p.times.ends⟩ }

/-- The port with its interval expired: the next expiry one setting later, the time of this one reached (R139, R140; entries
22 and 23). -/
def Port.nextInterval (p : Port) : Port :=
  { p with left := p.left + p.interval.toNat, times := ⟨max p.times.reached (25 * p.left), p.times.ends⟩ }

/-- The port a microsecond later (R139; entries 22 and 23). -/
def Port.nextMicrosecond (p : Port) : Port := { p with left := p.left - 4, times := ⟨0, p.times.ends - 100⟩ }

/-! ### What an abort leaves (R37 to R39) -/

/-- These cells have joined the tail of the free cell list with their links set to End, and every other link stands as it
did (R60, R61). -/
def State.cellsReturned (s s' : State) (cells : List CellId) : Prop :=
  s'.pool.freeCells = s.pool.freeCells ++ cells
    ∧ ∀ k, linkOf s'.pool.links k = if k ∈ cells then none else linkOf s.pool.links k

/-- The cells the abort of a record gives back: its chain, in chain order, without the cell whose write is in flight
(R37). -/
def State.abortedCells (s : State) (l : LaneId) (d : DescId) : List CellId :=
  (s.chain d).filter fun k => decide ((s.lane l).unit.writingCell d ≠ some k)

/-- A staging cell once these records are aborted: their FILLING and PENDING cells are FREE, a WRITING cell is theirs no
more, every other cell stands as it did (R37, R38). -/
def StagingCell.abortedTo (ds : List DescId) : StagingCell → StagingCell
  | .free => .free
  | .filling c => if ds.any fun d => c.owner = some d then .free else .filling c
  | .pending c => if ds.any fun d => c.owner = some d then .free else .pending c
  | .writing c => if ds.any fun d => c.owner = some d then .writing { c with owner := none } else .writing c

/-- What the aborts of these records, one after another, leave in the reception unit: their staging cells, the pending
write order without them and the retiring set with the cell whose write is in flight; the reception list is the caller's
to say, and every other field stands as it did (R37, R38). -/
def Reception.abortedTo (u u' : Reception) (ds : List DescId) : Prop :=
  (∀ i : Fin 4, u'.staging[i.val] = u.staging[i.val].abortedTo ds)
    ∧ u'.order = u.order.filter (fun i => ds.all fun d => !(u.staging[i.val]).busyFor d)
    ∧ u'.retiring = (ds.reverse.findSome? u.writingCell).or u.retiring
    ∧ u' = { u with list := u'.list, staging := u'.staging, order := u'.order, retiring := u'.retiring }

/-- Record d of lane l has been aborted (R37): its staging cells, its cells, its descriptor, its place on the reception list
and its charge; every other record's staging cells, links, descriptors and charges stand as they did. -/
def State.aborted (s s' : State) (l : LaneId) (d : DescId) : Prop :=
  (s.lane l).unit.abortedTo (s'.lane l).unit [d] ∧ (s'.lane l).unit.list = (s.lane l).unit.list.erase d
    ∧ s.cellsReturned s' (s.abortedCells l d) ∧ s'.pool.freeDescs = s.pool.freeDescs ++ [d]
    ∧ s'.desc d = { s.desc d with state := .free } ∧ (∀ e, e ≠ d → s'.desc e = s.desc e)
    ∧ s'.stream (s.desc d).stream = { s.stream (s.desc d).stream with
        charge := (s.stream (s.desc d).stream).charge - (s.desc d).cellCount }
    ∧ ∀ u, u ≠ (s.desc d).stream → s'.stream u = s.stream u

/-- These records are different ones, and no cell stands in the chains of two of them, nor twice in one (R65, R66). -/
def State.apart (s : State) (ds : List DescId) : Prop := ds.Nodup ∧ (ds.flatMap s.chain).Nodup

/-- Record d of lane l, whose descriptor read x, has completed (R36): the next Completion Number, what sequence tracking gives
a record that reads x (SequenceCheck; R51, Table 3-4), state QUEUED at the tail of its stream's queue, where the present
tick has not examined it (R94), Records Stored and Records Queued; every other record, stream, lane and counter stands as it
did. -/
def State.completed (s s' : State) (l : LaneId) (d : DescId) (x : Desc) : Prop :=
  s'.desc d = { ((s.setDesc d x).track d).desc d with state := .queued, completion := some s.counts.completions }
    ∧ (∀ e, e ≠ d → s'.desc e = s.desc e)
    ∧ s'.routes = ((s.setDesc d x).track d).routes
    ∧ s'.stream x.stream = { s.stream x.stream with
        queue := (s.stream x.stream).queue ++ [d], expired := (s.stream x.stream).expired.filter fun e => e != d }
    ∧ (∀ u, u ≠ x.stream → s'.stream u = s.stream u)
    ∧ s'.counts.completions = s.counts.completions + 1
    ∧ s'.laneCount l .recordsStored = bump (s.laneCount l .recordsStored)
    ∧ s'.streamCount x.stream .recordsQueued = bump (s.streamCount x.stream .recordsQueued)
    ∧ (∀ k, k ≠ .recordsQueued → s'.streamCount x.stream k = ((s.setDesc d x).track d).streamCount x.stream k)
    ∧ s.countsOnly s' [(l, .recordsStored)]
        [(x.stream, .recordsQueued), (x.stream, .gapEvents), (x.stream, .sequenceErrors)] []
    ∧ (s'.lane l).entry = (s.lane l).entry ∧ ∀ m, m ≠ l → s'.lane m = s.lane m

/-! ### The microsecond and the tick (R92, R114, R139) -/

/-- Nothing is left to come before the next count: no examination and no removal of the present tick, no hold that the tick
ends, no silence, no end of the pool's build and no interval expiry (entries 7, 22 and 24). -/
def State.settledMicrosecond (s : State) : Prop :=
  (∀ u, (s.stream u).examine = 0 ∧ ∀ d ∈ (s.stream u).queue, d ∉ (s.stream u).expired)
    ∧ (∀ i h, (s.slot i).held = some h →
        s.time.judging = 0 ∨ (s.time.count - h.start).toNat < s.time.judging.toNat * 1000)
    ∧ (∀ l, s.heardInTime l) ∧ s.buildNotDue ∧ 4 ≤ s.port.left

/-! ### Invariants -/

/-- "The refresh balance lies between −8 and +8" (R138), and the time the port has reached lies within the microsecond
(entry 23). -/
def RefreshInv (s : State) : Prop := -8 ≤ s.port.balance ∧ s.port.balance ≤ 8 ∧ s.port.times.reached ≤ 100

/-- The port is starved (R144): at a Refresh Interval of 1 or 2 units, with the next expiry no more than two units after the
time reached, a port without a refresh in flight has a balance of +6 or more, and one with a refresh in flight has +5 or
more, and at +5 an expiry that falls before the refresh can end. -/
def StarvedInv (s : State) : Prop :=
  s.host.resetHigh = true ∧ (s.port.interval = 1 ∨ s.port.interval = 2)
    ∧ s.port.times.reached ≤ 100 ∧ 25 * s.port.left ≤ s.port.times.reached + 50
    ∧ (s.port.op ≠ some .refresh → 6 ≤ s.port.balance)
    ∧ (s.port.op = some .refresh → 5 ≤ s.port.balance ∧ (s.port.balance = 5 → 25 * s.port.left < s.port.times.ends))

/-- The settings hold values their registers and tables give them: Refresh Interval 1 to 255 (R139), Pool Low threshold
(R75), stream entries (Table 5-1), checking route entries (R48), the positions of the event words (Table 11-10), the
sub-count (R162). -/
def SettingsInv (s : State) : Prop :=
  s.port.interval ≠ 0 ∧ s.pool.lowThreshold ≤ 16384
    ∧ (∀ t, (s.stream t).entry.quota ≤ 16384 ∧ (s.stream t).entry.watermark ≤ 16384 ∧ (s.stream t).entry.ageLimit ≤ 65535)
    ∧ (∀ i, (s.route i).seqCheck = true → (s.route i).laneMatch ≠ none ∧ (s.route i).tagMask = 0xFF)
    ∧ s.events.latches &&& 0xFC08 = 0 ∧ s.events.enables &&& 0xFC00 = 0 ∧ s.time.sub ≤ 999

/-- The sparse data stand in their canonical form. -/
def MemoryInv (s : State) : Prop :=
  Memory.wf s.memory = true ∧ Tab.wf none s.pool.links = true ∧ Tab.wf Desc.blank s.pool.descs = true

/-- What holds of a lane in each delineation state (R7, R10, R11, R14, R16, R17, R18). -/
def LaneInv (x : Lane) : Prop :=
  (x.entry.enable = true ↔ x.rx.delin ≠ .disabled)
    ∧ x.entry.confirmCount ≠ 0
    ∧ (x.rx.delin ≠ .locked → x.rx.sub = .awaitHeader ∧ x.rx.missCount = 0)
    ∧ (x.rx.delin ≠ .provisional → x.rx.remaining = 0)
    ∧ (x.rx.delin = .disabled → x.rx.silent = false ∧ x.rx.byteCount = 0 ∧ x.rx.bits = [])
    ∧ x.rx.missCount ≤ 3 ∧ x.rx.remaining ≤ 3

/-- Every lane is as `LaneInv` says. -/
def LanesInv (s : State) : Prop := ∀ l, LaneInv (s.lane l)

/-- What holds of the Data Window (R121, R125, R127): a read is held only in FETCHING; in FETCHING and READY the pointed
handle is current; a request waits only in FETCHING; a read in flight without the discard mark is the one FETCHING waits
for, and then no request waits. -/
def WindowInv (s : State) : Prop :=
  (s.host.heldRead = true → s.window.mode = .fetching)
    ∧ (s.window.mode = .fetching ∨ s.window.mode = .ready → (s.currentHandle s.window.pointed).isSome = true)
    ∧ (s.window.request ≠ none → s.window.mode = .fetching)
    ∧ (∀ c p d, s.port.op = some (.read c p d false) → s.window.mode = .fetching ∧ s.window.request = none)

/-- "A stream's charge … never exceeds its quota" (R78). -/
def ChargeInv (s : State) : Prop := ∀ t, (s.stream t).charge ≤ (s.stream t).entry.quota

/-- The descriptors in every place R66 names. -/
def State.descPlaces (s : State) : Nat :=
  s.pool.freeDescs.length + ((List.finRange 8).map fun l => (s.lane l).unit.list.length).sum
    + ((List.finRange 32).map fun t => (s.stream t).queue.length).sum + s.heldSlots

/-- No reception list holds a record. -/
def State.listsEmpty (s : State) : Prop := ∀ l, (s.lane l).unit.list = []

/-- The counts of R66 add up to 4096 while the pool is READY; while it is INITIALIZING every place is empty (R72); and the
reception lists are empty from CLEAR's first step to its second (R42). -/
def DescInv (s : State) : Prop :=
  (s.pool.ready = true → s.descPlaces = 4096)
    ∧ (s.pool.ready = false → s.pool.freeDescs = [] ∧ s.listsEmpty ∧ (∀ t, (s.stream t).queue = [])
        ∧ ∀ i, (s.slot i).held = none)
    ∧ (s.cmd.phase = .clearing .second → s.listsEmpty)

/-! ### Every cell and every record in one place (R29, R65, R66) -/

/-- The records that are not FREE, place by place: on the reception lists, in the stream queues, in the hold slots (R66). -/
def State.records (s : State) : List DescId :=
  ((List.finRange 8).flatMap fun l => (s.lane l).unit.list)
    ++ ((List.finRange 32).flatMap fun t => (s.stream t).queue)
    ++ (List.finRange 16).filterMap fun i => (s.slot i).held.map Holding.desc

/-- The cells in the retiring sets (R38). -/
def State.retiringCells (s : State) : List CellId := (List.finRange 8).filterMap fun l => (s.lane l).unit.retiring

/-- What holds of a lane's reception unit, where `state` and `chain` read a record's descriptor and `inFlight` says that the
port's operation is a cell write of this lane. -/
structure ReceptionInv (u : Reception) (state : DescId → DescState) (chain : DescId → List CellId) (inFlight : Prop) :
    Prop where
  /-- Each record on the list is RECEIVING or COMPLETING (R66). -/
  states : ∀ d ∈ u.list, state d = .receiving ∨ state d = .completing
  /-- All but the last are COMPLETING (R29). -/
  receivingLast : ∀ d ∈ u.list.dropLast, state d = .completing
  /-- A COMPLETING one has a staging cell PENDING or WRITING (R29). -/
  completingBusy : ∀ d ∈ u.list, state d = .completing → ∃ i : Fin 4, u.staging[i.val].busyFor d = true
  /-- So has the last one from the end of its body on, when it is not the head (R31, R36). -/
  endedBusy : ∀ d, u.list.getLast? = some d → state d = .receiving → u.countdown = 0 → u.list.head? ≠ some d →
    ∃ i : Fin 4, u.staging[i.val].busyFor d = true
  /-- The pending write order holds each PENDING staging cell once (R31). -/
  orderOnce : u.order.Nodup
  orderPending : ∀ i : Fin 4, i ∈ u.order ↔ u.staging[i.val].isPending = true
  /-- It follows the order of the list: a later record's cells come later (R36). -/
  orderByList : u.order.Pairwise fun i j => ∀ ci cj d e, u.staging[i.val].staged = some ci →
    u.staging[j.val].staged = some cj → ci.owner = some d → cj.owner = some e → d = e ∨ [d, e].Sublist u.list
  /-- A staging cell's record is on the list, and the cell it serves is one of the record's chain (R30). -/
  owned : ∀ (i : Fin 4) c d, u.staging[i.val].staged = some c → c.owner = some d → d ∈ u.list ∧ c.cell ∈ chain d
  /-- Only a WRITING staging cell has no record (R38). -/
  ownerless : ∀ (i : Fin 4) c, u.staging[i.val].staged = some c → c.owner = none → u.staging[i.val] = .writing c
  /-- A FILLING one is the RECEIVING record's, whose body has not ended (R30, R31). -/
  filling : ∀ (i : Fin 4) c d, u.staging[i.val] = .filling c → c.owner = some d → state d = .receiving ∧ u.countdown ≠ 0
  /-- At most one is FILLING (R30). -/
  oneFilling : ∀ (i j : Fin 4) ci cj, u.staging[i.val] = .filling ci → u.staging[j.val] = .filling cj → i = j
  /-- A WRITING one is in flight at the port, and is the head's, or its cell is the one that retires (R32, R38). -/
  writing : ∀ (i : Fin 4) c, u.staging[i.val] = .writing c → inFlight
    ∧ (∀ d, c.owner = some d → u.list.head? = some d ∧ u.retiring = none) ∧ (c.owner = none → u.retiring = some c.cell)
  /-- At most one is WRITING (R32). -/
  oneWriting : ∀ i j : Fin 4, u.staging[i.val].isWriting = true → u.staging[j.val].isWriting = true → i = j
  /-- A cell retires only while it is written (R38). -/
  retiringWriting : u.retiring ≠ none → ∃ (i : Fin 4) (c : Staged), u.staging[i.val] = .writing c ∧ c.owner = none

/-- A RECEIVING record's lane is LOCKED in BODY, with as many bytes to come as the reception unit counts, or in TRAILER with
none (R12, R13, R30). -/
def HandedOver (x : Lane) (state : DescId → DescState) : Prop :=
  ∀ d, x.unit.list.getLast? = some d → state d = .receiving → x.rx.delin = .locked
    ∧ (x.rx.sub = .body ∧ x.rx.byteCount = x.unit.countdown ∧ 0 < x.unit.countdown
      ∨ x.rx.sub = .trailer ∧ x.unit.countdown = 0)

/-- Every cell and every descriptor stands in exactly one place (R65, R66), and the lanes' reception units keep what R29
says. -/
structure PlacesInv (s : State) : Prop where
  /-- While the pool is READY each descriptor stands in one of the places of R66, once. -/
  descs : s.pool.ready = true → ∀ d, (s.pool.freeDescs ++ s.records).count d = 1
  /-- A descriptor's state names its place (R63, R66); for the reception lists see `ReceptionInv`. -/
  free : ∀ d ∈ s.pool.freeDescs, (s.desc d).state = .free
  queued : ∀ t, ∀ d ∈ (s.stream t).queue, (s.desc d).state = .queued
  held : ∀ i h, (s.slot i).held = some h → (s.desc h.desc).state = .held
  /-- While the pool is READY each cell stands in one of the places of R65, once. -/
  cells : s.pool.ready = true → ∀ k, (s.pool.freeCells ++ s.records.flatMap s.chain ++ s.retiringCells).count k = 1
  /-- A record's chain has as many cells as its Cell Count, at least one, and ends (R28, R60). -/
  chains : ∀ d ∈ s.records, (s.chain d).length = (s.desc d).cellCount ∧ s.chain d ≠ []
    ∧ ∀ k, (s.chain d).getLast? = some k → linkOf s.pool.links k = none
  /-- While the pool is INITIALIZING every place is empty (R72). -/
  empty : s.pool.ready = false → s.pool.freeDescs = [] ∧ s.pool.freeCells = [] ∧ s.records = [] ∧ s.retiringCells = []
  lanes : ∀ l, ReceptionInv (s.lane l).unit (fun d => (s.desc d).state) s.chain (s.port.op = some (.write l))
  handed : ∀ l, HandedOver (s.lane l) fun d => (s.desc d).state
  /-- The reception lists are empty from CLEAR's first step to its second (R42). -/
  clearing : s.cmd.phase = .clearing .second → s.listsEmpty

end Machine
end Sys2Proof
end

