-- ==== Sys2Proof/Certificates/Slice0/Obligations.lean ====
section
/-! DEFINITION. The statements for the provers. Each docstring names the rule or the entry it rests on. -/

open Sys2Proof Sys2Proof.Machine

/-! ### The queue, reset and the host port -/

/-- A step of a state with command c at the front of its queue is exec c on the state with the queue's rest (entry 1). -/
def Obligations.StepRunsFrontCommand : Prop :=
  ∀ (c : Instr) (rest : List Instr) (s : State), s.pending = c :: rest → step s = exec c { s with pending := rest }

/-- No command touches the queue of the commands that wait; on an empty queue a step idles (entries 1 and 2). -/
def Obligations.ExecKeepsQueue : Prop :=
  (∀ (c : Instr) (s s' : State), exec c s = .next s' → s'.pending = s.pending)
    ∧ ∀ s : State, s.pending = [] → step s = .next s

/-- Every word of Table 11-1 but WIN_DATA reads, right after reset, the value of the table, and an unassigned word reads
0000h; INT_n and RDY are high. -/
def Obligations.RegistersAfterReset : Prop :=
  (∀ a : BitVec 7, a ≠ 0x2A →
    State.reset.busWord a = if a = 0x00 then 0x3620 else if a = 0x01 then 0x0001 else if a = 0x07 then 0x001F else 0x0000)
    ∧ State.reset.intLow = false ∧ State.reset.rdyHigh = true

/-- HARD_RESET completes in every state: every block takes its reset values, a held read ends with 0000h, a word that is
driven stays so until the host ends its cycle, and while RESET_n is low reads return 0000h, RDY is high and INT_n is high
(R176, R173). RESET_RELEASE completes: the build of the pool begins and the first interval is measured (R69, R139); after
HARD_RESET and RESET_RELEASE the part is as State.reset, but for the model's own epoch (entry 9), the driven lines and the
queue. -/
def Obligations.HardResetAndRelease : Prop :=
  (∀ s : State, ∃ t : State, exec .hardReset s = .next t
      ∧ t = { State.reset with
          host := { resetHigh := false, heldRead := false, driven := if s.host.heldRead then some 0 else s.host.driven }
          epoch := s.epoch + 1
          pending := s.pending }
      ∧ (∀ a, t.busWord a = 0) ∧ t.intLow = false ∧ t.rdyHigh = true)
  ∧ ((∀ s : State, s.host.resetHigh = false →
      exec .resetRelease s = .next { s with
        host := { s.host with resetHigh := true }
        pool := { s.pool with buildStart := s.time.count }
        port := { s.port with left := s.port.interval.toNat } })
      ∧ ∀ s t u : State, exec .hardReset s = .next t → exec .resetRelease t = .next u →
          u = { State.reset with
            host := { State.reset.host with driven := u.host.driven }, epoch := u.epoch, pending := s.pending })

/-- While RESET_n is low a write is ignored and a read returns 0000h (R176); while a WIN_DATA read is held no other host
access reaches the part (R127, entry 18); a host access comes after the cycle before it, whose lines are released (R173);
an edge on a DISABLED lane is ignored (R1, R7), whichever row it is given as (entry 5). -/
def Obligations.InputsThatAreIgnored : Prop :=
  ((∀ (c : Instr) (s : State), s.host.resetHigh = false → s.host.heldRead = false →
        (c.isHostWrite = true → exec c s = .next { s with host := { s.host with driven := none } })
          ∧ (c.isHostRead = true → exec c s = .next { s with host := { s.host with driven := some 0 } }))
      ∧ (∀ (c : Instr) (s : State), s.host.heldRead = true → c.isHostWrite = true ∨ c.isHostRead = true →
          exec c s = .next s)
      ∧ ∀ (c : Instr) (s : State), s.host.heldRead = false → c.isHostWrite = true ∨ c.isHostRead = true →
          exec c s = exec c { s with host := { s.host with driven := none } })
  ∧ (∀ (c : Instr) (s : State) (l : LaneId) (b : Bool), c.edgeOf = some (l, b) → (s.lane l).rx.delin = .disabled →
      exec c s = .next s)

/-! ### Lanes (Chapter 1) -/

/-- CANDIDATE completes: a window of 32 bits that passes puts the lane in PROVISIONAL with its Confirm Count, its own frame
still to be passed over (R8, R9). LANE_CLOCK_EDGE completes on an edge that completes no header, body byte or trailer: in
HUNT the window holds the last 32 bits (R8); elsewhere the bit joins those of the header or byte; the eighth bit of a byte
that is passed over in PROVISIONAL (R9) or SKIP lowers the byte count, and the last of SKIP awaits the next header (R13);
the first trailer byte is handed over (R13, R34). Every edge sets Silent to 0 and restarts the silence measure (R15), and
nothing else changes; a row that is an edge does what the edge does, whichever row it is given as (entry 5). Of an edge on a
lane whose silence is due see Silence. -/
def Obligations.LaneClockEdges : Prop :=
  ((∀ (c : Instr) (s : State) (l : LaneId) (b : Bool), c.edgeOf = some (l, b) → exec c s = exec (.laneClockEdge l b) s)
    ∧ (∀ (s : State) (l : LaneId) (b : Bool) (w : List Bool), s.host.resetHigh = true → s.heardInTime l →
      (s.lane l).rx.delin = .hunt → w = ((s.lane l).rx.bits ++ [b]).drop ((s.lane l).rx.bits.length + 1 - 32) →
      (¬(w.length = 32 ∧ (headerOfBits w).passes = true) →
        exec (.laneClockEdge l b) s = .next (s.setRx l { (s.lane l).rx.heard s.now with bits := w }))
      ∧ (w.length = 32 → (headerOfBits w).passes = true →
        exec (.candidate l b) s = .next (s.setRx l { (s.lane l).rx.heard s.now with
          delin := .provisional
          sub := .awaitHeader
          remaining := (s.lane l).entry.confirmCount.toNat
          byteCount := if (headerOfBits w).length = 0 then 0 else if (headerOfBits w).length = 1 then 3
            else (headerOfBits w).length.toNat + 2
          bits := [] }))))
  ∧ (∀ (s : State) (l : LaneId) (b : Bool) (rx : Receiver), rx = (s.lane l).rx → s.host.resetHigh = true →
      s.heardInTime l →
      (rx.delin = .provisional →
        ((0 < rx.byteCount ∧ rx.bits.length + 1 ≠ 8) ∨ (rx.byteCount = 0 ∧ rx.bits.length + 1 ≠ 32) →
          exec (.laneClockEdge l b) s = .next (s.setRx l { rx.heard s.now with bits := rx.bits ++ [b] }))
        ∧ (0 < rx.byteCount → rx.bits.length + 1 = 8 →
          exec (.laneClockEdge l b) s = .next (s.setRx l { rx.heard s.now with
            byteCount := rx.byteCount - 1, bits := [] })))
      ∧ (rx.delin = .locked →
        ((rx.sub = .awaitHeader ∧ rx.bits.length + 1 ≠ 32) ∨ (rx.sub ≠ .awaitHeader ∧ rx.bits.length + 1 ≠ 8) →
          exec (.laneClockEdge l b) s = .next (s.setRx l { rx.heard s.now with bits := rx.bits ++ [b] }))
        ∧ (rx.sub = .skip → rx.bits.length + 1 = 8 →
          exec (.laneClockEdge l b) s = .next (s.setRx l (if rx.byteCount ≤ 1
            then { rx.heard s.now with sub := .awaitHeader, byteCount := 0, bits := [] }
            else { rx.heard s.now with byteCount := rx.byteCount - 1, bits := [] })))
        ∧ (rx.sub = .trailer → rx.bits.length + 1 = 8 → 1 < rx.byteCount →
          exec (.laneClockEdge l b) s = .next ((s.setUnit l { (s.lane l).unit with
            trailer := (s.lane l).unit.trailer ++ [byteOfBits (rx.bits ++ [b])] }).setRx l { rx.heard s.now with
              byteCount := rx.byteCount - 1, bits := [] }))))

/-- PROVISIONAL_HEADER completes: a failing header sends the lane back to HUNT; a passing one lowers confirmations
remaining and, while it is above 0, the frame is passed over (R10); when it reaches 0 the lane is LOCKED with Miss Count 0,
LANE_SYNC is latched, and the header is acted on as HEADER acts on it on that lane in AWAIT_HEADER (R11, R12, R21): an idle
frame awaits the next header, a runt is counted, a record is offered. Nothing else changes. -/
def Obligations.ProvisionalHeader : Prop :=
  (∀ (s : State) (l : LaneId) (b : Bool) (h : Header), s.endsProvisionalHeader l b h →
      (h.passes = false →
        exec (.provisionalHeader l b) s = .next (s.setRx l { (s.lane l).rx.heard s.now with
          delin := .hunt, sub := .awaitHeader, remaining := 0, missCount := 0, byteCount := 0, bits := [] }))
      ∧ (h.passes = true → 1 < (s.lane l).rx.remaining →
        exec (.provisionalHeader l b) s = .next (s.setRx l { (s.lane l).rx.heard s.now with
          remaining := (s.lane l).rx.remaining - 1
          byteCount := if h.length = 0 then 0 else if h.length = 1 then 3 else h.length.toNat + 2
          bits := [] })))
  ∧ (∀ (s locked : State) (l : LaneId) (b : Bool) (h : Header), s.endsProvisionalHeader l b h → h.passes = true →
      (s.lane l).rx.remaining ≤ 1 →
      locked = (s.setRx l { (s.lane l).rx with
        delin := .locked, sub := .awaitHeader, remaining := 0, missCount := 0 }).latch .laneSync →
      locked.endsHeader l b h ∧ exec (.provisionalHeader l b) s = exec (.header l b) locked
        ∧ (∃ t : State, exec (.provisionalHeader l b) s = .next t)
        ∧ (h.length = 0 → exec (.provisionalHeader l b) s = .next ((s.setRx l { (s.lane l).rx.heard s.now with
            delin := .locked, sub := .awaitHeader, remaining := 0, missCount := 0, byteCount := 0, bits := [] }).latch
              .laneSync))
        ∧ (h.length = 1 → exec (.provisionalHeader l b) s = .next (((s.setRx l { (s.lane l).rx.heard s.now with
            delin := .locked, sub := .skip, remaining := 0, missCount := 0, byteCount := 3, bits := [] }).latch
              .laneSync).bumpLane l .runts)))

/-- HEADER completes on an idle frame and on a runt: the miss count is 0, a runt is counted and skipped (R12); and on a
failing header: Headers Missed and the miss count rise; past the Miss Tolerance the lane leaves LOCKED for HUNT with Sync
Losses and LANE_SYNC, otherwise the failed header's Length is trusted (R14). Nothing else changes. -/
def Obligations.HeaderWithoutRecord : Prop :=
  (∀ (s : State) (l : LaneId) (b : Bool) (h : Header), s.endsHeader l b h → h.passes = true →
      (h.length = 0 → exec (.header l b) s = .next (s.setRx l { (s.lane l).rx.heard s.now with
          missCount := 0, byteCount := 0, bits := [] }))
      ∧ (h.length = 1 → exec (.header l b) s = .next ((s.setRx l { (s.lane l).rx.heard s.now with
          sub := .skip, missCount := 0, byteCount := 3, bits := [] }).bumpLane l .runts)))
  ∧ (∀ (s : State) (l : LaneId) (b : Bool) (h : Header), s.endsHeader l b h → h.passes = false →
      ((s.lane l).entry.missTolerance.toNat < (s.lane l).rx.missCount + 1 →
        exec (.header l b) s = .next ((((s.setRx l { (s.lane l).rx.heard s.now with
          delin := .hunt, sub := .awaitHeader, remaining := 0, missCount := 0, byteCount := 0, bits := [] }).bumpLane l
            .headersMissed).bumpLane l .syncLosses).latch .laneSync))
      ∧ ((s.lane l).rx.missCount + 1 ≤ (s.lane l).entry.missTolerance.toNat →
        exec (.header l b) s = .next ((s.setRx l (if h.length = 0 then
            { (s.lane l).rx.heard s.now with missCount := (s.lane l).rx.missCount + 1, bits := [] }
          else { (s.lane l).rx.heard s.now with
            missCount := (s.lane l).rx.missCount + 1
            sub := .skip
            byteCount := if h.length = 1 then 3 else h.length.toNat + 2
            bits := [] })).bumpLane l .headersMissed)))

/-- SILENCE completes on a lane with no record in BODY or TRAILER: LANE_SILENT, Silent 1, HUNT with an empty window; a
LOCKED lane also raises Sync Losses and latches LANE_SYNC (R15); nothing else changes. With RECEIVING record d in BODY or
TRAILER the record is also aborted with cause Cut: Records Cut, RECORD_DROP and what R37 gives; the records ahead of it, their
staging cells and their writes stand as they did (R15, R37, R39), and nothing else changes. An edge on a lane whose silence is
due is the edge after SILENCE, the first bit of the new search window with Silent 0 (R15). On a DISABLED lane, on one that is
silent already, and before 50 µs have passed no silence is detected (R1, R15). That silence which is due may be detected
before or after the other acts of its microsecond is the model's choice (entry 24). -/
def Obligations.Silence : Prop :=
  (∀ (s : State) (l : LaneId) (rx : Receiver), rx = (s.lane l).rx → s.host.resetHigh = true →
      rx.delin ≠ .disabled → rx.silent = false → 50 ≤ (s.time.count - rx.lastEdge).toNat →
      (rx.delin ≠ .locked → exec (.silence l) s = .next ((s.setRx l { rx with
          delin := .hunt, sub := .awaitHeader, remaining := 0, missCount := 0, byteCount := 0, bits := []
          silent := true }).latch .laneSilent))
      ∧ (rx.delin = .locked → rx.sub = .awaitHeader ∨ rx.sub = .skip → exec (.silence l) s = .next ((((s.setRx l { rx with
          delin := .hunt, sub := .awaitHeader, remaining := 0, missCount := 0, byteCount := 0, bits := []
          silent := true }).latch .laneSilent).bumpLane l .syncLosses).latch .laneSync)))
  ∧ (∀ (s : State) (l : LaneId) (rx : Receiver) (d : DescId), rx = (s.lane l).rx → s.host.resetHigh = true →
      rx.delin = .locked → rx.sub = .body ∨ rx.sub = .trailer → rx.silent = false →
      50 ≤ (s.time.count - rx.lastEdge).toNat → s.receiving l = some d →
      ∃ t : State, exec (.silence l) s = .next t
        ∧ (t.lane l).rx = { rx with
            delin := .hunt, sub := .awaitHeader, remaining := 0, missCount := 0, byteCount := 0, bits := [], silent := true }
        ∧ s.aborted t l d
        ∧ t.laneCount l .recordsCut = bump (s.laneCount l .recordsCut)
        ∧ t.laneCount l .syncLosses = bump (s.laneCount l .syncLosses)
        ∧ s.countsOnly t [(l, .recordsCut), (l, .syncLosses)] [] []
        ∧ t.latched .recordDrop = true ∧ t.latched .laneSilent = true ∧ t.latched .laneSync = true
        ∧ s.latchesOnly t [.recordDrop, .laneSilent, .laneSync]
        ∧ (t.lane l).entry = (s.lane l).entry ∧ (∀ m, m ≠ l → t.lane m = s.lane m)
        ∧ t = { s with
            lanes := t.lanes, streams := t.streams
            pool := { s.pool with
              freeCells := t.pool.freeCells, freeDescs := t.pool.freeDescs, links := t.pool.links, descs := t.pool.descs }
            counts := { s.counts with lanes := t.counts.lanes }, events := { s.events with latches := t.events.latches } })
  ∧ (∀ (s t : State) (l : LaneId) (b : Bool), exec (.silence l) s = .next t →
      exec (.laneClockEdge l b) s = exec (.laneClockEdge l b) t
        ∧ exec (.laneClockEdge l b) s = .next (t.setRx l { (t.lane l).rx.heard t.now with bits := [b] }))
  ∧ ∀ (s : State) (l : LaneId), s.heardInTime l → exec (.silence l) s = .refused (.notEnabled "SILENCE")

/-! ### Reception (Chapters 2, 3 and 5) -/

/-- Classification: the matching entry of lowest index decides; a Store gives its stream with index and Edition, a Discard
gives none; with no match the lane's defaults decide (R44, R45, R46). -/
def Obligations.Classification : Prop :=
  ∀ (s : State) (l : LaneId) (tag : Byte),
    (∀ i : RouteId,
      let fits := fun e : RouteEntry => e.valid = true ∧ (e.laneMatch = none ∨ e.laneMatch = some l)
        ∧ ∀ k < 8, e.tagMask.getLsbD k = true → tag.getLsbD k = e.tag.getLsbD k
      fits (s.route i) → (∀ j : RouteId, j < i → ¬fits (s.route j)) →
        s.classify l tag = if (s.route i).action = .store then some ((s.route i).stream, some (i, (s.route i).edition))
          else none)
    ∧ ((∀ j : RouteId, ¬((s.route j).valid = true ∧ ((s.route j).laneMatch = none ∨ (s.route j).laneMatch = some l)
        ∧ ∀ k < 8, (s.route j).tagMask.getLsbD k = true → tag.getLsbD k = (s.route j).tag.getLsbD k)) →
        s.classify l tag = if (s.lane l).entry.defaultAction = .store then some ((s.lane l).entry.defaultStream, none)
          else none)

/-- HEADER completes on a record header that is refused: for Not Ready and Route Discard without a stream, for Stream
Disabled and a room cause with one; nothing is reserved, RECORD_DROP is latched and the lane skips (R22 to R26, R85). -/
def Obligations.HeaderRefused : Prop :=
  ∀ (s : State) (l : LaneId) (b : Bool) (h : Header) (skip : State), s.endsHeader l b h → h.passes = true →
    2 ≤ h.length.toNat →
    skip = s.setRx l { (s.lane l).rx.heard s.now with
      sub := .skip, missCount := 0, byteCount := h.length.toNat + 2, bits := [] } →
    (s.pool.ready = false ∨ s.cmd.phase = .clearing .second ∨ s.classify l h.tag = none →
      exec (.header l b) s = .next ((skip.bumpLane l .recordsRefused).latch .recordDrop))
    ∧ (s.pool.ready = true → s.cmd.phase ≠ .clearing .second →
      ∀ (u : StreamId) (r : Option (RouteId × Byte)) (n : Nat), s.classify l h.tag = some (u, r) →
        n = (h.length.toNat + 63) / 64 →
        (s.stream u).entry.enable = false
          ∨ (¬((s.stream u).charge + n ≤ (s.stream u).entry.quota ∧ n ≤ s.pool.freeCells.length
                ∧ 1 ≤ s.pool.freeDescs.length)
              ∧ ((s.stream u).entry.policy = .refuseNewest ∨ s.evictionEnough u n = false)) →
        exec (.header l b) s = .next (((skip.bumpLane l .recordsRefused).bumpStream u .recordsRefused).latch .recordDrop))

/-- HEADER completes on a record header that is accepted as things stand: the head descriptor with the fields of Table
2-3, the head n cells linked in the order taken, the last to End, every other link as it was (R28, R60), the charge, the
reception unit set afresh, BODY (R27, R12), the watermark bit (R91) and Pool Low (R74). Nothing else changes. -/
def Obligations.HeaderAccepted : Prop :=
  ∀ (s : State) (l : LaneId) (b : Bool) (h : Header) (u : StreamId) (r : Option (RouteId × Byte)) (n : Nat)
    (d : DescId) (ds : List DescId), s.endsHeader l b h → h.passes = true → 2 ≤ h.length.toNat →
    s.pool.ready = true → s.cmd.phase ≠ .clearing .second → s.classify l h.tag = some (u, r) →
    (s.stream u).entry.enable = true → n = (h.length.toNat + 63) / 64 →
    (s.stream u).charge + n ≤ (s.stream u).entry.quota → n ≤ s.pool.freeCells.length → s.pool.freeDescs = d :: ds →
    s.pool.freeCells.Nodup →
    ∃ t : State, exec (.header l b) s = .next t
      ∧ t.desc d = {
          state := .receiving, stream := u, lane := l, tag := h.tag, kind := h.kind, length := h.length
          sequence := none, arrival := s.time.count, completion := none, firstCell := s.pool.freeCells.headD 0
          cellCount := n, route := r, damaged := false, gapBefore := false, outOfOrder := false, unchecked := false
          suspect := false, gapSize := none, deliveryCount := 0 }
      ∧ (∀ e, e ≠ d → t.desc e = s.desc e)
      ∧ t.pool.freeDescs = ds ∧ t.pool.freeCells = s.pool.freeCells.drop n ∧ t.chain d = s.pool.freeCells.take n
      ∧ (∀ k, (s.pool.freeCells.take n).getLast? = some k → linkOf t.pool.links k = none)
      ∧ (∀ k, k ∉ s.pool.freeCells.take n → linkOf t.pool.links k = linkOf s.pool.links k)
      ∧ t.stream u = { s.stream u with charge := (s.stream u).charge + n } ∧ (∀ v, v ≠ u → t.stream v = s.stream v)
      ∧ (t.lane l).unit = { (s.lane l).unit with
          list := (s.lane l).unit.list ++ [d], countdown := h.length.toNat, chainCell := 0, chainByte := 0
          check := 0xFFFF, trailer := [] }
      ∧ (t.lane l).rx = { (s.lane l).rx.heard s.now with
          sub := .body, missCount := 0, byteCount := h.length.toNat, bits := [] }
      ∧ (t.lane l).entry = (s.lane l).entry ∧ (∀ m, m ≠ l → t.lane m = s.lane m)
      ∧ t.events.watermarks = (if (s.stream u).charge < (s.stream u).entry.watermark
            ∧ (s.stream u).entry.watermark ≤ (s.stream u).charge + n
          then s.events.watermarks ||| ((1 : BitVec 32) <<< u.val) else s.events.watermarks)
      ∧ (if s.pool.lowThreshold ≤ s.pool.freeCells.length ∧ s.pool.freeCells.length - n < s.pool.lowThreshold
          then t.latched .poolLow = true ∧ t.deviceCount .poolLowEvents = bump (s.deviceCount .poolLowEvents)
          else t.events.latches = s.events.latches ∧ t.counts = s.counts)
      ∧ s.countsOnly t [] [] [.poolLowEvents] ∧ s.latchesOnly t [.poolLow]
      ∧ t = { s with
          lanes := t.lanes, streams := t.streams
          pool := { s.pool with
            freeDescs := t.pool.freeDescs, freeCells := t.pool.freeCells, links := t.pool.links, descs := t.pool.descs }
          counts := { s.counts with device := t.counts.device }
          events := { s.events with latches := t.events.latches, watermarks := t.events.watermarks } }

/-- Admission under Evict Oldest when a condition of R84 fails. With eviction not enough nothing changes and the answer is a
refusal (R86). With eviction enough the least number k of head records that makes the three conditions hold leaves the
queue, oldest first: each is freed, its cells and descriptor at the tails of the free lists, the charge falls by its cells,
Records Evicted rises and RECORD_DROP is latched; the conditions then hold and the answer is the grant (R86, R67), and HEADER
completes as on the state the evictions leave (R87, R27). A purge whose head goes ends with it (R97, entry 8). Premises: the
stream's queue holds its own records, each once, with whole chains that share no cell, and its charge counts them (R65,
R66, R78). -/
def Obligations.EvictionOldestFirst : Prop :=
  ∀ (s : State) (u : StreamId) (n : Nat) (cells : Nat → Nat), (s.stream u).entry.policy = .evictOldest →
    ¬((s.stream u).charge + n ≤ (s.stream u).entry.quota ∧ n ≤ s.pool.freeCells.length ∧ 1 ≤ s.pool.freeDescs.length) →
    (∀ j, cells j = (((s.stream u).queue.take j).map fun d => (s.desc d).cellCount).sum) →
    (s.evictionEnough u n = false → (s.admission u n).1 = s ∧ (s.admission u n).2 ≠ none)
    ∧ (s.evictionEnough u n = true → s.apart (s.stream u).queue →
        (∀ d ∈ (s.stream u).queue, (s.desc d).stream = u ∧ (s.chain d).length = (s.desc d).cellCount) →
        cells (s.stream u).queue.length ≤ (s.stream u).charge →
        (∃ (k : Nat) (gone : List DescId) (t : State), k ≤ (s.stream u).queue.length ∧ 0 < k
          ∧ gone = (s.stream u).queue.take k ∧ s.admission u n = (t.settlePurge, none)
          ∧ t.stream u = { s.stream u with
              queue := (s.stream u).queue.drop k, charge := (s.stream u).charge - cells k }
          ∧ (∀ v, v ≠ u → t.stream v = s.stream v)
          ∧ ((s.stream u).charge - cells k + n ≤ (s.stream u).entry.quota ∧ n ≤ s.pool.freeCells.length + cells k
              ∧ 1 ≤ s.pool.freeDescs.length + k)
          ∧ (∀ j, j < k → ¬((s.stream u).charge - cells j + n ≤ (s.stream u).entry.quota
              ∧ n ≤ s.pool.freeCells.length + cells j ∧ 1 ≤ s.pool.freeDescs.length + j))
          ∧ s.cellsReturned t (gone.flatMap s.chain) ∧ (gone.flatMap s.chain).length = cells k
          ∧ t.pool.freeDescs = s.pool.freeDescs ++ gone
          ∧ (∀ d ∈ gone, t.desc d = { s.desc d with state := .free }) ∧ (∀ d, d ∉ gone → t.desc d = s.desc d)
          ∧ t.streamCount u .recordsEvicted = bump^[k] (s.streamCount u .recordsEvicted)
          ∧ s.countsOnly t [] [(u, .recordsEvicted)] [] ∧ t.latched .recordDrop = true ∧ s.latchesOnly t [.recordDrop]
          ∧ t = { s with
              streams := t.streams
              pool := { s.pool with
                freeCells := t.pool.freeCells, freeDescs := t.pool.freeDescs, links := t.pool.links
                descs := t.pool.descs }
              counts := { s.counts with streams := t.counts.streams }
              events := { s.events with latches := t.events.latches } })
        ∧ ∀ (l : LaneId) (b : Bool) (h : Header) (r : Option (RouteId × Byte)), s.endsHeader l b h → h.passes = true →
            2 ≤ h.length.toNat → s.pool.ready = true → s.cmd.phase ≠ .clearing .second →
            s.classify l h.tag = some (u, r) → (s.stream u).entry.enable = true → n = (h.length.toNat + 63) / 64 →
            exec (.header l b) s = exec (.header l b) (s.admission u n).1
              ∧ ∃ t : State, exec (.header l b) s = .next t ∧ (t.lane l).rx.sub = .body)

/-- BODY_BYTE completes when the RECEIVING record has a staging cell for the byte: check register, countdown, chain
position and staging cell advance; a full or last cell is padded with 00h, PENDING and last in the write order; the
second byte gives the Sequence (R13, R30, R31); nothing else changes. On a staging overrun, none of the four staging cells
FREE or FILLING for the record, the byte is discarded, the record is aborted by R37, Staging Overruns rises, RECORD_DROP is
latched and the lane skips the rest; the records ahead keep their staging cells (R33, R37, R13), and nothing else changes.
Which FREE staging cell is claimed is entry 11's. -/
def Obligations.BodyByte : Prop :=
  (∀ (s : State) (l : LaneId) (b : Bool) (x : Byte) (d : DescId) (i : Fin 4) (c : Staged) (u : Reception),
      s.endsByte l b .body x → s.receiving l = some d → s.stagingFor l d = some (i, c) → u = (s.lane l).unit →
      ∃ t : State, exec (.bodyByte l b) s = .next t
        ∧ (t.lane l).unit.check = recordCheckByte u.check x
        ∧ (t.lane l).unit.countdown = u.countdown - 1
        ∧ (t.lane l).unit.chainCell = (if u.chainByte + 1 = 64 then u.chainCell + 1 else u.chainCell)
        ∧ (t.lane l).unit.chainByte = (if u.chainByte + 1 = 64 then 0 else u.chainByte + 1)
        ∧ (if c.bytes.length + 1 = 64 ∨ u.countdown ≤ 1
            then (t.lane l).unit.staging[i.val] = .pending { c with
                  bytes := c.bytes ++ [x] ++ List.replicate (64 - (c.bytes.length + 1)) 0 }
              ∧ (t.lane l).unit.order = u.order ++ [i]
            else (t.lane l).unit.staging[i.val] = .filling { c with bytes := c.bytes ++ [x] }
              ∧ (t.lane l).unit.order = u.order)
        ∧ (∀ j : Fin 4, j ≠ i → (t.lane l).unit.staging[j.val] = u.staging[j.val])
        ∧ (t.lane l).unit.list = u.list ∧ (t.lane l).unit.retiring = u.retiring ∧ (t.lane l).unit.trailer = u.trailer
        ∧ (t.lane l).rx = (if (s.lane l).rx.byteCount ≤ 1
            then { (s.lane l).rx.heard s.now with sub := .trailer, byteCount := 2, bits := [] }
            else { (s.lane l).rx.heard s.now with byteCount := (s.lane l).rx.byteCount - 1, bits := [] })
        ∧ t.desc d = (if u.chainCell = 0 ∧ u.chainByte = 1
            then { s.desc d with sequence := some (sequenceOf (c.bytes ++ [x])) } else s.desc d)
        ∧ (∀ e, e ≠ d → t.desc e = s.desc e)
        ∧ (t.lane l).entry = (s.lane l).entry ∧ (∀ m, m ≠ l → t.lane m = s.lane m)
        ∧ t = { s with lanes := t.lanes, pool := { s.pool with descs := t.pool.descs } })
  ∧ (∀ (s : State) (l : LaneId) (b : Bool) (x : Byte) (d : DescId), s.endsByte l b .body x → s.receiving l = some d →
      (∀ i : Fin 4, (s.lane l).unit.staging[i.val].isFree = false
        ∧ (s.lane l).unit.staging[i.val].fillingFor d = false) →
      ∃ t : State, exec (.bodyByte l b) s = .next t
        ∧ (t.lane l).rx = { (s.lane l).rx.heard s.now with
            sub := .skip, byteCount := (s.lane l).rx.byteCount - 1 + 2, bits := [] }
        ∧ s.aborted t l d
        ∧ t.laneCount l .stagingOverruns = bump (s.laneCount l .stagingOverruns)
        ∧ s.countsOnly t [(l, .stagingOverruns)] [] []
        ∧ t.latched .recordDrop = true ∧ s.latchesOnly t [.recordDrop]
        ∧ (t.lane l).entry = (s.lane l).entry ∧ (∀ m, m ≠ l → t.lane m = s.lane m)
        ∧ t = { s with
            lanes := t.lanes, streams := t.streams
            pool := { s.pool with
              freeCells := t.pool.freeCells, freeDescs := t.pool.freeDescs, links := t.pool.links, descs := t.pool.descs }
            counts := { s.counts with lanes := t.counts.lanes }, events := { s.events with latches := t.events.latches } })

/-- TRAILER_CHECK completes on a trailer that matches: a record with cells still to be written, or not at the head of its
list, becomes COMPLETING and stays (R34); a record at the head with none of its cells PENDING or WRITING completes at once:
the next Completion Number, sequence tracking with the flags, Gap Size, route entry and stream counter that SequenceCheck
gives it (R51, Table 3-4), the tail of its stream's queue, Records Stored and Records Queued (R34, R36, R81, R165). The lane
awaits the next header and nothing else changes, but that a purge whose head is no target after it ends (R96, entry 8). -/
def Obligations.TrailerMatches : Prop :=
  (∀ (s : State) (l : LaneId) (b : Bool) (y x : Byte) (d : DescId), s.endsByte l b .trailer x →
      (s.lane l).rx.byteCount = 1 → (s.lane l).unit.trailer = [y] → s.receiving l = some d →
      (s.lane l).unit.check = y ++ x →
      (s.lane l).unit.list.head? ≠ some d ∨ (∃ i : Fin 4, (s.lane l).unit.staging[i.val].busyFor d = true) →
      ∃ t : State, exec (.trailerCheck l b) s = .next t
        ∧ (t.lane l).rx = { (s.lane l).rx.heard s.now with sub := .awaitHeader, byteCount := 0, bits := [] }
        ∧ (t.lane l).unit = { (s.lane l).unit with trailer := [y, x] }
        ∧ t.desc d = { s.desc d with state := .completing } ∧ (∀ e, e ≠ d → t.desc e = s.desc e)
        ∧ (t.lane l).entry = (s.lane l).entry ∧ (∀ m, m ≠ l → t.lane m = s.lane m)
        ∧ t = { s with lanes := t.lanes, pool := { s.pool with descs := t.pool.descs } })
  ∧ (∀ (s : State) (l : LaneId) (b : Bool) (y x : Byte) (d : DescId), s.endsByte l b .trailer x →
      (s.lane l).rx.byteCount = 1 → (s.lane l).unit.trailer = [y] → s.receiving l = some d →
      (s.lane l).unit.check = y ++ x → (s.lane l).unit.list.head? = some d →
      (∀ i : Fin 4, (s.lane l).unit.staging[i.val].busyFor d = false) →
      ∃ t : State, exec (.trailerCheck l b) s = .next t.settlePurge
        ∧ (t.lane l).rx = { (s.lane l).rx.heard s.now with sub := .awaitHeader, byteCount := 0, bits := [] }
        ∧ (t.lane l).unit = { (s.lane l).unit with trailer := [y, x], list := (s.lane l).unit.list.tail }
        ∧ s.completed t l d (s.desc d)
        ∧ t = { s with
            lanes := t.lanes, routes := t.routes, streams := t.streams, pool := { s.pool with descs := t.pool.descs }
            counts := t.counts })

/-- TRAILER_CHECK completes on a trailer that does not match: Records Damaged rises. With Keep Damaged 0 the record is
aborted by R37 with RECORD_DROP, the records ahead of it as they were. With Keep Damaged 1 it is flagged Damaged and goes on
as after a match: COMPLETING, or, at the head with none of its cells PENDING or WRITING, completed at once, neither checked
nor tracked (R35, R36, R37). The lane awaits the next header and nothing else changes, but that a purge whose head is no
target after a completion ends (R96, entry 8). -/
def Obligations.TrailerDamaged : Prop :=
  ∀ (s : State) (l : LaneId) (b : Bool) (y x : Byte) (d : DescId) (rx : Receiver), s.endsByte l b .trailer x →
    (s.lane l).rx.byteCount = 1 → (s.lane l).unit.trailer = [y] → s.receiving l = some d →
    (s.lane l).unit.check ≠ y ++ x →
    rx = { (s.lane l).rx.heard s.now with sub := .awaitHeader, byteCount := 0, bits := [] } →
    ((s.lane l).entry.keepDamaged = false → ∃ t : State, exec (.trailerCheck l b) s = .next t ∧ (t.lane l).rx = rx
        ∧ (s.setUnit l { (s.lane l).unit with trailer := [y, x] }).aborted t l d
        ∧ t.laneCount l .recordsDamaged = bump (s.laneCount l .recordsDamaged)
        ∧ s.countsOnly t [(l, .recordsDamaged)] [] [] ∧ t.latched .recordDrop = true ∧ s.latchesOnly t [.recordDrop]
        ∧ (t.lane l).entry = (s.lane l).entry ∧ (∀ m, m ≠ l → t.lane m = s.lane m)
        ∧ t = { s with
            lanes := t.lanes, streams := t.streams, counts := { s.counts with lanes := t.counts.lanes }
            events := { s.events with latches := t.events.latches }
            pool := { s.pool with
              freeCells := t.pool.freeCells, freeDescs := t.pool.freeDescs, links := t.pool.links
              descs := t.pool.descs } })
    ∧ ((s.lane l).entry.keepDamaged = true →
        ((s.lane l).unit.list.head? ≠ some d ∨ (∃ i : Fin 4, (s.lane l).unit.staging[i.val].busyFor d = true) →
          ∃ t : State, exec (.trailerCheck l b) s = .next t ∧ (t.lane l).rx = rx
            ∧ (t.lane l).unit = { (s.lane l).unit with trailer := [y, x] }
            ∧ t.desc d = { s.desc d with state := .completing, damaged := true } ∧ (∀ e, e ≠ d → t.desc e = s.desc e)
            ∧ (t.lane l).entry = (s.lane l).entry ∧ (∀ m, m ≠ l → t.lane m = s.lane m)
            ∧ t = { s.bumpLane l .recordsDamaged with lanes := t.lanes, pool := { s.pool with descs := t.pool.descs } })
        ∧ ((s.lane l).unit.list.head? = some d → (∀ i : Fin 4, (s.lane l).unit.staging[i.val].busyFor d = false) →
          ∃ t : State, exec (.trailerCheck l b) s = .next t.settlePurge ∧ (t.lane l).rx = rx
            ∧ (t.lane l).unit = { (s.lane l).unit with trailer := [y, x], list := (s.lane l).unit.list.tail }
            ∧ (s.bumpLane l .recordsDamaged).completed t l d { s.desc d with damaged := true }
            ∧ t.routes = s.routes ∧ t.streamCount (s.desc d).stream .gapEvents = s.streamCount (s.desc d).stream .gapEvents
            ∧ t.streamCount (s.desc d).stream .sequenceErrors = s.streamCount (s.desc d).stream .sequenceErrors
            ∧ t = { s with
                lanes := t.lanes, streams := t.streams, pool := { s.pool with descs := t.pool.descs }
                counts := t.counts }))

/-- Sequence tracking: a record with the Damaged flag, without a deciding entry or whose entry has Sequence Check 0 gets
neither a check nor an update (R51); otherwise it is Unchecked when the Editions differ, and else has one of the four
outcomes of Table 3-4 (R52, R53, R54). Nothing else changes. -/
def Obligations.SequenceCheck : Prop :=
  (∀ (s : State) (d : DescId), (s.desc d).damaged = true ∨ (s.desc d).route = none
      ∨ (∃ i e, (s.desc d).route = some (i, e) ∧ (s.route i).seqCheck = false) → s.track d = s)
  ∧ ∀ (s : State) (d : DescId) (i : RouteId) (edition : Byte) (x : Desc) (e : RouteEntry) (q gap : Word),
    x = s.desc d → x.damaged = false → x.route = some (i, edition) → e = s.route i → e.seqCheck = true →
    x.sequence = some q → gap = q - e.expected →
    (edition ≠ e.edition → s.track d = s.setDesc d { x with unchecked := true })
    ∧ (edition = e.edition → e.expectedKnown = false →
        s.track d = s.setRoute i { e with expected := q + 1, expectedKnown := true })
    ∧ (edition = e.edition → e.expectedKnown = true → gap = 0 → s.track d = s.setRoute i { e with expected := q + 1 })
    ∧ (edition = e.edition → e.expectedKnown = true → 1 ≤ gap.toNat → gap.toNat ≤ 32767 →
        s.track d = ((s.setDesc d { x with gapBefore := true, gapSize := some gap }).setRoute i
          { e with expected := q + 1 }).bumpStream x.stream .gapEvents)
    ∧ (edition = e.edition → e.expectedKnown = true → 32768 ≤ gap.toNat →
        s.track d = (s.setDesc d { x with outOfOrder := true }).bumpStream x.stream .sequenceErrors)

/-! ### The memory port (Chapter 8) -/

/-- PORT_GRANT completes: a refresh at a balance of +6 or more, or with no requester waiting at a balance above −8, lowers
the balance by 1; below +6 the first requester waiting after the round-robin position is granted and becomes the position
(a lane's oldest PENDING cell becomes WRITING, the window's request becomes the read in flight of the cell the chain
lookup gives); otherwise the port stays free (R136, R137, R138, R32, R125). A refresh takes 0.64 µs and a cell write or read
0.16 µs (R134), which the model keeps as the earliest end of the operation, its choice (entry 23). Nothing else changes. -/
def Obligations.PortGrant : Prop :=
  (∀ s : State, s.host.resetHigh = true → s.port.op = none →
      (6 ≤ s.port.balance → exec .portGrant s = .next { s with
        port := { s.port.started .refresh 64 with balance := s.port.balance - 1 } })
      ∧ (s.port.balance < 6 → (∀ r, s.requesterWaiting r = false) →
        (-8 < s.port.balance → exec .portGrant s = .next { s with
          port := { s.port.started .refresh 64 with balance := s.port.balance - 1 } })
        ∧ (s.port.balance ≤ -8 → exec .portGrant s = .next s)))
  ∧ (∀ (s : State) (k : Fin 9) (r : Requester), s.host.resetHigh = true → s.port.op = none → s.port.balance < 6 →
      r = s.port.position + 1 + k → (∀ j : Fin 9, j < k → s.requesterWaiting (s.port.position + 1 + j) = false) →
      s.requesterWaiting r = true →
      (∀ (l : LaneId) (i : Fin 4) (c : Staged), r.val = l.val → (s.lane l).unit.order.head? = some i →
        (s.lane l).unit.staging[i.val] = .pending c →
        exec .portGrant s = .next { s.setUnit l { (s.lane l).unit with
              order := (s.lane l).unit.order.tail, staging := (s.lane l).unit.staging.set i.val (.writing c) } with
            port := { s.port.started (.write l) 16 with position := r } })
      ∧ (∀ (p : Nat) (h : Holding), r = 8 → s.window.request = some p → s.pointedHolding = some h →
        exec .portGrant s = .next { s with
            window := { s.window with request := none }
            port := { s.port.started (.read (s.chainCellAt h.desc p) p h.desc false) 16 with position := r } }))

/-- CELL_WRITE_COMPLETE completes: the 64 bytes stand in the cell and every other byte of the buffer memory reads as
before; the staging cell is FREE and the port free; a retiring cell joins the tail of the free cell list with its link End
(R32, R38, R59, R134). Where it completes no record nothing else changes; where it does see LastWriteCompletesTheRecord.
That it comes no earlier than the write may end, and what the port's times are after it, is entry 23's (a model's choice). -/
def Obligations.CellWriteStores : Prop :=
  ∀ (s : State) (l : LaneId) (i : Fin 4) (c : Staged), s.host.resetHigh = true → s.port.op = some (.write l) →
    s.opMayEnd → (s.lane l).unit.staging[i.val] = .writing c → (∀ j : Fin 4, j ≠ i → (s.lane l).unit.staging[j.val].isWriting = false) →
    c.bytes.length = 64 →
    ∃ t : State, exec .cellWriteComplete s = .next t
      ∧ (∀ j, j < 64 → t.byteAt (c.cell.val * 64 + j) = c.bytes.getD j 0)
      ∧ (∀ a, a < c.cell.val * 64 ∨ c.cell.val * 64 + 64 ≤ a → t.byteAt a = s.byteAt a)
      ∧ (t.lane l).unit.staging = (s.lane l).unit.staging.set i.val .free ∧ (t.lane l).unit.retiring = none
      ∧ (t.lane l).rx = (s.lane l).rx ∧ (t.lane l).entry = (s.lane l).entry ∧ (∀ m, m ≠ l → t.lane m = s.lane m)
      ∧ t.port = s.port.freed
      ∧ (∀ k, (s.lane l).unit.retiring = some k → s.cellsReturned t [k]
          ∧ (t.lane l).unit = { (s.lane l).unit with staging := (t.lane l).unit.staging, retiring := none }
          ∧ t = { s with
              lanes := t.lanes, port := t.port, memory := t.memory
              pool := { s.pool with freeCells := t.pool.freeCells, links := t.pool.links } })
      ∧ ((s.lane l).unit.retiring = none →
          (∀ d, (s.lane l).unit.list.head? = some d → (s.desc d).state ≠ .completing
            ∨ ∃ j : Fin 4, j ≠ i ∧ (s.lane l).unit.staging[j.val].busyFor d = true) →
          (t.lane l).unit = { (s.lane l).unit with staging := (t.lane l).unit.staging }
          ∧ t = { s with lanes := t.lanes, port := t.port, memory := t.memory })

/-- CELL_WRITE_COMPLETE of the last cell of the COMPLETING record at the head of the lane's list completes the record: the
next Completion Number, sequence tracking with the flags, Gap Size, route entry and stream counter that SequenceCheck gives
it (R51, Table 3-4), the tail of its stream's queue, Records Stored and Records Queued (R32, R36, R81, R165). Nothing else
changes but the bytes and the port of CellWriteStores, and that a purge whose head is no target after it ends (R96, entry
8). When it may come is the model's choice (entry 23). -/
def Obligations.LastWriteCompletesTheRecord : Prop :=
  ∀ (s : State) (l : LaneId) (i : Fin 4) (c : Staged) (d : DescId), s.host.resetHigh = true →
    s.port.op = some (.write l) → s.opMayEnd → (s.lane l).unit.staging[i.val] = .writing c →
    (∀ j : Fin 4, j ≠ i → (s.lane l).unit.staging[j.val].isWriting = false
      ∧ (s.lane l).unit.staging[j.val].busyFor d = false) →
    (s.lane l).unit.retiring = none → (s.lane l).unit.list.head? = some d → (s.desc d).state = .completing →
    ∃ t : State, exec .cellWriteComplete s = .next t.settlePurge
      ∧ s.completed t l d (s.desc d)
      ∧ (t.lane l).unit = { (s.lane l).unit with
          list := (s.lane l).unit.list.tail, staging := (s.lane l).unit.staging.set i.val .free }
      ∧ (t.lane l).rx = (s.lane l).rx
      ∧ t = { s with
          lanes := t.lanes, routes := t.routes, streams := t.streams, counts := t.counts, memory := t.memory
          port := s.port.freed, pool := { s.pool with descs := t.pool.descs } }

/-- CELL_READ_COMPLETE completes: a discarded read leaves the window as it is; otherwise 64 bytes and their chain position
are in the fetch buffer and the window is READY (R125); a read held meanwhile, which FETCHING holds below the Length, is
answered in the same act with the two body bytes, 00h for the low one when the offset plus 1 is the Length, which are driven
on D15 to D0 (R126, R127, R175). The bytes of a record whose Suspect flag is clear are those of the cell; those of a Suspect
record are not guaranteed (R143) and are free here (entry 10). When the row may come is the model's choice (entry 23). -/
def Obligations.CellReadFillsTheBuffer : Prop :=
  ∀ (s : State) (k : CellId) (p : Nat) (d : DescId) (discard : Bool), s.host.resetHigh = true → s.opMayEnd →
    s.port.op = some (.read k p d discard) →
    (discard = true → exec .cellReadComplete s = .next { s with port := s.port.freed })
    ∧ (discard = false → ∃ (t : State) (bytes : List Byte), exec .cellReadComplete s = .next t
        ∧ bytes.length = 64
        ∧ ((s.desc d).suspect = false →
            bytes = ((List.range 64).map fun j => s.byteAt (k.val * 64 + j)) ∧ t.epoch = s.epoch)
        ∧ (s.host.heldRead = false →
            t.host = s.host ∧ t.window = { s.window with mode := .ready, buffer := some (p, bytes) })
        ∧ (s.host.heldRead = true → s.window.offset.toNat < s.windowLength →
            t.host = { s.host with
              heldRead := false
              driven := some (bytes.getD (s.window.offset.toNat % 64) 0
                ++ (if s.window.offset.toNat + 1 = s.windowLength then 0
                  else bytes.getD ((s.window.offset.toNat + 1) % 64) 0)) }
            ∧ t.window = { s.window with
                offset := s.window.offset + 2, mode := t.window.mode, request := t.window.request
                buffer := some (p, bytes) }
            ∧ (if (s.window.offset.toNat + 2) % 64 = 0 ∧ s.window.offset.toNat + 2 < s.windowLength
                then t.window.mode = .fetching ∧ t.window.request = some ((s.window.offset.toNat + 2) / 64)
                else t.window.mode = .ready ∧ t.window.request = s.window.request))
        ∧ t = { s with window := t.window, host := t.host, port := s.port.freed, epoch := t.epoch })

/-- REFRESH_COMPLETE completes: the port is free and the balance does not move (R134, R138); the next slice is the model's
own account (entry 12). INTERVAL_EXPIRY completes when the expiry falls before the next count, or with it, and the next one
comes one setting later (R139, R140; entry 22): below +8 the balance rises by 1 and nothing else changes (R138); at +8 it is
a Late refresh: the balance stays, REFRESH_LATE, Refresh Late, and while the pool is READY every descriptor not FREE is
Suspect (R141); the epoch is the model's own (entry 10). An expiry that falls later is not taken yet, and no operation of the
port ends before the time it takes has passed (R134), as far as the counts and expiries tell, which is the model's choice
(entry 23). -/
def Obligations.RefreshCompletionAndIntervalExpiry : Prop :=
  (∀ s : State, s.host.resetHigh = true → s.port.op = some .refresh → s.opMayEnd →
      exec .refreshComplete s = .next { s with port := { s.port.freed with nextSlice := s.port.nextSlice + 1 } })
  ∧ (∀ s : State, s.host.resetHigh = true → s.port.left ≤ 4 →
      (s.port.balance < 8 → exec .intervalExpiry s = .next { s with
        port := { s.port.nextInterval with balance := s.port.balance + 1 } })
      ∧ (8 ≤ s.port.balance → ∃ t : State, exec .intervalExpiry s = .next t
          ∧ t.port = s.port.nextInterval
          ∧ (s.pool.ready = true → ∀ d, t.desc d = if (s.desc d).state = .free then s.desc d
              else { s.desc d with suspect := true })
          ∧ (s.pool.ready = false → t.pool = s.pool)
          ∧ t.deviceCount .refreshLate = bump (s.deviceCount .refreshLate) ∧ s.countsOnly t [] [] [.refreshLate]
          ∧ t.events = { s.events with latches := s.events.latches ||| 0x0020 }
          ∧ t = { s with
              port := t.port, pool := { s.pool with descs := t.pool.descs }
              counts := { s.counts with device := t.counts.device }, events := t.events, epoch := t.epoch }))
  ∧ (∀ s : State, 4 < s.port.left → exec .intervalExpiry s = .refused (.notEnabled "INTERVAL_EXPIRY"))
  ∧ ∀ s : State, ¬ s.opMayEnd →
      exec .cellWriteComplete s = .refused (.notEnabled "CELL_WRITE_COMPLETE")
      ∧ exec .cellReadComplete s = .refused (.notEnabled "CELL_READ_COMPLETE")
      ∧ exec .refreshComplete s = .refused (.notEnabled "REFRESH_COMPLETE")

/-! ### Time (Chapters 4, 5, 6 and 10) -/

/-- TIMEBASE_COUNT completes: the count rises by 1, wrapping from FFFFFFFFh to 0, and the sub-count with it; while RESET_n
is low the count does not advance (R161, R162). MILLISECOND_TICK is the count in which the sub-count passes from 999 to 0:
every stream is then to examine its queue by its Age Limit and the holds are judged by the Hold Limit, both as they stand at
the tick (R92, R113, R114); it latches nothing and moves no counter (R162). What a tick has found and what an interval has
brought comes before the next count, and so do a silence and the end of the pool's build that are due: a count with an age
expiry, a hold expiry, a silence, the end of the build or an interval expiry outstanding is the count after it (R92, R114, R15,
R71, R139; that this order among them is taken is a model's choice, entries 7 and 24). The times of the port are the model's
own (entries 22 and 23). -/
def Obligations.TimebaseCountsAndTicks : Prop :=
  (∀ s : State,
      (s.host.resetHigh = false → exec .timebaseCount s = .next s)
      ∧ (s.host.resetHigh = true → s.time.sub = 999 → exec .millisecondTick s = exec .timebaseCount s)
      ∧ (s.host.resetHigh = true → ∃ t, exec .timebaseCount s = .next t)
      ∧ (s.host.resetHigh = true → s.settledMicrosecond →
        (s.time.sub < 999 → exec .timebaseCount s = .next { s with
          time := { s.time with count := s.time.count + 1, sub := s.time.sub + 1, judging := 0 }
          port := s.port.nextMicrosecond })
        ∧ (999 ≤ s.time.sub → exec .timebaseCount s = .next { s with
          time := { s.time with count := s.time.count + 1, sub := 0, judging := s.holdLimit }
          port := s.port.nextMicrosecond
          streams := s.streams.map fun x => { x with examine := x.entry.ageLimit, expired := [] } })))
  ∧ (∀ s t : State, s.host.resetHigh = true →
      (∀ u, (∀ v, v < u → s.ageDue v = false) → exec (.ageExpiry u) s = .next t →
        exec .timebaseCount s = exec .timebaseCount t)
      ∧ ((∀ v, s.ageDue v = false) → exec .holdExpiry s = .next t → exec .timebaseCount s = exec .timebaseCount t)
      ∧ ((∀ v, s.ageDue v = false) → (∀ u, exec .holdExpiry s ≠ .next u) →
        (∀ l, (∀ m, m < l → s.heardInTime m) → exec (.silence l) s = .next t →
          exec .timebaseCount s = exec .timebaseCount t)
        ∧ ((∀ l, s.heardInTime l) →
          (exec .poolBuildEnd s = .next t → exec .timebaseCount s = exec .timebaseCount t)
          ∧ (s.buildNotDue → s.port.interval ≠ 0 → s.port.left < 4 → exec .intervalExpiry s = .next t →
            exec .timebaseCount s = exec .timebaseCount t))))

/-- AGE_EXPIRY completes at a tick. A stream whose examination is still to come examines its queue: a record is found expired
when its time in the part is at least the Age Limit the tick latched (R92). The first record of the queue found expired,
and not yet removed, leaves it: descriptor and cells join the tails of the free lists, the cells' links End and every other
link as it was, the charge falls, Records Aged Out rises and RECORD_DROP is latched (R92, R67, R60); nothing else changes,
but that a purge whose head goes ends (R97, entry 8). A record put back after the examination is not found by it (R94). That
the first AGE_EXPIRY of a stream after a tick is its examination, by a limit latched at the tick, and that an examination
that finds none is a next state that removes none, is the model's choice (entry 7). -/
def Obligations.AgeExpiry : Prop :=
  ∀ (s : State) (u : StreamId) (found : List DescId), s.host.resetHigh = true →
    found = (if (s.stream u).examine = 0 then (s.stream u).expired
      else (s.stream u).queue.filter fun d =>
        decide ((s.stream u).examine * 1000 ≤ (s.time.count - (s.desc d).arrival).toNat)) →
    (∀ (d : DescId) (before after : List DescId), (s.stream u).queue = before ++ d :: after → d ∈ found →
      (∀ e ∈ before, e ∉ found) → (s.desc d).stream = u →
      ∃ t : State, exec (.ageExpiry u) s = .next t.settlePurge
        ∧ t.stream u = { s.stream u with
            queue := before ++ after, charge := (s.stream u).charge - (s.desc d).cellCount, examine := 0
            expired := found }
        ∧ (∀ v, v ≠ u → t.stream v = s.stream v)
        ∧ t.desc d = { s.desc d with state := .free } ∧ (∀ e, e ≠ d → t.desc e = s.desc e)
        ∧ t.pool.freeDescs = s.pool.freeDescs ++ [d] ∧ s.cellsReturned t (s.chain d)
        ∧ t.streamCount u .recordsAgedOut = bump (s.streamCount u .recordsAgedOut)
        ∧ s.countsOnly t [] [(u, .recordsAgedOut)] []
        ∧ t.events = { s.events with latches := s.events.latches ||| 0x0004 }
        ∧ t = { s with
            streams := t.streams, counts := { s.counts with streams := t.counts.streams }, events := t.events
            pool := { s.pool with
              freeCells := t.pool.freeCells, freeDescs := t.pool.freeDescs, links := t.pool.links
              descs := t.pool.descs } })
    ∧ ((s.stream u).examine ≠ 0 → found = [] →
        exec (.ageExpiry u) s = .next (s.setStream u { s.stream u with examine := 0, expired := [] }))

/-- HOLD_EXPIRY completes on the lowest slot whose hold has lasted the Hold Limit that the tick latched: the record is
QUEUED at its place in completion order, for the next tick to examine, its stream's held count falls and its charge stays,
the slot is EMPTY with its Generation raised, HOLD_EXPIRED and Hold Expiries, and a window on the slot is STALE (R114, R82,
R94, R108, R130); nothing else changes, but that a purge whose head is then no target ends (R97, entry 8). Two clauses are the
model's choice: that the limit is latched at the tick and the lowest slot goes first (entry 7), and that the record goes ahead
of the first record that is not of greater age, so ahead of one of equal age (entry 21). -/
def Obligations.HoldExpiry : Prop :=
  ∀ (s : State) (i : SlotId) (h : Holding) (u : StreamId), s.host.resetHigh = true → s.time.judging ≠ 0 →
    (s.slot i).held = some h → s.time.judging.toNat * 1000 ≤ (s.time.count - h.start).toNat →
    (∀ j : SlotId, j < i → ∀ g, (s.slot j).held = some g →
      (s.time.count - g.start).toNat < s.time.judging.toNat * 1000) →
    u = (s.desc h.desc).stream →
    ∃ t : State, exec .holdExpiry s = .next t.settlePurge
      ∧ t.slot i = ⟨(s.slot i).generation + 1, none⟩ ∧ (∀ j, j ≠ i → t.slot j = s.slot j)
      ∧ t.desc h.desc = { s.desc h.desc with state := .queued } ∧ (∀ e, e ≠ h.desc → t.desc e = s.desc e)
      ∧ (∃ front back, (s.stream u).queue = front ++ back ∧ (t.stream u).queue = front ++ h.desc :: back
          ∧ (∀ e ∈ front, s.age h.desc < s.age e) ∧ ∀ e, back.head? = some e → s.age e ≤ s.age h.desc)
      ∧ t.stream u = { s.stream u with
          queue := (t.stream u).queue, heldCount := (s.stream u).heldCount - 1
          expired := (s.stream u).expired.filter fun e => e != h.desc }
      ∧ (∀ v, v ≠ u → t.stream v = s.stream v)
      ∧ t.latched .holdExpired = true ∧ t.deviceCount .holdExpiries = bump (s.deviceCount .holdExpiries)
      ∧ s.windowEmptied t i
      ∧ (∀ e, e ≠ .holdExpired → e ≠ .windowError → t.latched e = s.latched e)
      ∧ (∀ k, k ≠ .holdExpiries → k ≠ .windowErrors → t.deviceCount k = s.deviceCount k)
      ∧ t = { s with
          slots := t.slots, streams := t.streams, pool := { s.pool with descs := t.pool.descs }
          window := t.window, port := t.port, host := t.host
          counts := { s.counts with device := t.counts.device }, events := { s.events with latches := t.events.latches } }

/-- POOL_BUILD_END completes 200 µs after the build began, once a CLEAR that began it has ended (R70): both free lists hold
everything in ascending order, every link is End, every descriptor FREE, the pool READY; nothing is latched (R71), and
nothing else changes. -/
def Obligations.PoolBuildEnd : Prop :=
  ∀ s : State, s.host.resetHigh = true → s.pool.ready = false → 200 ≤ (s.time.count - s.pool.buildStart).toNat →
    (∀ n, s.cmd.phase ≠ .clearing n) →
    ∃ t : State, exec .poolBuildEnd s = .next t
      ∧ t.pool.ready = true ∧ t.pool.freeCells.map Fin.val = List.range 16384
      ∧ t.pool.freeDescs.map Fin.val = List.range 4096 ∧ (∀ k, linkOf t.pool.links k = none)
      ∧ (∀ d, t.desc d = { s.desc d with state := .free })
      ∧ t = { s with pool := { s.pool with
          ready := true, freeCells := t.pool.freeCells, freeDescs := t.pool.freeDescs
          links := t.pool.links, descs := t.pool.descs } }

/-! ### The Command Unit (Chapter 9) -/

/-- The nine codes of Table 11-3, and the ranges of Table 9-2. -/
def Obligations.CommandCodesAndRanges : Prop :=
  (∀ code : Word, (commandOf code).isSome = true ↔ 1 ≤ code.toNat ∧ code.toNat ≤ 9)
    ∧ [1, 2, 3, 4, 5, 6, 7, 8, 9].map (fun n => commandOf (BitVec.ofNat 16 n))
        = [some .take, some .peek, some .release, some .returnRecord, some .purge, some .clear, some .capture,
          some .tableRead, some .tableWrite]
    ∧ ∀ (arg : Word) (low high : Nat), low = arg.toNat % 256 → high = arg.toNat / 256 →
        (∀ c ∈ [Command.take, .peek, .purge], argLegal c arg = decide (low ≤ 31))
        ∧ (∀ c ∈ [Command.release, .returnRecord, .clear], argLegal c arg = true)
        ∧ argLegal .capture arg = decide (low ≤ 40)
        ∧ ∀ c ∈ [Command.tableRead, .tableWrite], argLegal c arg
            = decide (high = 0 ∧ low ≤ 63 ∨ high = 1 ∧ low ≤ 31 ∨ high = 2 ∧ low ≤ 7)

/-- COMMAND_ACCEPTANCE completes in IDLE: the unit is BUSY with the written code, the present argument and image, no
result and Collision 0; a code that names no command, then an illegal argument, then a pool that is INITIALIZING decides
the result the command will end with (R148, R149). Nothing else changes. For PURGE and CLEAR see their own statements. -/
def Obligations.CommandAcceptance : Prop :=
  ∀ (s : State) (code : Word) (busy : Phase → State), s.takesAccess → s.cmd.phase = .idle →
    (∀ p, busy p = { s with cmd := { s.cmd with
      phase := p, code := code, arg := s.cmd.argReg, result := .noResult, collision := false, taken := s.cmd.image } }) →
    (commandOf code = none → exec (.commandAcceptance code) s = .next (busy (.failed .badArgument)))
    ∧ ∀ c, commandOf code = some c →
      (argLegal c s.cmd.argReg = false → exec (.commandAcceptance code) s = .next (busy (.failed .badArgument)))
      ∧ (argLegal c s.cmd.argReg = true → needsReady c = true → s.pool.ready = false →
          exec (.commandAcceptance code) s = .next (busy (.failed .notReady)))
      ∧ (argLegal c s.cmd.argReg = true → (needsReady c = false ∨ s.pool.ready = true) → c ≠ .purge → c ≠ .clear →
          exec (.commandAcceptance code) s = .next (busy .running))

/-- FAILED_TEST_END_ACT completes: the result of the failed test is posted, the unit is IDLE, COMMAND_DONE is latched
(R150). COLLISION completes in BUSY, whatever code is written: Collision becomes 1 and Command Collisions rises; the
running command, its argument, its result and what CMD reads stay (R151). Nothing else changes. -/
def Obligations.FailedTestEndActAndCollision : Prop :=
  (∀ (s : State) (r : Result), s.host.resetHigh = true → s.cmd.phase = .failed r →
      exec .failedTestEndAct s = .next { s with
        cmd := { s.cmd with phase := .idle, result := r }
        events := { s.events with latches := s.events.latches ||| 0x0080 } })
  ∧ (∀ (s : State) (code : Word), s.takesAccess → s.cmd.phase ≠ .idle →
      exec (.collision code) s = .next ({ s with cmd := { s.cmd with collision := true } }.bumpDevice .commandCollisions))

/-- TAKE completes when it finds a record and a slot: the head record goes into the lowest EMPTY slot, its Delivery Count
rises (stopping at 15), Records Delivered rises, the Record View is filled and the result is OK (R104, R110, R112). -/
def Obligations.TakeDelivers : Prop :=
  ∀ (s : State) (u : StreamId) (d : DescId) (ds : List DescId) (i : SlotId), s.running .take →
    s.cmd.arg.toNat % 256 = u.val → (s.stream u).queue = d :: ds → (s.slot i).held = none →
    (∀ j : SlotId, j < i → (s.slot j).held ≠ none) →
    ∃ t : State, exec .take s = .next t ∧ s.ended t .ok
      ∧ t.stream u = { s.stream u with queue := ds, heldCount := (s.stream u).heldCount + 1 }
      ∧ (∀ v, v ≠ u → t.stream v = s.stream v)
      ∧ t.slot i = ⟨(s.slot i).generation, some ⟨d, s.time.count⟩⟩ ∧ (∀ j, j ≠ i → t.slot j = s.slot j)
      ∧ t.desc d = { s.desc d with
          state := .held
          deliveryCount := if (s.desc d).deliveryCount = 15 then 15 else (s.desc d).deliveryCount + 1 }
      ∧ (∀ e, e ≠ d → t.desc e = s.desc e)
      ∧ t.streamCount u .recordsDelivered = bump (s.streamCount u .recordsDelivered)
      ∧ s.countsOnly t [] [(u, .recordsDelivered)] []
      ∧ t.view = {
          handle := (s.slot i).generation ++ BitVec.ofNat 4 i.val, held := true
          deliveryCount := (t.desc d).deliveryCount, stream := (s.desc d).stream, lane := (s.desc d).lane
          tag := (s.desc d).tag, kind := (s.desc d).kind, damaged := (s.desc d).damaged
          gapBefore := (s.desc d).gapBefore, outOfOrder := (s.desc d).outOfOrder, unchecked := (s.desc d).unchecked
          suspect := (s.desc d).suspect, length := (s.desc d).length, sequence := (s.desc d).sequence.getD 0
          arrival := (s.desc d).arrival, gapSize := (s.desc d).gapSize.getD 0 }
      ∧ t = { s with
          streams := t.streams, slots := t.slots, pool := { s.pool with descs := t.pool.descs }
          counts := { s.counts with streams := t.counts.streams }, view := t.view, cmd := t.cmd
          events := { s.events with latches := s.events.latches ||| 0x0080 } }

/-- A TAKE that does not find both ends with EMPTY or, with a record but no EMPTY slot, NO_SLOT, and changes nothing else
(R105); a PEEK of an empty queue ends with EMPTY and changes nothing else; PEEK completes when the queue is not empty: the
Record View is filled from the head record, with Held 0 and the handle field 00h, and the result is OK, and nothing else
changes (R106, R110). -/
def Obligations.TakeAndPeekWithoutHolding : Prop :=
  (∀ (s : State) (u : StreamId) (done : Result → State), s.cmd.arg.toNat % 256 = u.val →
      (∀ r, done r = { s with
        cmd := { s.cmd with phase := .idle, result := r }
        events := { s.events with latches := s.events.latches ||| 0x0080 } }) →
      (s.running .take → (s.stream u).queue = [] → exec .take s = .next (done .empty))
      ∧ (s.running .take → (s.stream u).queue ≠ [] → (∀ i, (s.slot i).held ≠ none) → exec .take s = .next (done .noSlot))
      ∧ (s.running .peek → (s.stream u).queue = [] → exec .peek s = .next (done .empty)))
  ∧ (∀ (s : State) (u : StreamId) (d : DescId) (ds : List DescId), s.running .peek → s.cmd.arg.toNat % 256 = u.val →
      (s.stream u).queue = d :: ds →
      exec .peek s = .next { s with
        view := {
          handle := 0, held := false
          deliveryCount := (s.desc d).deliveryCount, stream := (s.desc d).stream, lane := (s.desc d).lane
          tag := (s.desc d).tag, kind := (s.desc d).kind, damaged := (s.desc d).damaged
          gapBefore := (s.desc d).gapBefore, outOfOrder := (s.desc d).outOfOrder, unchecked := (s.desc d).unchecked
          suspect := (s.desc d).suspect, length := (s.desc d).length, sequence := (s.desc d).sequence.getD 0
          arrival := (s.desc d).arrival, gapSize := (s.desc d).gapSize.getD 0 }
        cmd := { s.cmd with phase := .idle, result := .ok }
        events := { s.events with latches := s.events.latches ||| 0x0080 } })

/-- RELEASE of a current handle completes: the record's cells and descriptor join the tails of the free lists, the cells'
links End and every other link as it was (R60), its charge and held count fall, the slot is EMPTY with its Generation
raised, and a FETCHING or READY window pointed at the slot is STALE (R107, R67, R130); nothing else changes, the Record View
neither. -/
def Obligations.ReleaseFreesTheRecord : Prop :=
  ∀ (s : State) (i : SlotId) (h : Holding) (u : StreamId), s.running .release →
    i.val = s.cmd.arg.toNat % 16 → (s.slot i).generation.toNat = s.cmd.arg.toNat / 16 % 16 →
    (s.slot i).held = some h → u = (s.desc h.desc).stream →
    ∃ t : State, exec .release s = .next t ∧ s.ended t .ok
      ∧ t.slot i = ⟨(s.slot i).generation + 1, none⟩ ∧ (∀ j, j ≠ i → t.slot j = s.slot j)
      ∧ t.desc h.desc = { s.desc h.desc with state := .free } ∧ (∀ e, e ≠ h.desc → t.desc e = s.desc e)
      ∧ t.pool.freeDescs = s.pool.freeDescs ++ [h.desc] ∧ s.cellsReturned t (s.chain h.desc)
      ∧ t.stream u = { s.stream u with
          charge := (s.stream u).charge - (s.desc h.desc).cellCount, heldCount := (s.stream u).heldCount - 1 }
      ∧ (∀ v, v ≠ u → t.stream v = s.stream v)
      ∧ s.windowEmptied t i
      ∧ (∀ e, e ≠ .commandDone → e ≠ .windowError → t.latched e = s.latched e)
      ∧ (∀ k, k ≠ .windowErrors → t.deviceCount k = s.deviceCount k)
      ∧ t = { s with
          slots := t.slots, streams := t.streams
          pool := { s.pool with
            freeCells := t.pool.freeCells, freeDescs := t.pool.freeDescs, links := t.pool.links, descs := t.pool.descs }
          window := t.window, port := t.port, host := t.host, cmd := t.cmd
          counts := { s.counts with device := t.counts.device }, events := { s.events with latches := t.events.latches } }

/-- RETURN of a current handle completes: the record is QUEUED at its place in completion order, keeping every other
field and for the next tick to examine, its held count falls and its charge stays, the slot is EMPTY with its Generation
raised, and a window on the slot is STALE (R108, R82, R94, R130); nothing else changes. That the record goes ahead of the
first record that is not of greater age, so ahead of one of equal age, is the model's choice (entry 21). -/
def Obligations.ReturnRequeuesTheRecord : Prop :=
  ∀ (s : State) (i : SlotId) (h : Holding) (u : StreamId), s.running .returnRecord →
    i.val = s.cmd.arg.toNat % 16 → (s.slot i).generation.toNat = s.cmd.arg.toNat / 16 % 16 →
    (s.slot i).held = some h → u = (s.desc h.desc).stream →
    ∃ t : State, exec .returnRecord s = .next t ∧ s.ended t .ok
      ∧ t.slot i = ⟨(s.slot i).generation + 1, none⟩ ∧ (∀ j, j ≠ i → t.slot j = s.slot j)
      ∧ t.desc h.desc = { s.desc h.desc with state := .queued } ∧ (∀ e, e ≠ h.desc → t.desc e = s.desc e)
      ∧ (∃ front back, (s.stream u).queue = front ++ back ∧ (t.stream u).queue = front ++ h.desc :: back
          ∧ (∀ e ∈ front, s.age h.desc < s.age e) ∧ ∀ e, back.head? = some e → s.age e ≤ s.age h.desc)
      ∧ t.stream u = { s.stream u with
          queue := (t.stream u).queue, heldCount := (s.stream u).heldCount - 1
          expired := (s.stream u).expired.filter fun e => e != h.desc }
      ∧ (∀ v, v ≠ u → t.stream v = s.stream v)
      ∧ s.windowEmptied t i
      ∧ (∀ e, e ≠ .commandDone → e ≠ .windowError → t.latched e = s.latched e)
      ∧ (∀ k, k ≠ .windowErrors → t.deviceCount k = s.deviceCount k)
      ∧ t = { s with
          slots := t.slots, streams := t.streams, pool := { s.pool with descs := t.pool.descs }
          window := t.window, port := t.port, host := t.host, cmd := t.cmd
          counts := { s.counts with device := t.counts.device }, events := { s.events with latches := t.events.latches } }

/-- A RELEASE or RETURN of a stale handle, one whose slot is EMPTY or at another Generation, ends with STALE and changes no
record, slot, queue, charge, view, window or counter (R109, R101). -/
def Obligations.StaleHandleChangesNothing : Prop :=
  ∀ (s : State) (i : SlotId) (done : State), i.val = s.cmd.arg.toNat % 16 →
    (s.slot i).held = none ∨ (s.slot i).generation.toNat ≠ s.cmd.arg.toNat / 16 % 16 →
    done = { s with
      cmd := { s.cmd with phase := .idle, result := .stale }
      events := { s.events with latches := s.events.latches ||| 0x0080 } } →
    (s.running .release → exec .release s = .next done) ∧ (s.running .returnRecord → exec .returnRecord s = .next done)

/-- PURGE completes: the unit is BUSY with no result and nothing latched; with a target at the head of its stream's queue
the purge runs with the device completion count as its boundary, with an empty queue or no target at the head it awaits its
end act (R148, R95, R156). That end act completes with OK and COMMAND_DONE and removes nothing (R156; that PURGE_REMOVAL is
its row is entry 8's). Nothing else changes. -/
def Obligations.PurgeTakesItsBoundary : Prop :=
  (∀ (s : State) (u : StreamId) (busy : Phase → State), s.takesAccess → s.cmd.phase = .idle →
    s.cmd.argReg.toNat % 256 = u.val → s.pool.ready = true →
    (∀ p, busy p = { s with cmd := { s.cmd with
      phase := p, code := 0x0005, arg := s.cmd.argReg, result := .noResult, collision := false, taken := s.cmd.image } }) →
    (∀ d ds, (s.stream u).queue = d :: ds → 0 < s.age d → exec .purge s = .next (busy (.purging u s.counts.completions)))
    ∧ ((∀ d, (s.stream u).queue.head? = some d → s.age d = 0) → exec .purge s = .next (busy .purged)))
  ∧ (∀ s : State, s.host.resetHigh = true → s.cmd.phase = .purged →
      exec .purgeRemoval s = .next { s with
        cmd := { s.cmd with phase := .idle, result := .ok }
        events := { s.events with latches := s.events.latches ||| 0x0080 } })

/-- PURGE_REMOVAL completes on a target at the head: the record is freed, its cells' links End and every other link as it
was (R67, R60), Records Purged rises, no RECORD_DROP (R96). A purge ends with OK and COMMAND_DONE at the first moment its
queue is empty or its head is no target, and runs on otherwise (R96, R156; that the end comes in the same act is entry 8's,
that ages and the count since the acceptance are taken modulo 2^32 is R80's and entry 15's). Nothing else changes. -/
def Obligations.PurgeRemovesTheHead : Prop :=
  (∀ (s : State) (u : StreamId) (boundary : BitVec 32) (d : DescId) (ds : List DescId), s.host.resetHigh = true →
    s.cmd.phase = .purging u boundary → (s.stream u).queue = d :: ds → (s.desc d).stream = u →
    (s.counts.completions - boundary).toNat < s.age d →
    ∃ t : State, exec .purgeRemoval s = .next t.settlePurge
      ∧ t.stream u = { s.stream u with queue := ds, charge := (s.stream u).charge - (s.desc d).cellCount }
      ∧ (∀ v, v ≠ u → t.stream v = s.stream v)
      ∧ t.desc d = { s.desc d with state := .free } ∧ (∀ e, e ≠ d → t.desc e = s.desc e)
      ∧ t.pool.freeDescs = s.pool.freeDescs ++ [d] ∧ s.cellsReturned t (s.chain d)
      ∧ t.streamCount u .recordsPurged = bump (s.streamCount u .recordsPurged)
      ∧ s.countsOnly t [] [(u, .recordsPurged)] []
      ∧ t = { s with
          streams := t.streams, counts := { s.counts with streams := t.counts.streams }
          pool := { s.pool with
            freeCells := t.pool.freeCells, freeDescs := t.pool.freeDescs, links := t.pool.links, descs := t.pool.descs } })
  ∧ (∀ s : State,
      (∀ (u : StreamId) (boundary : BitVec 32), s.cmd.phase = .purging u boundary →
        ((∀ d, (s.stream u).queue.head? = some d → s.age d ≤ (s.counts.completions - boundary).toNat) →
          s.settlePurge = { s with
            cmd := { s.cmd with phase := .idle, result := .ok }
            events := { s.events with latches := s.events.latches ||| 0x0080 } })
        ∧ (∀ d, (s.stream u).queue.head? = some d → (s.counts.completions - boundary).toNat < s.age d →
          s.settlePurge = s))
      ∧ ((∀ (u : StreamId) (boundary : BitVec 32), s.cmd.phase ≠ .purging u boundary) → s.settlePurge = s))

/-- CLEAR completes its first step at acceptance: every record of every reception list is aborted by R37, the lanes in
order and each list oldest first, with Records Cut and RECORD_DROP for each; every lane with Enable 1 is in HUNT; Expected
Known is 0 in every route entry and every other field of it stays; queues, slots and window stay (R157, R39, R20, R58).
Nothing else changes. Premise: no record stands on two lists, and no cell in two chains (R65, R66). -/
def Obligations.ClearFirstStep : Prop :=
  ∀ (s : State) (lists : List (LaneId × DescId)), s.takesAccess → s.cmd.phase = .idle → s.pool.ready = true →
    lists = (List.finRange 8).flatMap (fun l => (s.lane l).unit.list.map fun d => (l, d)) →
    s.apart (lists.map fun x => x.2) →
    ∃ t : State, exec .clear s = .next t
      ∧ t.cmd = { s.cmd with
          phase := .clearing .second, code := 0x0006, arg := s.cmd.argReg, result := .noResult, collision := false
          taken := s.cmd.image }
      ∧ t.listsEmpty ∧ (∀ l, (t.lane l).entry = (s.lane l).entry)
      ∧ (∀ l, (s.lane l).entry.enable = true → (t.lane l).rx = { (s.lane l).rx with
          delin := .hunt, sub := .awaitHeader, remaining := 0, missCount := 0, byteCount := 0, bits := [] })
      ∧ (∀ l, (s.lane l).entry.enable = false → (t.lane l).rx = (s.lane l).rx)
      ∧ (∀ l, (s.lane l).unit.abortedTo (t.lane l).unit (s.lane l).unit.list)
      ∧ s.cellsReturned t (lists.flatMap fun x => s.abortedCells x.1 x.2)
      ∧ t.pool.freeDescs = s.pool.freeDescs ++ lists.map (fun x => x.2)
      ∧ (∀ d, t.desc d = if d ∈ lists.map (fun x => x.2) then { s.desc d with state := .free } else s.desc d)
      ∧ (∀ u, t.stream u = { s.stream u with
          charge := (s.stream u).charge - ((lists.filter fun x => (s.desc x.2).stream = u).map fun x =>
            (s.desc x.2).cellCount).sum })
      ∧ (∀ i, t.route i = { s.route i with expectedKnown := false })
      ∧ (∀ l, t.laneCount l .recordsCut = bump^[(s.lane l).unit.list.length] (s.laneCount l .recordsCut))
      ∧ s.countsOnly t ((List.finRange 8).map fun l => (l, .recordsCut)) [] []
      ∧ t.latched .recordDrop = (s.latched .recordDrop || !lists.isEmpty) ∧ s.latchesOnly t [.recordDrop]
      ∧ t = { s with
          lanes := t.lanes, routes := t.routes, streams := t.streams, cmd := t.cmd
          pool := { s.pool with
            freeCells := t.pool.freeCells, freeDescs := t.pool.freeDescs, links := t.pool.links, descs := t.pool.descs }
          counts := { s.counts with lanes := t.counts.lanes }, events := { s.events with latches := t.events.latches } }

/-- CLEAR_SECOND_STEP completes when no cell write is in flight: every queue and hold slot is emptied, HELD slots raise
their Generation, charges and held counts are 0, the pool is INITIALIZING with both free lists empty and its build begun,
a FETCHING or READY window is STALE with an empty buffer and no request, its read in flight discarded and any other operation
in flight as it was, and a held read ends with 0000h and WINDOW_ERROR (R158, R70, R99, R120, R131, R130, R145). -/
def Obligations.ClearSecondStep : Prop :=
  ∀ s : State, s.host.resetHigh = true → s.cmd.phase = .clearing .second → (∀ l, s.port.op ≠ some (.write l)) →
    ∃ t : State, exec .clearSecondStep s = .next t
      ∧ (∀ u, t.stream u = { s.stream u with queue := [], heldCount := 0, charge := 0 })
      ∧ (∀ i, t.slot i = if (s.slot i).held = none then s.slot i else ⟨(s.slot i).generation + 1, none⟩)
      ∧ t.pool = { s.pool with ready := false, buildStart := s.time.count, freeCells := [], freeDescs := [] }
      ∧ (s.window.mode = .fetching ∨ s.window.mode = .ready →
          t.window = { s.window with mode := .stale, buffer := none, request := none }
          ∧ t.port = { s.port with op := match s.port.op with
            | some (.read k p d _) => some (.read k p d true)
            | op => op })
      ∧ t.cmd = { s.cmd with phase := .clearing .third }
      ∧ (s.host.heldRead = true → s.window.mode = .fetching →
          t.host = { s.host with heldRead := false, driven := some 0 } ∧ t.latched .windowError = true
          ∧ t.deviceCount .windowErrors = bump (s.deviceCount .windowErrors))
      ∧ (s.host.heldRead = false → t.counts = s.counts ∧ t.events = s.events ∧ t.host = s.host)
      ∧ (s.window.mode = .idle ∨ s.window.mode = .stale → t.window = s.window ∧ t.port = s.port)
      ∧ s.countsOnly t [] [] [.windowErrors] ∧ s.latchesOnly t [.windowError]
      ∧ t = { s with
          streams := t.streams, slots := t.slots, pool := t.pool, cmd := t.cmd, host := t.host, window := t.window
          port := t.port, counts := { s.counts with device := t.counts.device }
          events := { s.events with latches := t.events.latches } }

/-- CLEAR_THIRD_STEP completes: every counter of every group is 0, the device completion count and the capture bank are
kept. CLEAR_FOURTH_STEP completes with no read held: the window is IDLE, a read in flight is discarded and CLEAR ends with
OK (R159, R131). Nothing else changes. -/
def Obligations.ClearThirdAndFourthStep : Prop :=
  ∀ s : State, s.host.resetHigh = true →
    (s.cmd.phase = .clearing .third → ∃ t : State, exec .clearThirdStep s = .next t
      ∧ (∀ l k, t.laneCount l k = 0) ∧ (∀ u k, t.streamCount u k = 0) ∧ (∀ k, t.deviceCount k = 0)
      ∧ t.counts.completions = s.counts.completions
      ∧ t = { s with counts := t.counts, cmd := { s.cmd with phase := .clearing .fourth } })
    ∧ (s.cmd.phase = .clearing .fourth → s.host.heldRead = false → exec .clearFourthStep s = .next { s with
      window := {
        handleReg := 0, pointed := 0, offset := 0, mode := .idle, pastEnd := false, buffer := none, request := none }
      port := { s.port with op := match s.port.op with
        | some (.read k p d _) => some (.read k p d true)
        | op => op }
      cmd := { s.cmd with phase := .idle, result := .ok }
      events := { s.events with latches := s.events.latches ||| 0x0080 } })

/-- CAPTURE completes: the counters of the named group are in the capture bank as they stood and are set to 0; the
completion count is copied and kept; every other group stays; the result is OK and COMMAND_DONE is latched (R154, R155,
R166, R150). -/
def Obligations.CaptureCopiesAndZeroes : Prop :=
  ∀ (s : State) (g : Nat), s.running .capture → g = s.cmd.arg.toNat % 256 →
    (∀ l : LaneId, g = l.val → ∃ t : State, exec .capture s = .next t
      ∧ t.cmd = { s.cmd with phase := .idle, result := .ok, capture := s.counts.lanes[l.val] }
      ∧ t.counts = { s.counts with lanes := s.counts.lanes.set l.val (Vector.replicate 8 0) }
      ∧ t = { s with
          cmd := t.cmd, counts := t.counts, events := { s.events with latches := s.events.latches ||| 0x0080 } })
    ∧ (∀ u : StreamId, g = 8 + u.val → ∃ t : State, exec .capture s = .next t
      ∧ t.cmd = { s.cmd with phase := .idle, result := .ok, capture := s.counts.streams[u.val] }
      ∧ t.counts = { s.counts with streams := s.counts.streams.set u.val (Vector.replicate 8 0) }
      ∧ t = { s with
          cmd := t.cmd, counts := t.counts, events := { s.events with latches := s.events.latches ||| 0x0080 } })
    ∧ (g = 40 → ∃ t : State, exec .capture s = .next t
      ∧ (∀ k : Fin 6, t.cmd.capture[k.val] = s.counts.device[k.val])
      ∧ t.cmd.capture[6] = s.counts.completions.extractLsb' 0 16
      ∧ t.cmd.capture[7] = s.counts.completions.extractLsb' 16 16
      ∧ t.counts = { s.counts with device := Vector.replicate 6 0 }
      ∧ t.cmd = { s.cmd with phase := .idle, result := .ok, capture := t.cmd.capture }
      ∧ t = { s with
          cmd := t.cmd, counts := t.counts, events := { s.events with latches := s.events.latches ||| 0x0080 } })

/-- TABLE_READ completes: the image holds the entry in the layout of its table and nothing of the table changes (R152, R50,
R79). An image read and written back commits the entry as it stood, with the consequences a commit has (R180): for a
route entry, Expected and Expected Known 0 and the Edition raised (R49); for a stream or lane entry, the entry itself. -/
def Obligations.TableReadAndImages : Prop :=
  (∀ s : State, s.running .tableRead → ∀ e, argTable s.cmd.arg = some e →
      exec .tableRead s = .next { s with
        cmd := { s.cmd with phase := .idle, result := .ok, image := s.imageOf e }
        events := { s.events with latches := s.events.latches ||| 0x0080 } })
  ∧ ((∀ e : RouteEntry, (e.seqCheck = true → e.laneMatch ≠ none ∧ e.tagMask = 0xFF) →
        routeOfImage e.image e.edition = some { e with expected := 0, expectedKnown := false, edition := e.edition + 1 })
      ∧ (∀ (s : State) (u : StreamId), (s.stream u).entry.quota ≤ 16384 → (s.stream u).entry.watermark ≤ 16384 →
        (s.stream u).entry.ageLimit ≤ 65535 → streamOfImage (s.streamImage u) = some (s.stream u).entry)
      ∧ ∀ e : LaneEntry, e.confirmCount ≠ 0 → laneOfImage e.image = some e)

/-- TABLE_WRITE of a route or stream entry completes. A route image is refused for a Lane Match code above 8, or for Sequence
Check 1 with Lane Match Any or a Tag Mask other than FFh (R48), a stream image for a Quota or Watermark above 16384 or a
Quota below the charge (R88): REFUSED, and nothing else changes. Every other image is legal and is committed whole, by the
fields of Tables 11-5 and 11-6, with OK (R153, R49, R89); the entry image stays. -/
def Obligations.TableWriteRouteAndStream : Prop :=
  ∀ (s : State) (done : State → Result → State), s.running .tableWrite →
    (∀ x r, done x r = { x with
      cmd := { s.cmd with phase := .idle, result := r }
      events := { s.events with latches := s.events.latches ||| 0x0080 } }) →
    (∀ (i : RouteId) (img : Vector Word 8) (code : Nat), argTable s.cmd.arg = some (.route i) → img = s.cmd.taken →
      code = img[0].toNat / 256 % 16 →
      (8 < code ∨ img[0].getLsbD 13 = true ∧ (code = 8 ∨ img[1].toNat % 256 ≠ 0xFF) →
        exec .tableWrite s = .next (done s .refused))
      ∧ (code ≤ 8 → (img[0].getLsbD 13 = true → code ≠ 8 ∧ img[1].toNat % 256 = 0xFF) →
        ∃ e : RouteEntry, exec .tableWrite s = .next (done (s.setRoute i e) .ok)
          ∧ e.valid = img[0].getLsbD 15 ∧ e.action = (if img[0].getLsbD 14 then .store else .discard)
          ∧ e.seqCheck = img[0].getLsbD 13 ∧ e.laneMatch.map (fun l => l.val) = (if code = 8 then none else some code)
          ∧ e.stream.val = img[0].toNat % 32 ∧ e.tag.toNat = img[1].toNat / 256 ∧ e.tagMask.toNat = img[1].toNat % 256
          ∧ e.expected = 0 ∧ e.expectedKnown = false ∧ e.edition = (s.route i).edition + 1))
    ∧ (∀ (u : StreamId) (img : Vector Word 8), argTable s.cmd.arg = some (.stream u) → img = s.cmd.taken →
      (16384 < img[1].toNat ∨ 16384 < img[2].toNat ∨ img[1].toNat < (s.stream u).charge →
        exec .tableWrite s = .next (done s .refused))
      ∧ (img[1].toNat ≤ 16384 → img[2].toNat ≤ 16384 → (s.stream u).charge ≤ img[1].toNat →
        exec .tableWrite s = .next (done (s.setStream u { s.stream u with entry := {
          enable := img[0].getLsbD 15, quota := img[1].toNat
          policy := if img[0].getLsbD 14 then .evictOldest else .refuseNewest
          watermark := img[2].toNat, ageLimit := img[3].toNat } }) .ok)))

/-- TABLE_WRITE of a lane entry completes: Confirm Count 0 is REFUSED and every other image is legal and is committed by the
fields of Table 11-7; Enable 0 to 1 puts the lane in HUNT with silence
measured from the commit; Enable unchanged leaves the receiver as it was; Enable 1 to 0 puts it in DISABLED with every
record of its list aborted by R37, oldest first, with Records Cut and RECORD_DROP for each (R17, R7, R16, R39). Nothing else
changes. Premise of the last: no record stands twice on the list, and no cell in two of its chains (R65, R66). -/
def Obligations.TableWriteLane : Prop :=
  ∀ (s : State) (l : LaneId) (done : State → Result → State), s.running .tableWrite →
    argTable s.cmd.arg = some (.lane l) →
    (∀ x r, done x r = { x with
      cmd := { s.cmd with phase := .idle, result := r }
      events := { s.events with latches := s.events.latches ||| 0x0080 } }) →
    (s.cmd.taken[0].toNat / 4096 % 4 = 0 → exec .tableWrite s = .next (done s .refused))
    ∧ ∀ e : LaneEntry, s.cmd.taken[0].toNat / 4096 % 4 ≠ 0 → e.enable = s.cmd.taken[0].getLsbD 15 →
      e.confirmCount.toNat = s.cmd.taken[0].toNat / 4096 % 4 → e.missTolerance.toNat = s.cmd.taken[0].toNat / 256 % 4 →
      e.keepDamaged = s.cmd.taken[0].getLsbD 7 →
      e.defaultAction = (if s.cmd.taken[0].getLsbD 6 then .store else .discard) →
      e.defaultStream.val = s.cmd.taken[0].toNat % 32 →
      ((s.lane l).rx.delin = .disabled → e.enable = true →
          exec .tableWrite s = .next (done (s.setLane l { s.lane l with
            entry := e
            rx := { (s.lane l).rx with
              delin := .hunt, sub := .awaitHeader, remaining := 0, missCount := 0, byteCount := 0, bits := []
              silent := false, lastEdge := s.time.count } }) .ok))
      ∧ ((s.lane l).rx.delin = .disabled ∧ e.enable = false ∨ (s.lane l).rx.delin ≠ .disabled ∧ e.enable = true →
          exec .tableWrite s = .next (done (s.setLane l { s.lane l with entry := e }) .ok))
      ∧ ((s.lane l).rx.delin ≠ .disabled → e.enable = false → s.apart (s.lane l).unit.list →
          ∃ t : State, exec .tableWrite s = .next t ∧ s.ended t .ok ∧ (t.lane l).entry = e
            ∧ (t.lane l).rx = { (s.lane l).rx with
                delin := .disabled, sub := .awaitHeader, remaining := 0, missCount := 0, byteCount := 0, bits := []
                silent := false }
            ∧ (t.lane l).unit.list = [] ∧ (s.lane l).unit.abortedTo (t.lane l).unit (s.lane l).unit.list
            ∧ s.cellsReturned t ((s.lane l).unit.list.flatMap (s.abortedCells l))
            ∧ t.pool.freeDescs = s.pool.freeDescs ++ (s.lane l).unit.list
            ∧ (∀ d, t.desc d = if d ∈ (s.lane l).unit.list then { s.desc d with state := .free } else s.desc d)
            ∧ (∀ u, t.stream u = { s.stream u with
                charge := (s.stream u).charge - (((s.lane l).unit.list.filter fun d => (s.desc d).stream = u).map fun d =>
                  (s.desc d).cellCount).sum })
            ∧ (∀ m, m ≠ l → t.lane m = s.lane m)
            ∧ t.laneCount l .recordsCut = bump^[(s.lane l).unit.list.length] (s.laneCount l .recordsCut)
            ∧ s.countsOnly t [(l, .recordsCut)] [] []
            ∧ t.latched .recordDrop = (s.latched .recordDrop || !(s.lane l).unit.list.isEmpty)
            ∧ s.latchesOnly t [.recordDrop, .commandDone]
            ∧ t = { s with
                lanes := t.lanes, streams := t.streams, cmd := t.cmd
                pool := { s.pool with
                  freeCells := t.pool.freeCells, freeDescs := t.pool.freeDescs, links := t.pool.links
                  descs := t.pool.descs }
                counts := { s.counts with lanes := t.counts.lanes }
                events := { s.events with latches := t.events.latches } })

/-! ### The Data Window and the direct registers (Chapters 7, 10 and 11) -/

/-- POINTING completes: an offset of 4096 or more is ignored with CONFIG_ERROR; an odd one is rounded down with
CONFIG_ERROR; the window takes handle and offset, Past End 0, an empty buffer, discards a read in flight, leaving any other
operation in flight as it was, and is STALE for a stale handle, READY at or beyond the Length, otherwise FETCHING with the
cell's request (R123). -/
def Obligations.PointingTheWindow : Prop :=
  ∀ (s : State) (v : Word) (error : State), s.takesAccess → error = (s.latch .configError).bumpDevice .configErrors →
    (4096 ≤ v.toNat → exec (.pointing v) s = .next error)
    ∧ (v.toNat < 4096 → ∃ t : State, exec (.pointing v) s = .next t
        ∧ t.window.handleReg = s.window.handleReg ∧ t.window.pointed = s.window.handleReg
        ∧ t.window.offset.toNat = v.toNat / 2 * 2 ∧ t.window.pastEnd = false ∧ t.window.buffer = none
        ∧ (∀ i : SlotId, i.val = s.window.handleReg.toNat % 16 →
            ((s.slot i).held = none ∨ (s.slot i).generation.toNat ≠ s.window.handleReg.toNat / 16 →
              t.window.mode = .stale ∧ t.window.request = none)
            ∧ ∀ h, (s.slot i).held = some h → (s.slot i).generation.toNat = s.window.handleReg.toNat / 16 →
              (if v.toNat / 2 * 2 < (s.desc h.desc).length.toNat
                then t.window.mode = .fetching ∧ t.window.request = some (v.toNat / 64)
                else t.window.mode = .ready ∧ t.window.request = none))
        ∧ t.port.op = (match s.port.op with
          | some (.read k p d _) => some (.read k p d true)
          | op => op)
        ∧ (v.toNat % 2 = 0 → t.events = s.events ∧ t.counts = s.counts)
        ∧ (v.toNat % 2 = 1 → t.events = error.events ∧ t.counts = error.counts)
        ∧ t = { s with
            window := t.window, port := { s.port with op := t.port.op }, events := t.events, counts := t.counts })

/-- WIN_HANDLE_WRITE completes: the low byte goes into the handle register and nothing else changes; a read of WIN_HANDLE
returns it with 00h in the high byte (R122). -/
def Obligations.WinHandleWrite : Prop :=
  ∀ (s : State) (v : Word), s.takesAccess →
    exec (.winHandleWrite v) s = .next { s with window := { s.window with handleReg := v.extractLsb' 0 8 } }
    ∧ s.busWord 0x28 = (0 : Byte) ++ s.window.handleReg

/-- WIN_DATA_READ completes in READY: below the Length it returns the two body bytes (00h beyond the last), moves the
offset by 2 and at a cell boundary below the Length requests the next cell and enters FETCHING (R126); at or beyond the
Length it returns 0000h and sets Past End (R128). In IDLE or STALE it returns 0000h, latches WINDOW_ERROR and raises
Window Errors (R129). The word is driven on D15 to D0, and HELD_READ_ABANDON completes by releasing the lines (R173). In
FETCHING the read is held (R127), RDY low and nothing driven, and HELD_READ_ABANDON completes by ending it unanswered (R175).
Nothing else changes. That HELD_READ_ABANDON with no read held is the end of the bus cycle that releases the lines is the
model's choice (entries 20 and 4). -/
def Obligations.WinDataRead : Prop :=
  (∀ (s : State) (n : Nat), s.takesAccess → s.window.mode = .ready → n = s.windowLength →
      (∀ (p : Nat) (bytes : List Byte), s.window.buffer = some (p, bytes) → s.window.offset.toNat < n →
        exec .winDataRead s = .next { s with
          window := { s.window with
            offset := s.window.offset + 2
            mode := if (s.window.offset.toNat + 2) % 64 = 0 ∧ s.window.offset.toNat + 2 < n then .fetching else .ready
            request := if (s.window.offset.toNat + 2) % 64 = 0 ∧ s.window.offset.toNat + 2 < n
              then some ((s.window.offset.toNat + 2) / 64) else s.window.request }
          host := { s.host with driven := some (bytes.getD (s.window.offset.toNat % 64) 0
            ++ (if s.window.offset.toNat + 1 = n then 0 else bytes.getD ((s.window.offset.toNat + 1) % 64) 0)) } })
      ∧ (n ≤ s.window.offset.toNat → exec .winDataRead s = .next { s with
          window := { s.window with pastEnd := true }, host := { s.host with driven := some 0 } }))
  ∧ (∀ s : State,
      (s.takesAccess → s.window.mode = .idle ∨ s.window.mode = .stale →
        exec .winDataRead s = .next { (s.latch .windowError).bumpDevice .windowErrors with
          host := { s.host with driven := some 0 } })
      ∧ (s.takesAccess → s.window.mode = .fetching →
        exec .winDataRead s = .next { s with host := { s.host with heldRead := true } })
      ∧ (s.host.heldRead = true → s.rdyHigh = false)
      ∧ exec .heldReadAbandon s = .next { s with host := { s.host with heldRead := false, driven := none } })

/-- TIME_LO_READ completes: the low half of the count is driven on D15 to D0, the high half going into the TIME_HI hold in
the same act; a read of TIME_HI returns the hold and not the live count, and nothing but TIME_LO_READ and hard reset changes
the hold, so that the two reads give two halves of one value (R163). Nothing else changes. -/
def Obligations.TimeLoRead : Prop :=
  (∀ s : State, s.takesAccess →
      exec .timeLoRead s = .next { s with
        time := { s.time with hiHold := s.time.count.extractLsb' 16 16 }
        host := { s.host with driven := some (s.time.count.extractLsb' 0 16) } }
      ∧ s.busWord 0x0B = s.time.hiHold)
    ∧ ∀ (c : Instr) (s t : State), exec c s = .next t → c ≠ .timeLoRead → c ≠ .hardReset →
        t.time.hiHold = s.time.hiHold

/-- EVENT_LATCH_WRITE completes: every latch in whose position the word has a 1 is cleared, every other kept; EVENT_ENABLE_
WRITE completes: the ten enables are replaced, bits 15 to 10 ignored (R167, R169). WMARK_WRITE, WMARK_EN_WRITE and
READY_EN_WRITE complete: watermark bits written with a 1 are cleared, the sixteen enables of the written word are replaced,
stream s at bit s of LO or bit s − 16 of HI (R90, R170). Nothing else changes. -/
def Obligations.EventAndPerStreamWordWrites : Prop :=
  (∀ (s : State) (v : Word), s.takesAccess →
      (∃ t : State, exec (.eventLatchWrite v) s = .next t
        ∧ (∀ e : Event, t.latched e = (s.latched e && !v.getLsbD e.position))
        ∧ t = { s with events := { s.events with latches := t.events.latches } })
      ∧ exec (.eventEnableWrite v) s = .next { s with events := { s.events with enables := v &&& 0x03FF } })
  ∧ (∀ (s : State) (h : Half) (v : Word) (base : Nat), s.takesAccess → base = (match h with | .lo => 0 | .hi => 16) →
      (∃ t : State, exec (.wmarkWrite h v) s = .next t
        ∧ (∀ k, k < 32 → t.events.watermarks.getLsbD k
            = (s.events.watermarks.getLsbD k && !(decide (base ≤ k) && v.getLsbD (k - base))))
        ∧ t = { s with events := { s.events with watermarks := t.events.watermarks } })
      ∧ (∃ t : State, exec (.wmarkEnWrite h v) s = .next t
        ∧ (∀ k, k < 32 → t.events.watermarkEnables.getLsbD k
            = if base ≤ k ∧ k < base + 16 then v.getLsbD (k - base) else s.events.watermarkEnables.getLsbD k)
        ∧ t = { s with events := { s.events with watermarkEnables := t.events.watermarkEnables } })
      ∧ ∃ t : State, exec (.readyEnWrite h v) s = .next t
        ∧ (∀ k, k < 32 → t.events.readyEnables.getLsbD k
            = if base ≤ k ∧ k < base + 16 then v.getLsbD (k - base) else s.events.readyEnables.getLsbD k)
        ∧ t = { s with events := { s.events with readyEnables := t.events.readyEnables } })

/-- INT_n is low exactly when RESET_n is high and an enabled latch, the enabled WATERMARK item or an enabled Ready bit is 1
(R171, R168, R83). The premise, that no latch bit is set outside the nine positions of Table 11-10, is part of
`SettingsInv`. -/
def Obligations.InterruptOutput : Prop :=
  ∀ s : State, s.events.latches &&& 0xFC08 = 0 → (s.intLow = true ↔ s.host.resetHigh = true ∧
    ((∃ e : Event, s.latched e = true ∧ s.events.enables.getLsbD e.position = true)
      ∨ ((∃ k < 32, s.events.watermarks.getLsbD k = true ∧ s.events.watermarkEnables.getLsbD k = true)
          ∧ s.events.enables.getLsbD 3 = true)
      ∨ ∃ u : StreamId, (s.stream u).queue ≠ [] ∧ s.events.readyEnables.getLsbD u.val = true))

/-- REFRESH_CFG_WRITE and POOL_LOW_WRITE complete: a legal value is the setting from now on; a low byte of 00h, or a value
above 16384, is ignored with CONFIG_ERROR and Config Errors (R140, R75, R178). Nothing else changes. -/
def Obligations.RefreshCfgAndPoolLowWrites : Prop :=
  ∀ (s : State) (v : Word) (error : State), s.takesAccess → error = (s.latch .configError).bumpDevice .configErrors →
    (exec (.refreshCfgWrite v) s = .next (if v.toNat % 256 = 0 then error
      else { s with port := { s.port with interval := v.extractLsb' 0 8 } }))
    ∧ exec (.poolLowWrite v) s = .next (if 16384 < v.toNat then error
      else { s with pool := { s.pool with lowThreshold := v.toNat } })

/-- HOLD_LIMIT_WRITE completes: every value of the word is legal and is the Hold Limit from now on, in every state of the
pool; nothing is latched and nothing else changes, no Hold Start and not what the present tick judges by; a read returns it.
The first tick after the write judges by it, and at that tick a hold expires when, and only when, it is not 0 and some HELD
slot's hold has lasted it (R113, R114). -/
def Obligations.HoldLimitWrite : Prop :=
  (∀ (s : State) (v : Word), s.takesAccess → exec (.holdLimitWrite v) s = .next { s with holdLimit := v }
    ∧ s.busWord 0x09 = s.holdLimit)
    ∧ (∀ s t : State, s.time.sub = 999 → exec .millisecondTick s = .next t → t.time.judging = s.holdLimit)
    ∧ ∀ s : State, s.host.resetHigh = true →
        ((∃ t, exec .holdExpiry s = .next t) ↔ s.time.judging ≠ 0 ∧ ∃ (i : SlotId) (h : Holding),
          (s.slot i).held = some h ∧ s.time.judging.toNat * 1000 ≤ (s.time.count - h.start).toNat)

/-- REGISTER_WRITE completes: CMD_ARG and the entry image take the whole word; at every unassigned and every read-only word
it is ignored, and an unassigned word reads 0000h (R174, R147, R152). The bus cycle (R173): with RD_n low and WR_n high a
read of any word drives it and, but at TIME_LO and WIN_DATA, has no other effect; with WR_n low and RD_n high a write is
REGISTER_WRITE at its address, and the rows of their own are that write at theirs; with both low nothing is read or
written and the lines are not driven. That REGISTER_WRITE at the address of a register with a row of its own does what that
row does is the model's choice (entry 19), and so is the bus cycle by its levels with what is driven (entry 20). -/
def Obligations.RegisterWrite : Prop :=
  (∀ (s : State) (v : Word), s.takesAccess →
    exec (.registerWrite 0x0D v) s = .next { s with cmd := { s.cmd with argReg := v } }
    ∧ (∀ i : Fin 8, exec (.registerWrite (0x10 + BitVec.ofNat 7 i.val) v) s
        = .next { s with cmd := { s.cmd with image := s.cmd.image.set i.val v } })
    ∧ (∀ a : BitVec 7, a.toNat ≤ 0x06 ∨ a = 0x0A ∨ a = 0x0B ∨ a = 0x0E ∨ a = 0x0F ∨ 0x18 ≤ a.toNat ∧ a.toNat ≤ 0x27
        ∨ 0x2A ≤ a.toNat ∧ a.toNat ≤ 0x2F ∨ a = 0x32 ∨ a = 0x33 ∨ 0x38 ≤ a.toNat ∧ a.toNat ≤ 0x3B ∨ 0x3E ≤ a.toNat →
        exec (.registerWrite a v) s = .next s)
    ∧ ∀ a : BitVec 7, a = 0x0F ∨ 0x2C ≤ a.toNat ∧ a.toNat ≤ 0x2F ∨ 0x38 ≤ a.toNat ∧ a.toNat ≤ 0x3B ∨ a = 0x3E ∨ a = 0x3F
        ∨ 0x48 ≤ a.toNat → s.busWord a = 0)
  ∧ (∀ (s : State) (a : BitVec 7) (v : Word),
      (s.takesAccess → a ≠ 0x0A → a ≠ 0x2A →
        s.busCycle true false a v = .next { s with host := { s.host with driven := some (s.busWord a) } })
      ∧ s.busCycle true false 0x0A v = exec .timeLoRead s ∧ s.busCycle true false 0x2A v = exec .winDataRead s
      ∧ s.busCycle false true a v = exec (.registerWrite a v) s
      ∧ (exec (.commandAcceptance v) s = exec (.registerWrite 0x0C v) s ∧ exec (.pointing v) s = exec (.registerWrite 0x29 v) s
          ∧ exec (.winHandleWrite v) s = exec (.registerWrite 0x28 v) s
          ∧ exec (.eventLatchWrite v) s = exec (.registerWrite 0x30 v) s
          ∧ exec (.eventEnableWrite v) s = exec (.registerWrite 0x31 v) s
          ∧ exec (.readyEnWrite .lo v) s = exec (.registerWrite 0x34 v) s
          ∧ exec (.readyEnWrite .hi v) s = exec (.registerWrite 0x35 v) s
          ∧ exec (.wmarkWrite .lo v) s = exec (.registerWrite 0x36 v) s
          ∧ exec (.wmarkWrite .hi v) s = exec (.registerWrite 0x37 v) s
          ∧ exec (.wmarkEnWrite .lo v) s = exec (.registerWrite 0x3C v) s
          ∧ exec (.wmarkEnWrite .hi v) s = exec (.registerWrite 0x3D v) s
          ∧ exec (.refreshCfgWrite v) s = exec (.registerWrite 0x07 v) s
          ∧ exec (.poolLowWrite v) s = exec (.registerWrite 0x08 v) s
          ∧ exec (.holdLimitWrite v) s = exec (.registerWrite 0x09 v) s)
      ∧ (s.host.heldRead = false → s.busCycle true true a v = .next { s with host := { s.host with driven := none } }))

/-! ### The whole part -/

/-- The Record View is changed by TAKE, PEEK and hard reset and by nothing else (R111); the bytes of the buffer memory by
the completion of a cell write and hard reset; the round-robin position by a grant and hard reset; the time count by a
count and hard reset (R59, R137, R161). -/
def Obligations.OwnersOfViewMemoryPositionAndTime : Prop :=
  (∀ (c : Instr) (s t : State), exec c s = .next t → c ≠ .take → c ≠ .peek → c ≠ .hardReset → t.view = s.view)
  ∧ (∀ (c : Instr) (s t : State), exec c s = .next t → c ≠ .hardReset →
      (c ≠ .cellWriteComplete → t.memory = s.memory)
      ∧ (c ≠ .portGrant → t.port.position = s.port.position)
      ∧ (c ≠ .timebaseCount → c ≠ .millisecondTick → t.time.count = s.time.count))

/-- Every invariant holds right after reset. -/
def Obligations.InvariantsHoldAfterReset : Prop :=
  RefreshInv State.reset ∧ SettingsInv State.reset ∧ MemoryInv State.reset ∧ LanesInv State.reset
    ∧ WindowInv State.reset ∧ ChargeInv State.reset ∧ DescInv State.reset ∧ PlacesInv State.reset

/-- The refresh balance stays between −8 and +8 at every step (R138). Starvation (R144): at a Refresh Interval of 1 or 2 units
the expiry that brings the balance to +6 or more starves the port; every step keeps it starved while such a setting stands,
so that the balance is +6 or more whenever the port is free; and every grant then is a refresh, no lane write and no window
read. That an operation ends no earlier than its time, as far as the counts and expiries tell, is how the model keeps R134's
times (entry 23). -/
def Obligations.StepKeepsRefreshBalance : Prop :=
  (∀ s t : State, RefreshInv s → step s = .next t → RefreshInv t)
  ∧ (∀ s : State, s.host.resetHigh = true → RefreshInv s → s.port.interval = 1 ∨ s.port.interval = 2 → s.port.left ≤ 4 →
      5 ≤ s.port.balance → ∃ t : State, exec .intervalExpiry s = .next t ∧ StarvedInv t)
  ∧ (∀ s t : State, StarvedInv s → step s = .next t → t.port.interval = 1 ∨ t.port.interval = 2 → StarvedInv t)
  ∧ ∀ s : State, StarvedInv s → s.port.op = none → exec .portGrant s = .next { s with
      port := { s.port.started .refresh 64 with balance := s.port.balance - 1 } }

/-- Every setting stays legal at every step (R139, R75, Table 5-1, R48, Table 11-10, R162), and the buffer memory, the links
and the descriptors keep their canonical form. -/
def Obligations.StepKeepsSettingsAndForm : Prop :=
  (∀ s t : State, SettingsInv s → step s = .next t → SettingsInv t)
  ∧ (∀ s t : State, MemoryInv s → step s = .next t → MemoryInv t)

/-- What holds of every lane in each delineation state holds after every step (R7, R10, R11, R14, R16, R17, R18). -/
def Obligations.StepKeepsLanes : Prop := ∀ s t : State, LanesInv s → step s = .next t → LanesInv t

/-- What holds of the Data Window holds after every step (R121, R125, R127). -/
def Obligations.StepKeepsWindow : Prop := ∀ s t : State, WindowInv s → step s = .next t → WindowInv t

/-- A stream's charge never exceeds its quota (R78). -/
def Obligations.StepKeepsChargeBelowQuota : Prop := ∀ s t : State, ChargeInv s → step s = .next t → ChargeInv t

/-- The descriptor counts of R66 add up to 4096 at every step while the pool is READY, and every place is empty while it is
INITIALIZING (R66, R72). Every cell and every descriptor stands in exactly one of the places R65 and R66 name, and every
reception unit is as R29 says, at every step; so the free cell count, the Cell Counts of the records and the cells in the
retiring sets add up to 16384 (R65), and a reception list holds at most five records, of which at most one is RECEIVING,
the last (R29). -/
def Obligations.StepKeepsDescriptors : Prop :=
  (∀ s t : State, DescInv s → step s = .next t → DescInv t)
  ∧ (∀ s t : State, PlacesInv s → step s = .next t → PlacesInv t)
  ∧ ∀ s : State, PlacesInv s →
    (s.pool.ready = true → s.pool.freeCells.length + (s.records.map fun d => (s.desc d).cellCount).sum
        + s.retiringCells.length = 16384
      ∧ s.pool.freeDescs.length + s.records.length = 4096)
    ∧ ∀ l, (s.lane l).unit.list.length ≤ 5
      ∧ ∀ d ∈ (s.lane l).unit.list, (s.desc d).state = .receiving → (s.lane l).unit.list.getLast? = some d
end

