-- ==== Sys2Proof/Laws/Tab.lean ====
section
/-! SUPPORT. Sparse tables and the buffer memory: what a lookup gives after each operation, and that every operation keeps
the canonical form. -/

namespace Sys2Proof.Machine

variable {β : Type}

/-! ### Lookups -/

theorem Tab.look_put (t : Tab β) (i : Nat) (x : β) (j : Nat) :
    Tab.look (Tab.put t i x) j = if j = i then some x else Tab.look t j := by
  induction t with
  | nil => simp [Tab.put, Tab.look]
  | cons e t ih =>
    obtain ⟨k, v⟩ := e
    simp only [Tab.put]
    split
    · simp [Tab.look]
    · split
      · subst_vars; simp only [Tab.look]; split <;> rfl
      · simp only [Tab.look, ih]; split <;> split <;> simp_all

theorem Tab.look_erase (t : Tab β) (i j : Nat) :
    Tab.look (Tab.erase t i) j = if j = i then none else Tab.look t j := by
  induction t with
  | nil => simp [Tab.erase, Tab.look]
  | cons e t ih =>
    obtain ⟨k, v⟩ := e
    simp only [Tab.erase, List.filter_cons] at ih ⊢
    by_cases h : k = i
    · subst h; simp only [bne_self_eq_false, Bool.false_eq_true, if_false, ih, Tab.look]; split <;> rfl
    · simp only [bne_iff_ne, ne_eq, h, not_false_eq_true, if_true, Tab.look, ih]
      split <;> split <;> simp_all

variable [DecidableEq β]

/-- Reading a key after setting one. -/
theorem Tab.get_set (d : β) (t : Tab β) (i : Nat) (x : β) (j : Nat) :
    Tab.get d (Tab.set d t i x) j = if j = i then x else Tab.get d t j := by
  unfold Tab.get Tab.set
  by_cases hx : x = d
  · rw [if_pos hx, Tab.look_erase]; split <;> simp [hx]
  · rw [if_neg hx, Tab.look_put]; split <;> simp

/-- Reading a key after a function that keeps the default has been applied to every value. -/
theorem Tab.get_mapValues (d : β) (f : β → β) (hf : f d = d) (t : Tab β) (i : Nat) :
    Tab.get d (Tab.mapValues d f t) i = f (Tab.get d t i) := by
  induction t with
  | nil => simp [Tab.mapValues, Tab.get, Tab.look, hf]
  | cons e t ih =>
    obtain ⟨k, v⟩ := e
    simp only [Tab.mapValues, Tab.get_set, ih]
    simp only [Tab.get, Tab.look]
    split <;> simp

/-! ### The canonical form -/

omit [DecidableEq β] in
theorem Tab.rising_iff (t : Tab β) : Tab.rising t = true ↔ t.Pairwise (fun a b => a.1 < b.1) := by
  induction t with
  | nil => simp [Tab.rising]
  | cons e t ih =>
    obtain ⟨k, v⟩ := e
    cases t with
    | nil => simp [Tab.rising]
    | cons e' t =>
      obtain ⟨k', v'⟩ := e'
      simp only [Tab.rising, Bool.and_eq_true, decide_eq_true_eq, ih]
      constructor
      · rintro ⟨h, hp⟩
        refine List.Pairwise.cons ?_ hp
        intro b hb
        rcases List.mem_cons.mp hb with rfl | hb
        · exact h
        · exact lt_trans h (List.rel_of_pairwise_cons hp hb)
      · intro hp
        exact ⟨List.rel_of_pairwise_cons hp (List.mem_cons_self ..), hp.of_cons⟩

omit [DecidableEq β] in
theorem Tab.mem_put (t : Tab β) (i : Nat) (x : β) (e : Nat × β) (h : e ∈ Tab.put t i x) : e = (i, x) ∨ e ∈ t := by
  induction t with
  | nil => simpa [Tab.put] using h
  | cons a t ih =>
    obtain ⟨k, v⟩ := a
    simp only [Tab.put] at h
    split at h
    · simpa using h
    · split at h
      · simp only [List.mem_cons] at h ⊢; tauto
      · simp only [List.mem_cons] at h ⊢
        rcases h with h | h
        · exact .inr (.inl h)
        · rcases ih h with h | h <;> tauto

omit [DecidableEq β] in
theorem Tab.rising_put (t : Tab β) (i : Nat) (x : β) (h : Tab.rising t = true) : Tab.rising (Tab.put t i x) = true := by
  rw [Tab.rising_iff] at h ⊢
  induction t with
  | nil => simp [Tab.put]
  | cons a t ih =>
    obtain ⟨k, v⟩ := a
    have hk : ∀ b ∈ t, k < b.1 := fun b hb => List.rel_of_pairwise_cons h hb
    simp only [Tab.put]
    split
    · rename_i hik
      refine List.Pairwise.cons ?_ h
      intro b hb
      rcases List.mem_cons.mp hb with rfl | hb
      · exact hik
      · exact lt_trans hik (hk _ hb)
    · split
      · subst_vars; exact List.Pairwise.cons (fun b hb => hk _ hb) h.of_cons
      · refine List.Pairwise.cons ?_ (ih h.of_cons)
        intro b hb
        rcases Tab.mem_put _ _ _ _ hb with rfl | hb
        · simp only; omega
        · exact hk _ hb

omit [DecidableEq β] in
theorem Tab.rising_erase (t : Tab β) (i : Nat) (h : Tab.rising t = true) : Tab.rising (Tab.erase t i) = true := by
  rw [Tab.rising_iff] at h ⊢
  exact h.filter _

theorem Tab.wf_iff (d : β) (t : Tab β) :
    Tab.wf d t = true ↔ Tab.rising t = true ∧ ∀ e ∈ t, e.2 ≠ d := by
  simp [Tab.wf]

/-- Setting a key keeps the canonical form. -/
theorem Tab.wf_set (d : β) (t : Tab β) (i : Nat) (x : β) (h : Tab.wf d t = true) :
    Tab.wf d (Tab.set d t i x) = true := by
  rw [Tab.wf_iff] at h ⊢
  unfold Tab.set
  split
  · exact ⟨Tab.rising_erase _ _ h.1, fun e he => h.2 e (List.mem_filter.mp he).1⟩
  · rename_i hx
    refine ⟨Tab.rising_put _ _ _ h.1, fun e he => ?_⟩
    rcases Tab.mem_put _ _ _ _ he with rfl | he
    · exact hx
    · exact h.2 e he

/-- Applying a function to every value leaves the canonical form. -/
theorem Tab.wf_mapValues (d : β) (f : β → β) (t : Tab β) : Tab.wf d (Tab.mapValues d f t) = true := by
  induction t with
  | nil => simp [Tab.mapValues, Tab.wf, Tab.rising]
  | cons e t ih => exact Tab.wf_set _ _ _ _ ih

/-! ### Buffer memory -/

/-- Reading a byte after a run of bytes has been written. -/
theorem Memory.look_write (bs : List Byte) (m : List Host.Cell) (base a : Nat) :
    Tab.look (Memory.write m base bs) a
      = if base ≤ a ∧ a < base + bs.length then bs[a - base]? else Tab.look m a := by
  induction bs generalizing m base with
  | nil => simp only [Memory.write, List.length_nil]; rw [if_neg (by omega)]
  | cons b bs ih =>
    rw [Memory.write, ih, Tab.look_put]
    simp only [List.length_cons]
    by_cases h1 : base + 1 ≤ a ∧ a < base + 1 + bs.length
    · rw [if_pos h1, if_pos (by omega), show a - base = (a - (base + 1)) + 1 by omega]; simp
    · rw [if_neg h1]
      by_cases h2 : a = base
      · subst h2; rw [if_pos rfl, if_pos (by omega)]; simp
      · rw [if_neg h2, if_neg (by omega)]

theorem Memory.wf_iff (m : List Host.Cell) :
    Memory.wf m = true ↔ Tab.rising m = true ∧ ∀ e ∈ m, e.1 < Config.cellCount * Config.cellBytes := by
  simp [Memory.wf]

/-- A write inside the buffer memory keeps the canonical form. -/
theorem Memory.wf_write (bs : List Byte) (m : List Host.Cell) (base : Nat) (h : Memory.wf m = true)
    (hb : base + bs.length ≤ Config.cellCount * Config.cellBytes) : Memory.wf (Memory.write m base bs) = true := by
  induction bs generalizing m base with
  | nil => exact h
  | cons b bs ih =>
    rw [Memory.write]
    simp only [List.length_cons] at hb
    apply ih _ _ _ (by omega)
    rw [Memory.wf_iff] at h ⊢
    refine ⟨Tab.rising_put _ _ _ h.1, fun e he => ?_⟩
    rcases Tab.mem_put _ _ _ _ he with rfl | he
    · simp only; omega
    · exact h.2 e he

end Sys2Proof.Machine
end

