-- ==== Sys2Proof/Laws/State.lean ====
section
/-! SUPPORT. Reading a part of the state after one of the setters: one lemma per setter and part, for simp. -/

namespace Sys2Proof.Machine

/-! ### Lanes -/

@[simp] theorem State.lane_setLane_self (s : State) (l : LaneId) (x : Lane) : (s.setLane l x).lane l = x := by
  simp [State.lane, State.setLane]

@[simp] theorem State.lane_setLane_ne (s : State) {l m : LaneId} (x : Lane) (h : m ≠ l) :
    (s.setLane l x).lane m = s.lane m := by
  have : l.val ≠ m.val := fun e => h (Fin.ext e.symm)
  simp [State.lane, State.setLane, Vector.getElem_set_ne, this]

theorem State.lane_setLane (s : State) (l m : LaneId) (x : Lane) :
    (s.setLane l x).lane m = if m = l then x else s.lane m := by
  split
  · subst_vars; simp
  · simp [*]

@[simp] theorem State.lane_setRx_self (s : State) (l : LaneId) (rx : Receiver) :
    (s.setRx l rx).lane l = { s.lane l with rx := rx } := by simp [State.setRx]

@[simp] theorem State.lane_setRx_ne (s : State) {l m : LaneId} (rx : Receiver) (h : m ≠ l) :
    (s.setRx l rx).lane m = s.lane m := by simp [State.setRx, h]

@[simp] theorem State.lane_setRx_entry (s : State) (l m : LaneId) (rx : Receiver) :
    ((s.setRx l rx).lane m).entry = (s.lane m).entry := by
  by_cases h : m = l
  · subst h; simp
  · simp [h]

@[simp] theorem State.lane_setRx_unit (s : State) (l m : LaneId) (rx : Receiver) :
    ((s.setRx l rx).lane m).unit = (s.lane m).unit := by
  by_cases h : m = l
  · subst h; simp
  · simp [h]

@[simp] theorem State.lane_setUnit_self (s : State) (l : LaneId) (u : Reception) :
    (s.setUnit l u).lane l = { s.lane l with unit := u } := by simp [State.setUnit]

@[simp] theorem State.lane_setUnit_ne (s : State) {l m : LaneId} (u : Reception) (h : m ≠ l) :
    (s.setUnit l u).lane m = s.lane m := by simp [State.setUnit, h]

@[simp] theorem State.lane_setUnit_entry (s : State) (l m : LaneId) (u : Reception) :
    ((s.setUnit l u).lane m).entry = (s.lane m).entry := by
  by_cases h : m = l
  · subst h; simp
  · simp [h]

@[simp] theorem State.lane_setUnit_rx (s : State) (l m : LaneId) (u : Reception) :
    ((s.setUnit l u).lane m).rx = (s.lane m).rx := by
  by_cases h : m = l
  · subst h; simp
  · simp [h]

/-! ### Routes, streams and slots -/

@[simp] theorem State.route_setRoute_self (s : State) (i : RouteId) (e : RouteEntry) : (s.setRoute i e).route i = e := by
  simp [State.route, State.setRoute]

@[simp] theorem State.route_setRoute_ne (s : State) {i j : RouteId} (e : RouteEntry) (h : j ≠ i) :
    (s.setRoute i e).route j = s.route j := by
  have : i.val ≠ j.val := fun e => h (Fin.ext e.symm)
  simp [State.route, State.setRoute, Vector.getElem_set_ne, this]

@[simp] theorem State.stream_setStream_self (s : State) (t : StreamId) (x : Stream) : (s.setStream t x).stream t = x := by
  simp [State.stream, State.setStream]

@[simp] theorem State.stream_setStream_ne (s : State) {t u : StreamId} (x : Stream) (h : u ≠ t) :
    (s.setStream t x).stream u = s.stream u := by
  have : t.val ≠ u.val := fun e => h (Fin.ext e.symm)
  simp [State.stream, State.setStream, Vector.getElem_set_ne, this]

theorem State.stream_setStream (s : State) (t u : StreamId) (x : Stream) :
    (s.setStream t x).stream u = if u = t then x else s.stream u := by
  split
  · subst_vars; simp
  · simp [*]

@[simp] theorem State.stream_setStream_entry (s : State) (t u : StreamId) (x : Stream)
    (h : x.entry = (s.stream t).entry) : ((s.setStream t x).stream u).entry = (s.stream u).entry := by
  by_cases hu : u = t
  · subst hu; simpa using h
  · simp [hu]

@[simp] theorem State.stream_setStream_queue (s : State) (t u : StreamId) (x : Stream)
    (h : x.queue = (s.stream t).queue) : ((s.setStream t x).stream u).queue = (s.stream u).queue := by
  by_cases hu : u = t
  · subst hu; simpa using h
  · simp [hu]

@[simp] theorem State.stream_setStream_heldCount (s : State) (t u : StreamId) (x : Stream)
    (h : x.heldCount = (s.stream t).heldCount) : ((s.setStream t x).stream u).heldCount = (s.stream u).heldCount := by
  by_cases hu : u = t
  · subst hu; simpa using h
  · simp [hu]

@[simp] theorem State.stream_setStream_charge (s : State) (t u : StreamId) (x : Stream)
    (h : x.charge = (s.stream t).charge) : ((s.setStream t x).stream u).charge = (s.stream u).charge := by
  by_cases hu : u = t
  · subst hu; simpa using h
  · simp [hu]

@[simp] theorem State.stream_setStream_examine (s : State) (t u : StreamId) (x : Stream)
    (h : x.examine = (s.stream t).examine) : ((s.setStream t x).stream u).examine = (s.stream u).examine := by
  by_cases hu : u = t
  · subst hu; simpa using h
  · simp [hu]

@[simp] theorem State.stream_setStream_expired (s : State) (t u : StreamId) (x : Stream)
    (h : x.expired = (s.stream t).expired) : ((s.setStream t x).stream u).expired = (s.stream u).expired := by
  by_cases hu : u = t
  · subst hu; simpa using h
  · simp [hu]

@[simp] theorem State.lane_setLane_entry (s : State) (l m : LaneId) (x : Lane)
    (h : x.entry = (s.lane l).entry) : ((s.setLane l x).lane m).entry = (s.lane m).entry := by
  by_cases hm : m = l
  · subst hm; simpa using h
  · simp [hm]

@[simp] theorem State.lane_setLane_rx (s : State) (l m : LaneId) (x : Lane)
    (h : x.rx = (s.lane l).rx) : ((s.setLane l x).lane m).rx = (s.lane m).rx := by
  by_cases hm : m = l
  · subst hm; simpa using h
  · simp [hm]

@[simp] theorem State.lane_setLane_unit (s : State) (l m : LaneId) (x : Lane)
    (h : x.unit = (s.lane l).unit) : ((s.setLane l x).lane m).unit = (s.lane m).unit := by
  by_cases hm : m = l
  · subst hm; simpa using h
  · simp [hm]

@[simp] theorem State.slot_setSlot_self (s : State) (i : SlotId) (x : HoldSlot) : (s.setSlot i x).slot i = x := by
  simp [State.slot, State.setSlot]

@[simp] theorem State.slot_setSlot_ne (s : State) {i j : SlotId} (x : HoldSlot) (h : j ≠ i) :
    (s.setSlot i x).slot j = s.slot j := by
  have : i.val ≠ j.val := fun e => h (Fin.ext e.symm)
  simp [State.slot, State.setSlot, Vector.getElem_set_ne, this]

/-! ### Descriptors -/

@[simp] theorem State.desc_setDesc_self (s : State) (d : DescId) (x : Desc) : (s.setDesc d x).desc d = x := by
  simp [State.desc, State.setDesc, Tab.get_set]

@[simp] theorem State.desc_setDesc_ne (s : State) {d e : DescId} (x : Desc) (h : e ≠ d) :
    (s.setDesc d x).desc e = s.desc e := by
  have : e.val ≠ d.val := fun h' => h (Fin.ext h')
  simp [State.desc, State.setDesc, Tab.get_set, this]

theorem State.desc_setDesc (s : State) (d e : DescId) (x : Desc) :
    (s.setDesc d x).desc e = if e = d then x else s.desc e := by
  split
  · subst_vars; simp
  · simp [*]

/-! ### Counters and latches -/

@[simp] theorem State.laneCount_bumpLane_self (s : State) (l : LaneId) (k : LaneCounter) :
    (s.bumpLane l k).laneCount l k = bump (s.laneCount l k) := by
  simp [State.laneCount, State.bumpLane]

theorem LaneCounter.index_injective : Function.Injective LaneCounter.index := by
  intro a b h; cases a <;> cases b <;> first | rfl | exact absurd h (by decide)

theorem StreamCounter.index_injective : Function.Injective StreamCounter.index := by
  intro a b h; cases a <;> cases b <;> first | rfl | exact absurd h (by decide)

theorem DeviceCounter.index_injective : Function.Injective DeviceCounter.index := by
  intro a b h; cases a <;> cases b <;> first | rfl | exact absurd h (by decide)

@[simp] theorem State.laneCount_bumpLane_ne (s : State) {l m : LaneId} {k j : LaneCounter} (h : m ≠ l ∨ j ≠ k) :
    (s.bumpLane l k).laneCount m j = s.laneCount m j := by
  simp only [State.laneCount, State.bumpLane]
  by_cases hm : m = l
  · subst hm
    have hj : k.index.val ≠ j.index.val := fun e =>
      (h.resolve_left (by simp)) (LaneCounter.index_injective (Fin.ext e.symm))
    simp [Vector.getElem_set_ne, hj]
  · have : l.val ≠ m.val := fun e => hm (Fin.ext e.symm)
    simp [Vector.getElem_set_ne, this]

@[simp] theorem State.streamCount_bumpStream_self (s : State) (t : StreamId) (k : StreamCounter) :
    (s.bumpStream t k).streamCount t k = bump (s.streamCount t k) := by
  simp [State.streamCount, State.bumpStream]

@[simp] theorem State.streamCount_bumpStream_ne (s : State) {t u : StreamId} {k j : StreamCounter} (h : u ≠ t ∨ j ≠ k) :
    (s.bumpStream t k).streamCount u j = s.streamCount u j := by
  simp only [State.streamCount, State.bumpStream]
  by_cases hm : u = t
  · subst hm
    have hj : k.index.val ≠ j.index.val := fun e =>
      (h.resolve_left (by simp)) (StreamCounter.index_injective (Fin.ext e.symm))
    simp [Vector.getElem_set_ne, hj]
  · have : t.val ≠ u.val := fun e => hm (Fin.ext e.symm)
    simp [Vector.getElem_set_ne, this]

@[simp] theorem State.deviceCount_bumpDevice_self (s : State) (k : DeviceCounter) :
    (s.bumpDevice k).deviceCount k = bump (s.deviceCount k) := by
  simp [State.deviceCount, State.bumpDevice]

@[simp] theorem State.deviceCount_bumpDevice_ne (s : State) {k j : DeviceCounter} (h : j ≠ k) :
    (s.bumpDevice k).deviceCount j = s.deviceCount j := by
  have hj : k.index.val ≠ j.index.val := fun e => h (DeviceCounter.index_injective (Fin.ext e.symm))
  simp [State.deviceCount, State.bumpDevice, Vector.getElem_set_ne, hj]

@[simp] theorem State.latched_latch_self (s : State) (e : Event) : (s.latch e).latched e = true := by
  cases e <;> simp [State.latch, State.latched, Event.position]

@[simp] theorem State.latched_latch_ne (s : State) {e f : Event} (h : f ≠ e) : (s.latch e).latched f = s.latched f := by
  cases e <;> cases f <;> first | exact absurd rfl h | simp [State.latch, State.latched, Event.position]

end Sys2Proof.Machine
end

