-- ==== Sys2Proof/Laws/Frames.lean ====
section
/-! SUPPORT. What each operation of the state leaves unchanged: one lemma per operation, for simp. -/

namespace Sys2Proof.Machine

@[simp] theorem State.bumpLane_frame (s : State) (l : LaneId) (k : LaneCounter) :
    (s.bumpLane l k).lanes = s.lanes ∧ (∀ m, (s.bumpLane l k).lane m = s.lane m) ∧ (s.bumpLane l k).routes = s.routes
    ∧ (∀ i', (s.bumpLane l k).route i' = s.route i') ∧ (s.bumpLane l k).pool = s.pool
    ∧ (∀ d', (s.bumpLane l k).desc d' = s.desc d') ∧ (s.bumpLane l k).streams = s.streams
    ∧ (∀ t', (s.bumpLane l k).stream t' = s.stream t') ∧ (s.bumpLane l k).slots = s.slots
    ∧ (∀ k', (s.bumpLane l k).slot k' = s.slot k') ∧ (s.bumpLane l k).holdLimit = s.holdLimit
    ∧ (s.bumpLane l k).view = s.view ∧ (s.bumpLane l k).window = s.window ∧ (s.bumpLane l k).port = s.port
    ∧ (s.bumpLane l k).cmd = s.cmd ∧ (s.bumpLane l k).time = s.time ∧ (s.bumpLane l k).now = s.now
    ∧ (s.bumpLane l k).counts.streams = s.counts.streams ∧ (s.bumpLane l k).counts.device = s.counts.device
    ∧ (s.bumpLane l k).counts.completions = s.counts.completions
    ∧ (∀ t' k', (s.bumpLane l k).streamCount t' k' = s.streamCount t' k')
    ∧ (∀ k', (s.bumpLane l k).deviceCount k' = s.deviceCount k') ∧ (s.bumpLane l k).events = s.events
    ∧ (∀ e', (s.bumpLane l k).latched e' = s.latched e') ∧ (s.bumpLane l k).host = s.host
    ∧ (s.bumpLane l k).memory = s.memory ∧ (s.bumpLane l k).epoch = s.epoch ∧ (s.bumpLane l k).pending = s.pending := by
  and_intros <;> intros <;> rfl

@[simp] theorem State.bumpStream_frame (s : State) (t : StreamId) (k : StreamCounter) :
    (s.bumpStream t k).lanes = s.lanes ∧ (∀ m, (s.bumpStream t k).lane m = s.lane m)
    ∧ (s.bumpStream t k).routes = s.routes ∧ (∀ i', (s.bumpStream t k).route i' = s.route i')
    ∧ (s.bumpStream t k).pool = s.pool ∧ (∀ d', (s.bumpStream t k).desc d' = s.desc d')
    ∧ (s.bumpStream t k).streams = s.streams ∧ (∀ t', (s.bumpStream t k).stream t' = s.stream t')
    ∧ (s.bumpStream t k).slots = s.slots ∧ (∀ k', (s.bumpStream t k).slot k' = s.slot k')
    ∧ (s.bumpStream t k).holdLimit = s.holdLimit ∧ (s.bumpStream t k).view = s.view
    ∧ (s.bumpStream t k).window = s.window ∧ (s.bumpStream t k).port = s.port ∧ (s.bumpStream t k).cmd = s.cmd
    ∧ (s.bumpStream t k).time = s.time ∧ (s.bumpStream t k).now = s.now
    ∧ (s.bumpStream t k).counts.lanes = s.counts.lanes ∧ (s.bumpStream t k).counts.device = s.counts.device
    ∧ (s.bumpStream t k).counts.completions = s.counts.completions
    ∧ (∀ l' k', (s.bumpStream t k).laneCount l' k' = s.laneCount l' k')
    ∧ (∀ k', (s.bumpStream t k).deviceCount k' = s.deviceCount k') ∧ (s.bumpStream t k).events = s.events
    ∧ (∀ e', (s.bumpStream t k).latched e' = s.latched e') ∧ (s.bumpStream t k).host = s.host
    ∧ (s.bumpStream t k).memory = s.memory ∧ (s.bumpStream t k).epoch = s.epoch
    ∧ (s.bumpStream t k).pending = s.pending := by
  and_intros <;> intros <;> rfl

@[simp] theorem State.bumpDevice_frame (s : State) (k : DeviceCounter) :
    (s.bumpDevice k).lanes = s.lanes ∧ (∀ m, (s.bumpDevice k).lane m = s.lane m) ∧ (s.bumpDevice k).routes = s.routes
    ∧ (∀ i', (s.bumpDevice k).route i' = s.route i') ∧ (s.bumpDevice k).pool = s.pool
    ∧ (∀ d', (s.bumpDevice k).desc d' = s.desc d') ∧ (s.bumpDevice k).streams = s.streams
    ∧ (∀ t', (s.bumpDevice k).stream t' = s.stream t') ∧ (s.bumpDevice k).slots = s.slots
    ∧ (∀ k', (s.bumpDevice k).slot k' = s.slot k') ∧ (s.bumpDevice k).holdLimit = s.holdLimit
    ∧ (s.bumpDevice k).view = s.view ∧ (s.bumpDevice k).window = s.window ∧ (s.bumpDevice k).port = s.port
    ∧ (s.bumpDevice k).cmd = s.cmd ∧ (s.bumpDevice k).time = s.time ∧ (s.bumpDevice k).now = s.now
    ∧ (s.bumpDevice k).counts.lanes = s.counts.lanes ∧ (s.bumpDevice k).counts.streams = s.counts.streams
    ∧ (s.bumpDevice k).counts.completions = s.counts.completions
    ∧ (∀ l' k', (s.bumpDevice k).laneCount l' k' = s.laneCount l' k')
    ∧ (∀ t' k', (s.bumpDevice k).streamCount t' k' = s.streamCount t' k') ∧ (s.bumpDevice k).events = s.events
    ∧ (∀ e', (s.bumpDevice k).latched e' = s.latched e') ∧ (s.bumpDevice k).host = s.host
    ∧ (s.bumpDevice k).memory = s.memory ∧ (s.bumpDevice k).epoch = s.epoch ∧ (s.bumpDevice k).pending = s.pending := by
  and_intros <;> intros <;> rfl

@[simp] theorem State.latch_frame (s : State) (e : Event) :
    (s.latch e).lanes = s.lanes ∧ (∀ m, (s.latch e).lane m = s.lane m) ∧ (s.latch e).routes = s.routes
    ∧ (∀ i', (s.latch e).route i' = s.route i') ∧ (s.latch e).pool = s.pool ∧ (∀ d', (s.latch e).desc d' = s.desc d')
    ∧ (s.latch e).streams = s.streams ∧ (∀ t', (s.latch e).stream t' = s.stream t') ∧ (s.latch e).slots = s.slots
    ∧ (∀ k', (s.latch e).slot k' = s.slot k') ∧ (s.latch e).holdLimit = s.holdLimit ∧ (s.latch e).view = s.view
    ∧ (s.latch e).window = s.window ∧ (s.latch e).port = s.port ∧ (s.latch e).cmd = s.cmd ∧ (s.latch e).time = s.time
    ∧ (s.latch e).now = s.now ∧ (s.latch e).counts = s.counts
    ∧ (∀ l' k', (s.latch e).laneCount l' k' = s.laneCount l' k')
    ∧ (∀ t' k', (s.latch e).streamCount t' k' = s.streamCount t' k')
    ∧ (∀ k', (s.latch e).deviceCount k' = s.deviceCount k') ∧ (s.latch e).events.enables = s.events.enables
    ∧ (s.latch e).events.watermarks = s.events.watermarks
    ∧ (s.latch e).events.watermarkEnables = s.events.watermarkEnables
    ∧ (s.latch e).events.readyEnables = s.events.readyEnables
    ∧ (s.latch e).events.latches &&& 0xFC08#16 = s.events.latches &&& 0xFC08#16 ∧ (s.latch e).host = s.host
    ∧ (s.latch e).memory = s.memory ∧ (s.latch e).epoch = s.epoch ∧ (s.latch e).pending = s.pending := by
  and_intros
  all_goals first | (intros; rfl) | skip
  have h : ∀ (w v : Word), v &&& 0xFC08#16 = 0#16 → (w ||| v) &&& 0xFC08#16 = w &&& 0xFC08#16 := by
    intro w v hv
    apply BitVec.eq_of_getLsbD_eq
    intro i hi
    have := congrArg (fun x => x.getLsbD i) hv
    simp only [BitVec.getLsbD_and, BitVec.getLsbD_or, BitVec.getLsbD_zero] at this ⊢
    revert this; cases w.getLsbD i <;> cases v.getLsbD i <;> simp
  exact h _ _ (by cases e <;> decide)

@[simp] theorem State.setLane_frame (s : State) (l : LaneId) (x : Lane) :
    (∀ m, m ≠ l → (s.setLane l x).lane m = s.lane m) ∧ (s.setLane l x).routes = s.routes
    ∧ (∀ i', (s.setLane l x).route i' = s.route i') ∧ (s.setLane l x).pool = s.pool
    ∧ (∀ d', (s.setLane l x).desc d' = s.desc d') ∧ (s.setLane l x).streams = s.streams
    ∧ (∀ t', (s.setLane l x).stream t' = s.stream t') ∧ (s.setLane l x).slots = s.slots
    ∧ (∀ k', (s.setLane l x).slot k' = s.slot k') ∧ (s.setLane l x).holdLimit = s.holdLimit
    ∧ (s.setLane l x).view = s.view ∧ (s.setLane l x).window = s.window ∧ (s.setLane l x).port = s.port
    ∧ (s.setLane l x).cmd = s.cmd ∧ (s.setLane l x).time = s.time ∧ (s.setLane l x).now = s.now
    ∧ (s.setLane l x).counts = s.counts ∧ (∀ l' k', (s.setLane l x).laneCount l' k' = s.laneCount l' k')
    ∧ (∀ t' k', (s.setLane l x).streamCount t' k' = s.streamCount t' k')
    ∧ (∀ k', (s.setLane l x).deviceCount k' = s.deviceCount k') ∧ (s.setLane l x).events = s.events
    ∧ (∀ e', (s.setLane l x).latched e' = s.latched e') ∧ (s.setLane l x).host = s.host
    ∧ (s.setLane l x).memory = s.memory ∧ (s.setLane l x).epoch = s.epoch ∧ (s.setLane l x).pending = s.pending := by
  and_intros <;> first | (intros; rfl) | (intro m h; simp [h])

@[simp] theorem State.setRx_frame (s : State) (l : LaneId) (rx : Receiver) :
    (∀ m, ((s.setRx l rx).lane m).entry = (s.lane m).entry) ∧ (∀ m, ((s.setRx l rx).lane m).unit = (s.lane m).unit)
    ∧ (∀ m, m ≠ l → (s.setRx l rx).lane m = s.lane m) ∧ (s.setRx l rx).routes = s.routes
    ∧ (∀ i', (s.setRx l rx).route i' = s.route i') ∧ (s.setRx l rx).pool = s.pool
    ∧ (∀ d', (s.setRx l rx).desc d' = s.desc d') ∧ (s.setRx l rx).streams = s.streams
    ∧ (∀ t', (s.setRx l rx).stream t' = s.stream t') ∧ (s.setRx l rx).slots = s.slots
    ∧ (∀ k', (s.setRx l rx).slot k' = s.slot k') ∧ (s.setRx l rx).holdLimit = s.holdLimit
    ∧ (s.setRx l rx).view = s.view ∧ (s.setRx l rx).window = s.window ∧ (s.setRx l rx).port = s.port
    ∧ (s.setRx l rx).cmd = s.cmd ∧ (s.setRx l rx).time = s.time ∧ (s.setRx l rx).now = s.now
    ∧ (s.setRx l rx).counts = s.counts ∧ (∀ l' k', (s.setRx l rx).laneCount l' k' = s.laneCount l' k')
    ∧ (∀ t' k', (s.setRx l rx).streamCount t' k' = s.streamCount t' k')
    ∧ (∀ k', (s.setRx l rx).deviceCount k' = s.deviceCount k') ∧ (s.setRx l rx).events = s.events
    ∧ (∀ e', (s.setRx l rx).latched e' = s.latched e') ∧ (s.setRx l rx).host = s.host
    ∧ (s.setRx l rx).memory = s.memory ∧ (s.setRx l rx).epoch = s.epoch ∧ (s.setRx l rx).pending = s.pending := by
  and_intros <;> first | (intros; rfl) | (intros; simp_all [State.setRx])

@[simp] theorem State.setUnit_frame (s : State) (l : LaneId) (u : Reception) :
    (∀ m, ((s.setUnit l u).lane m).entry = (s.lane m).entry) ∧ (∀ m, ((s.setUnit l u).lane m).rx = (s.lane m).rx)
    ∧ (∀ m, m ≠ l → (s.setUnit l u).lane m = s.lane m) ∧ (s.setUnit l u).routes = s.routes
    ∧ (∀ i', (s.setUnit l u).route i' = s.route i') ∧ (s.setUnit l u).pool = s.pool
    ∧ (∀ d', (s.setUnit l u).desc d' = s.desc d') ∧ (s.setUnit l u).streams = s.streams
    ∧ (∀ t', (s.setUnit l u).stream t' = s.stream t') ∧ (s.setUnit l u).slots = s.slots
    ∧ (∀ k', (s.setUnit l u).slot k' = s.slot k') ∧ (s.setUnit l u).holdLimit = s.holdLimit
    ∧ (s.setUnit l u).view = s.view ∧ (s.setUnit l u).window = s.window ∧ (s.setUnit l u).port = s.port
    ∧ (s.setUnit l u).cmd = s.cmd ∧ (s.setUnit l u).time = s.time ∧ (s.setUnit l u).now = s.now
    ∧ (s.setUnit l u).counts = s.counts ∧ (∀ l' k', (s.setUnit l u).laneCount l' k' = s.laneCount l' k')
    ∧ (∀ t' k', (s.setUnit l u).streamCount t' k' = s.streamCount t' k')
    ∧ (∀ k', (s.setUnit l u).deviceCount k' = s.deviceCount k') ∧ (s.setUnit l u).events = s.events
    ∧ (∀ e', (s.setUnit l u).latched e' = s.latched e') ∧ (s.setUnit l u).host = s.host
    ∧ (s.setUnit l u).memory = s.memory ∧ (s.setUnit l u).epoch = s.epoch ∧ (s.setUnit l u).pending = s.pending := by
  and_intros <;> first | (intros; rfl) | (intros; simp_all [State.setUnit])

@[simp] theorem State.setRoute_frame (s : State) (i : RouteId) (e : RouteEntry) :
    (s.setRoute i e).lanes = s.lanes ∧ (∀ m, (s.setRoute i e).lane m = s.lane m) ∧ (s.setRoute i e).pool = s.pool
    ∧ (∀ d', (s.setRoute i e).desc d' = s.desc d') ∧ (s.setRoute i e).streams = s.streams
    ∧ (∀ t', (s.setRoute i e).stream t' = s.stream t') ∧ (s.setRoute i e).slots = s.slots
    ∧ (∀ k', (s.setRoute i e).slot k' = s.slot k') ∧ (s.setRoute i e).holdLimit = s.holdLimit
    ∧ (s.setRoute i e).view = s.view ∧ (s.setRoute i e).window = s.window ∧ (s.setRoute i e).port = s.port
    ∧ (s.setRoute i e).cmd = s.cmd ∧ (s.setRoute i e).time = s.time ∧ (s.setRoute i e).now = s.now
    ∧ (s.setRoute i e).counts = s.counts ∧ (∀ l' k', (s.setRoute i e).laneCount l' k' = s.laneCount l' k')
    ∧ (∀ t' k', (s.setRoute i e).streamCount t' k' = s.streamCount t' k')
    ∧ (∀ k', (s.setRoute i e).deviceCount k' = s.deviceCount k') ∧ (s.setRoute i e).events = s.events
    ∧ (∀ e', (s.setRoute i e).latched e' = s.latched e') ∧ (s.setRoute i e).host = s.host
    ∧ (s.setRoute i e).memory = s.memory ∧ (s.setRoute i e).epoch = s.epoch ∧ (s.setRoute i e).pending = s.pending := by
  and_intros <;> intros <;> rfl

@[simp] theorem State.setStream_frame (s : State) (t : StreamId) (x : Stream) :
    (s.setStream t x).lanes = s.lanes ∧ (∀ m, (s.setStream t x).lane m = s.lane m)
    ∧ (s.setStream t x).routes = s.routes ∧ (∀ i', (s.setStream t x).route i' = s.route i')
    ∧ (s.setStream t x).pool = s.pool ∧ (∀ d', (s.setStream t x).desc d' = s.desc d')
    ∧ (s.setStream t x).slots = s.slots ∧ (∀ k', (s.setStream t x).slot k' = s.slot k')
    ∧ (s.setStream t x).holdLimit = s.holdLimit ∧ (s.setStream t x).view = s.view
    ∧ (s.setStream t x).window = s.window ∧ (s.setStream t x).port = s.port ∧ (s.setStream t x).cmd = s.cmd
    ∧ (s.setStream t x).time = s.time ∧ (s.setStream t x).now = s.now ∧ (s.setStream t x).counts = s.counts
    ∧ (∀ l' k', (s.setStream t x).laneCount l' k' = s.laneCount l' k')
    ∧ (∀ t' k', (s.setStream t x).streamCount t' k' = s.streamCount t' k')
    ∧ (∀ k', (s.setStream t x).deviceCount k' = s.deviceCount k') ∧ (s.setStream t x).events = s.events
    ∧ (∀ e', (s.setStream t x).latched e' = s.latched e') ∧ (s.setStream t x).host = s.host
    ∧ (s.setStream t x).memory = s.memory ∧ (s.setStream t x).epoch = s.epoch ∧ (s.setStream t x).pending = s.pending := by
  and_intros <;> intros <;> rfl

@[simp] theorem State.setSlot_frame (s : State) (i : SlotId) (x : HoldSlot) :
    (s.setSlot i x).lanes = s.lanes ∧ (∀ m, (s.setSlot i x).lane m = s.lane m) ∧ (s.setSlot i x).routes = s.routes
    ∧ (∀ i', (s.setSlot i x).route i' = s.route i') ∧ (s.setSlot i x).pool = s.pool
    ∧ (∀ d', (s.setSlot i x).desc d' = s.desc d') ∧ (s.setSlot i x).streams = s.streams
    ∧ (∀ t', (s.setSlot i x).stream t' = s.stream t') ∧ (s.setSlot i x).holdLimit = s.holdLimit
    ∧ (s.setSlot i x).view = s.view ∧ (s.setSlot i x).window = s.window ∧ (s.setSlot i x).port = s.port
    ∧ (s.setSlot i x).cmd = s.cmd ∧ (s.setSlot i x).time = s.time ∧ (s.setSlot i x).now = s.now
    ∧ (s.setSlot i x).counts = s.counts ∧ (∀ l' k', (s.setSlot i x).laneCount l' k' = s.laneCount l' k')
    ∧ (∀ t' k', (s.setSlot i x).streamCount t' k' = s.streamCount t' k')
    ∧ (∀ k', (s.setSlot i x).deviceCount k' = s.deviceCount k') ∧ (s.setSlot i x).events = s.events
    ∧ (∀ e', (s.setSlot i x).latched e' = s.latched e') ∧ (s.setSlot i x).host = s.host
    ∧ (s.setSlot i x).memory = s.memory ∧ (s.setSlot i x).epoch = s.epoch ∧ (s.setSlot i x).pending = s.pending := by
  and_intros <;> intros <;> rfl

@[simp] theorem State.setDesc_frame (s : State) (d : DescId) (x : Desc) :
    (s.setDesc d x).lanes = s.lanes ∧ (∀ m, (s.setDesc d x).lane m = s.lane m) ∧ (s.setDesc d x).routes = s.routes
    ∧ (∀ i', (s.setDesc d x).route i' = s.route i') ∧ (s.setDesc d x).pool.ready = s.pool.ready
    ∧ (s.setDesc d x).pool.buildStart = s.pool.buildStart ∧ (s.setDesc d x).pool.freeCells = s.pool.freeCells
    ∧ (s.setDesc d x).pool.freeDescs = s.pool.freeDescs ∧ (s.setDesc d x).pool.links = s.pool.links
    ∧ (s.setDesc d x).pool.lowThreshold = s.pool.lowThreshold ∧ (s.setDesc d x).streams = s.streams
    ∧ (∀ t', (s.setDesc d x).stream t' = s.stream t') ∧ (s.setDesc d x).slots = s.slots
    ∧ (∀ k', (s.setDesc d x).slot k' = s.slot k') ∧ (s.setDesc d x).holdLimit = s.holdLimit
    ∧ (s.setDesc d x).view = s.view ∧ (s.setDesc d x).window = s.window ∧ (s.setDesc d x).port = s.port
    ∧ (s.setDesc d x).cmd = s.cmd ∧ (s.setDesc d x).time = s.time ∧ (s.setDesc d x).now = s.now
    ∧ (s.setDesc d x).counts = s.counts ∧ (∀ l' k', (s.setDesc d x).laneCount l' k' = s.laneCount l' k')
    ∧ (∀ t' k', (s.setDesc d x).streamCount t' k' = s.streamCount t' k')
    ∧ (∀ k', (s.setDesc d x).deviceCount k' = s.deviceCount k') ∧ (s.setDesc d x).events = s.events
    ∧ (∀ e', (s.setDesc d x).latched e' = s.latched e') ∧ (s.setDesc d x).host = s.host
    ∧ (s.setDesc d x).memory = s.memory ∧ (s.setDesc d x).epoch = s.epoch ∧ (s.setDesc d x).pending = s.pending := by
  and_intros <;> intros <;> rfl

@[simp] theorem State.setOp_frame (s : State) (o : Option PortOp) :
    (s.setOp o).lanes = s.lanes ∧ (∀ m, (s.setOp o).lane m = s.lane m) ∧ (s.setOp o).routes = s.routes
    ∧ (∀ i', (s.setOp o).route i' = s.route i') ∧ (s.setOp o).pool = s.pool ∧ (∀ d', (s.setOp o).desc d' = s.desc d')
    ∧ (s.setOp o).streams = s.streams ∧ (∀ t', (s.setOp o).stream t' = s.stream t') ∧ (s.setOp o).slots = s.slots
    ∧ (∀ k', (s.setOp o).slot k' = s.slot k') ∧ (s.setOp o).holdLimit = s.holdLimit ∧ (s.setOp o).view = s.view
    ∧ (s.setOp o).window = s.window ∧ (s.setOp o).port.position = s.port.position
    ∧ (s.setOp o).port.balance = s.port.balance ∧ (s.setOp o).port.interval = s.port.interval
    ∧ (s.setOp o).port.left = s.port.left ∧ (s.setOp o).port.nextSlice = s.port.nextSlice ∧ (s.setOp o).cmd = s.cmd
    ∧ (s.setOp o).port.times = s.port.times
    ∧ (s.setOp o).time = s.time ∧ (s.setOp o).now = s.now ∧ (s.setOp o).counts = s.counts
    ∧ (∀ l' k', (s.setOp o).laneCount l' k' = s.laneCount l' k')
    ∧ (∀ t' k', (s.setOp o).streamCount t' k' = s.streamCount t' k')
    ∧ (∀ k', (s.setOp o).deviceCount k' = s.deviceCount k') ∧ (s.setOp o).events = s.events
    ∧ (∀ e', (s.setOp o).latched e' = s.latched e') ∧ (s.setOp o).host = s.host ∧ (s.setOp o).memory = s.memory
    ∧ (s.setOp o).epoch = s.epoch ∧ (s.setOp o).pending = s.pending := by
  and_intros <;> intros <;> rfl

@[simp] theorem State.setPosition_frame (s : State) (r : Requester) :
    (s.setPosition r).lanes = s.lanes ∧ (∀ m, (s.setPosition r).lane m = s.lane m)
    ∧ (s.setPosition r).routes = s.routes ∧ (∀ i', (s.setPosition r).route i' = s.route i')
    ∧ (s.setPosition r).pool = s.pool ∧ (∀ d', (s.setPosition r).desc d' = s.desc d')
    ∧ (s.setPosition r).streams = s.streams ∧ (∀ t', (s.setPosition r).stream t' = s.stream t')
    ∧ (s.setPosition r).slots = s.slots ∧ (∀ k', (s.setPosition r).slot k' = s.slot k')
    ∧ (s.setPosition r).holdLimit = s.holdLimit ∧ (s.setPosition r).view = s.view
    ∧ (s.setPosition r).window = s.window ∧ (s.setPosition r).port.op = s.port.op
    ∧ (s.setPosition r).port.balance = s.port.balance ∧ (s.setPosition r).port.interval = s.port.interval
    ∧ (s.setPosition r).port.left = s.port.left ∧ (s.setPosition r).port.nextSlice = s.port.nextSlice
    ∧ (s.setPosition r).port.times = s.port.times
    ∧ (s.setPosition r).cmd = s.cmd ∧ (s.setPosition r).time = s.time ∧ (s.setPosition r).now = s.now
    ∧ (s.setPosition r).counts = s.counts ∧ (∀ l' k', (s.setPosition r).laneCount l' k' = s.laneCount l' k')
    ∧ (∀ t' k', (s.setPosition r).streamCount t' k' = s.streamCount t' k')
    ∧ (∀ k', (s.setPosition r).deviceCount k' = s.deviceCount k') ∧ (s.setPosition r).events = s.events
    ∧ (∀ e', (s.setPosition r).latched e' = s.latched e') ∧ (s.setPosition r).host = s.host
    ∧ (s.setPosition r).memory = s.memory ∧ (s.setPosition r).epoch = s.epoch ∧ (s.setPosition r).pending = s.pending := by
  and_intros <;> intros <;> rfl

@[simp] theorem State.setView_frame (s : State) (v : RecordView) :
    (s.setView v).lanes = s.lanes ∧ (∀ m, (s.setView v).lane m = s.lane m) ∧ (s.setView v).routes = s.routes
    ∧ (∀ i', (s.setView v).route i' = s.route i') ∧ (s.setView v).pool = s.pool
    ∧ (∀ d', (s.setView v).desc d' = s.desc d') ∧ (s.setView v).streams = s.streams
    ∧ (∀ t', (s.setView v).stream t' = s.stream t') ∧ (s.setView v).slots = s.slots
    ∧ (∀ k', (s.setView v).slot k' = s.slot k') ∧ (s.setView v).holdLimit = s.holdLimit
    ∧ (s.setView v).window = s.window ∧ (s.setView v).port = s.port ∧ (s.setView v).cmd = s.cmd
    ∧ (s.setView v).time = s.time ∧ (s.setView v).now = s.now ∧ (s.setView v).counts = s.counts
    ∧ (∀ l' k', (s.setView v).laneCount l' k' = s.laneCount l' k')
    ∧ (∀ t' k', (s.setView v).streamCount t' k' = s.streamCount t' k')
    ∧ (∀ k', (s.setView v).deviceCount k' = s.deviceCount k') ∧ (s.setView v).events = s.events
    ∧ (∀ e', (s.setView v).latched e' = s.latched e') ∧ (s.setView v).host = s.host ∧ (s.setView v).memory = s.memory
    ∧ (s.setView v).epoch = s.epoch ∧ (s.setView v).pending = s.pending := by
  and_intros <;> intros <;> rfl

@[simp] theorem State.setPhase_frame (s : State) (p : Phase) :
    (s.setPhase p).lanes = s.lanes ∧ (∀ m, (s.setPhase p).lane m = s.lane m) ∧ (s.setPhase p).routes = s.routes
    ∧ (∀ i', (s.setPhase p).route i' = s.route i') ∧ (s.setPhase p).pool = s.pool
    ∧ (∀ d', (s.setPhase p).desc d' = s.desc d') ∧ (s.setPhase p).streams = s.streams
    ∧ (∀ t', (s.setPhase p).stream t' = s.stream t') ∧ (s.setPhase p).slots = s.slots
    ∧ (∀ k', (s.setPhase p).slot k' = s.slot k') ∧ (s.setPhase p).holdLimit = s.holdLimit
    ∧ (s.setPhase p).view = s.view ∧ (s.setPhase p).window = s.window ∧ (s.setPhase p).port = s.port
    ∧ (s.setPhase p).cmd.code = s.cmd.code ∧ (s.setPhase p).cmd.arg = s.cmd.arg
    ∧ (s.setPhase p).cmd.argReg = s.cmd.argReg ∧ (s.setPhase p).cmd.result = s.cmd.result
    ∧ (s.setPhase p).cmd.collision = s.cmd.collision ∧ (s.setPhase p).cmd.image = s.cmd.image
    ∧ (s.setPhase p).cmd.taken = s.cmd.taken ∧ (s.setPhase p).cmd.capture = s.cmd.capture
    ∧ (s.setPhase p).time = s.time ∧ (s.setPhase p).now = s.now ∧ (s.setPhase p).counts = s.counts
    ∧ (∀ l' k', (s.setPhase p).laneCount l' k' = s.laneCount l' k')
    ∧ (∀ t' k', (s.setPhase p).streamCount t' k' = s.streamCount t' k')
    ∧ (∀ k', (s.setPhase p).deviceCount k' = s.deviceCount k') ∧ (s.setPhase p).events = s.events
    ∧ (∀ e', (s.setPhase p).latched e' = s.latched e') ∧ (s.setPhase p).host = s.host
    ∧ (s.setPhase p).memory = s.memory ∧ (s.setPhase p).epoch = s.epoch ∧ (s.setPhase p).pending = s.pending := by
  and_intros <;> intros <;> rfl

@[simp] theorem State.returnCells_frame (s : State) (cs : List CellId) :
    (s.returnCells cs).lanes = s.lanes ∧ (∀ m, (s.returnCells cs).lane m = s.lane m)
    ∧ (s.returnCells cs).routes = s.routes ∧ (∀ i', (s.returnCells cs).route i' = s.route i')
    ∧ (s.returnCells cs).pool.ready = s.pool.ready ∧ (s.returnCells cs).pool.buildStart = s.pool.buildStart
    ∧ (s.returnCells cs).pool.freeDescs = s.pool.freeDescs ∧ (s.returnCells cs).pool.descs = s.pool.descs
    ∧ (s.returnCells cs).pool.lowThreshold = s.pool.lowThreshold ∧ (∀ d', (s.returnCells cs).desc d' = s.desc d')
    ∧ (s.returnCells cs).streams = s.streams ∧ (∀ t', (s.returnCells cs).stream t' = s.stream t')
    ∧ (s.returnCells cs).slots = s.slots ∧ (∀ k', (s.returnCells cs).slot k' = s.slot k')
    ∧ (s.returnCells cs).holdLimit = s.holdLimit ∧ (s.returnCells cs).view = s.view
    ∧ (s.returnCells cs).window = s.window ∧ (s.returnCells cs).port = s.port ∧ (s.returnCells cs).cmd = s.cmd
    ∧ (s.returnCells cs).time = s.time ∧ (s.returnCells cs).now = s.now ∧ (s.returnCells cs).counts = s.counts
    ∧ (∀ l' k', (s.returnCells cs).laneCount l' k' = s.laneCount l' k')
    ∧ (∀ t' k', (s.returnCells cs).streamCount t' k' = s.streamCount t' k')
    ∧ (∀ k', (s.returnCells cs).deviceCount k' = s.deviceCount k') ∧ (s.returnCells cs).events = s.events
    ∧ (∀ e', (s.returnCells cs).latched e' = s.latched e') ∧ (s.returnCells cs).host = s.host
    ∧ (s.returnCells cs).memory = s.memory ∧ (s.returnCells cs).epoch = s.epoch
    ∧ (s.returnCells cs).pending = s.pending := by
  and_intros <;> intros <;> rfl

@[simp] theorem State.returnDesc_frame (s : State) (d : DescId) :
    (s.returnDesc d).lanes = s.lanes ∧ (∀ m, (s.returnDesc d).lane m = s.lane m) ∧ (s.returnDesc d).routes = s.routes
    ∧ (∀ i', (s.returnDesc d).route i' = s.route i') ∧ (s.returnDesc d).pool.ready = s.pool.ready
    ∧ (s.returnDesc d).pool.buildStart = s.pool.buildStart ∧ (s.returnDesc d).pool.freeCells = s.pool.freeCells
    ∧ (s.returnDesc d).pool.links = s.pool.links ∧ (s.returnDesc d).pool.lowThreshold = s.pool.lowThreshold
    ∧ (s.returnDesc d).streams = s.streams ∧ (∀ t', (s.returnDesc d).stream t' = s.stream t')
    ∧ (s.returnDesc d).slots = s.slots ∧ (∀ k', (s.returnDesc d).slot k' = s.slot k')
    ∧ (s.returnDesc d).holdLimit = s.holdLimit ∧ (s.returnDesc d).view = s.view ∧ (s.returnDesc d).window = s.window
    ∧ (s.returnDesc d).port = s.port ∧ (s.returnDesc d).cmd = s.cmd ∧ (s.returnDesc d).time = s.time
    ∧ (s.returnDesc d).now = s.now ∧ (s.returnDesc d).counts = s.counts
    ∧ (∀ l' k', (s.returnDesc d).laneCount l' k' = s.laneCount l' k')
    ∧ (∀ t' k', (s.returnDesc d).streamCount t' k' = s.streamCount t' k')
    ∧ (∀ k', (s.returnDesc d).deviceCount k' = s.deviceCount k') ∧ (s.returnDesc d).events = s.events
    ∧ (∀ e', (s.returnDesc d).latched e' = s.latched e') ∧ (s.returnDesc d).host = s.host
    ∧ (s.returnDesc d).memory = s.memory ∧ (s.returnDesc d).epoch = s.epoch ∧ (s.returnDesc d).pending = s.pending := by
  and_intros <;> intros <;> rfl

@[simp] theorem State.lowerCharge_frame (s : State) (t : StreamId) (n : Nat) :
    (s.lowerCharge t n).lanes = s.lanes ∧ (∀ m, (s.lowerCharge t n).lane m = s.lane m)
    ∧ (s.lowerCharge t n).routes = s.routes ∧ (∀ i', (s.lowerCharge t n).route i' = s.route i')
    ∧ (s.lowerCharge t n).pool = s.pool ∧ (∀ d', (s.lowerCharge t n).desc d' = s.desc d')
    ∧ (∀ t', ((s.lowerCharge t n).stream t').entry = (s.stream t').entry)
    ∧ (∀ t', ((s.lowerCharge t n).stream t').queue = (s.stream t').queue)
    ∧ (∀ t', ((s.lowerCharge t n).stream t').heldCount = (s.stream t').heldCount)
    ∧ (∀ t', ((s.lowerCharge t n).stream t').examine = (s.stream t').examine)
    ∧ (∀ t', ((s.lowerCharge t n).stream t').expired = (s.stream t').expired) ∧ (s.lowerCharge t n).slots = s.slots
    ∧ (∀ k', (s.lowerCharge t n).slot k' = s.slot k') ∧ (s.lowerCharge t n).holdLimit = s.holdLimit
    ∧ (s.lowerCharge t n).view = s.view ∧ (s.lowerCharge t n).window = s.window ∧ (s.lowerCharge t n).port = s.port
    ∧ (s.lowerCharge t n).cmd = s.cmd ∧ (s.lowerCharge t n).time = s.time ∧ (s.lowerCharge t n).now = s.now
    ∧ (s.lowerCharge t n).counts = s.counts ∧ (∀ l' k', (s.lowerCharge t n).laneCount l' k' = s.laneCount l' k')
    ∧ (∀ t' k', (s.lowerCharge t n).streamCount t' k' = s.streamCount t' k')
    ∧ (∀ k', (s.lowerCharge t n).deviceCount k' = s.deviceCount k') ∧ (s.lowerCharge t n).events = s.events
    ∧ (∀ e', (s.lowerCharge t n).latched e' = s.latched e') ∧ (s.lowerCharge t n).host = s.host
    ∧ (s.lowerCharge t n).memory = s.memory ∧ (s.lowerCharge t n).epoch = s.epoch
    ∧ (s.lowerCharge t n).pending = s.pending := by
  simp +contextual [State.lowerCharge]

@[simp] theorem State.freeRecord_frame (s : State) (d : DescId) :
    (s.freeRecord d).lanes = s.lanes ∧ (∀ m, (s.freeRecord d).lane m = s.lane m) ∧ (s.freeRecord d).routes = s.routes
    ∧ (∀ i', (s.freeRecord d).route i' = s.route i') ∧ (s.freeRecord d).pool.ready = s.pool.ready
    ∧ (s.freeRecord d).pool.buildStart = s.pool.buildStart ∧ (s.freeRecord d).pool.lowThreshold = s.pool.lowThreshold
    ∧ (∀ t', ((s.freeRecord d).stream t').entry = (s.stream t').entry)
    ∧ (∀ t', ((s.freeRecord d).stream t').queue = (s.stream t').queue)
    ∧ (∀ t', ((s.freeRecord d).stream t').heldCount = (s.stream t').heldCount)
    ∧ (∀ t', ((s.freeRecord d).stream t').examine = (s.stream t').examine)
    ∧ (∀ t', ((s.freeRecord d).stream t').expired = (s.stream t').expired) ∧ (s.freeRecord d).slots = s.slots
    ∧ (∀ k', (s.freeRecord d).slot k' = s.slot k') ∧ (s.freeRecord d).holdLimit = s.holdLimit
    ∧ (s.freeRecord d).view = s.view ∧ (s.freeRecord d).window = s.window ∧ (s.freeRecord d).port = s.port
    ∧ (s.freeRecord d).cmd = s.cmd ∧ (s.freeRecord d).time = s.time ∧ (s.freeRecord d).now = s.now
    ∧ (s.freeRecord d).counts = s.counts ∧ (∀ l' k', (s.freeRecord d).laneCount l' k' = s.laneCount l' k')
    ∧ (∀ t' k', (s.freeRecord d).streamCount t' k' = s.streamCount t' k')
    ∧ (∀ k', (s.freeRecord d).deviceCount k' = s.deviceCount k') ∧ (s.freeRecord d).events = s.events
    ∧ (∀ e', (s.freeRecord d).latched e' = s.latched e') ∧ (s.freeRecord d).host = s.host
    ∧ (s.freeRecord d).memory = s.memory ∧ (s.freeRecord d).epoch = s.epoch ∧ (s.freeRecord d).pending = s.pending := by
  simp +contextual [State.freeRecord]

@[simp] theorem State.dequeue_frame (s : State) (t : StreamId) (d : DescId) :
    (s.dequeue t d).lanes = s.lanes ∧ (∀ m, (s.dequeue t d).lane m = s.lane m) ∧ (s.dequeue t d).routes = s.routes
    ∧ (∀ i', (s.dequeue t d).route i' = s.route i') ∧ (s.dequeue t d).pool = s.pool
    ∧ (∀ d', (s.dequeue t d).desc d' = s.desc d') ∧ (∀ t', ((s.dequeue t d).stream t').entry = (s.stream t').entry)
    ∧ (∀ t', ((s.dequeue t d).stream t').heldCount = (s.stream t').heldCount)
    ∧ (∀ t', ((s.dequeue t d).stream t').charge = (s.stream t').charge)
    ∧ (∀ t', ((s.dequeue t d).stream t').examine = (s.stream t').examine)
    ∧ (∀ t', ((s.dequeue t d).stream t').expired = (s.stream t').expired) ∧ (s.dequeue t d).slots = s.slots
    ∧ (∀ k', (s.dequeue t d).slot k' = s.slot k') ∧ (s.dequeue t d).holdLimit = s.holdLimit
    ∧ (s.dequeue t d).view = s.view ∧ (s.dequeue t d).window = s.window ∧ (s.dequeue t d).port = s.port
    ∧ (s.dequeue t d).cmd = s.cmd ∧ (s.dequeue t d).time = s.time ∧ (s.dequeue t d).now = s.now
    ∧ (s.dequeue t d).counts = s.counts ∧ (∀ l' k', (s.dequeue t d).laneCount l' k' = s.laneCount l' k')
    ∧ (∀ t' k', (s.dequeue t d).streamCount t' k' = s.streamCount t' k')
    ∧ (∀ k', (s.dequeue t d).deviceCount k' = s.deviceCount k') ∧ (s.dequeue t d).events = s.events
    ∧ (∀ e', (s.dequeue t d).latched e' = s.latched e') ∧ (s.dequeue t d).host = s.host
    ∧ (s.dequeue t d).memory = s.memory ∧ (s.dequeue t d).epoch = s.epoch ∧ (s.dequeue t d).pending = s.pending := by
  simp +contextual [State.dequeue]

@[simp] theorem State.requeue_frame (s : State) (d : DescId) :
    (s.requeue d).lanes = s.lanes ∧ (∀ m, (s.requeue d).lane m = s.lane m) ∧ (s.requeue d).routes = s.routes
    ∧ (∀ i', (s.requeue d).route i' = s.route i') ∧ (s.requeue d).pool.ready = s.pool.ready
    ∧ (s.requeue d).pool.buildStart = s.pool.buildStart ∧ (s.requeue d).pool.freeCells = s.pool.freeCells
    ∧ (s.requeue d).pool.freeDescs = s.pool.freeDescs ∧ (s.requeue d).pool.links = s.pool.links
    ∧ (s.requeue d).pool.lowThreshold = s.pool.lowThreshold
    ∧ (∀ t', ((s.requeue d).stream t').entry = (s.stream t').entry)
    ∧ (∀ t', ((s.requeue d).stream t').charge = (s.stream t').charge)
    ∧ (∀ t', ((s.requeue d).stream t').examine = (s.stream t').examine) ∧ (s.requeue d).slots = s.slots
    ∧ (∀ k', (s.requeue d).slot k' = s.slot k') ∧ (s.requeue d).holdLimit = s.holdLimit ∧ (s.requeue d).view = s.view
    ∧ (s.requeue d).window = s.window ∧ (s.requeue d).port = s.port ∧ (s.requeue d).cmd = s.cmd
    ∧ (s.requeue d).time = s.time ∧ (s.requeue d).now = s.now ∧ (s.requeue d).counts = s.counts
    ∧ (∀ l' k', (s.requeue d).laneCount l' k' = s.laneCount l' k')
    ∧ (∀ t' k', (s.requeue d).streamCount t' k' = s.streamCount t' k')
    ∧ (∀ k', (s.requeue d).deviceCount k' = s.deviceCount k') ∧ (s.requeue d).events = s.events
    ∧ (∀ e', (s.requeue d).latched e' = s.latched e') ∧ (s.requeue d).host = s.host ∧ (s.requeue d).memory = s.memory
    ∧ (s.requeue d).epoch = s.epoch ∧ (s.requeue d).pending = s.pending := by
  simp +contextual [State.requeue]

@[simp] theorem State.answerError_frame (s : State) :
    (s.answerError).lanes = s.lanes ∧ (∀ m, (s.answerError).lane m = s.lane m) ∧ (s.answerError).routes = s.routes
    ∧ (∀ i', (s.answerError).route i' = s.route i') ∧ (s.answerError).pool = s.pool
    ∧ (∀ d', (s.answerError).desc d' = s.desc d') ∧ (s.answerError).streams = s.streams
    ∧ (∀ t', (s.answerError).stream t' = s.stream t') ∧ (s.answerError).slots = s.slots
    ∧ (∀ k', (s.answerError).slot k' = s.slot k') ∧ (s.answerError).holdLimit = s.holdLimit
    ∧ (s.answerError).view = s.view ∧ (s.answerError).window = s.window ∧ (s.answerError).port = s.port
    ∧ (s.answerError).cmd = s.cmd ∧ (s.answerError).time = s.time ∧ (s.answerError).now = s.now
    ∧ (s.answerError).counts.lanes = s.counts.lanes ∧ (s.answerError).counts.streams = s.counts.streams
    ∧ (s.answerError).counts.completions = s.counts.completions
    ∧ (∀ l' k', (s.answerError).laneCount l' k' = s.laneCount l' k')
    ∧ (∀ t' k', (s.answerError).streamCount t' k' = s.streamCount t' k')
    ∧ (s.answerError).events.enables = s.events.enables ∧ (s.answerError).events.watermarks = s.events.watermarks
    ∧ (s.answerError).events.watermarkEnables = s.events.watermarkEnables
    ∧ (s.answerError).events.readyEnables = s.events.readyEnables
    ∧ (s.answerError).events.latches &&& 0xFC08#16 = s.events.latches &&& 0xFC08#16
    ∧ (s.answerError).host.resetHigh = s.host.resetHigh ∧ (s.answerError).memory = s.memory
    ∧ (s.answerError).epoch = s.epoch ∧ (s.answerError).pending = s.pending := by
  unfold State.answerError; dsimp only; (repeat' split) <;> simp +contextual <;> (and_intros <;> intros <;> rfl)

@[simp] theorem State.staleWindow_frame (s : State) :
    (s.staleWindow).lanes = s.lanes ∧ (∀ m, (s.staleWindow).lane m = s.lane m) ∧ (s.staleWindow).routes = s.routes
    ∧ (∀ i', (s.staleWindow).route i' = s.route i') ∧ (s.staleWindow).pool = s.pool
    ∧ (∀ d', (s.staleWindow).desc d' = s.desc d') ∧ (s.staleWindow).streams = s.streams
    ∧ (∀ t', (s.staleWindow).stream t' = s.stream t') ∧ (s.staleWindow).slots = s.slots
    ∧ (∀ k', (s.staleWindow).slot k' = s.slot k') ∧ (s.staleWindow).holdLimit = s.holdLimit
    ∧ (s.staleWindow).view = s.view ∧ (s.staleWindow).window.handleReg = s.window.handleReg
    ∧ (s.staleWindow).window.pointed = s.window.pointed ∧ (s.staleWindow).window.offset = s.window.offset
    ∧ (s.staleWindow).window.pastEnd = s.window.pastEnd ∧ (s.staleWindow).port.position = s.port.position
    ∧ (s.staleWindow).port.balance = s.port.balance ∧ (s.staleWindow).port.interval = s.port.interval
    ∧ (s.staleWindow).port.left = s.port.left ∧ (s.staleWindow).port.nextSlice = s.port.nextSlice
    ∧ (s.staleWindow).port.times = s.port.times
    ∧ (s.staleWindow).cmd = s.cmd ∧ (s.staleWindow).time = s.time ∧ (s.staleWindow).now = s.now
    ∧ (s.staleWindow).counts.lanes = s.counts.lanes ∧ (s.staleWindow).counts.streams = s.counts.streams
    ∧ (s.staleWindow).counts.completions = s.counts.completions
    ∧ (∀ l' k', (s.staleWindow).laneCount l' k' = s.laneCount l' k')
    ∧ (∀ t' k', (s.staleWindow).streamCount t' k' = s.streamCount t' k')
    ∧ (s.staleWindow).events.enables = s.events.enables ∧ (s.staleWindow).events.watermarks = s.events.watermarks
    ∧ (s.staleWindow).events.watermarkEnables = s.events.watermarkEnables
    ∧ (s.staleWindow).events.readyEnables = s.events.readyEnables
    ∧ (s.staleWindow).events.latches &&& 0xFC08#16 = s.events.latches &&& 0xFC08#16
    ∧ (s.staleWindow).host.resetHigh = s.host.resetHigh ∧ (s.staleWindow).memory = s.memory
    ∧ (s.staleWindow).epoch = s.epoch ∧ (s.staleWindow).pending = s.pending := by
  unfold State.staleWindow; dsimp only; (repeat' split) <;> simp +contextual <;> (and_intros <;> intros <;> rfl)

@[simp] theorem State.emptySlot_frame (s : State) (i : SlotId) :
    (s.emptySlot i).lanes = s.lanes ∧ (∀ m, (s.emptySlot i).lane m = s.lane m) ∧ (s.emptySlot i).routes = s.routes
    ∧ (∀ i', (s.emptySlot i).route i' = s.route i') ∧ (s.emptySlot i).pool = s.pool
    ∧ (∀ d', (s.emptySlot i).desc d' = s.desc d') ∧ (s.emptySlot i).streams = s.streams
    ∧ (∀ t', (s.emptySlot i).stream t' = s.stream t') ∧ (s.emptySlot i).holdLimit = s.holdLimit
    ∧ (s.emptySlot i).view = s.view ∧ (s.emptySlot i).window.handleReg = s.window.handleReg
    ∧ (s.emptySlot i).window.pointed = s.window.pointed ∧ (s.emptySlot i).window.offset = s.window.offset
    ∧ (s.emptySlot i).window.pastEnd = s.window.pastEnd ∧ (s.emptySlot i).port.position = s.port.position
    ∧ (s.emptySlot i).port.balance = s.port.balance ∧ (s.emptySlot i).port.interval = s.port.interval
    ∧ (s.emptySlot i).port.left = s.port.left ∧ (s.emptySlot i).port.nextSlice = s.port.nextSlice
    ∧ (s.emptySlot i).port.times = s.port.times
    ∧ (s.emptySlot i).cmd = s.cmd ∧ (s.emptySlot i).time = s.time ∧ (s.emptySlot i).now = s.now
    ∧ (s.emptySlot i).counts.lanes = s.counts.lanes ∧ (s.emptySlot i).counts.streams = s.counts.streams
    ∧ (s.emptySlot i).counts.completions = s.counts.completions
    ∧ (∀ l' k', (s.emptySlot i).laneCount l' k' = s.laneCount l' k')
    ∧ (∀ t' k', (s.emptySlot i).streamCount t' k' = s.streamCount t' k')
    ∧ (s.emptySlot i).events.enables = s.events.enables ∧ (s.emptySlot i).events.watermarks = s.events.watermarks
    ∧ (s.emptySlot i).events.watermarkEnables = s.events.watermarkEnables
    ∧ (s.emptySlot i).events.readyEnables = s.events.readyEnables
    ∧ (s.emptySlot i).events.latches &&& 0xFC08#16 = s.events.latches &&& 0xFC08#16
    ∧ (s.emptySlot i).host.resetHigh = s.host.resetHigh ∧ (s.emptySlot i).memory = s.memory
    ∧ (s.emptySlot i).epoch = s.epoch ∧ (s.emptySlot i).pending = s.pending := by
  unfold State.emptySlot; (repeat' split) <;> simp +contextual

@[simp] theorem State.endCommand_frame (s : State) (r : Result) :
    (s.endCommand r).lanes = s.lanes ∧ (∀ m, (s.endCommand r).lane m = s.lane m) ∧ (s.endCommand r).routes = s.routes
    ∧ (∀ i', (s.endCommand r).route i' = s.route i') ∧ (s.endCommand r).pool = s.pool
    ∧ (∀ d', (s.endCommand r).desc d' = s.desc d') ∧ (s.endCommand r).streams = s.streams
    ∧ (∀ t', (s.endCommand r).stream t' = s.stream t') ∧ (s.endCommand r).slots = s.slots
    ∧ (∀ k', (s.endCommand r).slot k' = s.slot k') ∧ (s.endCommand r).holdLimit = s.holdLimit
    ∧ (s.endCommand r).view = s.view ∧ (s.endCommand r).window = s.window ∧ (s.endCommand r).port = s.port
    ∧ (s.endCommand r).cmd.code = s.cmd.code ∧ (s.endCommand r).cmd.arg = s.cmd.arg
    ∧ (s.endCommand r).cmd.argReg = s.cmd.argReg ∧ (s.endCommand r).cmd.collision = s.cmd.collision
    ∧ (s.endCommand r).cmd.image = s.cmd.image ∧ (s.endCommand r).cmd.taken = s.cmd.taken
    ∧ (s.endCommand r).cmd.capture = s.cmd.capture ∧ (s.endCommand r).time = s.time ∧ (s.endCommand r).now = s.now
    ∧ (s.endCommand r).counts = s.counts ∧ (∀ l' k', (s.endCommand r).laneCount l' k' = s.laneCount l' k')
    ∧ (∀ t' k', (s.endCommand r).streamCount t' k' = s.streamCount t' k')
    ∧ (∀ k', (s.endCommand r).deviceCount k' = s.deviceCount k') ∧ (s.endCommand r).events.enables = s.events.enables
    ∧ (s.endCommand r).events.watermarks = s.events.watermarks
    ∧ (s.endCommand r).events.watermarkEnables = s.events.watermarkEnables
    ∧ (s.endCommand r).events.readyEnables = s.events.readyEnables
    ∧ (s.endCommand r).events.latches &&& 0xFC08#16 = s.events.latches &&& 0xFC08#16 ∧ (s.endCommand r).host = s.host
    ∧ (s.endCommand r).memory = s.memory ∧ (s.endCommand r).epoch = s.epoch ∧ (s.endCommand r).pending = s.pending := by
  unfold State.endCommand; dsimp only; (repeat' split) <;> simp +contextual <;> (and_intros <;> intros <;> rfl)

@[simp] theorem State.settlePurge_frame (s : State) :
    (s.settlePurge).lanes = s.lanes ∧ (∀ m, (s.settlePurge).lane m = s.lane m) ∧ (s.settlePurge).routes = s.routes
    ∧ (∀ i', (s.settlePurge).route i' = s.route i') ∧ (s.settlePurge).pool = s.pool
    ∧ (∀ d', (s.settlePurge).desc d' = s.desc d') ∧ (s.settlePurge).streams = s.streams
    ∧ (∀ t', (s.settlePurge).stream t' = s.stream t') ∧ (s.settlePurge).slots = s.slots
    ∧ (∀ k', (s.settlePurge).slot k' = s.slot k') ∧ (s.settlePurge).holdLimit = s.holdLimit
    ∧ (s.settlePurge).view = s.view ∧ (s.settlePurge).window = s.window ∧ (s.settlePurge).port = s.port
    ∧ (s.settlePurge).cmd.code = s.cmd.code ∧ (s.settlePurge).cmd.arg = s.cmd.arg
    ∧ (s.settlePurge).cmd.argReg = s.cmd.argReg ∧ (s.settlePurge).cmd.collision = s.cmd.collision
    ∧ (s.settlePurge).cmd.image = s.cmd.image ∧ (s.settlePurge).cmd.taken = s.cmd.taken
    ∧ (s.settlePurge).cmd.capture = s.cmd.capture ∧ (s.settlePurge).time = s.time ∧ (s.settlePurge).now = s.now
    ∧ (s.settlePurge).counts = s.counts ∧ (∀ l' k', (s.settlePurge).laneCount l' k' = s.laneCount l' k')
    ∧ (∀ t' k', (s.settlePurge).streamCount t' k' = s.streamCount t' k')
    ∧ (∀ k', (s.settlePurge).deviceCount k' = s.deviceCount k') ∧ (s.settlePurge).events.enables = s.events.enables
    ∧ (s.settlePurge).events.watermarks = s.events.watermarks
    ∧ (s.settlePurge).events.watermarkEnables = s.events.watermarkEnables
    ∧ (s.settlePurge).events.readyEnables = s.events.readyEnables
    ∧ (s.settlePurge).events.latches &&& 0xFC08#16 = s.events.latches &&& 0xFC08#16 ∧ (s.settlePurge).host = s.host
    ∧ (s.settlePurge).memory = s.memory ∧ (s.settlePurge).epoch = s.epoch ∧ (s.settlePurge).pending = s.pending := by
  unfold State.settlePurge; (repeat' split) <;> simp +contextual

@[simp] theorem State.evict_frame (s : State) (t : StreamId) (d : DescId) :
    (s.evict t d).lanes = s.lanes ∧ (∀ m, (s.evict t d).lane m = s.lane m) ∧ (s.evict t d).routes = s.routes
    ∧ (∀ i', (s.evict t d).route i' = s.route i') ∧ (s.evict t d).pool.ready = s.pool.ready
    ∧ (s.evict t d).pool.buildStart = s.pool.buildStart ∧ (s.evict t d).pool.lowThreshold = s.pool.lowThreshold
    ∧ (∀ t', ((s.evict t d).stream t').entry = (s.stream t').entry)
    ∧ (∀ t', ((s.evict t d).stream t').heldCount = (s.stream t').heldCount)
    ∧ (∀ t', ((s.evict t d).stream t').examine = (s.stream t').examine)
    ∧ (∀ t', ((s.evict t d).stream t').expired = (s.stream t').expired) ∧ (s.evict t d).slots = s.slots
    ∧ (∀ k', (s.evict t d).slot k' = s.slot k') ∧ (s.evict t d).holdLimit = s.holdLimit ∧ (s.evict t d).view = s.view
    ∧ (s.evict t d).window = s.window ∧ (s.evict t d).port = s.port ∧ (s.evict t d).cmd = s.cmd
    ∧ (s.evict t d).time = s.time ∧ (s.evict t d).now = s.now ∧ (s.evict t d).counts.lanes = s.counts.lanes
    ∧ (s.evict t d).counts.device = s.counts.device ∧ (s.evict t d).counts.completions = s.counts.completions
    ∧ (∀ l' k', (s.evict t d).laneCount l' k' = s.laneCount l' k')
    ∧ (∀ k', (s.evict t d).deviceCount k' = s.deviceCount k') ∧ (s.evict t d).events.enables = s.events.enables
    ∧ (s.evict t d).events.watermarks = s.events.watermarks
    ∧ (s.evict t d).events.watermarkEnables = s.events.watermarkEnables
    ∧ (s.evict t d).events.readyEnables = s.events.readyEnables
    ∧ (s.evict t d).events.latches &&& 0xFC08#16 = s.events.latches &&& 0xFC08#16 ∧ (s.evict t d).host = s.host
    ∧ (s.evict t d).memory = s.memory ∧ (s.evict t d).epoch = s.epoch ∧ (s.evict t d).pending = s.pending := by
  simp +contextual [State.evict]

@[simp] theorem State.evictUntil_frame (s : State) (t : StreamId) (n : Nat) (ds : List DescId) :
    (s.evictUntil t n ds).lanes = s.lanes ∧ (∀ m, (s.evictUntil t n ds).lane m = s.lane m)
    ∧ (s.evictUntil t n ds).routes = s.routes ∧ (∀ i', (s.evictUntil t n ds).route i' = s.route i')
    ∧ (s.evictUntil t n ds).pool.ready = s.pool.ready ∧ (s.evictUntil t n ds).pool.buildStart = s.pool.buildStart
    ∧ (s.evictUntil t n ds).pool.lowThreshold = s.pool.lowThreshold
    ∧ (∀ t', ((s.evictUntil t n ds).stream t').entry = (s.stream t').entry)
    ∧ (∀ t', ((s.evictUntil t n ds).stream t').heldCount = (s.stream t').heldCount)
    ∧ (∀ t', ((s.evictUntil t n ds).stream t').examine = (s.stream t').examine)
    ∧ (∀ t', ((s.evictUntil t n ds).stream t').expired = (s.stream t').expired)
    ∧ (s.evictUntil t n ds).slots = s.slots ∧ (∀ k', (s.evictUntil t n ds).slot k' = s.slot k')
    ∧ (s.evictUntil t n ds).holdLimit = s.holdLimit ∧ (s.evictUntil t n ds).view = s.view
    ∧ (s.evictUntil t n ds).window = s.window ∧ (s.evictUntil t n ds).port = s.port
    ∧ (s.evictUntil t n ds).cmd = s.cmd ∧ (s.evictUntil t n ds).time = s.time ∧ (s.evictUntil t n ds).now = s.now
    ∧ (s.evictUntil t n ds).counts.lanes = s.counts.lanes ∧ (s.evictUntil t n ds).counts.device = s.counts.device
    ∧ (s.evictUntil t n ds).counts.completions = s.counts.completions
    ∧ (∀ l' k', (s.evictUntil t n ds).laneCount l' k' = s.laneCount l' k')
    ∧ (∀ k', (s.evictUntil t n ds).deviceCount k' = s.deviceCount k')
    ∧ (s.evictUntil t n ds).events.enables = s.events.enables
    ∧ (s.evictUntil t n ds).events.watermarks = s.events.watermarks
    ∧ (s.evictUntil t n ds).events.watermarkEnables = s.events.watermarkEnables
    ∧ (s.evictUntil t n ds).events.readyEnables = s.events.readyEnables
    ∧ (s.evictUntil t n ds).events.latches &&& 0xFC08#16 = s.events.latches &&& 0xFC08#16
    ∧ (s.evictUntil t n ds).host = s.host ∧ (s.evictUntil t n ds).memory = s.memory
    ∧ (s.evictUntil t n ds).epoch = s.epoch ∧ (s.evictUntil t n ds).pending = s.pending := by
  induction ds generalizing s with
  | nil => simp [State.evictUntil]
  | cons d ds ih => unfold State.evictUntil; split <;> simp +contextual [ih]

@[simp] theorem State.skipRecord_frame (s : State) (l : LaneId) (h : Header) :
    (∀ m, ((s.skipRecord l h).lane m).entry = (s.lane m).entry)
    ∧ (∀ m, ((s.skipRecord l h).lane m).unit = (s.lane m).unit) ∧ (∀ m, m ≠ l → (s.skipRecord l h).lane m = s.lane m)
    ∧ (s.skipRecord l h).routes = s.routes ∧ (∀ i', (s.skipRecord l h).route i' = s.route i')
    ∧ (s.skipRecord l h).pool = s.pool ∧ (∀ d', (s.skipRecord l h).desc d' = s.desc d')
    ∧ (s.skipRecord l h).streams = s.streams ∧ (∀ t', (s.skipRecord l h).stream t' = s.stream t')
    ∧ (s.skipRecord l h).slots = s.slots ∧ (∀ k', (s.skipRecord l h).slot k' = s.slot k')
    ∧ (s.skipRecord l h).holdLimit = s.holdLimit ∧ (s.skipRecord l h).view = s.view
    ∧ (s.skipRecord l h).window = s.window ∧ (s.skipRecord l h).port = s.port ∧ (s.skipRecord l h).cmd = s.cmd
    ∧ (s.skipRecord l h).time = s.time ∧ (s.skipRecord l h).now = s.now ∧ (s.skipRecord l h).counts = s.counts
    ∧ (∀ l' k', (s.skipRecord l h).laneCount l' k' = s.laneCount l' k')
    ∧ (∀ t' k', (s.skipRecord l h).streamCount t' k' = s.streamCount t' k')
    ∧ (∀ k', (s.skipRecord l h).deviceCount k' = s.deviceCount k') ∧ (s.skipRecord l h).events = s.events
    ∧ (∀ e', (s.skipRecord l h).latched e' = s.latched e') ∧ (s.skipRecord l h).host = s.host
    ∧ (s.skipRecord l h).memory = s.memory ∧ (s.skipRecord l h).epoch = s.epoch
    ∧ (s.skipRecord l h).pending = s.pending := by
  and_intros <;> first | (intros; rfl) | (intros; simp_all [State.skipRecord])

@[simp] theorem State.refuse_frame (s : State) (l : LaneId) (h : Header) (c : Option StreamId) :
    (∀ m, ((s.refuse l h c).lane m).entry = (s.lane m).entry)
    ∧ (∀ m, ((s.refuse l h c).lane m).unit = (s.lane m).unit) ∧ (∀ m, m ≠ l → (s.refuse l h c).lane m = s.lane m)
    ∧ (s.refuse l h c).routes = s.routes ∧ (∀ i', (s.refuse l h c).route i' = s.route i')
    ∧ (s.refuse l h c).pool = s.pool ∧ (∀ d', (s.refuse l h c).desc d' = s.desc d')
    ∧ (s.refuse l h c).streams = s.streams ∧ (∀ t', (s.refuse l h c).stream t' = s.stream t')
    ∧ (s.refuse l h c).slots = s.slots ∧ (∀ k', (s.refuse l h c).slot k' = s.slot k')
    ∧ (s.refuse l h c).holdLimit = s.holdLimit ∧ (s.refuse l h c).view = s.view ∧ (s.refuse l h c).window = s.window
    ∧ (s.refuse l h c).port = s.port ∧ (s.refuse l h c).cmd = s.cmd ∧ (s.refuse l h c).time = s.time
    ∧ (s.refuse l h c).now = s.now ∧ (s.refuse l h c).counts.device = s.counts.device
    ∧ (s.refuse l h c).counts.completions = s.counts.completions
    ∧ (∀ k', (s.refuse l h c).deviceCount k' = s.deviceCount k') ∧ (s.refuse l h c).events.enables = s.events.enables
    ∧ (s.refuse l h c).events.watermarks = s.events.watermarks
    ∧ (s.refuse l h c).events.watermarkEnables = s.events.watermarkEnables
    ∧ (s.refuse l h c).events.readyEnables = s.events.readyEnables
    ∧ (s.refuse l h c).events.latches &&& 0xFC08#16 = s.events.latches &&& 0xFC08#16 ∧ (s.refuse l h c).host = s.host
    ∧ (s.refuse l h c).memory = s.memory ∧ (s.refuse l h c).epoch = s.epoch ∧ (s.refuse l h c).pending = s.pending := by
  unfold State.refuse; (repeat' split) <;> simp +contextual

@[simp] theorem State.latchWatermark_frame (s : State) (t : StreamId) :
    (s.latchWatermark t).lanes = s.lanes ∧ (∀ m, (s.latchWatermark t).lane m = s.lane m)
    ∧ (s.latchWatermark t).routes = s.routes ∧ (∀ i', (s.latchWatermark t).route i' = s.route i')
    ∧ (s.latchWatermark t).pool = s.pool ∧ (∀ d', (s.latchWatermark t).desc d' = s.desc d')
    ∧ (s.latchWatermark t).streams = s.streams ∧ (∀ t', (s.latchWatermark t).stream t' = s.stream t')
    ∧ (s.latchWatermark t).slots = s.slots ∧ (∀ k', (s.latchWatermark t).slot k' = s.slot k')
    ∧ (s.latchWatermark t).holdLimit = s.holdLimit ∧ (s.latchWatermark t).view = s.view
    ∧ (s.latchWatermark t).window = s.window ∧ (s.latchWatermark t).port = s.port ∧ (s.latchWatermark t).cmd = s.cmd
    ∧ (s.latchWatermark t).time = s.time ∧ (s.latchWatermark t).now = s.now ∧ (s.latchWatermark t).counts = s.counts
    ∧ (∀ l' k', (s.latchWatermark t).laneCount l' k' = s.laneCount l' k')
    ∧ (∀ t' k', (s.latchWatermark t).streamCount t' k' = s.streamCount t' k')
    ∧ (∀ k', (s.latchWatermark t).deviceCount k' = s.deviceCount k')
    ∧ (s.latchWatermark t).events.latches = s.events.latches ∧ (s.latchWatermark t).events.enables = s.events.enables
    ∧ (s.latchWatermark t).events.watermarkEnables = s.events.watermarkEnables
    ∧ (s.latchWatermark t).events.readyEnables = s.events.readyEnables
    ∧ (∀ e', (s.latchWatermark t).latched e' = s.latched e') ∧ (s.latchWatermark t).host = s.host
    ∧ (s.latchWatermark t).memory = s.memory ∧ (s.latchWatermark t).epoch = s.epoch
    ∧ (s.latchWatermark t).pending = s.pending := by
  and_intros <;> intros <;> rfl

@[simp] theorem State.raiseCharge_frame (s : State) (t : StreamId) (n : Nat) :
    (s.raiseCharge t n).lanes = s.lanes ∧ (∀ m, (s.raiseCharge t n).lane m = s.lane m)
    ∧ (s.raiseCharge t n).routes = s.routes ∧ (∀ i', (s.raiseCharge t n).route i' = s.route i')
    ∧ (s.raiseCharge t n).pool = s.pool ∧ (∀ d', (s.raiseCharge t n).desc d' = s.desc d')
    ∧ (∀ t', ((s.raiseCharge t n).stream t').entry = (s.stream t').entry)
    ∧ (∀ t', ((s.raiseCharge t n).stream t').queue = (s.stream t').queue)
    ∧ (∀ t', ((s.raiseCharge t n).stream t').heldCount = (s.stream t').heldCount)
    ∧ (∀ t', ((s.raiseCharge t n).stream t').examine = (s.stream t').examine)
    ∧ (∀ t', ((s.raiseCharge t n).stream t').expired = (s.stream t').expired) ∧ (s.raiseCharge t n).slots = s.slots
    ∧ (∀ k', (s.raiseCharge t n).slot k' = s.slot k') ∧ (s.raiseCharge t n).holdLimit = s.holdLimit
    ∧ (s.raiseCharge t n).view = s.view ∧ (s.raiseCharge t n).window = s.window ∧ (s.raiseCharge t n).port = s.port
    ∧ (s.raiseCharge t n).cmd = s.cmd ∧ (s.raiseCharge t n).time = s.time ∧ (s.raiseCharge t n).now = s.now
    ∧ (s.raiseCharge t n).counts = s.counts ∧ (∀ l' k', (s.raiseCharge t n).laneCount l' k' = s.laneCount l' k')
    ∧ (∀ t' k', (s.raiseCharge t n).streamCount t' k' = s.streamCount t' k')
    ∧ (∀ k', (s.raiseCharge t n).deviceCount k' = s.deviceCount k')
    ∧ (s.raiseCharge t n).events.latches = s.events.latches ∧ (s.raiseCharge t n).events.enables = s.events.enables
    ∧ (s.raiseCharge t n).events.watermarkEnables = s.events.watermarkEnables
    ∧ (s.raiseCharge t n).events.readyEnables = s.events.readyEnables
    ∧ (∀ e', (s.raiseCharge t n).latched e' = s.latched e') ∧ (s.raiseCharge t n).host = s.host
    ∧ (s.raiseCharge t n).memory = s.memory ∧ (s.raiseCharge t n).epoch = s.epoch
    ∧ (s.raiseCharge t n).pending = s.pending := by
  unfold State.raiseCharge; dsimp only; (repeat' split) <;> simp +contextual

@[simp] theorem State.notePoolLow_frame (s : State) (before after : Nat) :
    (s.notePoolLow before after).lanes = s.lanes ∧ (∀ m, (s.notePoolLow before after).lane m = s.lane m)
    ∧ (s.notePoolLow before after).routes = s.routes ∧ (∀ i', (s.notePoolLow before after).route i' = s.route i')
    ∧ (s.notePoolLow before after).pool = s.pool ∧ (∀ d', (s.notePoolLow before after).desc d' = s.desc d')
    ∧ (s.notePoolLow before after).streams = s.streams ∧ (∀ t', (s.notePoolLow before after).stream t' = s.stream t')
    ∧ (s.notePoolLow before after).slots = s.slots ∧ (∀ k', (s.notePoolLow before after).slot k' = s.slot k')
    ∧ (s.notePoolLow before after).holdLimit = s.holdLimit ∧ (s.notePoolLow before after).view = s.view
    ∧ (s.notePoolLow before after).window = s.window ∧ (s.notePoolLow before after).port = s.port
    ∧ (s.notePoolLow before after).cmd = s.cmd ∧ (s.notePoolLow before after).time = s.time
    ∧ (s.notePoolLow before after).now = s.now ∧ (s.notePoolLow before after).counts.lanes = s.counts.lanes
    ∧ (s.notePoolLow before after).counts.streams = s.counts.streams
    ∧ (s.notePoolLow before after).counts.completions = s.counts.completions
    ∧ (∀ l' k', (s.notePoolLow before after).laneCount l' k' = s.laneCount l' k')
    ∧ (∀ t' k', (s.notePoolLow before after).streamCount t' k' = s.streamCount t' k')
    ∧ (s.notePoolLow before after).events.enables = s.events.enables
    ∧ (s.notePoolLow before after).events.watermarks = s.events.watermarks
    ∧ (s.notePoolLow before after).events.watermarkEnables = s.events.watermarkEnables
    ∧ (s.notePoolLow before after).events.readyEnables = s.events.readyEnables
    ∧ (s.notePoolLow before after).events.latches &&& 0xFC08#16 = s.events.latches &&& 0xFC08#16
    ∧ (s.notePoolLow before after).host = s.host ∧ (s.notePoolLow before after).memory = s.memory
    ∧ (s.notePoolLow before after).epoch = s.epoch ∧ (s.notePoolLow before after).pending = s.pending := by
  unfold State.notePoolLow; (repeat' split) <;> simp +contextual

@[simp] theorem State.takeFromPool_frame (s : State) (d : DescId) (n : Nat) (x : Desc) :
    (s.takeFromPool d n x).lanes = s.lanes ∧ (∀ m, (s.takeFromPool d n x).lane m = s.lane m)
    ∧ (s.takeFromPool d n x).routes = s.routes ∧ (∀ i', (s.takeFromPool d n x).route i' = s.route i')
    ∧ (s.takeFromPool d n x).pool.ready = s.pool.ready ∧ (s.takeFromPool d n x).pool.buildStart = s.pool.buildStart
    ∧ (s.takeFromPool d n x).pool.lowThreshold = s.pool.lowThreshold ∧ (s.takeFromPool d n x).streams = s.streams
    ∧ (∀ t', (s.takeFromPool d n x).stream t' = s.stream t') ∧ (s.takeFromPool d n x).slots = s.slots
    ∧ (∀ k', (s.takeFromPool d n x).slot k' = s.slot k') ∧ (s.takeFromPool d n x).holdLimit = s.holdLimit
    ∧ (s.takeFromPool d n x).view = s.view ∧ (s.takeFromPool d n x).window = s.window
    ∧ (s.takeFromPool d n x).port = s.port ∧ (s.takeFromPool d n x).cmd = s.cmd ∧ (s.takeFromPool d n x).time = s.time
    ∧ (s.takeFromPool d n x).now = s.now ∧ (s.takeFromPool d n x).counts = s.counts
    ∧ (∀ l' k', (s.takeFromPool d n x).laneCount l' k' = s.laneCount l' k')
    ∧ (∀ t' k', (s.takeFromPool d n x).streamCount t' k' = s.streamCount t' k')
    ∧ (∀ k', (s.takeFromPool d n x).deviceCount k' = s.deviceCount k') ∧ (s.takeFromPool d n x).events = s.events
    ∧ (∀ e', (s.takeFromPool d n x).latched e' = s.latched e') ∧ (s.takeFromPool d n x).host = s.host
    ∧ (s.takeFromPool d n x).memory = s.memory ∧ (s.takeFromPool d n x).epoch = s.epoch
    ∧ (s.takeFromPool d n x).pending = s.pending := by
  and_intros <;> intros <;> rfl

@[simp] theorem State.accept_frame (s : State) (l : LaneId) (h : Header) (t : StreamId) (r : Option (RouteId × Byte)) (d : DescId) :
    (∀ m, ((s.accept l h t r d).lane m).entry = (s.lane m).entry)
    ∧ (∀ m, m ≠ l → (s.accept l h t r d).lane m = s.lane m) ∧ (s.accept l h t r d).routes = s.routes
    ∧ (∀ i', (s.accept l h t r d).route i' = s.route i') ∧ (s.accept l h t r d).pool.ready = s.pool.ready
    ∧ (s.accept l h t r d).pool.buildStart = s.pool.buildStart
    ∧ (s.accept l h t r d).pool.lowThreshold = s.pool.lowThreshold
    ∧ (∀ t', ((s.accept l h t r d).stream t').entry = (s.stream t').entry)
    ∧ (∀ t', ((s.accept l h t r d).stream t').queue = (s.stream t').queue)
    ∧ (∀ t', ((s.accept l h t r d).stream t').heldCount = (s.stream t').heldCount)
    ∧ (∀ t', ((s.accept l h t r d).stream t').examine = (s.stream t').examine)
    ∧ (∀ t', ((s.accept l h t r d).stream t').expired = (s.stream t').expired) ∧ (s.accept l h t r d).slots = s.slots
    ∧ (∀ k', (s.accept l h t r d).slot k' = s.slot k') ∧ (s.accept l h t r d).holdLimit = s.holdLimit
    ∧ (s.accept l h t r d).view = s.view ∧ (s.accept l h t r d).window = s.window ∧ (s.accept l h t r d).port = s.port
    ∧ (s.accept l h t r d).cmd = s.cmd ∧ (s.accept l h t r d).time = s.time ∧ (s.accept l h t r d).now = s.now
    ∧ (s.accept l h t r d).counts.lanes = s.counts.lanes ∧ (s.accept l h t r d).counts.streams = s.counts.streams
    ∧ (s.accept l h t r d).counts.completions = s.counts.completions
    ∧ (∀ l' k', (s.accept l h t r d).laneCount l' k' = s.laneCount l' k')
    ∧ (∀ t' k', (s.accept l h t r d).streamCount t' k' = s.streamCount t' k')
    ∧ (s.accept l h t r d).events.enables = s.events.enables
    ∧ (s.accept l h t r d).events.watermarkEnables = s.events.watermarkEnables
    ∧ (s.accept l h t r d).events.readyEnables = s.events.readyEnables
    ∧ (s.accept l h t r d).events.latches &&& 0xFC08#16 = s.events.latches &&& 0xFC08#16
    ∧ (s.accept l h t r d).host = s.host ∧ (s.accept l h t r d).memory = s.memory
    ∧ (s.accept l h t r d).epoch = s.epoch ∧ (s.accept l h t r d).pending = s.pending := by
  simp +contextual [State.accept]

@[simp] theorem State.admission_frame (s : State) (t : StreamId) (n : Nat) :
    (s.admission t n).1.lanes = s.lanes ∧ (∀ m, (s.admission t n).1.lane m = s.lane m)
    ∧ (s.admission t n).1.routes = s.routes ∧ (∀ i', (s.admission t n).1.route i' = s.route i')
    ∧ (s.admission t n).1.pool.ready = s.pool.ready ∧ (s.admission t n).1.pool.buildStart = s.pool.buildStart
    ∧ (s.admission t n).1.pool.lowThreshold = s.pool.lowThreshold
    ∧ (∀ t', ((s.admission t n).1.stream t').entry = (s.stream t').entry)
    ∧ (∀ t', ((s.admission t n).1.stream t').heldCount = (s.stream t').heldCount)
    ∧ (∀ t', ((s.admission t n).1.stream t').examine = (s.stream t').examine)
    ∧ (∀ t', ((s.admission t n).1.stream t').expired = (s.stream t').expired) ∧ (s.admission t n).1.slots = s.slots
    ∧ (∀ k', (s.admission t n).1.slot k' = s.slot k') ∧ (s.admission t n).1.holdLimit = s.holdLimit
    ∧ (s.admission t n).1.view = s.view ∧ (s.admission t n).1.window = s.window ∧ (s.admission t n).1.port = s.port
    ∧ (s.admission t n).1.cmd.code = s.cmd.code ∧ (s.admission t n).1.cmd.arg = s.cmd.arg
    ∧ (s.admission t n).1.cmd.argReg = s.cmd.argReg ∧ (s.admission t n).1.cmd.collision = s.cmd.collision
    ∧ (s.admission t n).1.cmd.image = s.cmd.image ∧ (s.admission t n).1.cmd.taken = s.cmd.taken
    ∧ (s.admission t n).1.cmd.capture = s.cmd.capture ∧ (s.admission t n).1.time = s.time
    ∧ (s.admission t n).1.now = s.now ∧ (s.admission t n).1.counts.lanes = s.counts.lanes
    ∧ (s.admission t n).1.counts.device = s.counts.device
    ∧ (s.admission t n).1.counts.completions = s.counts.completions
    ∧ (∀ l' k', (s.admission t n).1.laneCount l' k' = s.laneCount l' k')
    ∧ (∀ k', (s.admission t n).1.deviceCount k' = s.deviceCount k')
    ∧ (s.admission t n).1.events.enables = s.events.enables
    ∧ (s.admission t n).1.events.watermarks = s.events.watermarks
    ∧ (s.admission t n).1.events.watermarkEnables = s.events.watermarkEnables
    ∧ (s.admission t n).1.events.readyEnables = s.events.readyEnables
    ∧ (s.admission t n).1.events.latches &&& 0xFC08#16 = s.events.latches &&& 0xFC08#16
    ∧ (s.admission t n).1.host = s.host ∧ (s.admission t n).1.memory = s.memory ∧ (s.admission t n).1.epoch = s.epoch
    ∧ (s.admission t n).1.pending = s.pending := by
  unfold State.admission; split
  · simp
  · split <;> simp +contextual

@[simp] theorem State.offer_frame (s : State) (l : LaneId) (h : Header) :
    (∀ m, ((s.offer l h).lane m).entry = (s.lane m).entry) ∧ (∀ m, m ≠ l → (s.offer l h).lane m = s.lane m)
    ∧ (s.offer l h).routes = s.routes ∧ (∀ i', (s.offer l h).route i' = s.route i')
    ∧ (s.offer l h).pool.ready = s.pool.ready ∧ (s.offer l h).pool.buildStart = s.pool.buildStart
    ∧ (s.offer l h).pool.lowThreshold = s.pool.lowThreshold
    ∧ (∀ t', ((s.offer l h).stream t').entry = (s.stream t').entry)
    ∧ (∀ t', ((s.offer l h).stream t').heldCount = (s.stream t').heldCount)
    ∧ (∀ t', ((s.offer l h).stream t').examine = (s.stream t').examine)
    ∧ (∀ t', ((s.offer l h).stream t').expired = (s.stream t').expired) ∧ (s.offer l h).slots = s.slots
    ∧ (∀ k', (s.offer l h).slot k' = s.slot k') ∧ (s.offer l h).holdLimit = s.holdLimit ∧ (s.offer l h).view = s.view
    ∧ (s.offer l h).window = s.window ∧ (s.offer l h).port = s.port ∧ (s.offer l h).cmd.code = s.cmd.code
    ∧ (s.offer l h).cmd.arg = s.cmd.arg ∧ (s.offer l h).cmd.argReg = s.cmd.argReg
    ∧ (s.offer l h).cmd.collision = s.cmd.collision ∧ (s.offer l h).cmd.image = s.cmd.image
    ∧ (s.offer l h).cmd.taken = s.cmd.taken ∧ (s.offer l h).cmd.capture = s.cmd.capture ∧ (s.offer l h).time = s.time
    ∧ (s.offer l h).now = s.now ∧ (s.offer l h).counts.completions = s.counts.completions
    ∧ (s.offer l h).events.enables = s.events.enables
    ∧ (s.offer l h).events.watermarkEnables = s.events.watermarkEnables
    ∧ (s.offer l h).events.readyEnables = s.events.readyEnables
    ∧ (s.offer l h).events.latches &&& 0xFC08#16 = s.events.latches &&& 0xFC08#16 ∧ (s.offer l h).host = s.host
    ∧ (s.offer l h).memory = s.memory ∧ (s.offer l h).epoch = s.epoch ∧ (s.offer l h).pending = s.pending := by
  unfold State.offer; split
  · simp +contextual
  · split
    · simp +contextual
    · split
      · dsimp only; split <;> simp +contextual
      · simp +contextual

@[simp] theorem State.stageByte_frame (s : State) (l : LaneId) (d : DescId) (i : Fin 4) (c : Staged) (b : Byte) :
    (∀ m, ((s.stageByte l d i c b).lane m).entry = (s.lane m).entry)
    ∧ (∀ m, ((s.stageByte l d i c b).lane m).rx = (s.lane m).rx)
    ∧ (∀ m, m ≠ l → (s.stageByte l d i c b).lane m = s.lane m) ∧ (s.stageByte l d i c b).routes = s.routes
    ∧ (∀ i', (s.stageByte l d i c b).route i' = s.route i') ∧ (s.stageByte l d i c b).pool.ready = s.pool.ready
    ∧ (s.stageByte l d i c b).pool.buildStart = s.pool.buildStart
    ∧ (s.stageByte l d i c b).pool.freeCells = s.pool.freeCells
    ∧ (s.stageByte l d i c b).pool.freeDescs = s.pool.freeDescs ∧ (s.stageByte l d i c b).pool.links = s.pool.links
    ∧ (s.stageByte l d i c b).pool.lowThreshold = s.pool.lowThreshold ∧ (s.stageByte l d i c b).streams = s.streams
    ∧ (∀ t', (s.stageByte l d i c b).stream t' = s.stream t') ∧ (s.stageByte l d i c b).slots = s.slots
    ∧ (∀ k', (s.stageByte l d i c b).slot k' = s.slot k') ∧ (s.stageByte l d i c b).holdLimit = s.holdLimit
    ∧ (s.stageByte l d i c b).view = s.view ∧ (s.stageByte l d i c b).window = s.window
    ∧ (s.stageByte l d i c b).port = s.port ∧ (s.stageByte l d i c b).cmd = s.cmd
    ∧ (s.stageByte l d i c b).time = s.time ∧ (s.stageByte l d i c b).now = s.now
    ∧ (s.stageByte l d i c b).counts = s.counts
    ∧ (∀ l' k', (s.stageByte l d i c b).laneCount l' k' = s.laneCount l' k')
    ∧ (∀ t' k', (s.stageByte l d i c b).streamCount t' k' = s.streamCount t' k')
    ∧ (∀ k', (s.stageByte l d i c b).deviceCount k' = s.deviceCount k') ∧ (s.stageByte l d i c b).events = s.events
    ∧ (∀ e', (s.stageByte l d i c b).latched e' = s.latched e') ∧ (s.stageByte l d i c b).host = s.host
    ∧ (s.stageByte l d i c b).memory = s.memory ∧ (s.stageByte l d i c b).epoch = s.epoch
    ∧ (s.stageByte l d i c b).pending = s.pending := by
  unfold State.stageByte; dsimp only; (repeat' split) <;> simp +contextual

@[simp] theorem State.abort_frame (s : State) (l : LaneId) (d : DescId) :
    (∀ m, ((s.abort l d).lane m).entry = (s.lane m).entry) ∧ (∀ m, ((s.abort l d).lane m).rx = (s.lane m).rx)
    ∧ (∀ m, m ≠ l → (s.abort l d).lane m = s.lane m) ∧ (s.abort l d).routes = s.routes
    ∧ (∀ i', (s.abort l d).route i' = s.route i') ∧ (s.abort l d).pool.ready = s.pool.ready
    ∧ (s.abort l d).pool.buildStart = s.pool.buildStart ∧ (s.abort l d).pool.lowThreshold = s.pool.lowThreshold
    ∧ (∀ t', ((s.abort l d).stream t').entry = (s.stream t').entry)
    ∧ (∀ t', ((s.abort l d).stream t').queue = (s.stream t').queue)
    ∧ (∀ t', ((s.abort l d).stream t').heldCount = (s.stream t').heldCount)
    ∧ (∀ t', ((s.abort l d).stream t').examine = (s.stream t').examine)
    ∧ (∀ t', ((s.abort l d).stream t').expired = (s.stream t').expired) ∧ (s.abort l d).slots = s.slots
    ∧ (∀ k', (s.abort l d).slot k' = s.slot k') ∧ (s.abort l d).holdLimit = s.holdLimit ∧ (s.abort l d).view = s.view
    ∧ (s.abort l d).window = s.window ∧ (s.abort l d).port = s.port ∧ (s.abort l d).cmd = s.cmd
    ∧ (s.abort l d).time = s.time ∧ (s.abort l d).now = s.now ∧ (s.abort l d).counts = s.counts
    ∧ (∀ l' k', (s.abort l d).laneCount l' k' = s.laneCount l' k')
    ∧ (∀ t' k', (s.abort l d).streamCount t' k' = s.streamCount t' k')
    ∧ (∀ k', (s.abort l d).deviceCount k' = s.deviceCount k') ∧ (s.abort l d).events.enables = s.events.enables
    ∧ (s.abort l d).events.watermarks = s.events.watermarks
    ∧ (s.abort l d).events.watermarkEnables = s.events.watermarkEnables
    ∧ (s.abort l d).events.readyEnables = s.events.readyEnables
    ∧ (s.abort l d).events.latches &&& 0xFC08#16 = s.events.latches &&& 0xFC08#16 ∧ (s.abort l d).host = s.host
    ∧ (s.abort l d).memory = s.memory ∧ (s.abort l d).epoch = s.epoch ∧ (s.abort l d).pending = s.pending := by
  simp +contextual [State.abort]

@[simp] theorem State.cut_frame (s : State) (l : LaneId) (d : DescId) :
    (∀ m, ((s.cut l d).lane m).entry = (s.lane m).entry) ∧ (∀ m, ((s.cut l d).lane m).rx = (s.lane m).rx)
    ∧ (∀ m, m ≠ l → (s.cut l d).lane m = s.lane m) ∧ (s.cut l d).routes = s.routes
    ∧ (∀ i', (s.cut l d).route i' = s.route i') ∧ (s.cut l d).pool.ready = s.pool.ready
    ∧ (s.cut l d).pool.buildStart = s.pool.buildStart ∧ (s.cut l d).pool.lowThreshold = s.pool.lowThreshold
    ∧ (∀ t', ((s.cut l d).stream t').entry = (s.stream t').entry)
    ∧ (∀ t', ((s.cut l d).stream t').queue = (s.stream t').queue)
    ∧ (∀ t', ((s.cut l d).stream t').heldCount = (s.stream t').heldCount)
    ∧ (∀ t', ((s.cut l d).stream t').examine = (s.stream t').examine)
    ∧ (∀ t', ((s.cut l d).stream t').expired = (s.stream t').expired) ∧ (s.cut l d).slots = s.slots
    ∧ (∀ k', (s.cut l d).slot k' = s.slot k') ∧ (s.cut l d).holdLimit = s.holdLimit ∧ (s.cut l d).view = s.view
    ∧ (s.cut l d).window = s.window ∧ (s.cut l d).port = s.port ∧ (s.cut l d).cmd = s.cmd ∧ (s.cut l d).time = s.time
    ∧ (s.cut l d).now = s.now ∧ (s.cut l d).counts.streams = s.counts.streams
    ∧ (s.cut l d).counts.device = s.counts.device ∧ (s.cut l d).counts.completions = s.counts.completions
    ∧ (∀ t' k', (s.cut l d).streamCount t' k' = s.streamCount t' k')
    ∧ (∀ k', (s.cut l d).deviceCount k' = s.deviceCount k') ∧ (s.cut l d).events.enables = s.events.enables
    ∧ (s.cut l d).events.watermarks = s.events.watermarks
    ∧ (s.cut l d).events.watermarkEnables = s.events.watermarkEnables
    ∧ (s.cut l d).events.readyEnables = s.events.readyEnables
    ∧ (s.cut l d).events.latches &&& 0xFC08#16 = s.events.latches &&& 0xFC08#16 ∧ (s.cut l d).host = s.host
    ∧ (s.cut l d).memory = s.memory ∧ (s.cut l d).epoch = s.epoch ∧ (s.cut l d).pending = s.pending := by
  simp +contextual [State.cut]

@[simp] theorem State.cutAll_frame (s : State) (l : LaneId) :
    (∀ m, ((s.cutAll l).lane m).entry = (s.lane m).entry) ∧ (∀ m, ((s.cutAll l).lane m).rx = (s.lane m).rx)
    ∧ (∀ m, m ≠ l → (s.cutAll l).lane m = s.lane m) ∧ (s.cutAll l).routes = s.routes
    ∧ (∀ i', (s.cutAll l).route i' = s.route i') ∧ (s.cutAll l).pool.ready = s.pool.ready
    ∧ (s.cutAll l).pool.buildStart = s.pool.buildStart ∧ (s.cutAll l).pool.lowThreshold = s.pool.lowThreshold
    ∧ (∀ t', ((s.cutAll l).stream t').entry = (s.stream t').entry)
    ∧ (∀ t', ((s.cutAll l).stream t').queue = (s.stream t').queue)
    ∧ (∀ t', ((s.cutAll l).stream t').heldCount = (s.stream t').heldCount)
    ∧ (∀ t', ((s.cutAll l).stream t').examine = (s.stream t').examine)
    ∧ (∀ t', ((s.cutAll l).stream t').expired = (s.stream t').expired) ∧ (s.cutAll l).slots = s.slots
    ∧ (∀ k', (s.cutAll l).slot k' = s.slot k') ∧ (s.cutAll l).holdLimit = s.holdLimit ∧ (s.cutAll l).view = s.view
    ∧ (s.cutAll l).window = s.window ∧ (s.cutAll l).port = s.port ∧ (s.cutAll l).cmd = s.cmd
    ∧ (s.cutAll l).time = s.time ∧ (s.cutAll l).now = s.now ∧ (s.cutAll l).counts.streams = s.counts.streams
    ∧ (s.cutAll l).counts.device = s.counts.device ∧ (s.cutAll l).counts.completions = s.counts.completions
    ∧ (∀ t' k', (s.cutAll l).streamCount t' k' = s.streamCount t' k')
    ∧ (∀ k', (s.cutAll l).deviceCount k' = s.deviceCount k') ∧ (s.cutAll l).events.enables = s.events.enables
    ∧ (s.cutAll l).events.watermarks = s.events.watermarks
    ∧ (s.cutAll l).events.watermarkEnables = s.events.watermarkEnables
    ∧ (s.cutAll l).events.readyEnables = s.events.readyEnables
    ∧ (s.cutAll l).events.latches &&& 0xFC08#16 = s.events.latches &&& 0xFC08#16 ∧ (s.cutAll l).host = s.host
    ∧ (s.cutAll l).memory = s.memory ∧ (s.cutAll l).epoch = s.epoch ∧ (s.cutAll l).pending = s.pending := by
  unfold State.cutAll; generalize (s.lane l).unit.list = ds; induction ds generalizing s with
  | nil => simp
  | cons d ds ih => simp +contextual [ih]

@[simp] theorem State.track_frame (s : State) (d : DescId) :
    (s.track d).lanes = s.lanes ∧ (∀ m, (s.track d).lane m = s.lane m) ∧ (s.track d).pool.ready = s.pool.ready
    ∧ (s.track d).pool.buildStart = s.pool.buildStart ∧ (s.track d).pool.freeCells = s.pool.freeCells
    ∧ (s.track d).pool.freeDescs = s.pool.freeDescs ∧ (s.track d).pool.links = s.pool.links
    ∧ (s.track d).pool.lowThreshold = s.pool.lowThreshold ∧ (s.track d).streams = s.streams
    ∧ (∀ t', (s.track d).stream t' = s.stream t') ∧ (s.track d).slots = s.slots
    ∧ (∀ k', (s.track d).slot k' = s.slot k') ∧ (s.track d).holdLimit = s.holdLimit ∧ (s.track d).view = s.view
    ∧ (s.track d).window = s.window ∧ (s.track d).port = s.port ∧ (s.track d).cmd = s.cmd ∧ (s.track d).time = s.time
    ∧ (s.track d).now = s.now ∧ (s.track d).counts.lanes = s.counts.lanes
    ∧ (s.track d).counts.device = s.counts.device ∧ (s.track d).counts.completions = s.counts.completions
    ∧ (∀ l' k', (s.track d).laneCount l' k' = s.laneCount l' k')
    ∧ (∀ k', (s.track d).deviceCount k' = s.deviceCount k') ∧ (s.track d).events = s.events
    ∧ (∀ e', (s.track d).latched e' = s.latched e') ∧ (s.track d).host = s.host ∧ (s.track d).memory = s.memory
    ∧ (s.track d).epoch = s.epoch ∧ (s.track d).pending = s.pending := by
  unfold State.track; dsimp only; (repeat' split) <;> simp +contextual

@[simp] theorem State.number_frame (s : State) (d : DescId) :
    (s.number d).lanes = s.lanes ∧ (∀ m, (s.number d).lane m = s.lane m) ∧ (s.number d).routes = s.routes
    ∧ (∀ i', (s.number d).route i' = s.route i') ∧ (s.number d).pool.ready = s.pool.ready
    ∧ (s.number d).pool.buildStart = s.pool.buildStart ∧ (s.number d).pool.freeCells = s.pool.freeCells
    ∧ (s.number d).pool.freeDescs = s.pool.freeDescs ∧ (s.number d).pool.links = s.pool.links
    ∧ (s.number d).pool.lowThreshold = s.pool.lowThreshold ∧ (s.number d).streams = s.streams
    ∧ (∀ t', (s.number d).stream t' = s.stream t') ∧ (s.number d).slots = s.slots
    ∧ (∀ k', (s.number d).slot k' = s.slot k') ∧ (s.number d).holdLimit = s.holdLimit ∧ (s.number d).view = s.view
    ∧ (s.number d).window = s.window ∧ (s.number d).port = s.port ∧ (s.number d).cmd = s.cmd
    ∧ (s.number d).time = s.time ∧ (s.number d).now = s.now ∧ (s.number d).counts.lanes = s.counts.lanes
    ∧ (s.number d).counts.streams = s.counts.streams ∧ (s.number d).counts.device = s.counts.device
    ∧ (∀ l' k', (s.number d).laneCount l' k' = s.laneCount l' k')
    ∧ (∀ t' k', (s.number d).streamCount t' k' = s.streamCount t' k')
    ∧ (∀ k', (s.number d).deviceCount k' = s.deviceCount k') ∧ (s.number d).events = s.events
    ∧ (∀ e', (s.number d).latched e' = s.latched e') ∧ (s.number d).host = s.host ∧ (s.number d).memory = s.memory
    ∧ (s.number d).epoch = s.epoch ∧ (s.number d).pending = s.pending := by
  and_intros <;> intros <;> rfl

@[simp] theorem State.enqueue_frame (s : State) (d : DescId) :
    (s.enqueue d).lanes = s.lanes ∧ (∀ m, (s.enqueue d).lane m = s.lane m) ∧ (s.enqueue d).routes = s.routes
    ∧ (∀ i', (s.enqueue d).route i' = s.route i') ∧ (s.enqueue d).pool.ready = s.pool.ready
    ∧ (s.enqueue d).pool.buildStart = s.pool.buildStart ∧ (s.enqueue d).pool.freeCells = s.pool.freeCells
    ∧ (s.enqueue d).pool.freeDescs = s.pool.freeDescs ∧ (s.enqueue d).pool.links = s.pool.links
    ∧ (s.enqueue d).pool.lowThreshold = s.pool.lowThreshold
    ∧ (∀ t', ((s.enqueue d).stream t').entry = (s.stream t').entry)
    ∧ (∀ t', ((s.enqueue d).stream t').heldCount = (s.stream t').heldCount)
    ∧ (∀ t', ((s.enqueue d).stream t').charge = (s.stream t').charge)
    ∧ (∀ t', ((s.enqueue d).stream t').examine = (s.stream t').examine) ∧ (s.enqueue d).slots = s.slots
    ∧ (∀ k', (s.enqueue d).slot k' = s.slot k') ∧ (s.enqueue d).holdLimit = s.holdLimit ∧ (s.enqueue d).view = s.view
    ∧ (s.enqueue d).window = s.window ∧ (s.enqueue d).port = s.port ∧ (s.enqueue d).cmd = s.cmd
    ∧ (s.enqueue d).time = s.time ∧ (s.enqueue d).now = s.now ∧ (s.enqueue d).counts.lanes = s.counts.lanes
    ∧ (s.enqueue d).counts.device = s.counts.device ∧ (s.enqueue d).counts.completions = s.counts.completions
    ∧ (∀ l' k', (s.enqueue d).laneCount l' k' = s.laneCount l' k')
    ∧ (∀ k', (s.enqueue d).deviceCount k' = s.deviceCount k') ∧ (s.enqueue d).events = s.events
    ∧ (∀ e', (s.enqueue d).latched e' = s.latched e') ∧ (s.enqueue d).host = s.host ∧ (s.enqueue d).memory = s.memory
    ∧ (s.enqueue d).epoch = s.epoch ∧ (s.enqueue d).pending = s.pending := by
  simp +contextual [State.enqueue]

@[simp] theorem State.complete_frame (s : State) (l : LaneId) (d : DescId) :
    (∀ m, ((s.complete l d).lane m).entry = (s.lane m).entry) ∧ (∀ m, ((s.complete l d).lane m).rx = (s.lane m).rx)
    ∧ (∀ m, m ≠ l → (s.complete l d).lane m = s.lane m) ∧ (s.complete l d).pool.ready = s.pool.ready
    ∧ (s.complete l d).pool.buildStart = s.pool.buildStart ∧ (s.complete l d).pool.freeCells = s.pool.freeCells
    ∧ (s.complete l d).pool.freeDescs = s.pool.freeDescs ∧ (s.complete l d).pool.links = s.pool.links
    ∧ (s.complete l d).pool.lowThreshold = s.pool.lowThreshold
    ∧ (∀ t', ((s.complete l d).stream t').entry = (s.stream t').entry)
    ∧ (∀ t', ((s.complete l d).stream t').heldCount = (s.stream t').heldCount)
    ∧ (∀ t', ((s.complete l d).stream t').charge = (s.stream t').charge)
    ∧ (∀ t', ((s.complete l d).stream t').examine = (s.stream t').examine) ∧ (s.complete l d).slots = s.slots
    ∧ (∀ k', (s.complete l d).slot k' = s.slot k') ∧ (s.complete l d).holdLimit = s.holdLimit
    ∧ (s.complete l d).view = s.view ∧ (s.complete l d).window = s.window ∧ (s.complete l d).port = s.port
    ∧ (s.complete l d).cmd.code = s.cmd.code ∧ (s.complete l d).cmd.arg = s.cmd.arg
    ∧ (s.complete l d).cmd.argReg = s.cmd.argReg ∧ (s.complete l d).cmd.collision = s.cmd.collision
    ∧ (s.complete l d).cmd.image = s.cmd.image ∧ (s.complete l d).cmd.taken = s.cmd.taken
    ∧ (s.complete l d).cmd.capture = s.cmd.capture ∧ (s.complete l d).time = s.time ∧ (s.complete l d).now = s.now
    ∧ (s.complete l d).counts.device = s.counts.device ∧ (∀ k', (s.complete l d).deviceCount k' = s.deviceCount k')
    ∧ (s.complete l d).events.enables = s.events.enables ∧ (s.complete l d).events.watermarks = s.events.watermarks
    ∧ (s.complete l d).events.watermarkEnables = s.events.watermarkEnables
    ∧ (s.complete l d).events.readyEnables = s.events.readyEnables
    ∧ (s.complete l d).events.latches &&& 0xFC08#16 = s.events.latches &&& 0xFC08#16 ∧ (s.complete l d).host = s.host
    ∧ (s.complete l d).memory = s.memory ∧ (s.complete l d).epoch = s.epoch ∧ (s.complete l d).pending = s.pending := by
  simp +contextual [State.complete]

@[simp] theorem State.tryComplete_frame (s : State) (l : LaneId) :
    (∀ m, ((s.tryComplete l).lane m).entry = (s.lane m).entry) ∧ (∀ m, ((s.tryComplete l).lane m).rx = (s.lane m).rx)
    ∧ (∀ m, m ≠ l → (s.tryComplete l).lane m = s.lane m) ∧ (s.tryComplete l).pool.ready = s.pool.ready
    ∧ (s.tryComplete l).pool.buildStart = s.pool.buildStart ∧ (s.tryComplete l).pool.freeCells = s.pool.freeCells
    ∧ (s.tryComplete l).pool.freeDescs = s.pool.freeDescs ∧ (s.tryComplete l).pool.links = s.pool.links
    ∧ (s.tryComplete l).pool.lowThreshold = s.pool.lowThreshold
    ∧ (∀ t', ((s.tryComplete l).stream t').entry = (s.stream t').entry)
    ∧ (∀ t', ((s.tryComplete l).stream t').heldCount = (s.stream t').heldCount)
    ∧ (∀ t', ((s.tryComplete l).stream t').charge = (s.stream t').charge)
    ∧ (∀ t', ((s.tryComplete l).stream t').examine = (s.stream t').examine) ∧ (s.tryComplete l).slots = s.slots
    ∧ (∀ k', (s.tryComplete l).slot k' = s.slot k') ∧ (s.tryComplete l).holdLimit = s.holdLimit
    ∧ (s.tryComplete l).view = s.view ∧ (s.tryComplete l).window = s.window ∧ (s.tryComplete l).port = s.port
    ∧ (s.tryComplete l).cmd.code = s.cmd.code ∧ (s.tryComplete l).cmd.arg = s.cmd.arg
    ∧ (s.tryComplete l).cmd.argReg = s.cmd.argReg ∧ (s.tryComplete l).cmd.collision = s.cmd.collision
    ∧ (s.tryComplete l).cmd.image = s.cmd.image ∧ (s.tryComplete l).cmd.taken = s.cmd.taken
    ∧ (s.tryComplete l).cmd.capture = s.cmd.capture ∧ (s.tryComplete l).time = s.time ∧ (s.tryComplete l).now = s.now
    ∧ (s.tryComplete l).counts.device = s.counts.device ∧ (∀ k', (s.tryComplete l).deviceCount k' = s.deviceCount k')
    ∧ (s.tryComplete l).events.enables = s.events.enables ∧ (s.tryComplete l).events.watermarks = s.events.watermarks
    ∧ (s.tryComplete l).events.watermarkEnables = s.events.watermarkEnables
    ∧ (s.tryComplete l).events.readyEnables = s.events.readyEnables
    ∧ (s.tryComplete l).events.latches &&& 0xFC08#16 = s.events.latches &&& 0xFC08#16
    ∧ (s.tryComplete l).host = s.host ∧ (s.tryComplete l).memory = s.memory ∧ (s.tryComplete l).epoch = s.epoch
    ∧ (s.tryComplete l).pending = s.pending := by
  unfold State.tryComplete; (repeat' split) <;> simp +contextual

@[simp] theorem State.toCompleting_frame (s : State) (l : LaneId) (d : DescId) (b : Bool) :
    (∀ m, ((s.toCompleting l d b).lane m).entry = (s.lane m).entry)
    ∧ (∀ m, ((s.toCompleting l d b).lane m).rx = (s.lane m).rx)
    ∧ (∀ m, m ≠ l → (s.toCompleting l d b).lane m = s.lane m) ∧ (s.toCompleting l d b).pool.ready = s.pool.ready
    ∧ (s.toCompleting l d b).pool.buildStart = s.pool.buildStart
    ∧ (s.toCompleting l d b).pool.freeCells = s.pool.freeCells
    ∧ (s.toCompleting l d b).pool.freeDescs = s.pool.freeDescs ∧ (s.toCompleting l d b).pool.links = s.pool.links
    ∧ (s.toCompleting l d b).pool.lowThreshold = s.pool.lowThreshold
    ∧ (∀ t', ((s.toCompleting l d b).stream t').entry = (s.stream t').entry)
    ∧ (∀ t', ((s.toCompleting l d b).stream t').heldCount = (s.stream t').heldCount)
    ∧ (∀ t', ((s.toCompleting l d b).stream t').charge = (s.stream t').charge)
    ∧ (∀ t', ((s.toCompleting l d b).stream t').examine = (s.stream t').examine)
    ∧ (s.toCompleting l d b).slots = s.slots ∧ (∀ k', (s.toCompleting l d b).slot k' = s.slot k')
    ∧ (s.toCompleting l d b).holdLimit = s.holdLimit ∧ (s.toCompleting l d b).view = s.view
    ∧ (s.toCompleting l d b).window = s.window ∧ (s.toCompleting l d b).port = s.port
    ∧ (s.toCompleting l d b).cmd.code = s.cmd.code ∧ (s.toCompleting l d b).cmd.arg = s.cmd.arg
    ∧ (s.toCompleting l d b).cmd.argReg = s.cmd.argReg ∧ (s.toCompleting l d b).cmd.collision = s.cmd.collision
    ∧ (s.toCompleting l d b).cmd.image = s.cmd.image ∧ (s.toCompleting l d b).cmd.taken = s.cmd.taken
    ∧ (s.toCompleting l d b).cmd.capture = s.cmd.capture ∧ (s.toCompleting l d b).time = s.time
    ∧ (s.toCompleting l d b).now = s.now ∧ (s.toCompleting l d b).counts.device = s.counts.device
    ∧ (∀ k', (s.toCompleting l d b).deviceCount k' = s.deviceCount k')
    ∧ (s.toCompleting l d b).events.enables = s.events.enables
    ∧ (s.toCompleting l d b).events.watermarks = s.events.watermarks
    ∧ (s.toCompleting l d b).events.watermarkEnables = s.events.watermarkEnables
    ∧ (s.toCompleting l d b).events.readyEnables = s.events.readyEnables
    ∧ (s.toCompleting l d b).events.latches &&& 0xFC08#16 = s.events.latches &&& 0xFC08#16
    ∧ (s.toCompleting l d b).host = s.host ∧ (s.toCompleting l d b).memory = s.memory
    ∧ (s.toCompleting l d b).epoch = s.epoch ∧ (s.toCompleting l d b).pending = s.pending := by
  unfold State.toCompleting; dsimp only; split <;> simp +contextual

@[simp] theorem State.checkTrailer_frame (s : State) (l : LaneId) :
    (∀ m, ((s.checkTrailer l).lane m).entry = (s.lane m).entry)
    ∧ (∀ m, ((s.checkTrailer l).lane m).rx = (s.lane m).rx) ∧ (∀ m, m ≠ l → (s.checkTrailer l).lane m = s.lane m)
    ∧ (s.checkTrailer l).pool.ready = s.pool.ready ∧ (s.checkTrailer l).pool.buildStart = s.pool.buildStart
    ∧ (s.checkTrailer l).pool.lowThreshold = s.pool.lowThreshold
    ∧ (∀ t', ((s.checkTrailer l).stream t').entry = (s.stream t').entry)
    ∧ (∀ t', ((s.checkTrailer l).stream t').heldCount = (s.stream t').heldCount)
    ∧ (∀ t', ((s.checkTrailer l).stream t').examine = (s.stream t').examine) ∧ (s.checkTrailer l).slots = s.slots
    ∧ (∀ k', (s.checkTrailer l).slot k' = s.slot k') ∧ (s.checkTrailer l).holdLimit = s.holdLimit
    ∧ (s.checkTrailer l).view = s.view ∧ (s.checkTrailer l).window = s.window ∧ (s.checkTrailer l).port = s.port
    ∧ (s.checkTrailer l).cmd.code = s.cmd.code ∧ (s.checkTrailer l).cmd.arg = s.cmd.arg
    ∧ (s.checkTrailer l).cmd.argReg = s.cmd.argReg ∧ (s.checkTrailer l).cmd.collision = s.cmd.collision
    ∧ (s.checkTrailer l).cmd.image = s.cmd.image ∧ (s.checkTrailer l).cmd.taken = s.cmd.taken
    ∧ (s.checkTrailer l).cmd.capture = s.cmd.capture ∧ (s.checkTrailer l).time = s.time
    ∧ (s.checkTrailer l).now = s.now ∧ (s.checkTrailer l).counts.device = s.counts.device
    ∧ (∀ k', (s.checkTrailer l).deviceCount k' = s.deviceCount k')
    ∧ (s.checkTrailer l).events.enables = s.events.enables
    ∧ (s.checkTrailer l).events.watermarks = s.events.watermarks
    ∧ (s.checkTrailer l).events.watermarkEnables = s.events.watermarkEnables
    ∧ (s.checkTrailer l).events.readyEnables = s.events.readyEnables
    ∧ (s.checkTrailer l).events.latches &&& 0xFC08#16 = s.events.latches &&& 0xFC08#16
    ∧ (s.checkTrailer l).host = s.host ∧ (s.checkTrailer l).memory = s.memory ∧ (s.checkTrailer l).epoch = s.epoch
    ∧ (s.checkTrailer l).pending = s.pending := by
  unfold State.checkTrailer; dsimp only; (repeat' split) <;> simp +contextual

@[simp] theorem State.noteEdge_frame (s : State) (l : LaneId) :
    (∀ m, ((s.noteEdge l).lane m).entry = (s.lane m).entry) ∧ (∀ m, ((s.noteEdge l).lane m).unit = (s.lane m).unit)
    ∧ (∀ m, m ≠ l → (s.noteEdge l).lane m = s.lane m) ∧ (s.noteEdge l).routes = s.routes
    ∧ (∀ i', (s.noteEdge l).route i' = s.route i') ∧ (s.noteEdge l).pool = s.pool
    ∧ (∀ d', (s.noteEdge l).desc d' = s.desc d') ∧ (s.noteEdge l).streams = s.streams
    ∧ (∀ t', (s.noteEdge l).stream t' = s.stream t') ∧ (s.noteEdge l).slots = s.slots
    ∧ (∀ k', (s.noteEdge l).slot k' = s.slot k') ∧ (s.noteEdge l).holdLimit = s.holdLimit
    ∧ (s.noteEdge l).view = s.view ∧ (s.noteEdge l).window = s.window ∧ (s.noteEdge l).port = s.port
    ∧ (s.noteEdge l).cmd = s.cmd ∧ (s.noteEdge l).time = s.time ∧ (s.noteEdge l).now = s.now
    ∧ (s.noteEdge l).counts = s.counts ∧ (∀ l' k', (s.noteEdge l).laneCount l' k' = s.laneCount l' k')
    ∧ (∀ t' k', (s.noteEdge l).streamCount t' k' = s.streamCount t' k')
    ∧ (∀ k', (s.noteEdge l).deviceCount k' = s.deviceCount k') ∧ (s.noteEdge l).events = s.events
    ∧ (∀ e', (s.noteEdge l).latched e' = s.latched e') ∧ (s.noteEdge l).host = s.host
    ∧ (s.noteEdge l).memory = s.memory ∧ (s.noteEdge l).epoch = s.epoch ∧ (s.noteEdge l).pending = s.pending := by
  and_intros <;> first | (intros; rfl) | (intros; simp_all [State.noteEdge])

@[simp] theorem State.enterProvisional_frame (s : State) (l : LaneId) (h : Header) :
    (∀ m, ((s.enterProvisional l h).lane m).entry = (s.lane m).entry)
    ∧ (∀ m, ((s.enterProvisional l h).lane m).unit = (s.lane m).unit)
    ∧ (∀ m, m ≠ l → (s.enterProvisional l h).lane m = s.lane m) ∧ (s.enterProvisional l h).routes = s.routes
    ∧ (∀ i', (s.enterProvisional l h).route i' = s.route i') ∧ (s.enterProvisional l h).pool = s.pool
    ∧ (∀ d', (s.enterProvisional l h).desc d' = s.desc d') ∧ (s.enterProvisional l h).streams = s.streams
    ∧ (∀ t', (s.enterProvisional l h).stream t' = s.stream t') ∧ (s.enterProvisional l h).slots = s.slots
    ∧ (∀ k', (s.enterProvisional l h).slot k' = s.slot k') ∧ (s.enterProvisional l h).holdLimit = s.holdLimit
    ∧ (s.enterProvisional l h).view = s.view ∧ (s.enterProvisional l h).window = s.window
    ∧ (s.enterProvisional l h).port = s.port ∧ (s.enterProvisional l h).cmd = s.cmd
    ∧ (s.enterProvisional l h).time = s.time ∧ (s.enterProvisional l h).now = s.now
    ∧ (s.enterProvisional l h).counts = s.counts
    ∧ (∀ l' k', (s.enterProvisional l h).laneCount l' k' = s.laneCount l' k')
    ∧ (∀ t' k', (s.enterProvisional l h).streamCount t' k' = s.streamCount t' k')
    ∧ (∀ k', (s.enterProvisional l h).deviceCount k' = s.deviceCount k') ∧ (s.enterProvisional l h).events = s.events
    ∧ (∀ e', (s.enterProvisional l h).latched e' = s.latched e') ∧ (s.enterProvisional l h).host = s.host
    ∧ (s.enterProvisional l h).memory = s.memory ∧ (s.enterProvisional l h).epoch = s.epoch
    ∧ (s.enterProvisional l h).pending = s.pending := by
  and_intros <;> first | (intros; rfl) | (intros; simp_all [State.enterProvisional])

@[simp] theorem State.huntEdge_frame (s : State) (l : LaneId) (bit : Bool) :
    (∀ m, ((s.huntEdge l bit).lane m).entry = (s.lane m).entry)
    ∧ (∀ m, ((s.huntEdge l bit).lane m).unit = (s.lane m).unit) ∧ (∀ m, m ≠ l → (s.huntEdge l bit).lane m = s.lane m)
    ∧ (s.huntEdge l bit).routes = s.routes ∧ (∀ i', (s.huntEdge l bit).route i' = s.route i')
    ∧ (s.huntEdge l bit).pool = s.pool ∧ (∀ d', (s.huntEdge l bit).desc d' = s.desc d')
    ∧ (s.huntEdge l bit).streams = s.streams ∧ (∀ t', (s.huntEdge l bit).stream t' = s.stream t')
    ∧ (s.huntEdge l bit).slots = s.slots ∧ (∀ k', (s.huntEdge l bit).slot k' = s.slot k')
    ∧ (s.huntEdge l bit).holdLimit = s.holdLimit ∧ (s.huntEdge l bit).view = s.view
    ∧ (s.huntEdge l bit).window = s.window ∧ (s.huntEdge l bit).port = s.port ∧ (s.huntEdge l bit).cmd = s.cmd
    ∧ (s.huntEdge l bit).time = s.time ∧ (s.huntEdge l bit).now = s.now ∧ (s.huntEdge l bit).counts = s.counts
    ∧ (∀ l' k', (s.huntEdge l bit).laneCount l' k' = s.laneCount l' k')
    ∧ (∀ t' k', (s.huntEdge l bit).streamCount t' k' = s.streamCount t' k')
    ∧ (∀ k', (s.huntEdge l bit).deviceCount k' = s.deviceCount k') ∧ (s.huntEdge l bit).events = s.events
    ∧ (∀ e', (s.huntEdge l bit).latched e' = s.latched e') ∧ (s.huntEdge l bit).host = s.host
    ∧ (s.huntEdge l bit).memory = s.memory ∧ (s.huntEdge l bit).epoch = s.epoch
    ∧ (s.huntEdge l bit).pending = s.pending := by
  unfold State.huntEdge; dsimp only; (repeat' split) <;> simp +contextual

@[simp] theorem State.actOnHeader_frame (s : State) (l : LaneId) (h : Header) :
    (∀ m, ((s.actOnHeader l h).lane m).entry = (s.lane m).entry)
    ∧ (∀ m, m ≠ l → (s.actOnHeader l h).lane m = s.lane m) ∧ (s.actOnHeader l h).routes = s.routes
    ∧ (∀ i', (s.actOnHeader l h).route i' = s.route i') ∧ (s.actOnHeader l h).pool.ready = s.pool.ready
    ∧ (s.actOnHeader l h).pool.buildStart = s.pool.buildStart
    ∧ (s.actOnHeader l h).pool.lowThreshold = s.pool.lowThreshold
    ∧ (∀ t', ((s.actOnHeader l h).stream t').entry = (s.stream t').entry)
    ∧ (∀ t', ((s.actOnHeader l h).stream t').heldCount = (s.stream t').heldCount)
    ∧ (∀ t', ((s.actOnHeader l h).stream t').examine = (s.stream t').examine)
    ∧ (∀ t', ((s.actOnHeader l h).stream t').expired = (s.stream t').expired) ∧ (s.actOnHeader l h).slots = s.slots
    ∧ (∀ k', (s.actOnHeader l h).slot k' = s.slot k') ∧ (s.actOnHeader l h).holdLimit = s.holdLimit
    ∧ (s.actOnHeader l h).view = s.view ∧ (s.actOnHeader l h).window = s.window ∧ (s.actOnHeader l h).port = s.port
    ∧ (s.actOnHeader l h).cmd.code = s.cmd.code ∧ (s.actOnHeader l h).cmd.arg = s.cmd.arg
    ∧ (s.actOnHeader l h).cmd.argReg = s.cmd.argReg ∧ (s.actOnHeader l h).cmd.collision = s.cmd.collision
    ∧ (s.actOnHeader l h).cmd.image = s.cmd.image ∧ (s.actOnHeader l h).cmd.taken = s.cmd.taken
    ∧ (s.actOnHeader l h).cmd.capture = s.cmd.capture ∧ (s.actOnHeader l h).time = s.time
    ∧ (s.actOnHeader l h).now = s.now ∧ (s.actOnHeader l h).counts.completions = s.counts.completions
    ∧ (s.actOnHeader l h).events.enables = s.events.enables
    ∧ (s.actOnHeader l h).events.watermarkEnables = s.events.watermarkEnables
    ∧ (s.actOnHeader l h).events.readyEnables = s.events.readyEnables
    ∧ (s.actOnHeader l h).events.latches &&& 0xFC08#16 = s.events.latches &&& 0xFC08#16
    ∧ (s.actOnHeader l h).host = s.host ∧ (s.actOnHeader l h).memory = s.memory ∧ (s.actOnHeader l h).epoch = s.epoch
    ∧ (s.actOnHeader l h).pending = s.pending := by
  unfold State.actOnHeader; (repeat' split) <;> simp +contextual

@[simp] theorem State.enterLocked_frame (s : State) (l : LaneId) :
    (∀ m, ((s.enterLocked l).lane m).entry = (s.lane m).entry)
    ∧ (∀ m, ((s.enterLocked l).lane m).unit = (s.lane m).unit) ∧ (∀ m, m ≠ l → (s.enterLocked l).lane m = s.lane m)
    ∧ (s.enterLocked l).routes = s.routes ∧ (∀ i', (s.enterLocked l).route i' = s.route i')
    ∧ (s.enterLocked l).pool = s.pool ∧ (∀ d', (s.enterLocked l).desc d' = s.desc d')
    ∧ (s.enterLocked l).streams = s.streams ∧ (∀ t', (s.enterLocked l).stream t' = s.stream t')
    ∧ (s.enterLocked l).slots = s.slots ∧ (∀ k', (s.enterLocked l).slot k' = s.slot k')
    ∧ (s.enterLocked l).holdLimit = s.holdLimit ∧ (s.enterLocked l).view = s.view
    ∧ (s.enterLocked l).window = s.window ∧ (s.enterLocked l).port = s.port ∧ (s.enterLocked l).cmd = s.cmd
    ∧ (s.enterLocked l).time = s.time ∧ (s.enterLocked l).now = s.now ∧ (s.enterLocked l).counts = s.counts
    ∧ (∀ l' k', (s.enterLocked l).laneCount l' k' = s.laneCount l' k')
    ∧ (∀ t' k', (s.enterLocked l).streamCount t' k' = s.streamCount t' k')
    ∧ (∀ k', (s.enterLocked l).deviceCount k' = s.deviceCount k')
    ∧ (s.enterLocked l).events.enables = s.events.enables ∧ (s.enterLocked l).events.watermarks = s.events.watermarks
    ∧ (s.enterLocked l).events.watermarkEnables = s.events.watermarkEnables
    ∧ (s.enterLocked l).events.readyEnables = s.events.readyEnables
    ∧ (s.enterLocked l).events.latches &&& 0xFC08#16 = s.events.latches &&& 0xFC08#16
    ∧ (s.enterLocked l).host = s.host ∧ (s.enterLocked l).memory = s.memory ∧ (s.enterLocked l).epoch = s.epoch
    ∧ (s.enterLocked l).pending = s.pending := by
  simp +contextual [State.enterLocked]

@[simp] theorem State.confirmHeader_frame (s : State) (l : LaneId) (h : Header) :
    (∀ m, ((s.confirmHeader l h).lane m).entry = (s.lane m).entry)
    ∧ (∀ m, m ≠ l → (s.confirmHeader l h).lane m = s.lane m) ∧ (s.confirmHeader l h).routes = s.routes
    ∧ (∀ i', (s.confirmHeader l h).route i' = s.route i') ∧ (s.confirmHeader l h).pool.ready = s.pool.ready
    ∧ (s.confirmHeader l h).pool.buildStart = s.pool.buildStart
    ∧ (s.confirmHeader l h).pool.lowThreshold = s.pool.lowThreshold
    ∧ (∀ t', ((s.confirmHeader l h).stream t').entry = (s.stream t').entry)
    ∧ (∀ t', ((s.confirmHeader l h).stream t').heldCount = (s.stream t').heldCount)
    ∧ (∀ t', ((s.confirmHeader l h).stream t').examine = (s.stream t').examine)
    ∧ (∀ t', ((s.confirmHeader l h).stream t').expired = (s.stream t').expired)
    ∧ (s.confirmHeader l h).slots = s.slots ∧ (∀ k', (s.confirmHeader l h).slot k' = s.slot k')
    ∧ (s.confirmHeader l h).holdLimit = s.holdLimit ∧ (s.confirmHeader l h).view = s.view
    ∧ (s.confirmHeader l h).window = s.window ∧ (s.confirmHeader l h).port = s.port
    ∧ (s.confirmHeader l h).cmd.code = s.cmd.code ∧ (s.confirmHeader l h).cmd.arg = s.cmd.arg
    ∧ (s.confirmHeader l h).cmd.argReg = s.cmd.argReg ∧ (s.confirmHeader l h).cmd.collision = s.cmd.collision
    ∧ (s.confirmHeader l h).cmd.image = s.cmd.image ∧ (s.confirmHeader l h).cmd.taken = s.cmd.taken
    ∧ (s.confirmHeader l h).cmd.capture = s.cmd.capture ∧ (s.confirmHeader l h).time = s.time
    ∧ (s.confirmHeader l h).now = s.now ∧ (s.confirmHeader l h).counts.completions = s.counts.completions
    ∧ (s.confirmHeader l h).events.enables = s.events.enables
    ∧ (s.confirmHeader l h).events.watermarkEnables = s.events.watermarkEnables
    ∧ (s.confirmHeader l h).events.readyEnables = s.events.readyEnables
    ∧ (s.confirmHeader l h).events.latches &&& 0xFC08#16 = s.events.latches &&& 0xFC08#16
    ∧ (s.confirmHeader l h).host = s.host ∧ (s.confirmHeader l h).memory = s.memory
    ∧ (s.confirmHeader l h).epoch = s.epoch ∧ (s.confirmHeader l h).pending = s.pending := by
  unfold State.confirmHeader; dsimp only; (repeat' split) <;> simp +contextual

@[simp] theorem State.provisionalEdge_frame (s : State) (l : LaneId) (bit : Bool) :
    (∀ m, ((s.provisionalEdge l bit).lane m).entry = (s.lane m).entry)
    ∧ (∀ m, m ≠ l → (s.provisionalEdge l bit).lane m = s.lane m) ∧ (s.provisionalEdge l bit).routes = s.routes
    ∧ (∀ i', (s.provisionalEdge l bit).route i' = s.route i') ∧ (s.provisionalEdge l bit).pool.ready = s.pool.ready
    ∧ (s.provisionalEdge l bit).pool.buildStart = s.pool.buildStart
    ∧ (s.provisionalEdge l bit).pool.lowThreshold = s.pool.lowThreshold
    ∧ (∀ t', ((s.provisionalEdge l bit).stream t').entry = (s.stream t').entry)
    ∧ (∀ t', ((s.provisionalEdge l bit).stream t').heldCount = (s.stream t').heldCount)
    ∧ (∀ t', ((s.provisionalEdge l bit).stream t').examine = (s.stream t').examine)
    ∧ (∀ t', ((s.provisionalEdge l bit).stream t').expired = (s.stream t').expired)
    ∧ (s.provisionalEdge l bit).slots = s.slots ∧ (∀ k', (s.provisionalEdge l bit).slot k' = s.slot k')
    ∧ (s.provisionalEdge l bit).holdLimit = s.holdLimit ∧ (s.provisionalEdge l bit).view = s.view
    ∧ (s.provisionalEdge l bit).window = s.window ∧ (s.provisionalEdge l bit).port = s.port
    ∧ (s.provisionalEdge l bit).cmd.code = s.cmd.code ∧ (s.provisionalEdge l bit).cmd.arg = s.cmd.arg
    ∧ (s.provisionalEdge l bit).cmd.argReg = s.cmd.argReg ∧ (s.provisionalEdge l bit).cmd.collision = s.cmd.collision
    ∧ (s.provisionalEdge l bit).cmd.image = s.cmd.image ∧ (s.provisionalEdge l bit).cmd.taken = s.cmd.taken
    ∧ (s.provisionalEdge l bit).cmd.capture = s.cmd.capture ∧ (s.provisionalEdge l bit).time = s.time
    ∧ (s.provisionalEdge l bit).now = s.now ∧ (s.provisionalEdge l bit).counts.completions = s.counts.completions
    ∧ (s.provisionalEdge l bit).events.enables = s.events.enables
    ∧ (s.provisionalEdge l bit).events.watermarkEnables = s.events.watermarkEnables
    ∧ (s.provisionalEdge l bit).events.readyEnables = s.events.readyEnables
    ∧ (s.provisionalEdge l bit).events.latches &&& 0xFC08#16 = s.events.latches &&& 0xFC08#16
    ∧ (s.provisionalEdge l bit).host = s.host ∧ (s.provisionalEdge l bit).memory = s.memory
    ∧ (s.provisionalEdge l bit).epoch = s.epoch ∧ (s.provisionalEdge l bit).pending = s.pending := by
  unfold State.provisionalEdge; dsimp only; (repeat' split) <;> simp +contextual

@[simp] theorem State.missHeader_frame (s : State) (l : LaneId) (h : Header) :
    (∀ m, ((s.missHeader l h).lane m).entry = (s.lane m).entry)
    ∧ (∀ m, ((s.missHeader l h).lane m).unit = (s.lane m).unit) ∧ (∀ m, m ≠ l → (s.missHeader l h).lane m = s.lane m)
    ∧ (s.missHeader l h).routes = s.routes ∧ (∀ i', (s.missHeader l h).route i' = s.route i')
    ∧ (s.missHeader l h).pool = s.pool ∧ (∀ d', (s.missHeader l h).desc d' = s.desc d')
    ∧ (s.missHeader l h).streams = s.streams ∧ (∀ t', (s.missHeader l h).stream t' = s.stream t')
    ∧ (s.missHeader l h).slots = s.slots ∧ (∀ k', (s.missHeader l h).slot k' = s.slot k')
    ∧ (s.missHeader l h).holdLimit = s.holdLimit ∧ (s.missHeader l h).view = s.view
    ∧ (s.missHeader l h).window = s.window ∧ (s.missHeader l h).port = s.port ∧ (s.missHeader l h).cmd = s.cmd
    ∧ (s.missHeader l h).time = s.time ∧ (s.missHeader l h).now = s.now
    ∧ (s.missHeader l h).counts.streams = s.counts.streams ∧ (s.missHeader l h).counts.device = s.counts.device
    ∧ (s.missHeader l h).counts.completions = s.counts.completions
    ∧ (∀ t' k', (s.missHeader l h).streamCount t' k' = s.streamCount t' k')
    ∧ (∀ k', (s.missHeader l h).deviceCount k' = s.deviceCount k')
    ∧ (s.missHeader l h).events.enables = s.events.enables
    ∧ (s.missHeader l h).events.watermarks = s.events.watermarks
    ∧ (s.missHeader l h).events.watermarkEnables = s.events.watermarkEnables
    ∧ (s.missHeader l h).events.readyEnables = s.events.readyEnables
    ∧ (s.missHeader l h).events.latches &&& 0xFC08#16 = s.events.latches &&& 0xFC08#16
    ∧ (s.missHeader l h).host = s.host ∧ (s.missHeader l h).memory = s.memory ∧ (s.missHeader l h).epoch = s.epoch
    ∧ (s.missHeader l h).pending = s.pending := by
  unfold State.missHeader; dsimp only; (repeat' split) <;> simp +contextual

@[simp] theorem State.passBody_frame (s : State) (l : LaneId) :
    (∀ m, ((s.passBody l).lane m).entry = (s.lane m).entry) ∧ (∀ m, ((s.passBody l).lane m).unit = (s.lane m).unit)
    ∧ (∀ m, m ≠ l → (s.passBody l).lane m = s.lane m) ∧ (s.passBody l).routes = s.routes
    ∧ (∀ i', (s.passBody l).route i' = s.route i') ∧ (s.passBody l).pool = s.pool
    ∧ (∀ d', (s.passBody l).desc d' = s.desc d') ∧ (s.passBody l).streams = s.streams
    ∧ (∀ t', (s.passBody l).stream t' = s.stream t') ∧ (s.passBody l).slots = s.slots
    ∧ (∀ k', (s.passBody l).slot k' = s.slot k') ∧ (s.passBody l).holdLimit = s.holdLimit
    ∧ (s.passBody l).view = s.view ∧ (s.passBody l).window = s.window ∧ (s.passBody l).port = s.port
    ∧ (s.passBody l).cmd = s.cmd ∧ (s.passBody l).time = s.time ∧ (s.passBody l).now = s.now
    ∧ (s.passBody l).counts = s.counts ∧ (∀ l' k', (s.passBody l).laneCount l' k' = s.laneCount l' k')
    ∧ (∀ t' k', (s.passBody l).streamCount t' k' = s.streamCount t' k')
    ∧ (∀ k', (s.passBody l).deviceCount k' = s.deviceCount k') ∧ (s.passBody l).events = s.events
    ∧ (∀ e', (s.passBody l).latched e' = s.latched e') ∧ (s.passBody l).host = s.host
    ∧ (s.passBody l).memory = s.memory ∧ (s.passBody l).epoch = s.epoch ∧ (s.passBody l).pending = s.pending := by
  unfold State.passBody; dsimp only; (repeat' split) <;> simp +contextual

@[simp] theorem State.overrun_frame (s : State) (l : LaneId) (d : DescId) :
    (∀ m, ((s.overrun l d).lane m).entry = (s.lane m).entry) ∧ (∀ m, m ≠ l → (s.overrun l d).lane m = s.lane m)
    ∧ (s.overrun l d).routes = s.routes ∧ (∀ i', (s.overrun l d).route i' = s.route i')
    ∧ (s.overrun l d).pool.ready = s.pool.ready ∧ (s.overrun l d).pool.buildStart = s.pool.buildStart
    ∧ (s.overrun l d).pool.lowThreshold = s.pool.lowThreshold
    ∧ (∀ t', ((s.overrun l d).stream t').entry = (s.stream t').entry)
    ∧ (∀ t', ((s.overrun l d).stream t').queue = (s.stream t').queue)
    ∧ (∀ t', ((s.overrun l d).stream t').heldCount = (s.stream t').heldCount)
    ∧ (∀ t', ((s.overrun l d).stream t').examine = (s.stream t').examine)
    ∧ (∀ t', ((s.overrun l d).stream t').expired = (s.stream t').expired) ∧ (s.overrun l d).slots = s.slots
    ∧ (∀ k', (s.overrun l d).slot k' = s.slot k') ∧ (s.overrun l d).holdLimit = s.holdLimit
    ∧ (s.overrun l d).view = s.view ∧ (s.overrun l d).window = s.window ∧ (s.overrun l d).port = s.port
    ∧ (s.overrun l d).cmd = s.cmd ∧ (s.overrun l d).time = s.time ∧ (s.overrun l d).now = s.now
    ∧ (s.overrun l d).counts.streams = s.counts.streams ∧ (s.overrun l d).counts.device = s.counts.device
    ∧ (s.overrun l d).counts.completions = s.counts.completions
    ∧ (∀ t' k', (s.overrun l d).streamCount t' k' = s.streamCount t' k')
    ∧ (∀ k', (s.overrun l d).deviceCount k' = s.deviceCount k') ∧ (s.overrun l d).events.enables = s.events.enables
    ∧ (s.overrun l d).events.watermarks = s.events.watermarks
    ∧ (s.overrun l d).events.watermarkEnables = s.events.watermarkEnables
    ∧ (s.overrun l d).events.readyEnables = s.events.readyEnables
    ∧ (s.overrun l d).events.latches &&& 0xFC08#16 = s.events.latches &&& 0xFC08#16 ∧ (s.overrun l d).host = s.host
    ∧ (s.overrun l d).memory = s.memory ∧ (s.overrun l d).epoch = s.epoch ∧ (s.overrun l d).pending = s.pending := by
  simp +contextual [State.overrun]

@[simp] theorem State.bodyByte_frame (s : State) (l : LaneId) (b : Byte) :
    (∀ m, ((s.bodyByte l b).lane m).entry = (s.lane m).entry) ∧ (∀ m, m ≠ l → (s.bodyByte l b).lane m = s.lane m)
    ∧ (s.bodyByte l b).routes = s.routes ∧ (∀ i', (s.bodyByte l b).route i' = s.route i')
    ∧ (s.bodyByte l b).pool.ready = s.pool.ready ∧ (s.bodyByte l b).pool.buildStart = s.pool.buildStart
    ∧ (s.bodyByte l b).pool.lowThreshold = s.pool.lowThreshold
    ∧ (∀ t', ((s.bodyByte l b).stream t').entry = (s.stream t').entry)
    ∧ (∀ t', ((s.bodyByte l b).stream t').queue = (s.stream t').queue)
    ∧ (∀ t', ((s.bodyByte l b).stream t').heldCount = (s.stream t').heldCount)
    ∧ (∀ t', ((s.bodyByte l b).stream t').examine = (s.stream t').examine)
    ∧ (∀ t', ((s.bodyByte l b).stream t').expired = (s.stream t').expired) ∧ (s.bodyByte l b).slots = s.slots
    ∧ (∀ k', (s.bodyByte l b).slot k' = s.slot k') ∧ (s.bodyByte l b).holdLimit = s.holdLimit
    ∧ (s.bodyByte l b).view = s.view ∧ (s.bodyByte l b).window = s.window ∧ (s.bodyByte l b).port = s.port
    ∧ (s.bodyByte l b).cmd = s.cmd ∧ (s.bodyByte l b).time = s.time ∧ (s.bodyByte l b).now = s.now
    ∧ (s.bodyByte l b).counts.streams = s.counts.streams ∧ (s.bodyByte l b).counts.device = s.counts.device
    ∧ (s.bodyByte l b).counts.completions = s.counts.completions
    ∧ (∀ t' k', (s.bodyByte l b).streamCount t' k' = s.streamCount t' k')
    ∧ (∀ k', (s.bodyByte l b).deviceCount k' = s.deviceCount k') ∧ (s.bodyByte l b).events.enables = s.events.enables
    ∧ (s.bodyByte l b).events.watermarks = s.events.watermarks
    ∧ (s.bodyByte l b).events.watermarkEnables = s.events.watermarkEnables
    ∧ (s.bodyByte l b).events.readyEnables = s.events.readyEnables
    ∧ (s.bodyByte l b).events.latches &&& 0xFC08#16 = s.events.latches &&& 0xFC08#16 ∧ (s.bodyByte l b).host = s.host
    ∧ (s.bodyByte l b).memory = s.memory ∧ (s.bodyByte l b).epoch = s.epoch ∧ (s.bodyByte l b).pending = s.pending := by
  unfold State.bodyByte; (repeat' split) <;> simp +contextual

@[simp] theorem State.trailerByte_frame (s : State) (l : LaneId) (b : Byte) :
    (∀ m, ((s.trailerByte l b).lane m).entry = (s.lane m).entry)
    ∧ (∀ m, m ≠ l → (s.trailerByte l b).lane m = s.lane m) ∧ (s.trailerByte l b).pool.ready = s.pool.ready
    ∧ (s.trailerByte l b).pool.buildStart = s.pool.buildStart
    ∧ (s.trailerByte l b).pool.lowThreshold = s.pool.lowThreshold
    ∧ (∀ t', ((s.trailerByte l b).stream t').entry = (s.stream t').entry)
    ∧ (∀ t', ((s.trailerByte l b).stream t').heldCount = (s.stream t').heldCount)
    ∧ (∀ t', ((s.trailerByte l b).stream t').examine = (s.stream t').examine) ∧ (s.trailerByte l b).slots = s.slots
    ∧ (∀ k', (s.trailerByte l b).slot k' = s.slot k') ∧ (s.trailerByte l b).holdLimit = s.holdLimit
    ∧ (s.trailerByte l b).view = s.view ∧ (s.trailerByte l b).window = s.window ∧ (s.trailerByte l b).port = s.port
    ∧ (s.trailerByte l b).cmd.code = s.cmd.code ∧ (s.trailerByte l b).cmd.arg = s.cmd.arg
    ∧ (s.trailerByte l b).cmd.argReg = s.cmd.argReg ∧ (s.trailerByte l b).cmd.collision = s.cmd.collision
    ∧ (s.trailerByte l b).cmd.image = s.cmd.image ∧ (s.trailerByte l b).cmd.taken = s.cmd.taken
    ∧ (s.trailerByte l b).cmd.capture = s.cmd.capture ∧ (s.trailerByte l b).time = s.time
    ∧ (s.trailerByte l b).now = s.now ∧ (s.trailerByte l b).counts.device = s.counts.device
    ∧ (∀ k', (s.trailerByte l b).deviceCount k' = s.deviceCount k')
    ∧ (s.trailerByte l b).events.enables = s.events.enables
    ∧ (s.trailerByte l b).events.watermarks = s.events.watermarks
    ∧ (s.trailerByte l b).events.watermarkEnables = s.events.watermarkEnables
    ∧ (s.trailerByte l b).events.readyEnables = s.events.readyEnables
    ∧ (s.trailerByte l b).events.latches &&& 0xFC08#16 = s.events.latches &&& 0xFC08#16
    ∧ (s.trailerByte l b).host = s.host ∧ (s.trailerByte l b).memory = s.memory ∧ (s.trailerByte l b).epoch = s.epoch
    ∧ (s.trailerByte l b).pending = s.pending := by
  unfold State.trailerByte; dsimp only; (repeat' split) <;> simp +contextual

@[simp] theorem State.skipByte_frame (s : State) (l : LaneId) :
    (∀ m, ((s.skipByte l).lane m).entry = (s.lane m).entry) ∧ (∀ m, ((s.skipByte l).lane m).unit = (s.lane m).unit)
    ∧ (∀ m, m ≠ l → (s.skipByte l).lane m = s.lane m) ∧ (s.skipByte l).routes = s.routes
    ∧ (∀ i', (s.skipByte l).route i' = s.route i') ∧ (s.skipByte l).pool = s.pool
    ∧ (∀ d', (s.skipByte l).desc d' = s.desc d') ∧ (s.skipByte l).streams = s.streams
    ∧ (∀ t', (s.skipByte l).stream t' = s.stream t') ∧ (s.skipByte l).slots = s.slots
    ∧ (∀ k', (s.skipByte l).slot k' = s.slot k') ∧ (s.skipByte l).holdLimit = s.holdLimit
    ∧ (s.skipByte l).view = s.view ∧ (s.skipByte l).window = s.window ∧ (s.skipByte l).port = s.port
    ∧ (s.skipByte l).cmd = s.cmd ∧ (s.skipByte l).time = s.time ∧ (s.skipByte l).now = s.now
    ∧ (s.skipByte l).counts = s.counts ∧ (∀ l' k', (s.skipByte l).laneCount l' k' = s.laneCount l' k')
    ∧ (∀ t' k', (s.skipByte l).streamCount t' k' = s.streamCount t' k')
    ∧ (∀ k', (s.skipByte l).deviceCount k' = s.deviceCount k') ∧ (s.skipByte l).events = s.events
    ∧ (∀ e', (s.skipByte l).latched e' = s.latched e') ∧ (s.skipByte l).host = s.host
    ∧ (s.skipByte l).memory = s.memory ∧ (s.skipByte l).epoch = s.epoch ∧ (s.skipByte l).pending = s.pending := by
  unfold State.skipByte; dsimp only; (repeat' split) <;> simp +contextual

@[simp] theorem State.lockedHeader_frame (s : State) (l : LaneId) (h : Header) :
    (∀ m, ((s.lockedHeader l h).lane m).entry = (s.lane m).entry)
    ∧ (∀ m, m ≠ l → (s.lockedHeader l h).lane m = s.lane m) ∧ (s.lockedHeader l h).routes = s.routes
    ∧ (∀ i', (s.lockedHeader l h).route i' = s.route i') ∧ (s.lockedHeader l h).pool.ready = s.pool.ready
    ∧ (s.lockedHeader l h).pool.buildStart = s.pool.buildStart
    ∧ (s.lockedHeader l h).pool.lowThreshold = s.pool.lowThreshold
    ∧ (∀ t', ((s.lockedHeader l h).stream t').entry = (s.stream t').entry)
    ∧ (∀ t', ((s.lockedHeader l h).stream t').heldCount = (s.stream t').heldCount)
    ∧ (∀ t', ((s.lockedHeader l h).stream t').examine = (s.stream t').examine)
    ∧ (∀ t', ((s.lockedHeader l h).stream t').expired = (s.stream t').expired) ∧ (s.lockedHeader l h).slots = s.slots
    ∧ (∀ k', (s.lockedHeader l h).slot k' = s.slot k') ∧ (s.lockedHeader l h).holdLimit = s.holdLimit
    ∧ (s.lockedHeader l h).view = s.view ∧ (s.lockedHeader l h).window = s.window ∧ (s.lockedHeader l h).port = s.port
    ∧ (s.lockedHeader l h).cmd.code = s.cmd.code ∧ (s.lockedHeader l h).cmd.arg = s.cmd.arg
    ∧ (s.lockedHeader l h).cmd.argReg = s.cmd.argReg ∧ (s.lockedHeader l h).cmd.collision = s.cmd.collision
    ∧ (s.lockedHeader l h).cmd.image = s.cmd.image ∧ (s.lockedHeader l h).cmd.taken = s.cmd.taken
    ∧ (s.lockedHeader l h).cmd.capture = s.cmd.capture ∧ (s.lockedHeader l h).time = s.time
    ∧ (s.lockedHeader l h).now = s.now ∧ (s.lockedHeader l h).counts.completions = s.counts.completions
    ∧ (s.lockedHeader l h).events.enables = s.events.enables
    ∧ (s.lockedHeader l h).events.watermarkEnables = s.events.watermarkEnables
    ∧ (s.lockedHeader l h).events.readyEnables = s.events.readyEnables
    ∧ (s.lockedHeader l h).events.latches &&& 0xFC08#16 = s.events.latches &&& 0xFC08#16
    ∧ (s.lockedHeader l h).host = s.host ∧ (s.lockedHeader l h).memory = s.memory
    ∧ (s.lockedHeader l h).epoch = s.epoch ∧ (s.lockedHeader l h).pending = s.pending := by
  unfold State.lockedHeader; (repeat' split) <;> simp +contextual

@[simp] theorem State.lockedByte_frame (s : State) (l : LaneId) (b : Byte) :
    (∀ m, ((s.lockedByte l b).lane m).entry = (s.lane m).entry) ∧ (∀ m, m ≠ l → (s.lockedByte l b).lane m = s.lane m)
    ∧ (s.lockedByte l b).pool.ready = s.pool.ready ∧ (s.lockedByte l b).pool.buildStart = s.pool.buildStart
    ∧ (s.lockedByte l b).pool.lowThreshold = s.pool.lowThreshold
    ∧ (∀ t', ((s.lockedByte l b).stream t').entry = (s.stream t').entry)
    ∧ (∀ t', ((s.lockedByte l b).stream t').heldCount = (s.stream t').heldCount)
    ∧ (∀ t', ((s.lockedByte l b).stream t').examine = (s.stream t').examine) ∧ (s.lockedByte l b).slots = s.slots
    ∧ (∀ k', (s.lockedByte l b).slot k' = s.slot k') ∧ (s.lockedByte l b).holdLimit = s.holdLimit
    ∧ (s.lockedByte l b).view = s.view ∧ (s.lockedByte l b).window = s.window ∧ (s.lockedByte l b).port = s.port
    ∧ (s.lockedByte l b).cmd.code = s.cmd.code ∧ (s.lockedByte l b).cmd.arg = s.cmd.arg
    ∧ (s.lockedByte l b).cmd.argReg = s.cmd.argReg ∧ (s.lockedByte l b).cmd.collision = s.cmd.collision
    ∧ (s.lockedByte l b).cmd.image = s.cmd.image ∧ (s.lockedByte l b).cmd.taken = s.cmd.taken
    ∧ (s.lockedByte l b).cmd.capture = s.cmd.capture ∧ (s.lockedByte l b).time = s.time
    ∧ (s.lockedByte l b).now = s.now ∧ (s.lockedByte l b).counts.device = s.counts.device
    ∧ (∀ k', (s.lockedByte l b).deviceCount k' = s.deviceCount k')
    ∧ (s.lockedByte l b).events.enables = s.events.enables
    ∧ (s.lockedByte l b).events.watermarks = s.events.watermarks
    ∧ (s.lockedByte l b).events.watermarkEnables = s.events.watermarkEnables
    ∧ (s.lockedByte l b).events.readyEnables = s.events.readyEnables
    ∧ (s.lockedByte l b).events.latches &&& 0xFC08#16 = s.events.latches &&& 0xFC08#16
    ∧ (s.lockedByte l b).host = s.host ∧ (s.lockedByte l b).memory = s.memory ∧ (s.lockedByte l b).epoch = s.epoch
    ∧ (s.lockedByte l b).pending = s.pending := by
  unfold State.lockedByte; (repeat' split) <;> simp +contextual

@[simp] theorem State.lockedEdge_frame (s : State) (l : LaneId) (bit : Bool) :
    (∀ m, ((s.lockedEdge l bit).lane m).entry = (s.lane m).entry)
    ∧ (∀ m, m ≠ l → (s.lockedEdge l bit).lane m = s.lane m) ∧ (s.lockedEdge l bit).pool.ready = s.pool.ready
    ∧ (s.lockedEdge l bit).pool.buildStart = s.pool.buildStart
    ∧ (s.lockedEdge l bit).pool.lowThreshold = s.pool.lowThreshold
    ∧ (∀ t', ((s.lockedEdge l bit).stream t').entry = (s.stream t').entry)
    ∧ (∀ t', ((s.lockedEdge l bit).stream t').heldCount = (s.stream t').heldCount)
    ∧ (∀ t', ((s.lockedEdge l bit).stream t').examine = (s.stream t').examine) ∧ (s.lockedEdge l bit).slots = s.slots
    ∧ (∀ k', (s.lockedEdge l bit).slot k' = s.slot k') ∧ (s.lockedEdge l bit).holdLimit = s.holdLimit
    ∧ (s.lockedEdge l bit).view = s.view ∧ (s.lockedEdge l bit).window = s.window ∧ (s.lockedEdge l bit).port = s.port
    ∧ (s.lockedEdge l bit).cmd.code = s.cmd.code ∧ (s.lockedEdge l bit).cmd.arg = s.cmd.arg
    ∧ (s.lockedEdge l bit).cmd.argReg = s.cmd.argReg ∧ (s.lockedEdge l bit).cmd.collision = s.cmd.collision
    ∧ (s.lockedEdge l bit).cmd.image = s.cmd.image ∧ (s.lockedEdge l bit).cmd.taken = s.cmd.taken
    ∧ (s.lockedEdge l bit).cmd.capture = s.cmd.capture ∧ (s.lockedEdge l bit).time = s.time
    ∧ (s.lockedEdge l bit).now = s.now ∧ (s.lockedEdge l bit).events.enables = s.events.enables
    ∧ (s.lockedEdge l bit).events.watermarkEnables = s.events.watermarkEnables
    ∧ (s.lockedEdge l bit).events.readyEnables = s.events.readyEnables
    ∧ (s.lockedEdge l bit).events.latches &&& 0xFC08#16 = s.events.latches &&& 0xFC08#16
    ∧ (s.lockedEdge l bit).host = s.host ∧ (s.lockedEdge l bit).memory = s.memory
    ∧ (s.lockedEdge l bit).epoch = s.epoch ∧ (s.lockedEdge l bit).pending = s.pending := by
  unfold State.lockedEdge; dsimp only; (repeat' split) <;> simp +contextual

@[simp] theorem State.takeEdge_frame (s : State) (l : LaneId) (bit : Bool) :
    (∀ m, ((s.takeEdge l bit).lane m).entry = (s.lane m).entry)
    ∧ (∀ m, m ≠ l → (s.takeEdge l bit).lane m = s.lane m) ∧ (s.takeEdge l bit).pool.ready = s.pool.ready
    ∧ (s.takeEdge l bit).pool.buildStart = s.pool.buildStart
    ∧ (s.takeEdge l bit).pool.lowThreshold = s.pool.lowThreshold
    ∧ (∀ t', ((s.takeEdge l bit).stream t').entry = (s.stream t').entry)
    ∧ (∀ t', ((s.takeEdge l bit).stream t').heldCount = (s.stream t').heldCount)
    ∧ (∀ t', ((s.takeEdge l bit).stream t').examine = (s.stream t').examine) ∧ (s.takeEdge l bit).slots = s.slots
    ∧ (∀ k', (s.takeEdge l bit).slot k' = s.slot k') ∧ (s.takeEdge l bit).holdLimit = s.holdLimit
    ∧ (s.takeEdge l bit).view = s.view ∧ (s.takeEdge l bit).window = s.window ∧ (s.takeEdge l bit).port = s.port
    ∧ (s.takeEdge l bit).cmd.code = s.cmd.code ∧ (s.takeEdge l bit).cmd.arg = s.cmd.arg
    ∧ (s.takeEdge l bit).cmd.argReg = s.cmd.argReg ∧ (s.takeEdge l bit).cmd.collision = s.cmd.collision
    ∧ (s.takeEdge l bit).cmd.image = s.cmd.image ∧ (s.takeEdge l bit).cmd.taken = s.cmd.taken
    ∧ (s.takeEdge l bit).cmd.capture = s.cmd.capture ∧ (s.takeEdge l bit).time = s.time
    ∧ (s.takeEdge l bit).now = s.now ∧ (s.takeEdge l bit).events.enables = s.events.enables
    ∧ (s.takeEdge l bit).events.watermarkEnables = s.events.watermarkEnables
    ∧ (s.takeEdge l bit).events.readyEnables = s.events.readyEnables
    ∧ (s.takeEdge l bit).events.latches &&& 0xFC08#16 = s.events.latches &&& 0xFC08#16
    ∧ (s.takeEdge l bit).host = s.host ∧ (s.takeEdge l bit).memory = s.memory ∧ (s.takeEdge l bit).epoch = s.epoch
    ∧ (s.takeEdge l bit).pending = s.pending := by
  unfold State.takeEdge; (repeat' split) <;> simp +contextual

@[simp] theorem State.cutReceiving_frame (s : State) (l : LaneId) :
    (∀ m, ((s.cutReceiving l).lane m).entry = (s.lane m).entry)
    ∧ (∀ m, ((s.cutReceiving l).lane m).rx = (s.lane m).rx) ∧ (∀ m, m ≠ l → (s.cutReceiving l).lane m = s.lane m)
    ∧ (s.cutReceiving l).routes = s.routes ∧ (∀ i', (s.cutReceiving l).route i' = s.route i')
    ∧ (s.cutReceiving l).pool.ready = s.pool.ready ∧ (s.cutReceiving l).pool.buildStart = s.pool.buildStart
    ∧ (s.cutReceiving l).pool.lowThreshold = s.pool.lowThreshold
    ∧ (∀ t', ((s.cutReceiving l).stream t').entry = (s.stream t').entry)
    ∧ (∀ t', ((s.cutReceiving l).stream t').queue = (s.stream t').queue)
    ∧ (∀ t', ((s.cutReceiving l).stream t').heldCount = (s.stream t').heldCount)
    ∧ (∀ t', ((s.cutReceiving l).stream t').examine = (s.stream t').examine)
    ∧ (∀ t', ((s.cutReceiving l).stream t').expired = (s.stream t').expired) ∧ (s.cutReceiving l).slots = s.slots
    ∧ (∀ k', (s.cutReceiving l).slot k' = s.slot k') ∧ (s.cutReceiving l).holdLimit = s.holdLimit
    ∧ (s.cutReceiving l).view = s.view ∧ (s.cutReceiving l).window = s.window ∧ (s.cutReceiving l).port = s.port
    ∧ (s.cutReceiving l).cmd = s.cmd ∧ (s.cutReceiving l).time = s.time ∧ (s.cutReceiving l).now = s.now
    ∧ (s.cutReceiving l).counts.streams = s.counts.streams ∧ (s.cutReceiving l).counts.device = s.counts.device
    ∧ (s.cutReceiving l).counts.completions = s.counts.completions
    ∧ (∀ t' k', (s.cutReceiving l).streamCount t' k' = s.streamCount t' k')
    ∧ (∀ k', (s.cutReceiving l).deviceCount k' = s.deviceCount k')
    ∧ (s.cutReceiving l).events.enables = s.events.enables
    ∧ (s.cutReceiving l).events.watermarks = s.events.watermarks
    ∧ (s.cutReceiving l).events.watermarkEnables = s.events.watermarkEnables
    ∧ (s.cutReceiving l).events.readyEnables = s.events.readyEnables
    ∧ (s.cutReceiving l).events.latches &&& 0xFC08#16 = s.events.latches &&& 0xFC08#16
    ∧ (s.cutReceiving l).host = s.host ∧ (s.cutReceiving l).memory = s.memory ∧ (s.cutReceiving l).epoch = s.epoch
    ∧ (s.cutReceiving l).pending = s.pending := by
  unfold State.cutReceiving; dsimp only; (repeat' split) <;> simp +contextual

@[simp] theorem State.noteSyncLoss_frame (s : State) (l : LaneId) :
    (s.noteSyncLoss l).lanes = s.lanes ∧ (∀ m, (s.noteSyncLoss l).lane m = s.lane m)
    ∧ (s.noteSyncLoss l).routes = s.routes ∧ (∀ i', (s.noteSyncLoss l).route i' = s.route i')
    ∧ (s.noteSyncLoss l).pool = s.pool ∧ (∀ d', (s.noteSyncLoss l).desc d' = s.desc d')
    ∧ (s.noteSyncLoss l).streams = s.streams ∧ (∀ t', (s.noteSyncLoss l).stream t' = s.stream t')
    ∧ (s.noteSyncLoss l).slots = s.slots ∧ (∀ k', (s.noteSyncLoss l).slot k' = s.slot k')
    ∧ (s.noteSyncLoss l).holdLimit = s.holdLimit ∧ (s.noteSyncLoss l).view = s.view
    ∧ (s.noteSyncLoss l).window = s.window ∧ (s.noteSyncLoss l).port = s.port ∧ (s.noteSyncLoss l).cmd = s.cmd
    ∧ (s.noteSyncLoss l).time = s.time ∧ (s.noteSyncLoss l).now = s.now
    ∧ (s.noteSyncLoss l).counts.streams = s.counts.streams ∧ (s.noteSyncLoss l).counts.device = s.counts.device
    ∧ (s.noteSyncLoss l).counts.completions = s.counts.completions
    ∧ (∀ t' k', (s.noteSyncLoss l).streamCount t' k' = s.streamCount t' k')
    ∧ (∀ k', (s.noteSyncLoss l).deviceCount k' = s.deviceCount k')
    ∧ (s.noteSyncLoss l).events.enables = s.events.enables
    ∧ (s.noteSyncLoss l).events.watermarks = s.events.watermarks
    ∧ (s.noteSyncLoss l).events.watermarkEnables = s.events.watermarkEnables
    ∧ (s.noteSyncLoss l).events.readyEnables = s.events.readyEnables
    ∧ (s.noteSyncLoss l).events.latches &&& 0xFC08#16 = s.events.latches &&& 0xFC08#16
    ∧ (s.noteSyncLoss l).host = s.host ∧ (s.noteSyncLoss l).memory = s.memory ∧ (s.noteSyncLoss l).epoch = s.epoch
    ∧ (s.noteSyncLoss l).pending = s.pending := by
  unfold State.noteSyncLoss; (repeat' split) <;> simp +contextual

@[simp] theorem State.fallSilent_frame (s : State) (l : LaneId) :
    (∀ m, ((s.fallSilent l).lane m).entry = (s.lane m).entry) ∧ (∀ m, m ≠ l → (s.fallSilent l).lane m = s.lane m)
    ∧ (s.fallSilent l).routes = s.routes ∧ (∀ i', (s.fallSilent l).route i' = s.route i')
    ∧ (s.fallSilent l).pool.ready = s.pool.ready ∧ (s.fallSilent l).pool.buildStart = s.pool.buildStart
    ∧ (s.fallSilent l).pool.lowThreshold = s.pool.lowThreshold
    ∧ (∀ t', ((s.fallSilent l).stream t').entry = (s.stream t').entry)
    ∧ (∀ t', ((s.fallSilent l).stream t').queue = (s.stream t').queue)
    ∧ (∀ t', ((s.fallSilent l).stream t').heldCount = (s.stream t').heldCount)
    ∧ (∀ t', ((s.fallSilent l).stream t').examine = (s.stream t').examine)
    ∧ (∀ t', ((s.fallSilent l).stream t').expired = (s.stream t').expired) ∧ (s.fallSilent l).slots = s.slots
    ∧ (∀ k', (s.fallSilent l).slot k' = s.slot k') ∧ (s.fallSilent l).holdLimit = s.holdLimit
    ∧ (s.fallSilent l).view = s.view ∧ (s.fallSilent l).window = s.window ∧ (s.fallSilent l).port = s.port
    ∧ (s.fallSilent l).cmd = s.cmd ∧ (s.fallSilent l).time = s.time ∧ (s.fallSilent l).now = s.now
    ∧ (s.fallSilent l).counts.streams = s.counts.streams ∧ (s.fallSilent l).counts.device = s.counts.device
    ∧ (s.fallSilent l).counts.completions = s.counts.completions
    ∧ (∀ t' k', (s.fallSilent l).streamCount t' k' = s.streamCount t' k')
    ∧ (∀ k', (s.fallSilent l).deviceCount k' = s.deviceCount k') ∧ (s.fallSilent l).events.enables = s.events.enables
    ∧ (s.fallSilent l).events.watermarks = s.events.watermarks
    ∧ (s.fallSilent l).events.watermarkEnables = s.events.watermarkEnables
    ∧ (s.fallSilent l).events.readyEnables = s.events.readyEnables
    ∧ (s.fallSilent l).events.latches &&& 0xFC08#16 = s.events.latches &&& 0xFC08#16 ∧ (s.fallSilent l).host = s.host
    ∧ (s.fallSilent l).memory = s.memory ∧ (s.fallSilent l).epoch = s.epoch ∧ (s.fallSilent l).pending = s.pending := by
  simp +contextual [State.fallSilent]

@[simp] theorem State.silenceStep_frame (s : State) (l : LaneId) :
    (∀ m, ((s.silenceStep l).lane m).entry = (s.lane m).entry) ∧ (∀ m, m ≠ l → (s.silenceStep l).lane m = s.lane m)
    ∧ (s.silenceStep l).routes = s.routes ∧ (∀ i', (s.silenceStep l).route i' = s.route i')
    ∧ (s.silenceStep l).pool.ready = s.pool.ready ∧ (s.silenceStep l).pool.buildStart = s.pool.buildStart
    ∧ (s.silenceStep l).pool.lowThreshold = s.pool.lowThreshold
    ∧ (∀ t', ((s.silenceStep l).stream t').entry = (s.stream t').entry)
    ∧ (∀ t', ((s.silenceStep l).stream t').queue = (s.stream t').queue)
    ∧ (∀ t', ((s.silenceStep l).stream t').heldCount = (s.stream t').heldCount)
    ∧ (∀ t', ((s.silenceStep l).stream t').examine = (s.stream t').examine)
    ∧ (∀ t', ((s.silenceStep l).stream t').expired = (s.stream t').expired) ∧ (s.silenceStep l).slots = s.slots
    ∧ (∀ k', (s.silenceStep l).slot k' = s.slot k') ∧ (s.silenceStep l).holdLimit = s.holdLimit
    ∧ (s.silenceStep l).view = s.view ∧ (s.silenceStep l).window = s.window ∧ (s.silenceStep l).port = s.port
    ∧ (s.silenceStep l).cmd = s.cmd ∧ (s.silenceStep l).time = s.time ∧ (s.silenceStep l).now = s.now
    ∧ (s.silenceStep l).counts.streams = s.counts.streams ∧ (s.silenceStep l).counts.device = s.counts.device
    ∧ (s.silenceStep l).counts.completions = s.counts.completions
    ∧ (∀ t' k', (s.silenceStep l).streamCount t' k' = s.streamCount t' k')
    ∧ (∀ k', (s.silenceStep l).deviceCount k' = s.deviceCount k') ∧ (s.silenceStep l).events.enables = s.events.enables
    ∧ (s.silenceStep l).events.watermarks = s.events.watermarks
    ∧ (s.silenceStep l).events.watermarkEnables = s.events.watermarkEnables
    ∧ (s.silenceStep l).events.readyEnables = s.events.readyEnables
    ∧ (s.silenceStep l).events.latches &&& 0xFC08#16 = s.events.latches &&& 0xFC08#16 ∧ (s.silenceStep l).host = s.host
    ∧ (s.silenceStep l).memory = s.memory ∧ (s.silenceStep l).epoch = s.epoch ∧ (s.silenceStep l).pending = s.pending := by
  unfold State.silenceStep; split <;> simp +contextual

@[simp] theorem State.finishSilences_frame (s : State) :
    (∀ m, (s.finishSilences.lane m).entry = (s.lane m).entry)
    ∧ s.finishSilences.routes = s.routes ∧ (∀ i', s.finishSilences.route i' = s.route i')
    ∧ s.finishSilences.pool.ready = s.pool.ready ∧ s.finishSilences.pool.buildStart = s.pool.buildStart
    ∧ s.finishSilences.pool.lowThreshold = s.pool.lowThreshold
    ∧ (∀ t', (s.finishSilences.stream t').entry = (s.stream t').entry)
    ∧ (∀ t', (s.finishSilences.stream t').queue = (s.stream t').queue)
    ∧ (∀ t', (s.finishSilences.stream t').heldCount = (s.stream t').heldCount)
    ∧ (∀ t', (s.finishSilences.stream t').examine = (s.stream t').examine)
    ∧ (∀ t', (s.finishSilences.stream t').expired = (s.stream t').expired) ∧ s.finishSilences.slots = s.slots
    ∧ (∀ k', s.finishSilences.slot k' = s.slot k') ∧ s.finishSilences.holdLimit = s.holdLimit
    ∧ s.finishSilences.view = s.view ∧ s.finishSilences.window = s.window ∧ s.finishSilences.port = s.port
    ∧ s.finishSilences.cmd = s.cmd ∧ s.finishSilences.time = s.time ∧ s.finishSilences.now = s.now
    ∧ s.finishSilences.counts.streams = s.counts.streams ∧ s.finishSilences.counts.device = s.counts.device
    ∧ s.finishSilences.counts.completions = s.counts.completions
    ∧ (∀ t' k', s.finishSilences.streamCount t' k' = s.streamCount t' k')
    ∧ (∀ k', s.finishSilences.deviceCount k' = s.deviceCount k') ∧ s.finishSilences.events.enables = s.events.enables
    ∧ s.finishSilences.events.watermarks = s.events.watermarks
    ∧ s.finishSilences.events.watermarkEnables = s.events.watermarkEnables
    ∧ s.finishSilences.events.readyEnables = s.events.readyEnables
    ∧ s.finishSilences.events.latches &&& 0xFC08#16 = s.events.latches &&& 0xFC08#16 ∧ s.finishSilences.host = s.host
    ∧ s.finishSilences.memory = s.memory ∧ s.finishSilences.epoch = s.epoch ∧ s.finishSilences.pending = s.pending := by
  unfold State.finishSilences; generalize List.finRange 8 = ls; induction ls generalizing s with
  | nil => simp
  | cons l ls ih => simp +contextual [ih]

@[simp] theorem State.clockEdge_frame (s : State) (l : LaneId) (bit : Bool) :
    (∀ m, ((s.clockEdge l bit).lane m).entry = (s.lane m).entry)
    ∧ (∀ m, m ≠ l → (s.clockEdge l bit).lane m = s.lane m) ∧ (s.clockEdge l bit).pool.ready = s.pool.ready
    ∧ (s.clockEdge l bit).pool.buildStart = s.pool.buildStart
    ∧ (s.clockEdge l bit).pool.lowThreshold = s.pool.lowThreshold
    ∧ (∀ t', ((s.clockEdge l bit).stream t').entry = (s.stream t').entry)
    ∧ (∀ t', ((s.clockEdge l bit).stream t').heldCount = (s.stream t').heldCount)
    ∧ (∀ t', ((s.clockEdge l bit).stream t').examine = (s.stream t').examine) ∧ (s.clockEdge l bit).slots = s.slots
    ∧ (∀ k', (s.clockEdge l bit).slot k' = s.slot k') ∧ (s.clockEdge l bit).holdLimit = s.holdLimit
    ∧ (s.clockEdge l bit).view = s.view ∧ (s.clockEdge l bit).window = s.window ∧ (s.clockEdge l bit).port = s.port
    ∧ (s.clockEdge l bit).cmd.code = s.cmd.code ∧ (s.clockEdge l bit).cmd.arg = s.cmd.arg
    ∧ (s.clockEdge l bit).cmd.argReg = s.cmd.argReg ∧ (s.clockEdge l bit).cmd.collision = s.cmd.collision
    ∧ (s.clockEdge l bit).cmd.image = s.cmd.image ∧ (s.clockEdge l bit).cmd.taken = s.cmd.taken
    ∧ (s.clockEdge l bit).cmd.capture = s.cmd.capture ∧ (s.clockEdge l bit).time = s.time
    ∧ (s.clockEdge l bit).now = s.now ∧ (s.clockEdge l bit).events.enables = s.events.enables
    ∧ (s.clockEdge l bit).events.watermarkEnables = s.events.watermarkEnables
    ∧ (s.clockEdge l bit).events.readyEnables = s.events.readyEnables
    ∧ (s.clockEdge l bit).events.latches &&& 0xFC08#16 = s.events.latches &&& 0xFC08#16
    ∧ (s.clockEdge l bit).host = s.host ∧ (s.clockEdge l bit).memory = s.memory ∧ (s.clockEdge l bit).epoch = s.epoch
    ∧ (s.clockEdge l bit).pending = s.pending := by
  unfold State.clockEdge; split <;> simp +contextual

@[simp] theorem State.readBody_frame (s : State) :
    (s.readBody).lanes = s.lanes ∧ (∀ m, (s.readBody).lane m = s.lane m) ∧ (s.readBody).routes = s.routes
    ∧ (∀ i', (s.readBody).route i' = s.route i') ∧ (s.readBody).pool = s.pool
    ∧ (∀ d', (s.readBody).desc d' = s.desc d') ∧ (s.readBody).streams = s.streams
    ∧ (∀ t', (s.readBody).stream t' = s.stream t') ∧ (s.readBody).slots = s.slots
    ∧ (∀ k', (s.readBody).slot k' = s.slot k') ∧ (s.readBody).holdLimit = s.holdLimit ∧ (s.readBody).view = s.view
    ∧ (s.readBody).window.handleReg = s.window.handleReg ∧ (s.readBody).window.pointed = s.window.pointed
    ∧ (s.readBody).window.pastEnd = s.window.pastEnd ∧ (s.readBody).window.buffer = s.window.buffer
    ∧ (s.readBody).port = s.port ∧ (s.readBody).cmd = s.cmd ∧ (s.readBody).time = s.time ∧ (s.readBody).now = s.now
    ∧ (s.readBody).counts = s.counts ∧ (∀ l' k', (s.readBody).laneCount l' k' = s.laneCount l' k')
    ∧ (∀ t' k', (s.readBody).streamCount t' k' = s.streamCount t' k')
    ∧ (∀ k', (s.readBody).deviceCount k' = s.deviceCount k') ∧ (s.readBody).events = s.events
    ∧ (∀ e', (s.readBody).latched e' = s.latched e') ∧ (s.readBody).host.resetHigh = s.host.resetHigh
    ∧ (s.readBody).memory = s.memory ∧ (s.readBody).epoch = s.epoch ∧ (s.readBody).pending = s.pending := by
  and_intros <;> intros <;> rfl

@[simp] theorem State.readPastEnd_frame (s : State) :
    (s.readPastEnd).lanes = s.lanes ∧ (∀ m, (s.readPastEnd).lane m = s.lane m) ∧ (s.readPastEnd).routes = s.routes
    ∧ (∀ i', (s.readPastEnd).route i' = s.route i') ∧ (s.readPastEnd).pool = s.pool
    ∧ (∀ d', (s.readPastEnd).desc d' = s.desc d') ∧ (s.readPastEnd).streams = s.streams
    ∧ (∀ t', (s.readPastEnd).stream t' = s.stream t') ∧ (s.readPastEnd).slots = s.slots
    ∧ (∀ k', (s.readPastEnd).slot k' = s.slot k') ∧ (s.readPastEnd).holdLimit = s.holdLimit
    ∧ (s.readPastEnd).view = s.view ∧ (s.readPastEnd).window.handleReg = s.window.handleReg
    ∧ (s.readPastEnd).window.pointed = s.window.pointed ∧ (s.readPastEnd).window.offset = s.window.offset
    ∧ (s.readPastEnd).window.mode = s.window.mode ∧ (s.readPastEnd).window.buffer = s.window.buffer
    ∧ (s.readPastEnd).window.request = s.window.request ∧ (s.readPastEnd).port = s.port ∧ (s.readPastEnd).cmd = s.cmd
    ∧ (s.readPastEnd).time = s.time ∧ (s.readPastEnd).now = s.now ∧ (s.readPastEnd).counts = s.counts
    ∧ (∀ l' k', (s.readPastEnd).laneCount l' k' = s.laneCount l' k')
    ∧ (∀ t' k', (s.readPastEnd).streamCount t' k' = s.streamCount t' k')
    ∧ (∀ k', (s.readPastEnd).deviceCount k' = s.deviceCount k') ∧ (s.readPastEnd).events = s.events
    ∧ (∀ e', (s.readPastEnd).latched e' = s.latched e') ∧ (s.readPastEnd).host.resetHigh = s.host.resetHigh
    ∧ (s.readPastEnd).memory = s.memory ∧ (s.readPastEnd).epoch = s.epoch ∧ (s.readPastEnd).pending = s.pending := by
  and_intros <;> intros <;> rfl

@[simp] theorem State.answerReady_frame (s : State) :
    (s.answerReady).lanes = s.lanes ∧ (∀ m, (s.answerReady).lane m = s.lane m) ∧ (s.answerReady).routes = s.routes
    ∧ (∀ i', (s.answerReady).route i' = s.route i') ∧ (s.answerReady).pool = s.pool
    ∧ (∀ d', (s.answerReady).desc d' = s.desc d') ∧ (s.answerReady).streams = s.streams
    ∧ (∀ t', (s.answerReady).stream t' = s.stream t') ∧ (s.answerReady).slots = s.slots
    ∧ (∀ k', (s.answerReady).slot k' = s.slot k') ∧ (s.answerReady).holdLimit = s.holdLimit
    ∧ (s.answerReady).view = s.view ∧ (s.answerReady).window.handleReg = s.window.handleReg
    ∧ (s.answerReady).window.pointed = s.window.pointed ∧ (s.answerReady).window.buffer = s.window.buffer
    ∧ (s.answerReady).port = s.port ∧ (s.answerReady).cmd = s.cmd ∧ (s.answerReady).time = s.time
    ∧ (s.answerReady).now = s.now ∧ (s.answerReady).counts = s.counts
    ∧ (∀ l' k', (s.answerReady).laneCount l' k' = s.laneCount l' k')
    ∧ (∀ t' k', (s.answerReady).streamCount t' k' = s.streamCount t' k')
    ∧ (∀ k', (s.answerReady).deviceCount k' = s.deviceCount k') ∧ (s.answerReady).events = s.events
    ∧ (∀ e', (s.answerReady).latched e' = s.latched e') ∧ (s.answerReady).host.resetHigh = s.host.resetHigh
    ∧ (s.answerReady).memory = s.memory ∧ (s.answerReady).epoch = s.epoch ∧ (s.answerReady).pending = s.pending := by
  unfold State.answerReady; (repeat' split) <;> simp +contextual

@[simp] theorem State.readWindow_frame (s : State) :
    (s.readWindow).lanes = s.lanes ∧ (∀ m, (s.readWindow).lane m = s.lane m) ∧ (s.readWindow).routes = s.routes
    ∧ (∀ i', (s.readWindow).route i' = s.route i') ∧ (s.readWindow).pool = s.pool
    ∧ (∀ d', (s.readWindow).desc d' = s.desc d') ∧ (s.readWindow).streams = s.streams
    ∧ (∀ t', (s.readWindow).stream t' = s.stream t') ∧ (s.readWindow).slots = s.slots
    ∧ (∀ k', (s.readWindow).slot k' = s.slot k') ∧ (s.readWindow).holdLimit = s.holdLimit
    ∧ (s.readWindow).view = s.view ∧ (s.readWindow).window.handleReg = s.window.handleReg
    ∧ (s.readWindow).window.pointed = s.window.pointed ∧ (s.readWindow).window.buffer = s.window.buffer
    ∧ (s.readWindow).port = s.port ∧ (s.readWindow).cmd = s.cmd ∧ (s.readWindow).time = s.time
    ∧ (s.readWindow).now = s.now ∧ (s.readWindow).counts.lanes = s.counts.lanes
    ∧ (s.readWindow).counts.streams = s.counts.streams ∧ (s.readWindow).counts.completions = s.counts.completions
    ∧ (∀ l' k', (s.readWindow).laneCount l' k' = s.laneCount l' k')
    ∧ (∀ t' k', (s.readWindow).streamCount t' k' = s.streamCount t' k')
    ∧ (s.readWindow).events.enables = s.events.enables ∧ (s.readWindow).events.watermarks = s.events.watermarks
    ∧ (s.readWindow).events.watermarkEnables = s.events.watermarkEnables
    ∧ (s.readWindow).events.readyEnables = s.events.readyEnables
    ∧ (s.readWindow).events.latches &&& 0xFC08#16 = s.events.latches &&& 0xFC08#16
    ∧ (s.readWindow).host.resetHigh = s.host.resetHigh ∧ (s.readWindow).memory = s.memory
    ∧ (s.readWindow).epoch = s.epoch ∧ (s.readWindow).pending = s.pending := by
  unfold State.readWindow; dsimp only; (repeat' split) <;> simp +contextual <;> (and_intros <;> intros <;> rfl)

@[simp] theorem State.abandonRead_frame (s : State) :
    (s.abandonRead).lanes = s.lanes ∧ (∀ m, (s.abandonRead).lane m = s.lane m) ∧ (s.abandonRead).routes = s.routes
    ∧ (∀ i', (s.abandonRead).route i' = s.route i') ∧ (s.abandonRead).pool = s.pool
    ∧ (∀ d', (s.abandonRead).desc d' = s.desc d') ∧ (s.abandonRead).streams = s.streams
    ∧ (∀ t', (s.abandonRead).stream t' = s.stream t') ∧ (s.abandonRead).slots = s.slots
    ∧ (∀ k', (s.abandonRead).slot k' = s.slot k') ∧ (s.abandonRead).holdLimit = s.holdLimit
    ∧ (s.abandonRead).view = s.view ∧ (s.abandonRead).window = s.window ∧ (s.abandonRead).port = s.port
    ∧ (s.abandonRead).cmd = s.cmd ∧ (s.abandonRead).time = s.time ∧ (s.abandonRead).now = s.now
    ∧ (s.abandonRead).counts = s.counts ∧ (∀ l' k', (s.abandonRead).laneCount l' k' = s.laneCount l' k')
    ∧ (∀ t' k', (s.abandonRead).streamCount t' k' = s.streamCount t' k')
    ∧ (∀ k', (s.abandonRead).deviceCount k' = s.deviceCount k') ∧ (s.abandonRead).events = s.events
    ∧ (∀ e', (s.abandonRead).latched e' = s.latched e') ∧ (s.abandonRead).host.resetHigh = s.host.resetHigh
    ∧ (s.abandonRead).memory = s.memory ∧ (s.abandonRead).epoch = s.epoch ∧ (s.abandonRead).pending = s.pending := by
  and_intros <;> intros <;> rfl

@[simp] theorem State.released_frame (s : State) :
    (s.released).lanes = s.lanes ∧ (∀ m, (s.released).lane m = s.lane m) ∧ (s.released).routes = s.routes
    ∧ (∀ i', (s.released).route i' = s.route i') ∧ (s.released).pool = s.pool
    ∧ (∀ d', (s.released).desc d' = s.desc d') ∧ (s.released).streams = s.streams
    ∧ (∀ t', (s.released).stream t' = s.stream t') ∧ (s.released).slots = s.slots
    ∧ (∀ k', (s.released).slot k' = s.slot k') ∧ (s.released).holdLimit = s.holdLimit ∧ (s.released).view = s.view
    ∧ (s.released).window = s.window ∧ (s.released).port = s.port ∧ (s.released).cmd = s.cmd
    ∧ (s.released).time = s.time ∧ (s.released).now = s.now ∧ (s.released).counts = s.counts
    ∧ (∀ l' k', (s.released).laneCount l' k' = s.laneCount l' k')
    ∧ (∀ t' k', (s.released).streamCount t' k' = s.streamCount t' k')
    ∧ (∀ k', (s.released).deviceCount k' = s.deviceCount k') ∧ (s.released).events = s.events
    ∧ (∀ e', (s.released).latched e' = s.latched e') ∧ (s.released).host.resetHigh = s.host.resetHigh
    ∧ (s.released).host.heldRead = s.host.heldRead ∧ (s.released).memory = s.memory ∧ (s.released).epoch = s.epoch
    ∧ (s.released).pending = s.pending := by
  and_intros <;> intros <;> rfl

@[simp] theorem State.writeWinHandle_frame (s : State) (v : Word) :
    (s.writeWinHandle v).lanes = s.lanes ∧ (∀ m, (s.writeWinHandle v).lane m = s.lane m)
    ∧ (s.writeWinHandle v).routes = s.routes ∧ (∀ i', (s.writeWinHandle v).route i' = s.route i')
    ∧ (s.writeWinHandle v).pool = s.pool ∧ (∀ d', (s.writeWinHandle v).desc d' = s.desc d')
    ∧ (s.writeWinHandle v).streams = s.streams ∧ (∀ t', (s.writeWinHandle v).stream t' = s.stream t')
    ∧ (s.writeWinHandle v).slots = s.slots ∧ (∀ k', (s.writeWinHandle v).slot k' = s.slot k')
    ∧ (s.writeWinHandle v).holdLimit = s.holdLimit ∧ (s.writeWinHandle v).view = s.view
    ∧ (s.writeWinHandle v).window.pointed = s.window.pointed ∧ (s.writeWinHandle v).window.offset = s.window.offset
    ∧ (s.writeWinHandle v).window.mode = s.window.mode ∧ (s.writeWinHandle v).window.pastEnd = s.window.pastEnd
    ∧ (s.writeWinHandle v).window.buffer = s.window.buffer ∧ (s.writeWinHandle v).window.request = s.window.request
    ∧ (s.writeWinHandle v).port = s.port ∧ (s.writeWinHandle v).cmd = s.cmd ∧ (s.writeWinHandle v).time = s.time
    ∧ (s.writeWinHandle v).now = s.now ∧ (s.writeWinHandle v).counts = s.counts
    ∧ (∀ l' k', (s.writeWinHandle v).laneCount l' k' = s.laneCount l' k')
    ∧ (∀ t' k', (s.writeWinHandle v).streamCount t' k' = s.streamCount t' k')
    ∧ (∀ k', (s.writeWinHandle v).deviceCount k' = s.deviceCount k') ∧ (s.writeWinHandle v).events = s.events
    ∧ (∀ e', (s.writeWinHandle v).latched e' = s.latched e') ∧ (s.writeWinHandle v).host = s.host
    ∧ (s.writeWinHandle v).memory = s.memory ∧ (s.writeWinHandle v).epoch = s.epoch
    ∧ (s.writeWinHandle v).pending = s.pending := by
  and_intros <;> intros <;> rfl

@[simp] theorem State.configError_frame (s : State) :
    (s.configError).lanes = s.lanes ∧ (∀ m, (s.configError).lane m = s.lane m) ∧ (s.configError).routes = s.routes
    ∧ (∀ i', (s.configError).route i' = s.route i') ∧ (s.configError).pool = s.pool
    ∧ (∀ d', (s.configError).desc d' = s.desc d') ∧ (s.configError).streams = s.streams
    ∧ (∀ t', (s.configError).stream t' = s.stream t') ∧ (s.configError).slots = s.slots
    ∧ (∀ k', (s.configError).slot k' = s.slot k') ∧ (s.configError).holdLimit = s.holdLimit
    ∧ (s.configError).view = s.view ∧ (s.configError).window = s.window ∧ (s.configError).port = s.port
    ∧ (s.configError).cmd = s.cmd ∧ (s.configError).time = s.time ∧ (s.configError).now = s.now
    ∧ (s.configError).counts.lanes = s.counts.lanes ∧ (s.configError).counts.streams = s.counts.streams
    ∧ (s.configError).counts.completions = s.counts.completions
    ∧ (∀ l' k', (s.configError).laneCount l' k' = s.laneCount l' k')
    ∧ (∀ t' k', (s.configError).streamCount t' k' = s.streamCount t' k')
    ∧ (s.configError).events.enables = s.events.enables ∧ (s.configError).events.watermarks = s.events.watermarks
    ∧ (s.configError).events.watermarkEnables = s.events.watermarkEnables
    ∧ (s.configError).events.readyEnables = s.events.readyEnables
    ∧ (s.configError).events.latches &&& 0xFC08#16 = s.events.latches &&& 0xFC08#16 ∧ (s.configError).host = s.host
    ∧ (s.configError).memory = s.memory ∧ (s.configError).epoch = s.epoch ∧ (s.configError).pending = s.pending := by
  simp +contextual [State.configError]

@[simp] theorem State.point_frame (s : State) (v : Word) :
    (s.point v).lanes = s.lanes ∧ (∀ m, (s.point v).lane m = s.lane m) ∧ (s.point v).routes = s.routes
    ∧ (∀ i', (s.point v).route i' = s.route i') ∧ (s.point v).pool = s.pool ∧ (∀ d', (s.point v).desc d' = s.desc d')
    ∧ (s.point v).streams = s.streams ∧ (∀ t', (s.point v).stream t' = s.stream t') ∧ (s.point v).slots = s.slots
    ∧ (∀ k', (s.point v).slot k' = s.slot k') ∧ (s.point v).holdLimit = s.holdLimit ∧ (s.point v).view = s.view
    ∧ (s.point v).window.handleReg = s.window.handleReg ∧ (s.point v).port.position = s.port.position
    ∧ (s.point v).port.balance = s.port.balance ∧ (s.point v).port.interval = s.port.interval
    ∧ (s.point v).port.left = s.port.left ∧ (s.point v).port.nextSlice = s.port.nextSlice ∧ (s.point v).cmd = s.cmd
    ∧ (s.point v).port.times = s.port.times
    ∧ (s.point v).time = s.time ∧ (s.point v).now = s.now ∧ (s.point v).counts = s.counts
    ∧ (∀ l' k', (s.point v).laneCount l' k' = s.laneCount l' k')
    ∧ (∀ t' k', (s.point v).streamCount t' k' = s.streamCount t' k')
    ∧ (∀ k', (s.point v).deviceCount k' = s.deviceCount k') ∧ (s.point v).events = s.events
    ∧ (∀ e', (s.point v).latched e' = s.latched e') ∧ (s.point v).host = s.host ∧ (s.point v).memory = s.memory
    ∧ (s.point v).epoch = s.epoch ∧ (s.point v).pending = s.pending := by
  and_intros <;> intros <;> rfl

@[simp] theorem State.writeWinOffset_frame (s : State) (v : Word) :
    (s.writeWinOffset v).lanes = s.lanes ∧ (∀ m, (s.writeWinOffset v).lane m = s.lane m)
    ∧ (s.writeWinOffset v).routes = s.routes ∧ (∀ i', (s.writeWinOffset v).route i' = s.route i')
    ∧ (s.writeWinOffset v).pool = s.pool ∧ (∀ d', (s.writeWinOffset v).desc d' = s.desc d')
    ∧ (s.writeWinOffset v).streams = s.streams ∧ (∀ t', (s.writeWinOffset v).stream t' = s.stream t')
    ∧ (s.writeWinOffset v).slots = s.slots ∧ (∀ k', (s.writeWinOffset v).slot k' = s.slot k')
    ∧ (s.writeWinOffset v).holdLimit = s.holdLimit ∧ (s.writeWinOffset v).view = s.view
    ∧ (s.writeWinOffset v).window.handleReg = s.window.handleReg
    ∧ (s.writeWinOffset v).port.position = s.port.position ∧ (s.writeWinOffset v).port.balance = s.port.balance
    ∧ (s.writeWinOffset v).port.interval = s.port.interval ∧ (s.writeWinOffset v).port.left = s.port.left
    ∧ (s.writeWinOffset v).port.nextSlice = s.port.nextSlice ∧ (s.writeWinOffset v).cmd = s.cmd
    ∧ (s.writeWinOffset v).port.times = s.port.times
    ∧ (s.writeWinOffset v).time = s.time ∧ (s.writeWinOffset v).now = s.now
    ∧ (s.writeWinOffset v).counts.lanes = s.counts.lanes ∧ (s.writeWinOffset v).counts.streams = s.counts.streams
    ∧ (s.writeWinOffset v).counts.completions = s.counts.completions
    ∧ (∀ l' k', (s.writeWinOffset v).laneCount l' k' = s.laneCount l' k')
    ∧ (∀ t' k', (s.writeWinOffset v).streamCount t' k' = s.streamCount t' k')
    ∧ (s.writeWinOffset v).events.enables = s.events.enables
    ∧ (s.writeWinOffset v).events.watermarks = s.events.watermarks
    ∧ (s.writeWinOffset v).events.watermarkEnables = s.events.watermarkEnables
    ∧ (s.writeWinOffset v).events.readyEnables = s.events.readyEnables
    ∧ (s.writeWinOffset v).events.latches &&& 0xFC08#16 = s.events.latches &&& 0xFC08#16
    ∧ (s.writeWinOffset v).host = s.host ∧ (s.writeWinOffset v).memory = s.memory
    ∧ (s.writeWinOffset v).epoch = s.epoch ∧ (s.writeWinOffset v).pending = s.pending := by
  unfold State.writeWinOffset; (repeat' split) <;> simp +contextual

@[simp] theorem State.startOp_frame (s : State) (o : PortOp) :
    (s.startOp o).lanes = s.lanes ∧ (∀ m, (s.startOp o).lane m = s.lane m) ∧ (s.startOp o).routes = s.routes
    ∧ (∀ i', (s.startOp o).route i' = s.route i') ∧ (s.startOp o).pool = s.pool ∧ (∀ d', (s.startOp o).desc d' = s.desc d')
    ∧ (s.startOp o).streams = s.streams ∧ (∀ t', (s.startOp o).stream t' = s.stream t') ∧ (s.startOp o).slots = s.slots
    ∧ (∀ k', (s.startOp o).slot k' = s.slot k') ∧ (s.startOp o).holdLimit = s.holdLimit ∧ (s.startOp o).view = s.view
    ∧ (s.startOp o).window = s.window ∧ (s.startOp o).port.position = s.port.position
    ∧ (s.startOp o).port.balance = s.port.balance ∧ (s.startOp o).port.interval = s.port.interval
    ∧ (s.startOp o).port.left = s.port.left ∧ (s.startOp o).port.nextSlice = s.port.nextSlice ∧ (s.startOp o).cmd = s.cmd
    ∧ (s.startOp o).port.times.reached = s.port.times.reached
    ∧ (s.startOp o).time = s.time ∧ (s.startOp o).now = s.now ∧ (s.startOp o).counts = s.counts
    ∧ (∀ l' k', (s.startOp o).laneCount l' k' = s.laneCount l' k')
    ∧ (∀ t' k', (s.startOp o).streamCount t' k' = s.streamCount t' k')
    ∧ (∀ k', (s.startOp o).deviceCount k' = s.deviceCount k') ∧ (s.startOp o).events = s.events
    ∧ (∀ e', (s.startOp o).latched e' = s.latched e') ∧ (s.startOp o).host = s.host ∧ (s.startOp o).memory = s.memory
    ∧ (s.startOp o).epoch = s.epoch ∧ (s.startOp o).pending = s.pending := by
  and_intros <;> intros <;> rfl

@[simp] theorem State.grantRefresh_frame (s : State) :
    (s.grantRefresh).lanes = s.lanes ∧ (∀ m, (s.grantRefresh).lane m = s.lane m) ∧ (s.grantRefresh).routes = s.routes
    ∧ (∀ i', (s.grantRefresh).route i' = s.route i') ∧ (s.grantRefresh).pool = s.pool
    ∧ (∀ d', (s.grantRefresh).desc d' = s.desc d') ∧ (s.grantRefresh).streams = s.streams
    ∧ (∀ t', (s.grantRefresh).stream t' = s.stream t') ∧ (s.grantRefresh).slots = s.slots
    ∧ (∀ k', (s.grantRefresh).slot k' = s.slot k') ∧ (s.grantRefresh).holdLimit = s.holdLimit
    ∧ (s.grantRefresh).view = s.view ∧ (s.grantRefresh).window = s.window
    ∧ (s.grantRefresh).port.position = s.port.position ∧ (s.grantRefresh).port.interval = s.port.interval
    ∧ (s.grantRefresh).port.left = s.port.left ∧ (s.grantRefresh).port.nextSlice = s.port.nextSlice
    ∧ (s.grantRefresh).port.times.reached = s.port.times.reached
    ∧ (s.grantRefresh).cmd = s.cmd ∧ (s.grantRefresh).time = s.time ∧ (s.grantRefresh).now = s.now
    ∧ (s.grantRefresh).counts = s.counts ∧ (∀ l' k', (s.grantRefresh).laneCount l' k' = s.laneCount l' k')
    ∧ (∀ t' k', (s.grantRefresh).streamCount t' k' = s.streamCount t' k')
    ∧ (∀ k', (s.grantRefresh).deviceCount k' = s.deviceCount k') ∧ (s.grantRefresh).events = s.events
    ∧ (∀ e', (s.grantRefresh).latched e' = s.latched e') ∧ (s.grantRefresh).host = s.host
    ∧ (s.grantRefresh).memory = s.memory ∧ (s.grantRefresh).epoch = s.epoch ∧ (s.grantRefresh).pending = s.pending := by
  and_intros <;> intros <;> rfl

@[simp] theorem State.grantWrite_frame (s : State) (l : LaneId) :
    (∀ m, ((s.grantWrite l).lane m).entry = (s.lane m).entry) ∧ (∀ m, ((s.grantWrite l).lane m).rx = (s.lane m).rx)
    ∧ (∀ m, m ≠ l → (s.grantWrite l).lane m = s.lane m) ∧ (s.grantWrite l).routes = s.routes
    ∧ (∀ i', (s.grantWrite l).route i' = s.route i') ∧ (s.grantWrite l).pool = s.pool
    ∧ (∀ d', (s.grantWrite l).desc d' = s.desc d') ∧ (s.grantWrite l).streams = s.streams
    ∧ (∀ t', (s.grantWrite l).stream t' = s.stream t') ∧ (s.grantWrite l).slots = s.slots
    ∧ (∀ k', (s.grantWrite l).slot k' = s.slot k') ∧ (s.grantWrite l).holdLimit = s.holdLimit
    ∧ (s.grantWrite l).view = s.view ∧ (s.grantWrite l).window = s.window
    ∧ (s.grantWrite l).port.position = s.port.position ∧ (s.grantWrite l).port.balance = s.port.balance
    ∧ (s.grantWrite l).port.interval = s.port.interval ∧ (s.grantWrite l).port.left = s.port.left
    ∧ (s.grantWrite l).port.nextSlice = s.port.nextSlice ∧ (s.grantWrite l).cmd = s.cmd
    ∧ (s.grantWrite l).port.times.reached = s.port.times.reached
    ∧ (s.grantWrite l).time = s.time ∧ (s.grantWrite l).now = s.now ∧ (s.grantWrite l).counts = s.counts
    ∧ (∀ l' k', (s.grantWrite l).laneCount l' k' = s.laneCount l' k')
    ∧ (∀ t' k', (s.grantWrite l).streamCount t' k' = s.streamCount t' k')
    ∧ (∀ k', (s.grantWrite l).deviceCount k' = s.deviceCount k') ∧ (s.grantWrite l).events = s.events
    ∧ (∀ e', (s.grantWrite l).latched e' = s.latched e') ∧ (s.grantWrite l).host = s.host
    ∧ (s.grantWrite l).memory = s.memory ∧ (s.grantWrite l).epoch = s.epoch ∧ (s.grantWrite l).pending = s.pending := by
  unfold State.grantWrite; dsimp only; (repeat' split) <;> simp +contextual

@[simp] theorem State.dropRequest_frame (s : State) :
    (s.dropRequest).lanes = s.lanes ∧ (∀ m, (s.dropRequest).lane m = s.lane m) ∧ (s.dropRequest).routes = s.routes
    ∧ (∀ i', (s.dropRequest).route i' = s.route i') ∧ (s.dropRequest).pool = s.pool
    ∧ (∀ d', (s.dropRequest).desc d' = s.desc d') ∧ (s.dropRequest).streams = s.streams
    ∧ (∀ t', (s.dropRequest).stream t' = s.stream t') ∧ (s.dropRequest).slots = s.slots
    ∧ (∀ k', (s.dropRequest).slot k' = s.slot k') ∧ (s.dropRequest).holdLimit = s.holdLimit
    ∧ (s.dropRequest).view = s.view ∧ (s.dropRequest).window.handleReg = s.window.handleReg
    ∧ (s.dropRequest).window.pointed = s.window.pointed ∧ (s.dropRequest).window.offset = s.window.offset
    ∧ (s.dropRequest).window.mode = s.window.mode ∧ (s.dropRequest).window.pastEnd = s.window.pastEnd
    ∧ (s.dropRequest).window.buffer = s.window.buffer ∧ (s.dropRequest).port = s.port ∧ (s.dropRequest).cmd = s.cmd
    ∧ (s.dropRequest).time = s.time ∧ (s.dropRequest).now = s.now ∧ (s.dropRequest).counts = s.counts
    ∧ (∀ l' k', (s.dropRequest).laneCount l' k' = s.laneCount l' k')
    ∧ (∀ t' k', (s.dropRequest).streamCount t' k' = s.streamCount t' k')
    ∧ (∀ k', (s.dropRequest).deviceCount k' = s.deviceCount k') ∧ (s.dropRequest).events = s.events
    ∧ (∀ e', (s.dropRequest).latched e' = s.latched e') ∧ (s.dropRequest).host = s.host
    ∧ (s.dropRequest).memory = s.memory ∧ (s.dropRequest).epoch = s.epoch ∧ (s.dropRequest).pending = s.pending := by
  and_intros <;> intros <;> rfl

@[simp] theorem State.grantRead_frame (s : State) :
    (s.grantRead).lanes = s.lanes ∧ (∀ m, (s.grantRead).lane m = s.lane m) ∧ (s.grantRead).routes = s.routes
    ∧ (∀ i', (s.grantRead).route i' = s.route i') ∧ (s.grantRead).pool = s.pool
    ∧ (∀ d', (s.grantRead).desc d' = s.desc d') ∧ (s.grantRead).streams = s.streams
    ∧ (∀ t', (s.grantRead).stream t' = s.stream t') ∧ (s.grantRead).slots = s.slots
    ∧ (∀ k', (s.grantRead).slot k' = s.slot k') ∧ (s.grantRead).holdLimit = s.holdLimit ∧ (s.grantRead).view = s.view
    ∧ (s.grantRead).window.handleReg = s.window.handleReg ∧ (s.grantRead).window.pointed = s.window.pointed
    ∧ (s.grantRead).window.offset = s.window.offset ∧ (s.grantRead).window.mode = s.window.mode
    ∧ (s.grantRead).window.pastEnd = s.window.pastEnd ∧ (s.grantRead).window.buffer = s.window.buffer
    ∧ (s.grantRead).port.position = s.port.position ∧ (s.grantRead).port.balance = s.port.balance
    ∧ (s.grantRead).port.interval = s.port.interval ∧ (s.grantRead).port.left = s.port.left
    ∧ (s.grantRead).port.nextSlice = s.port.nextSlice ∧ (s.grantRead).cmd = s.cmd ∧ (s.grantRead).time = s.time
    ∧ (s.grantRead).port.times.reached = s.port.times.reached
    ∧ (s.grantRead).now = s.now ∧ (s.grantRead).counts = s.counts
    ∧ (∀ l' k', (s.grantRead).laneCount l' k' = s.laneCount l' k')
    ∧ (∀ t' k', (s.grantRead).streamCount t' k' = s.streamCount t' k')
    ∧ (∀ k', (s.grantRead).deviceCount k' = s.deviceCount k') ∧ (s.grantRead).events = s.events
    ∧ (∀ e', (s.grantRead).latched e' = s.latched e') ∧ (s.grantRead).host = s.host ∧ (s.grantRead).memory = s.memory
    ∧ (s.grantRead).epoch = s.epoch ∧ (s.grantRead).pending = s.pending := by
  unfold State.grantRead; (repeat' split) <;> simp +contextual

@[simp] theorem State.grantRequester_frame (s : State) (r : Requester) :
    (∀ m, ((s.grantRequester r).lane m).entry = (s.lane m).entry)
    ∧ (∀ m, ((s.grantRequester r).lane m).rx = (s.lane m).rx) ∧ (s.grantRequester r).routes = s.routes
    ∧ (∀ i', (s.grantRequester r).route i' = s.route i') ∧ (s.grantRequester r).pool = s.pool
    ∧ (∀ d', (s.grantRequester r).desc d' = s.desc d') ∧ (s.grantRequester r).streams = s.streams
    ∧ (∀ t', (s.grantRequester r).stream t' = s.stream t') ∧ (s.grantRequester r).slots = s.slots
    ∧ (∀ k', (s.grantRequester r).slot k' = s.slot k') ∧ (s.grantRequester r).holdLimit = s.holdLimit
    ∧ (s.grantRequester r).view = s.view ∧ (s.grantRequester r).window.handleReg = s.window.handleReg
    ∧ (s.grantRequester r).window.pointed = s.window.pointed ∧ (s.grantRequester r).window.offset = s.window.offset
    ∧ (s.grantRequester r).window.mode = s.window.mode ∧ (s.grantRequester r).window.pastEnd = s.window.pastEnd
    ∧ (s.grantRequester r).window.buffer = s.window.buffer ∧ (s.grantRequester r).port.balance = s.port.balance
    ∧ (s.grantRequester r).port.interval = s.port.interval ∧ (s.grantRequester r).port.left = s.port.left
    ∧ (s.grantRequester r).port.nextSlice = s.port.nextSlice ∧ (s.grantRequester r).cmd = s.cmd
    ∧ (s.grantRequester r).port.times.reached = s.port.times.reached
    ∧ (s.grantRequester r).time = s.time ∧ (s.grantRequester r).now = s.now ∧ (s.grantRequester r).counts = s.counts
    ∧ (∀ l' k', (s.grantRequester r).laneCount l' k' = s.laneCount l' k')
    ∧ (∀ t' k', (s.grantRequester r).streamCount t' k' = s.streamCount t' k')
    ∧ (∀ k', (s.grantRequester r).deviceCount k' = s.deviceCount k') ∧ (s.grantRequester r).events = s.events
    ∧ (∀ e', (s.grantRequester r).latched e' = s.latched e') ∧ (s.grantRequester r).host = s.host
    ∧ (s.grantRequester r).memory = s.memory ∧ (s.grantRequester r).epoch = s.epoch
    ∧ (s.grantRequester r).pending = s.pending := by
  unfold State.grantRequester; split <;> simp +contextual

@[simp] theorem State.arbitrate_frame (s : State) :
    (∀ m, ((s.arbitrate).lane m).entry = (s.lane m).entry) ∧ (∀ m, ((s.arbitrate).lane m).rx = (s.lane m).rx)
    ∧ (s.arbitrate).routes = s.routes ∧ (∀ i', (s.arbitrate).route i' = s.route i') ∧ (s.arbitrate).pool = s.pool
    ∧ (∀ d', (s.arbitrate).desc d' = s.desc d') ∧ (s.arbitrate).streams = s.streams
    ∧ (∀ t', (s.arbitrate).stream t' = s.stream t') ∧ (s.arbitrate).slots = s.slots
    ∧ (∀ k', (s.arbitrate).slot k' = s.slot k') ∧ (s.arbitrate).holdLimit = s.holdLimit ∧ (s.arbitrate).view = s.view
    ∧ (s.arbitrate).window.handleReg = s.window.handleReg ∧ (s.arbitrate).window.pointed = s.window.pointed
    ∧ (s.arbitrate).window.offset = s.window.offset ∧ (s.arbitrate).window.mode = s.window.mode
    ∧ (s.arbitrate).window.pastEnd = s.window.pastEnd ∧ (s.arbitrate).window.buffer = s.window.buffer
    ∧ (s.arbitrate).port.interval = s.port.interval ∧ (s.arbitrate).port.left = s.port.left
    ∧ (s.arbitrate).port.nextSlice = s.port.nextSlice ∧ (s.arbitrate).cmd = s.cmd ∧ (s.arbitrate).time = s.time
    ∧ (s.arbitrate).port.times.reached = s.port.times.reached
    ∧ (s.arbitrate).now = s.now ∧ (s.arbitrate).counts = s.counts
    ∧ (∀ l' k', (s.arbitrate).laneCount l' k' = s.laneCount l' k')
    ∧ (∀ t' k', (s.arbitrate).streamCount t' k' = s.streamCount t' k')
    ∧ (∀ k', (s.arbitrate).deviceCount k' = s.deviceCount k') ∧ (s.arbitrate).events = s.events
    ∧ (∀ e', (s.arbitrate).latched e' = s.latched e') ∧ (s.arbitrate).host = s.host ∧ (s.arbitrate).memory = s.memory
    ∧ (s.arbitrate).epoch = s.epoch ∧ (s.arbitrate).pending = s.pending := by
  unfold State.arbitrate; (repeat' split) <;> simp +contextual

@[simp] theorem State.freePort_frame (s : State) :
    (s.freePort).lanes = s.lanes ∧ (∀ m, (s.freePort).lane m = s.lane m) ∧ (s.freePort).routes = s.routes
    ∧ (∀ i', (s.freePort).route i' = s.route i') ∧ (s.freePort).pool = s.pool
    ∧ (∀ d', (s.freePort).desc d' = s.desc d') ∧ (s.freePort).streams = s.streams
    ∧ (∀ t', (s.freePort).stream t' = s.stream t') ∧ (s.freePort).slots = s.slots
    ∧ (∀ k', (s.freePort).slot k' = s.slot k') ∧ (s.freePort).holdLimit = s.holdLimit ∧ (s.freePort).view = s.view
    ∧ (s.freePort).window = s.window ∧ (s.freePort).port.position = s.port.position
    ∧ (s.freePort).port.balance = s.port.balance ∧ (s.freePort).port.interval = s.port.interval
    ∧ (s.freePort).port.left = s.port.left ∧ (s.freePort).port.nextSlice = s.port.nextSlice ∧ (s.freePort).cmd = s.cmd
    ∧ (s.freePort).port.times.ends = s.port.times.ends
    ∧ (s.freePort).time = s.time ∧ (s.freePort).now = s.now ∧ (s.freePort).counts = s.counts
    ∧ (∀ l' k', (s.freePort).laneCount l' k' = s.laneCount l' k')
    ∧ (∀ t' k', (s.freePort).streamCount t' k' = s.streamCount t' k')
    ∧ (∀ k', (s.freePort).deviceCount k' = s.deviceCount k') ∧ (s.freePort).events = s.events
    ∧ (∀ e', (s.freePort).latched e' = s.latched e') ∧ (s.freePort).host = s.host ∧ (s.freePort).memory = s.memory
    ∧ (s.freePort).epoch = s.epoch ∧ (s.freePort).pending = s.pending := by
  and_intros <;> intros <;> rfl

@[simp] theorem State.storeCell_frame (s : State) (c : CellId) (bs : List Byte) :
    (s.storeCell c bs).lanes = s.lanes ∧ (∀ m, (s.storeCell c bs).lane m = s.lane m)
    ∧ (s.storeCell c bs).routes = s.routes ∧ (∀ i', (s.storeCell c bs).route i' = s.route i')
    ∧ (s.storeCell c bs).pool = s.pool ∧ (∀ d', (s.storeCell c bs).desc d' = s.desc d')
    ∧ (s.storeCell c bs).streams = s.streams ∧ (∀ t', (s.storeCell c bs).stream t' = s.stream t')
    ∧ (s.storeCell c bs).slots = s.slots ∧ (∀ k', (s.storeCell c bs).slot k' = s.slot k')
    ∧ (s.storeCell c bs).holdLimit = s.holdLimit ∧ (s.storeCell c bs).view = s.view
    ∧ (s.storeCell c bs).window = s.window ∧ (s.storeCell c bs).port = s.port ∧ (s.storeCell c bs).cmd = s.cmd
    ∧ (s.storeCell c bs).time = s.time ∧ (s.storeCell c bs).now = s.now ∧ (s.storeCell c bs).counts = s.counts
    ∧ (∀ l' k', (s.storeCell c bs).laneCount l' k' = s.laneCount l' k')
    ∧ (∀ t' k', (s.storeCell c bs).streamCount t' k' = s.streamCount t' k')
    ∧ (∀ k', (s.storeCell c bs).deviceCount k' = s.deviceCount k') ∧ (s.storeCell c bs).events = s.events
    ∧ (∀ e', (s.storeCell c bs).latched e' = s.latched e') ∧ (s.storeCell c bs).host = s.host
    ∧ (s.storeCell c bs).epoch = s.epoch ∧ (s.storeCell c bs).pending = s.pending := by
  and_intros <;> intros <;> rfl

@[simp] theorem State.finishWrite_frame (s : State) (l : LaneId) :
    (∀ m, ((s.finishWrite l).lane m).entry = (s.lane m).entry) ∧ (∀ m, ((s.finishWrite l).lane m).rx = (s.lane m).rx)
    ∧ (∀ m, m ≠ l → (s.finishWrite l).lane m = s.lane m) ∧ (s.finishWrite l).pool.ready = s.pool.ready
    ∧ (s.finishWrite l).pool.buildStart = s.pool.buildStart ∧ (s.finishWrite l).pool.freeDescs = s.pool.freeDescs
    ∧ (s.finishWrite l).pool.lowThreshold = s.pool.lowThreshold
    ∧ (∀ t', ((s.finishWrite l).stream t').entry = (s.stream t').entry)
    ∧ (∀ t', ((s.finishWrite l).stream t').heldCount = (s.stream t').heldCount)
    ∧ (∀ t', ((s.finishWrite l).stream t').charge = (s.stream t').charge)
    ∧ (∀ t', ((s.finishWrite l).stream t').examine = (s.stream t').examine) ∧ (s.finishWrite l).slots = s.slots
    ∧ (∀ k', (s.finishWrite l).slot k' = s.slot k') ∧ (s.finishWrite l).holdLimit = s.holdLimit
    ∧ (s.finishWrite l).view = s.view ∧ (s.finishWrite l).window = s.window
    ∧ (s.finishWrite l).port.position = s.port.position ∧ (s.finishWrite l).port.balance = s.port.balance
    ∧ (s.finishWrite l).port.interval = s.port.interval ∧ (s.finishWrite l).port.left = s.port.left
    ∧ (s.finishWrite l).port.nextSlice = s.port.nextSlice ∧ (s.finishWrite l).cmd.code = s.cmd.code
    ∧ (s.finishWrite l).port.times.ends = s.port.times.ends
    ∧ (s.finishWrite l).cmd.arg = s.cmd.arg ∧ (s.finishWrite l).cmd.argReg = s.cmd.argReg
    ∧ (s.finishWrite l).cmd.collision = s.cmd.collision ∧ (s.finishWrite l).cmd.image = s.cmd.image
    ∧ (s.finishWrite l).cmd.taken = s.cmd.taken ∧ (s.finishWrite l).cmd.capture = s.cmd.capture
    ∧ (s.finishWrite l).time = s.time ∧ (s.finishWrite l).now = s.now
    ∧ (s.finishWrite l).counts.device = s.counts.device ∧ (∀ k', (s.finishWrite l).deviceCount k' = s.deviceCount k')
    ∧ (s.finishWrite l).events.enables = s.events.enables ∧ (s.finishWrite l).events.watermarks = s.events.watermarks
    ∧ (s.finishWrite l).events.watermarkEnables = s.events.watermarkEnables
    ∧ (s.finishWrite l).events.readyEnables = s.events.readyEnables
    ∧ (s.finishWrite l).events.latches &&& 0xFC08#16 = s.events.latches &&& 0xFC08#16
    ∧ (s.finishWrite l).host = s.host ∧ (s.finishWrite l).epoch = s.epoch ∧ (s.finishWrite l).pending = s.pending := by
  unfold State.finishWrite; dsimp only; (repeat' split) <;> simp +contextual

@[simp] theorem State.fillBuffer_frame (s : State) (p : Nat) (bs : List Byte) :
    (s.fillBuffer p bs).lanes = s.lanes ∧ (∀ m, (s.fillBuffer p bs).lane m = s.lane m)
    ∧ (s.fillBuffer p bs).routes = s.routes ∧ (∀ i', (s.fillBuffer p bs).route i' = s.route i')
    ∧ (s.fillBuffer p bs).pool = s.pool ∧ (∀ d', (s.fillBuffer p bs).desc d' = s.desc d')
    ∧ (s.fillBuffer p bs).streams = s.streams ∧ (∀ t', (s.fillBuffer p bs).stream t' = s.stream t')
    ∧ (s.fillBuffer p bs).slots = s.slots ∧ (∀ k', (s.fillBuffer p bs).slot k' = s.slot k')
    ∧ (s.fillBuffer p bs).holdLimit = s.holdLimit ∧ (s.fillBuffer p bs).view = s.view
    ∧ (s.fillBuffer p bs).window.handleReg = s.window.handleReg
    ∧ (s.fillBuffer p bs).window.pointed = s.window.pointed ∧ (s.fillBuffer p bs).window.offset = s.window.offset
    ∧ (s.fillBuffer p bs).window.pastEnd = s.window.pastEnd ∧ (s.fillBuffer p bs).window.request = s.window.request
    ∧ (s.fillBuffer p bs).port = s.port ∧ (s.fillBuffer p bs).cmd = s.cmd ∧ (s.fillBuffer p bs).time = s.time
    ∧ (s.fillBuffer p bs).now = s.now ∧ (s.fillBuffer p bs).counts = s.counts
    ∧ (∀ l' k', (s.fillBuffer p bs).laneCount l' k' = s.laneCount l' k')
    ∧ (∀ t' k', (s.fillBuffer p bs).streamCount t' k' = s.streamCount t' k')
    ∧ (∀ k', (s.fillBuffer p bs).deviceCount k' = s.deviceCount k') ∧ (s.fillBuffer p bs).events = s.events
    ∧ (∀ e', (s.fillBuffer p bs).latched e' = s.latched e') ∧ (s.fillBuffer p bs).host = s.host
    ∧ (s.fillBuffer p bs).memory = s.memory ∧ (s.fillBuffer p bs).epoch = s.epoch
    ∧ (s.fillBuffer p bs).pending = s.pending := by
  and_intros <;> intros <;> rfl

@[simp] theorem State.nextEpoch_frame (s : State) :
    (s.nextEpoch).lanes = s.lanes ∧ (∀ m, (s.nextEpoch).lane m = s.lane m) ∧ (s.nextEpoch).routes = s.routes
    ∧ (∀ i', (s.nextEpoch).route i' = s.route i') ∧ (s.nextEpoch).pool = s.pool
    ∧ (∀ d', (s.nextEpoch).desc d' = s.desc d') ∧ (s.nextEpoch).streams = s.streams
    ∧ (∀ t', (s.nextEpoch).stream t' = s.stream t') ∧ (s.nextEpoch).slots = s.slots
    ∧ (∀ k', (s.nextEpoch).slot k' = s.slot k') ∧ (s.nextEpoch).holdLimit = s.holdLimit ∧ (s.nextEpoch).view = s.view
    ∧ (s.nextEpoch).window = s.window ∧ (s.nextEpoch).port = s.port ∧ (s.nextEpoch).cmd = s.cmd
    ∧ (s.nextEpoch).time = s.time ∧ (s.nextEpoch).now = s.now ∧ (s.nextEpoch).counts = s.counts
    ∧ (∀ l' k', (s.nextEpoch).laneCount l' k' = s.laneCount l' k')
    ∧ (∀ t' k', (s.nextEpoch).streamCount t' k' = s.streamCount t' k')
    ∧ (∀ k', (s.nextEpoch).deviceCount k' = s.deviceCount k') ∧ (s.nextEpoch).events = s.events
    ∧ (∀ e', (s.nextEpoch).latched e' = s.latched e') ∧ (s.nextEpoch).host = s.host ∧ (s.nextEpoch).memory = s.memory
    ∧ (s.nextEpoch).pending = s.pending := by
  and_intros <;> intros <;> rfl

@[simp] theorem State.finishRead_frame (s : State) :
    (s.finishRead).lanes = s.lanes ∧ (∀ m, (s.finishRead).lane m = s.lane m) ∧ (s.finishRead).routes = s.routes
    ∧ (∀ i', (s.finishRead).route i' = s.route i') ∧ (s.finishRead).pool = s.pool
    ∧ (∀ d', (s.finishRead).desc d' = s.desc d') ∧ (s.finishRead).streams = s.streams
    ∧ (∀ t', (s.finishRead).stream t' = s.stream t') ∧ (s.finishRead).slots = s.slots
    ∧ (∀ k', (s.finishRead).slot k' = s.slot k') ∧ (s.finishRead).holdLimit = s.holdLimit
    ∧ (s.finishRead).view = s.view ∧ (s.finishRead).window.handleReg = s.window.handleReg
    ∧ (s.finishRead).window.pointed = s.window.pointed ∧ (s.finishRead).port.position = s.port.position
    ∧ (s.finishRead).port.balance = s.port.balance ∧ (s.finishRead).port.interval = s.port.interval
    ∧ (s.finishRead).port.left = s.port.left ∧ (s.finishRead).port.nextSlice = s.port.nextSlice
    ∧ (s.finishRead).port.times.ends = s.port.times.ends
    ∧ (s.finishRead).cmd = s.cmd ∧ (s.finishRead).time = s.time ∧ (s.finishRead).now = s.now
    ∧ (s.finishRead).counts = s.counts ∧ (∀ l' k', (s.finishRead).laneCount l' k' = s.laneCount l' k')
    ∧ (∀ t' k', (s.finishRead).streamCount t' k' = s.streamCount t' k')
    ∧ (∀ k', (s.finishRead).deviceCount k' = s.deviceCount k') ∧ (s.finishRead).events = s.events
    ∧ (∀ e', (s.finishRead).latched e' = s.latched e') ∧ (s.finishRead).host.resetHigh = s.host.resetHigh
    ∧ (s.finishRead).memory = s.memory ∧ (s.finishRead).pending = s.pending := by
  unfold State.finishRead; (repeat' split) <;> simp +contextual

@[simp] theorem State.finishRefresh_frame (s : State) :
    (s.finishRefresh).lanes = s.lanes ∧ (∀ m, (s.finishRefresh).lane m = s.lane m)
    ∧ (s.finishRefresh).routes = s.routes ∧ (∀ i', (s.finishRefresh).route i' = s.route i')
    ∧ (s.finishRefresh).pool = s.pool ∧ (∀ d', (s.finishRefresh).desc d' = s.desc d')
    ∧ (s.finishRefresh).streams = s.streams ∧ (∀ t', (s.finishRefresh).stream t' = s.stream t')
    ∧ (s.finishRefresh).slots = s.slots ∧ (∀ k', (s.finishRefresh).slot k' = s.slot k')
    ∧ (s.finishRefresh).holdLimit = s.holdLimit ∧ (s.finishRefresh).view = s.view
    ∧ (s.finishRefresh).window = s.window ∧ (s.finishRefresh).port.position = s.port.position
    ∧ (s.finishRefresh).port.balance = s.port.balance ∧ (s.finishRefresh).port.interval = s.port.interval
    ∧ (s.finishRefresh).port.left = s.port.left ∧ (s.finishRefresh).cmd = s.cmd ∧ (s.finishRefresh).time = s.time
    ∧ (s.finishRefresh).port.times.ends = s.port.times.ends
    ∧ (s.finishRefresh).now = s.now ∧ (s.finishRefresh).counts = s.counts
    ∧ (∀ l' k', (s.finishRefresh).laneCount l' k' = s.laneCount l' k')
    ∧ (∀ t' k', (s.finishRefresh).streamCount t' k' = s.streamCount t' k')
    ∧ (∀ k', (s.finishRefresh).deviceCount k' = s.deviceCount k') ∧ (s.finishRefresh).events = s.events
    ∧ (∀ e', (s.finishRefresh).latched e' = s.latched e') ∧ (s.finishRefresh).host = s.host
    ∧ (s.finishRefresh).memory = s.memory ∧ (s.finishRefresh).epoch = s.epoch ∧ (s.finishRefresh).pending = s.pending := by
  and_intros <;> intros <;> rfl

@[simp] theorem State.markSuspects_frame (s : State) :
    (s.markSuspects).lanes = s.lanes ∧ (∀ m, (s.markSuspects).lane m = s.lane m) ∧ (s.markSuspects).routes = s.routes
    ∧ (∀ i', (s.markSuspects).route i' = s.route i') ∧ (s.markSuspects).pool.ready = s.pool.ready
    ∧ (s.markSuspects).pool.buildStart = s.pool.buildStart ∧ (s.markSuspects).pool.freeCells = s.pool.freeCells
    ∧ (s.markSuspects).pool.freeDescs = s.pool.freeDescs ∧ (s.markSuspects).pool.links = s.pool.links
    ∧ (s.markSuspects).pool.lowThreshold = s.pool.lowThreshold ∧ (s.markSuspects).streams = s.streams
    ∧ (∀ t', (s.markSuspects).stream t' = s.stream t') ∧ (s.markSuspects).slots = s.slots
    ∧ (∀ k', (s.markSuspects).slot k' = s.slot k') ∧ (s.markSuspects).holdLimit = s.holdLimit
    ∧ (s.markSuspects).view = s.view ∧ (s.markSuspects).window = s.window ∧ (s.markSuspects).port = s.port
    ∧ (s.markSuspects).cmd = s.cmd ∧ (s.markSuspects).time = s.time ∧ (s.markSuspects).now = s.now
    ∧ (s.markSuspects).counts = s.counts ∧ (∀ l' k', (s.markSuspects).laneCount l' k' = s.laneCount l' k')
    ∧ (∀ t' k', (s.markSuspects).streamCount t' k' = s.streamCount t' k')
    ∧ (∀ k', (s.markSuspects).deviceCount k' = s.deviceCount k') ∧ (s.markSuspects).events = s.events
    ∧ (∀ e', (s.markSuspects).latched e' = s.latched e') ∧ (s.markSuspects).host = s.host
    ∧ (s.markSuspects).memory = s.memory ∧ (s.markSuspects).epoch = s.epoch ∧ (s.markSuspects).pending = s.pending := by
  unfold State.markSuspects; dsimp only; (repeat' split) <;> simp +contextual <;> (and_intros <;> intros <;> rfl)

@[simp] theorem State.lateRefresh_frame (s : State) :
    (s.lateRefresh).lanes = s.lanes ∧ (∀ m, (s.lateRefresh).lane m = s.lane m) ∧ (s.lateRefresh).routes = s.routes
    ∧ (∀ i', (s.lateRefresh).route i' = s.route i') ∧ (s.lateRefresh).pool.ready = s.pool.ready
    ∧ (s.lateRefresh).pool.buildStart = s.pool.buildStart ∧ (s.lateRefresh).pool.freeCells = s.pool.freeCells
    ∧ (s.lateRefresh).pool.freeDescs = s.pool.freeDescs ∧ (s.lateRefresh).pool.links = s.pool.links
    ∧ (s.lateRefresh).pool.lowThreshold = s.pool.lowThreshold ∧ (s.lateRefresh).streams = s.streams
    ∧ (∀ t', (s.lateRefresh).stream t' = s.stream t') ∧ (s.lateRefresh).slots = s.slots
    ∧ (∀ k', (s.lateRefresh).slot k' = s.slot k') ∧ (s.lateRefresh).holdLimit = s.holdLimit
    ∧ (s.lateRefresh).view = s.view ∧ (s.lateRefresh).window = s.window ∧ (s.lateRefresh).port = s.port
    ∧ (s.lateRefresh).cmd = s.cmd ∧ (s.lateRefresh).time = s.time ∧ (s.lateRefresh).now = s.now
    ∧ (s.lateRefresh).counts.lanes = s.counts.lanes ∧ (s.lateRefresh).counts.streams = s.counts.streams
    ∧ (s.lateRefresh).counts.completions = s.counts.completions
    ∧ (∀ l' k', (s.lateRefresh).laneCount l' k' = s.laneCount l' k')
    ∧ (∀ t' k', (s.lateRefresh).streamCount t' k' = s.streamCount t' k')
    ∧ (s.lateRefresh).events.enables = s.events.enables ∧ (s.lateRefresh).events.watermarks = s.events.watermarks
    ∧ (s.lateRefresh).events.watermarkEnables = s.events.watermarkEnables
    ∧ (s.lateRefresh).events.readyEnables = s.events.readyEnables
    ∧ (s.lateRefresh).events.latches &&& 0xFC08#16 = s.events.latches &&& 0xFC08#16 ∧ (s.lateRefresh).host = s.host
    ∧ (s.lateRefresh).memory = s.memory ∧ (s.lateRefresh).pending = s.pending := by
  simp +contextual [State.lateRefresh]

@[simp] theorem State.oweRefresh_frame (s : State) :
    (s.oweRefresh).lanes = s.lanes ∧ (∀ m, (s.oweRefresh).lane m = s.lane m) ∧ (s.oweRefresh).routes = s.routes
    ∧ (∀ i', (s.oweRefresh).route i' = s.route i') ∧ (s.oweRefresh).pool = s.pool
    ∧ (∀ d', (s.oweRefresh).desc d' = s.desc d') ∧ (s.oweRefresh).streams = s.streams
    ∧ (∀ t', (s.oweRefresh).stream t' = s.stream t') ∧ (s.oweRefresh).slots = s.slots
    ∧ (∀ k', (s.oweRefresh).slot k' = s.slot k') ∧ (s.oweRefresh).holdLimit = s.holdLimit
    ∧ (s.oweRefresh).view = s.view ∧ (s.oweRefresh).window = s.window ∧ (s.oweRefresh).port.op = s.port.op
    ∧ (s.oweRefresh).port.position = s.port.position ∧ (s.oweRefresh).port.interval = s.port.interval
    ∧ (s.oweRefresh).port.left = s.port.left ∧ (s.oweRefresh).port.nextSlice = s.port.nextSlice
    ∧ (s.oweRefresh).port.times = s.port.times
    ∧ (s.oweRefresh).cmd = s.cmd ∧ (s.oweRefresh).time = s.time ∧ (s.oweRefresh).now = s.now
    ∧ (s.oweRefresh).counts = s.counts ∧ (∀ l' k', (s.oweRefresh).laneCount l' k' = s.laneCount l' k')
    ∧ (∀ t' k', (s.oweRefresh).streamCount t' k' = s.streamCount t' k')
    ∧ (∀ k', (s.oweRefresh).deviceCount k' = s.deviceCount k') ∧ (s.oweRefresh).events = s.events
    ∧ (∀ e', (s.oweRefresh).latched e' = s.latched e') ∧ (s.oweRefresh).host = s.host
    ∧ (s.oweRefresh).memory = s.memory ∧ (s.oweRefresh).epoch = s.epoch ∧ (s.oweRefresh).pending = s.pending := by
  and_intros <;> intros <;> rfl

@[simp] theorem State.startInterval_frame (s : State) :
    (s.startInterval).lanes = s.lanes ∧ (∀ m, (s.startInterval).lane m = s.lane m)
    ∧ (s.startInterval).routes = s.routes ∧ (∀ i', (s.startInterval).route i' = s.route i')
    ∧ (s.startInterval).pool = s.pool ∧ (∀ d', (s.startInterval).desc d' = s.desc d')
    ∧ (s.startInterval).streams = s.streams ∧ (∀ t', (s.startInterval).stream t' = s.stream t')
    ∧ (s.startInterval).slots = s.slots ∧ (∀ k', (s.startInterval).slot k' = s.slot k')
    ∧ (s.startInterval).holdLimit = s.holdLimit ∧ (s.startInterval).view = s.view
    ∧ (s.startInterval).window = s.window ∧ (s.startInterval).port.op = s.port.op
    ∧ (s.startInterval).port.position = s.port.position ∧ (s.startInterval).port.balance = s.port.balance
    ∧ (s.startInterval).port.interval = s.port.interval ∧ (s.startInterval).port.nextSlice = s.port.nextSlice
    ∧ (s.startInterval).port.times.ends = s.port.times.ends
    ∧ (s.startInterval).cmd = s.cmd ∧ (s.startInterval).time = s.time ∧ (s.startInterval).now = s.now
    ∧ (s.startInterval).counts = s.counts ∧ (∀ l' k', (s.startInterval).laneCount l' k' = s.laneCount l' k')
    ∧ (∀ t' k', (s.startInterval).streamCount t' k' = s.streamCount t' k')
    ∧ (∀ k', (s.startInterval).deviceCount k' = s.deviceCount k') ∧ (s.startInterval).events = s.events
    ∧ (∀ e', (s.startInterval).latched e' = s.latched e') ∧ (s.startInterval).host = s.host
    ∧ (s.startInterval).memory = s.memory ∧ (s.startInterval).epoch = s.epoch ∧ (s.startInterval).pending = s.pending := by
  and_intros <;> intros <;> rfl

@[simp] theorem State.intervalExpiry_frame (s : State) :
    (s.intervalExpiry).lanes = s.lanes ∧ (∀ m, (s.intervalExpiry).lane m = s.lane m)
    ∧ (s.intervalExpiry).routes = s.routes ∧ (∀ i', (s.intervalExpiry).route i' = s.route i')
    ∧ (s.intervalExpiry).pool.ready = s.pool.ready ∧ (s.intervalExpiry).pool.buildStart = s.pool.buildStart
    ∧ (s.intervalExpiry).pool.freeCells = s.pool.freeCells ∧ (s.intervalExpiry).pool.freeDescs = s.pool.freeDescs
    ∧ (s.intervalExpiry).pool.links = s.pool.links ∧ (s.intervalExpiry).pool.lowThreshold = s.pool.lowThreshold
    ∧ (s.intervalExpiry).streams = s.streams ∧ (∀ t', (s.intervalExpiry).stream t' = s.stream t')
    ∧ (s.intervalExpiry).slots = s.slots ∧ (∀ k', (s.intervalExpiry).slot k' = s.slot k')
    ∧ (s.intervalExpiry).holdLimit = s.holdLimit ∧ (s.intervalExpiry).view = s.view
    ∧ (s.intervalExpiry).window = s.window ∧ (s.intervalExpiry).port.op = s.port.op
    ∧ (s.intervalExpiry).port.position = s.port.position ∧ (s.intervalExpiry).port.interval = s.port.interval
    ∧ (s.intervalExpiry).port.nextSlice = s.port.nextSlice ∧ (s.intervalExpiry).cmd = s.cmd
    ∧ (s.intervalExpiry).port.times.ends = s.port.times.ends
    ∧ (s.intervalExpiry).time = s.time ∧ (s.intervalExpiry).now = s.now
    ∧ (s.intervalExpiry).counts.lanes = s.counts.lanes ∧ (s.intervalExpiry).counts.streams = s.counts.streams
    ∧ (s.intervalExpiry).counts.completions = s.counts.completions
    ∧ (∀ l' k', (s.intervalExpiry).laneCount l' k' = s.laneCount l' k')
    ∧ (∀ t' k', (s.intervalExpiry).streamCount t' k' = s.streamCount t' k')
    ∧ (s.intervalExpiry).events.enables = s.events.enables
    ∧ (s.intervalExpiry).events.watermarks = s.events.watermarks
    ∧ (s.intervalExpiry).events.watermarkEnables = s.events.watermarkEnables
    ∧ (s.intervalExpiry).events.readyEnables = s.events.readyEnables
    ∧ (s.intervalExpiry).events.latches &&& 0xFC08#16 = s.events.latches &&& 0xFC08#16
    ∧ (s.intervalExpiry).host = s.host ∧ (s.intervalExpiry).memory = s.memory ∧ (s.intervalExpiry).pending = s.pending := by
  unfold State.intervalExpiry; (repeat' split) <;> simp +contextual

@[simp] theorem State.takeIntervals_frame (s : State) (n : Nat) :
    (s.takeIntervals n).lanes = s.lanes ∧ (∀ m, (s.takeIntervals n).lane m = s.lane m)
    ∧ (s.takeIntervals n).routes = s.routes ∧ (∀ i', (s.takeIntervals n).route i' = s.route i')
    ∧ (s.takeIntervals n).pool.ready = s.pool.ready ∧ (s.takeIntervals n).pool.buildStart = s.pool.buildStart
    ∧ (s.takeIntervals n).pool.freeCells = s.pool.freeCells ∧ (s.takeIntervals n).pool.freeDescs = s.pool.freeDescs
    ∧ (s.takeIntervals n).pool.links = s.pool.links ∧ (s.takeIntervals n).pool.lowThreshold = s.pool.lowThreshold
    ∧ (s.takeIntervals n).streams = s.streams ∧ (∀ t', (s.takeIntervals n).stream t' = s.stream t')
    ∧ (s.takeIntervals n).slots = s.slots ∧ (∀ k', (s.takeIntervals n).slot k' = s.slot k')
    ∧ (s.takeIntervals n).holdLimit = s.holdLimit ∧ (s.takeIntervals n).view = s.view
    ∧ (s.takeIntervals n).window = s.window ∧ (s.takeIntervals n).port.op = s.port.op
    ∧ (s.takeIntervals n).port.position = s.port.position ∧ (s.takeIntervals n).port.interval = s.port.interval
    ∧ (s.takeIntervals n).port.nextSlice = s.port.nextSlice ∧ (s.takeIntervals n).cmd = s.cmd
    ∧ (s.takeIntervals n).port.times.ends = s.port.times.ends
    ∧ (s.takeIntervals n).time = s.time ∧ (s.takeIntervals n).now = s.now
    ∧ (s.takeIntervals n).counts.lanes = s.counts.lanes ∧ (s.takeIntervals n).counts.streams = s.counts.streams
    ∧ (s.takeIntervals n).counts.completions = s.counts.completions
    ∧ (∀ l' k', (s.takeIntervals n).laneCount l' k' = s.laneCount l' k')
    ∧ (∀ t' k', (s.takeIntervals n).streamCount t' k' = s.streamCount t' k')
    ∧ (s.takeIntervals n).events.enables = s.events.enables
    ∧ (s.takeIntervals n).events.watermarks = s.events.watermarks
    ∧ (s.takeIntervals n).events.watermarkEnables = s.events.watermarkEnables
    ∧ (s.takeIntervals n).events.readyEnables = s.events.readyEnables
    ∧ (s.takeIntervals n).events.latches &&& 0xFC08#16 = s.events.latches &&& 0xFC08#16
    ∧ (s.takeIntervals n).host = s.host ∧ (s.takeIntervals n).memory = s.memory
    ∧ (s.takeIntervals n).pending = s.pending := by
  induction n generalizing s with
  | zero => simp [State.takeIntervals]
  | succ n ih => unfold State.takeIntervals; split <;> simp +contextual [ih]

@[simp] theorem State.examination_frame (s : State) (t : StreamId) :
    (s.examination t).lanes = s.lanes ∧ (∀ m, (s.examination t).lane m = s.lane m)
    ∧ (s.examination t).routes = s.routes ∧ (∀ i', (s.examination t).route i' = s.route i')
    ∧ (s.examination t).pool = s.pool ∧ (∀ d', (s.examination t).desc d' = s.desc d')
    ∧ (∀ t', ((s.examination t).stream t').entry = (s.stream t').entry)
    ∧ (∀ t', ((s.examination t).stream t').queue = (s.stream t').queue)
    ∧ (∀ t', ((s.examination t).stream t').heldCount = (s.stream t').heldCount)
    ∧ (∀ t', ((s.examination t).stream t').charge = (s.stream t').charge) ∧ (s.examination t).slots = s.slots
    ∧ (∀ k', (s.examination t).slot k' = s.slot k') ∧ (s.examination t).holdLimit = s.holdLimit
    ∧ (s.examination t).view = s.view ∧ (s.examination t).window = s.window ∧ (s.examination t).port = s.port
    ∧ (s.examination t).cmd = s.cmd ∧ (s.examination t).time = s.time ∧ (s.examination t).now = s.now
    ∧ (s.examination t).counts = s.counts ∧ (∀ l' k', (s.examination t).laneCount l' k' = s.laneCount l' k')
    ∧ (∀ t' k', (s.examination t).streamCount t' k' = s.streamCount t' k')
    ∧ (∀ k', (s.examination t).deviceCount k' = s.deviceCount k') ∧ (s.examination t).events = s.events
    ∧ (∀ e', (s.examination t).latched e' = s.latched e') ∧ (s.examination t).host = s.host
    ∧ (s.examination t).memory = s.memory ∧ (s.examination t).epoch = s.epoch ∧ (s.examination t).pending = s.pending := by
  simp +contextual [State.examination]

@[simp] theorem State.examined_frame (s : State) (t : StreamId) :
    (s.examined t).lanes = s.lanes ∧ (∀ m, (s.examined t).lane m = s.lane m) ∧ (s.examined t).routes = s.routes
    ∧ (∀ i', (s.examined t).route i' = s.route i') ∧ (s.examined t).pool = s.pool
    ∧ (∀ d', (s.examined t).desc d' = s.desc d') ∧ (∀ t', ((s.examined t).stream t').entry = (s.stream t').entry)
    ∧ (∀ t', ((s.examined t).stream t').queue = (s.stream t').queue)
    ∧ (∀ t', ((s.examined t).stream t').heldCount = (s.stream t').heldCount)
    ∧ (∀ t', ((s.examined t).stream t').charge = (s.stream t').charge) ∧ (s.examined t).slots = s.slots
    ∧ (∀ k', (s.examined t).slot k' = s.slot k') ∧ (s.examined t).holdLimit = s.holdLimit
    ∧ (s.examined t).view = s.view ∧ (s.examined t).window = s.window ∧ (s.examined t).port = s.port
    ∧ (s.examined t).cmd = s.cmd ∧ (s.examined t).time = s.time ∧ (s.examined t).now = s.now
    ∧ (s.examined t).counts = s.counts ∧ (∀ l' k', (s.examined t).laneCount l' k' = s.laneCount l' k')
    ∧ (∀ t' k', (s.examined t).streamCount t' k' = s.streamCount t' k')
    ∧ (∀ k', (s.examined t).deviceCount k' = s.deviceCount k') ∧ (s.examined t).events = s.events
    ∧ (∀ e', (s.examined t).latched e' = s.latched e') ∧ (s.examined t).host = s.host
    ∧ (s.examined t).memory = s.memory ∧ (s.examined t).epoch = s.epoch ∧ (s.examined t).pending = s.pending := by
  unfold State.examined; (repeat' split) <;> simp +contextual

@[simp] theorem State.ageOut_frame (s : State) (t : StreamId) (d : DescId) :
    (s.ageOut t d).lanes = s.lanes ∧ (∀ m, (s.ageOut t d).lane m = s.lane m) ∧ (s.ageOut t d).routes = s.routes
    ∧ (∀ i', (s.ageOut t d).route i' = s.route i') ∧ (s.ageOut t d).pool.ready = s.pool.ready
    ∧ (s.ageOut t d).pool.buildStart = s.pool.buildStart ∧ (s.ageOut t d).pool.lowThreshold = s.pool.lowThreshold
    ∧ (∀ t', ((s.ageOut t d).stream t').entry = (s.stream t').entry)
    ∧ (∀ t', ((s.ageOut t d).stream t').heldCount = (s.stream t').heldCount)
    ∧ (∀ t', ((s.ageOut t d).stream t').examine = (s.stream t').examine)
    ∧ (∀ t', ((s.ageOut t d).stream t').expired = (s.stream t').expired) ∧ (s.ageOut t d).slots = s.slots
    ∧ (∀ k', (s.ageOut t d).slot k' = s.slot k') ∧ (s.ageOut t d).holdLimit = s.holdLimit
    ∧ (s.ageOut t d).view = s.view ∧ (s.ageOut t d).window = s.window ∧ (s.ageOut t d).port = s.port
    ∧ (s.ageOut t d).cmd.code = s.cmd.code ∧ (s.ageOut t d).cmd.arg = s.cmd.arg
    ∧ (s.ageOut t d).cmd.argReg = s.cmd.argReg ∧ (s.ageOut t d).cmd.collision = s.cmd.collision
    ∧ (s.ageOut t d).cmd.image = s.cmd.image ∧ (s.ageOut t d).cmd.taken = s.cmd.taken
    ∧ (s.ageOut t d).cmd.capture = s.cmd.capture ∧ (s.ageOut t d).time = s.time ∧ (s.ageOut t d).now = s.now
    ∧ (s.ageOut t d).counts.lanes = s.counts.lanes ∧ (s.ageOut t d).counts.device = s.counts.device
    ∧ (s.ageOut t d).counts.completions = s.counts.completions
    ∧ (∀ l' k', (s.ageOut t d).laneCount l' k' = s.laneCount l' k')
    ∧ (∀ k', (s.ageOut t d).deviceCount k' = s.deviceCount k') ∧ (s.ageOut t d).events.enables = s.events.enables
    ∧ (s.ageOut t d).events.watermarks = s.events.watermarks
    ∧ (s.ageOut t d).events.watermarkEnables = s.events.watermarkEnables
    ∧ (s.ageOut t d).events.readyEnables = s.events.readyEnables
    ∧ (s.ageOut t d).events.latches &&& 0xFC08#16 = s.events.latches &&& 0xFC08#16 ∧ (s.ageOut t d).host = s.host
    ∧ (s.ageOut t d).memory = s.memory ∧ (s.ageOut t d).epoch = s.epoch ∧ (s.ageOut t d).pending = s.pending := by
  simp +contextual [State.ageOut]

@[simp] theorem State.ageStep_frame (s : State) (t : StreamId) :
    (s.ageStep t).lanes = s.lanes ∧ (∀ m, (s.ageStep t).lane m = s.lane m) ∧ (s.ageStep t).routes = s.routes
    ∧ (∀ i', (s.ageStep t).route i' = s.route i') ∧ (s.ageStep t).pool.ready = s.pool.ready
    ∧ (s.ageStep t).pool.buildStart = s.pool.buildStart ∧ (s.ageStep t).pool.lowThreshold = s.pool.lowThreshold
    ∧ (∀ t', ((s.ageStep t).stream t').entry = (s.stream t').entry)
    ∧ (∀ t', ((s.ageStep t).stream t').heldCount = (s.stream t').heldCount)
    ∧ (∀ t', ((s.ageStep t).stream t').examine = (s.stream t').examine)
    ∧ (∀ t', ((s.ageStep t).stream t').expired = (s.stream t').expired) ∧ (s.ageStep t).slots = s.slots
    ∧ (∀ k', (s.ageStep t).slot k' = s.slot k') ∧ (s.ageStep t).holdLimit = s.holdLimit ∧ (s.ageStep t).view = s.view
    ∧ (s.ageStep t).window = s.window ∧ (s.ageStep t).port = s.port ∧ (s.ageStep t).cmd.code = s.cmd.code
    ∧ (s.ageStep t).cmd.arg = s.cmd.arg ∧ (s.ageStep t).cmd.argReg = s.cmd.argReg
    ∧ (s.ageStep t).cmd.collision = s.cmd.collision ∧ (s.ageStep t).cmd.image = s.cmd.image
    ∧ (s.ageStep t).cmd.taken = s.cmd.taken ∧ (s.ageStep t).cmd.capture = s.cmd.capture ∧ (s.ageStep t).time = s.time
    ∧ (s.ageStep t).now = s.now ∧ (s.ageStep t).counts.lanes = s.counts.lanes
    ∧ (s.ageStep t).counts.device = s.counts.device ∧ (s.ageStep t).counts.completions = s.counts.completions
    ∧ (∀ l' k', (s.ageStep t).laneCount l' k' = s.laneCount l' k')
    ∧ (∀ k', (s.ageStep t).deviceCount k' = s.deviceCount k') ∧ (s.ageStep t).events.enables = s.events.enables
    ∧ (s.ageStep t).events.watermarks = s.events.watermarks
    ∧ (s.ageStep t).events.watermarkEnables = s.events.watermarkEnables
    ∧ (s.ageStep t).events.readyEnables = s.events.readyEnables
    ∧ (s.ageStep t).events.latches &&& 0xFC08#16 = s.events.latches &&& 0xFC08#16 ∧ (s.ageStep t).host = s.host
    ∧ (s.ageStep t).memory = s.memory ∧ (s.ageStep t).epoch = s.epoch ∧ (s.ageStep t).pending = s.pending := by
  unfold State.ageStep; (repeat' split) <;> simp +contextual

@[simp] theorem State.ageSteps_frame (s : State) (t : StreamId) (n : Nat) :
    (s.ageSteps t n).lanes = s.lanes ∧ (∀ m, (s.ageSteps t n).lane m = s.lane m) ∧ (s.ageSteps t n).routes = s.routes
    ∧ (∀ i', (s.ageSteps t n).route i' = s.route i') ∧ (s.ageSteps t n).pool.ready = s.pool.ready
    ∧ (s.ageSteps t n).pool.buildStart = s.pool.buildStart ∧ (s.ageSteps t n).pool.lowThreshold = s.pool.lowThreshold
    ∧ (∀ t', ((s.ageSteps t n).stream t').entry = (s.stream t').entry)
    ∧ (∀ t', ((s.ageSteps t n).stream t').heldCount = (s.stream t').heldCount)
    ∧ (∀ t', ((s.ageSteps t n).stream t').examine = (s.stream t').examine)
    ∧ (∀ t', ((s.ageSteps t n).stream t').expired = (s.stream t').expired) ∧ (s.ageSteps t n).slots = s.slots
    ∧ (∀ k', (s.ageSteps t n).slot k' = s.slot k') ∧ (s.ageSteps t n).holdLimit = s.holdLimit
    ∧ (s.ageSteps t n).view = s.view ∧ (s.ageSteps t n).window = s.window ∧ (s.ageSteps t n).port = s.port
    ∧ (s.ageSteps t n).cmd.code = s.cmd.code ∧ (s.ageSteps t n).cmd.arg = s.cmd.arg
    ∧ (s.ageSteps t n).cmd.argReg = s.cmd.argReg ∧ (s.ageSteps t n).cmd.collision = s.cmd.collision
    ∧ (s.ageSteps t n).cmd.image = s.cmd.image ∧ (s.ageSteps t n).cmd.taken = s.cmd.taken
    ∧ (s.ageSteps t n).cmd.capture = s.cmd.capture ∧ (s.ageSteps t n).time = s.time ∧ (s.ageSteps t n).now = s.now
    ∧ (s.ageSteps t n).counts.lanes = s.counts.lanes ∧ (s.ageSteps t n).counts.device = s.counts.device
    ∧ (s.ageSteps t n).counts.completions = s.counts.completions
    ∧ (∀ l' k', (s.ageSteps t n).laneCount l' k' = s.laneCount l' k')
    ∧ (∀ k', (s.ageSteps t n).deviceCount k' = s.deviceCount k') ∧ (s.ageSteps t n).events.enables = s.events.enables
    ∧ (s.ageSteps t n).events.watermarks = s.events.watermarks
    ∧ (s.ageSteps t n).events.watermarkEnables = s.events.watermarkEnables
    ∧ (s.ageSteps t n).events.readyEnables = s.events.readyEnables
    ∧ (s.ageSteps t n).events.latches &&& 0xFC08#16 = s.events.latches &&& 0xFC08#16 ∧ (s.ageSteps t n).host = s.host
    ∧ (s.ageSteps t n).memory = s.memory ∧ (s.ageSteps t n).epoch = s.epoch ∧ (s.ageSteps t n).pending = s.pending := by
  induction n generalizing s with
  | zero => simp [State.ageSteps]
  | succ n ih => unfold State.ageSteps; simp +contextual [ih]

@[simp] theorem State.finishAges_frame (s : State) (t : StreamId) :
    (s.finishAges t).lanes = s.lanes ∧ (∀ m, (s.finishAges t).lane m = s.lane m) ∧ (s.finishAges t).routes = s.routes
    ∧ (∀ i', (s.finishAges t).route i' = s.route i') ∧ (s.finishAges t).pool.ready = s.pool.ready
    ∧ (s.finishAges t).pool.buildStart = s.pool.buildStart ∧ (s.finishAges t).pool.lowThreshold = s.pool.lowThreshold
    ∧ (∀ t', ((s.finishAges t).stream t').entry = (s.stream t').entry)
    ∧ (∀ t', ((s.finishAges t).stream t').heldCount = (s.stream t').heldCount) ∧ (s.finishAges t).slots = s.slots
    ∧ (∀ k', (s.finishAges t).slot k' = s.slot k') ∧ (s.finishAges t).holdLimit = s.holdLimit
    ∧ (s.finishAges t).view = s.view ∧ (s.finishAges t).window = s.window ∧ (s.finishAges t).port = s.port
    ∧ (s.finishAges t).cmd.code = s.cmd.code ∧ (s.finishAges t).cmd.arg = s.cmd.arg
    ∧ (s.finishAges t).cmd.argReg = s.cmd.argReg ∧ (s.finishAges t).cmd.collision = s.cmd.collision
    ∧ (s.finishAges t).cmd.image = s.cmd.image ∧ (s.finishAges t).cmd.taken = s.cmd.taken
    ∧ (s.finishAges t).cmd.capture = s.cmd.capture ∧ (s.finishAges t).time = s.time ∧ (s.finishAges t).now = s.now
    ∧ (s.finishAges t).counts.lanes = s.counts.lanes ∧ (s.finishAges t).counts.device = s.counts.device
    ∧ (s.finishAges t).counts.completions = s.counts.completions
    ∧ (∀ l' k', (s.finishAges t).laneCount l' k' = s.laneCount l' k')
    ∧ (∀ k', (s.finishAges t).deviceCount k' = s.deviceCount k') ∧ (s.finishAges t).events.enables = s.events.enables
    ∧ (s.finishAges t).events.watermarks = s.events.watermarks
    ∧ (s.finishAges t).events.watermarkEnables = s.events.watermarkEnables
    ∧ (s.finishAges t).events.readyEnables = s.events.readyEnables
    ∧ (s.finishAges t).events.latches &&& 0xFC08#16 = s.events.latches &&& 0xFC08#16 ∧ (s.finishAges t).host = s.host
    ∧ (s.finishAges t).memory = s.memory ∧ (s.finishAges t).epoch = s.epoch ∧ (s.finishAges t).pending = s.pending := by
  simp +contextual [State.finishAges]

@[simp] theorem State.expireHold_frame (s : State) (i : SlotId) (h : Holding) :
    (s.expireHold i h).lanes = s.lanes ∧ (∀ m, (s.expireHold i h).lane m = s.lane m)
    ∧ (s.expireHold i h).routes = s.routes ∧ (∀ i', (s.expireHold i h).route i' = s.route i')
    ∧ (s.expireHold i h).pool.ready = s.pool.ready ∧ (s.expireHold i h).pool.buildStart = s.pool.buildStart
    ∧ (s.expireHold i h).pool.freeCells = s.pool.freeCells ∧ (s.expireHold i h).pool.freeDescs = s.pool.freeDescs
    ∧ (s.expireHold i h).pool.links = s.pool.links ∧ (s.expireHold i h).pool.lowThreshold = s.pool.lowThreshold
    ∧ (∀ t', ((s.expireHold i h).stream t').entry = (s.stream t').entry)
    ∧ (∀ t', ((s.expireHold i h).stream t').charge = (s.stream t').charge)
    ∧ (∀ t', ((s.expireHold i h).stream t').examine = (s.stream t').examine)
    ∧ (s.expireHold i h).holdLimit = s.holdLimit ∧ (s.expireHold i h).view = s.view
    ∧ (s.expireHold i h).window.handleReg = s.window.handleReg ∧ (s.expireHold i h).window.pointed = s.window.pointed
    ∧ (s.expireHold i h).window.offset = s.window.offset ∧ (s.expireHold i h).window.pastEnd = s.window.pastEnd
    ∧ (s.expireHold i h).port.position = s.port.position ∧ (s.expireHold i h).port.balance = s.port.balance
    ∧ (s.expireHold i h).port.interval = s.port.interval ∧ (s.expireHold i h).port.left = s.port.left
    ∧ (s.expireHold i h).port.nextSlice = s.port.nextSlice ∧ (s.expireHold i h).cmd.code = s.cmd.code
    ∧ (s.expireHold i h).port.times = s.port.times
    ∧ (s.expireHold i h).cmd.arg = s.cmd.arg ∧ (s.expireHold i h).cmd.argReg = s.cmd.argReg
    ∧ (s.expireHold i h).cmd.collision = s.cmd.collision ∧ (s.expireHold i h).cmd.image = s.cmd.image
    ∧ (s.expireHold i h).cmd.taken = s.cmd.taken ∧ (s.expireHold i h).cmd.capture = s.cmd.capture
    ∧ (s.expireHold i h).time = s.time ∧ (s.expireHold i h).now = s.now
    ∧ (s.expireHold i h).counts.lanes = s.counts.lanes ∧ (s.expireHold i h).counts.streams = s.counts.streams
    ∧ (s.expireHold i h).counts.completions = s.counts.completions
    ∧ (∀ l' k', (s.expireHold i h).laneCount l' k' = s.laneCount l' k')
    ∧ (∀ t' k', (s.expireHold i h).streamCount t' k' = s.streamCount t' k')
    ∧ (s.expireHold i h).events.enables = s.events.enables
    ∧ (s.expireHold i h).events.watermarks = s.events.watermarks
    ∧ (s.expireHold i h).events.watermarkEnables = s.events.watermarkEnables
    ∧ (s.expireHold i h).events.readyEnables = s.events.readyEnables
    ∧ (s.expireHold i h).events.latches &&& 0xFC08#16 = s.events.latches &&& 0xFC08#16
    ∧ (s.expireHold i h).host.resetHigh = s.host.resetHigh ∧ (s.expireHold i h).memory = s.memory
    ∧ (s.expireHold i h).epoch = s.epoch ∧ (s.expireHold i h).pending = s.pending := by
  simp +contextual [State.expireHold]

@[simp] theorem State.holdStep_frame (s : State) :
    (s.holdStep).lanes = s.lanes ∧ (∀ m, (s.holdStep).lane m = s.lane m) ∧ (s.holdStep).routes = s.routes
    ∧ (∀ i', (s.holdStep).route i' = s.route i') ∧ (s.holdStep).pool.ready = s.pool.ready
    ∧ (s.holdStep).pool.buildStart = s.pool.buildStart ∧ (s.holdStep).pool.freeCells = s.pool.freeCells
    ∧ (s.holdStep).pool.freeDescs = s.pool.freeDescs ∧ (s.holdStep).pool.links = s.pool.links
    ∧ (s.holdStep).pool.lowThreshold = s.pool.lowThreshold
    ∧ (∀ t', ((s.holdStep).stream t').entry = (s.stream t').entry)
    ∧ (∀ t', ((s.holdStep).stream t').charge = (s.stream t').charge)
    ∧ (∀ t', ((s.holdStep).stream t').examine = (s.stream t').examine) ∧ (s.holdStep).holdLimit = s.holdLimit
    ∧ (s.holdStep).view = s.view ∧ (s.holdStep).window.handleReg = s.window.handleReg
    ∧ (s.holdStep).window.pointed = s.window.pointed ∧ (s.holdStep).window.offset = s.window.offset
    ∧ (s.holdStep).window.pastEnd = s.window.pastEnd ∧ (s.holdStep).port.position = s.port.position
    ∧ (s.holdStep).port.balance = s.port.balance ∧ (s.holdStep).port.interval = s.port.interval
    ∧ (s.holdStep).port.left = s.port.left ∧ (s.holdStep).port.nextSlice = s.port.nextSlice
    ∧ (s.holdStep).port.times = s.port.times
    ∧ (s.holdStep).cmd.code = s.cmd.code ∧ (s.holdStep).cmd.arg = s.cmd.arg ∧ (s.holdStep).cmd.argReg = s.cmd.argReg
    ∧ (s.holdStep).cmd.collision = s.cmd.collision ∧ (s.holdStep).cmd.image = s.cmd.image
    ∧ (s.holdStep).cmd.taken = s.cmd.taken ∧ (s.holdStep).cmd.capture = s.cmd.capture ∧ (s.holdStep).time = s.time
    ∧ (s.holdStep).now = s.now ∧ (s.holdStep).counts.lanes = s.counts.lanes
    ∧ (s.holdStep).counts.streams = s.counts.streams ∧ (s.holdStep).counts.completions = s.counts.completions
    ∧ (∀ l' k', (s.holdStep).laneCount l' k' = s.laneCount l' k')
    ∧ (∀ t' k', (s.holdStep).streamCount t' k' = s.streamCount t' k') ∧ (s.holdStep).events.enables = s.events.enables
    ∧ (s.holdStep).events.watermarks = s.events.watermarks
    ∧ (s.holdStep).events.watermarkEnables = s.events.watermarkEnables
    ∧ (s.holdStep).events.readyEnables = s.events.readyEnables
    ∧ (s.holdStep).events.latches &&& 0xFC08#16 = s.events.latches &&& 0xFC08#16
    ∧ (s.holdStep).host.resetHigh = s.host.resetHigh ∧ (s.holdStep).memory = s.memory ∧ (s.holdStep).epoch = s.epoch
    ∧ (s.holdStep).pending = s.pending := by
  unfold State.holdStep; (repeat' split) <;> simp +contextual

@[simp] theorem State.holdSteps_frame (s : State) (n : Nat) :
    (s.holdSteps n).lanes = s.lanes ∧ (∀ m, (s.holdSteps n).lane m = s.lane m) ∧ (s.holdSteps n).routes = s.routes
    ∧ (∀ i', (s.holdSteps n).route i' = s.route i') ∧ (s.holdSteps n).pool.ready = s.pool.ready
    ∧ (s.holdSteps n).pool.buildStart = s.pool.buildStart ∧ (s.holdSteps n).pool.freeCells = s.pool.freeCells
    ∧ (s.holdSteps n).pool.freeDescs = s.pool.freeDescs ∧ (s.holdSteps n).pool.links = s.pool.links
    ∧ (s.holdSteps n).pool.lowThreshold = s.pool.lowThreshold
    ∧ (∀ t', ((s.holdSteps n).stream t').entry = (s.stream t').entry)
    ∧ (∀ t', ((s.holdSteps n).stream t').charge = (s.stream t').charge)
    ∧ (∀ t', ((s.holdSteps n).stream t').examine = (s.stream t').examine) ∧ (s.holdSteps n).holdLimit = s.holdLimit
    ∧ (s.holdSteps n).view = s.view ∧ (s.holdSteps n).window.handleReg = s.window.handleReg
    ∧ (s.holdSteps n).window.pointed = s.window.pointed ∧ (s.holdSteps n).window.offset = s.window.offset
    ∧ (s.holdSteps n).window.pastEnd = s.window.pastEnd ∧ (s.holdSteps n).port.position = s.port.position
    ∧ (s.holdSteps n).port.balance = s.port.balance ∧ (s.holdSteps n).port.interval = s.port.interval
    ∧ (s.holdSteps n).port.left = s.port.left ∧ (s.holdSteps n).port.nextSlice = s.port.nextSlice
    ∧ (s.holdSteps n).port.times = s.port.times
    ∧ (s.holdSteps n).cmd.code = s.cmd.code ∧ (s.holdSteps n).cmd.arg = s.cmd.arg
    ∧ (s.holdSteps n).cmd.argReg = s.cmd.argReg ∧ (s.holdSteps n).cmd.collision = s.cmd.collision
    ∧ (s.holdSteps n).cmd.image = s.cmd.image ∧ (s.holdSteps n).cmd.taken = s.cmd.taken
    ∧ (s.holdSteps n).cmd.capture = s.cmd.capture ∧ (s.holdSteps n).time = s.time ∧ (s.holdSteps n).now = s.now
    ∧ (s.holdSteps n).counts.lanes = s.counts.lanes ∧ (s.holdSteps n).counts.streams = s.counts.streams
    ∧ (s.holdSteps n).counts.completions = s.counts.completions
    ∧ (∀ l' k', (s.holdSteps n).laneCount l' k' = s.laneCount l' k')
    ∧ (∀ t' k', (s.holdSteps n).streamCount t' k' = s.streamCount t' k')
    ∧ (s.holdSteps n).events.enables = s.events.enables ∧ (s.holdSteps n).events.watermarks = s.events.watermarks
    ∧ (s.holdSteps n).events.watermarkEnables = s.events.watermarkEnables
    ∧ (s.holdSteps n).events.readyEnables = s.events.readyEnables
    ∧ (s.holdSteps n).events.latches &&& 0xFC08#16 = s.events.latches &&& 0xFC08#16
    ∧ (s.holdSteps n).host.resetHigh = s.host.resetHigh ∧ (s.holdSteps n).memory = s.memory
    ∧ (s.holdSteps n).epoch = s.epoch ∧ (s.holdSteps n).pending = s.pending := by
  induction n generalizing s with
  | zero => simp [State.holdSteps]
  | succ n ih => unfold State.holdSteps; simp +contextual [ih]

@[simp] theorem State.finishBuild_frame (s : State) :
    (s.finishBuild).lanes = s.lanes ∧ (∀ m, (s.finishBuild).lane m = s.lane m) ∧ (s.finishBuild).routes = s.routes
    ∧ (∀ i', (s.finishBuild).route i' = s.route i') ∧ (s.finishBuild).pool.buildStart = s.pool.buildStart
    ∧ (s.finishBuild).pool.lowThreshold = s.pool.lowThreshold ∧ (s.finishBuild).streams = s.streams
    ∧ (∀ t', (s.finishBuild).stream t' = s.stream t') ∧ (s.finishBuild).slots = s.slots
    ∧ (∀ k', (s.finishBuild).slot k' = s.slot k') ∧ (s.finishBuild).holdLimit = s.holdLimit
    ∧ (s.finishBuild).view = s.view ∧ (s.finishBuild).window = s.window ∧ (s.finishBuild).port = s.port
    ∧ (s.finishBuild).cmd = s.cmd ∧ (s.finishBuild).time = s.time ∧ (s.finishBuild).now = s.now
    ∧ (s.finishBuild).counts = s.counts ∧ (∀ l' k', (s.finishBuild).laneCount l' k' = s.laneCount l' k')
    ∧ (∀ t' k', (s.finishBuild).streamCount t' k' = s.streamCount t' k')
    ∧ (∀ k', (s.finishBuild).deviceCount k' = s.deviceCount k') ∧ (s.finishBuild).events = s.events
    ∧ (∀ e', (s.finishBuild).latched e' = s.latched e') ∧ (s.finishBuild).host = s.host
    ∧ (s.finishBuild).memory = s.memory ∧ (s.finishBuild).epoch = s.epoch ∧ (s.finishBuild).pending = s.pending := by
  and_intros <;> intros <;> rfl

@[simp] theorem State.buildStep_frame (s : State) :
    (s.buildStep).lanes = s.lanes ∧ (∀ m, (s.buildStep).lane m = s.lane m) ∧ (s.buildStep).routes = s.routes
    ∧ (∀ i', (s.buildStep).route i' = s.route i') ∧ (s.buildStep).pool.buildStart = s.pool.buildStart
    ∧ (s.buildStep).pool.lowThreshold = s.pool.lowThreshold ∧ (s.buildStep).streams = s.streams
    ∧ (∀ t', (s.buildStep).stream t' = s.stream t') ∧ (s.buildStep).slots = s.slots
    ∧ (∀ k', (s.buildStep).slot k' = s.slot k') ∧ (s.buildStep).holdLimit = s.holdLimit
    ∧ (s.buildStep).view = s.view ∧ (s.buildStep).window = s.window ∧ (s.buildStep).port = s.port
    ∧ (s.buildStep).cmd = s.cmd ∧ (s.buildStep).time = s.time ∧ (s.buildStep).now = s.now
    ∧ (s.buildStep).counts = s.counts ∧ (∀ l' k', (s.buildStep).laneCount l' k' = s.laneCount l' k')
    ∧ (∀ t' k', (s.buildStep).streamCount t' k' = s.streamCount t' k')
    ∧ (∀ k', (s.buildStep).deviceCount k' = s.deviceCount k') ∧ (s.buildStep).events = s.events
    ∧ (∀ e', (s.buildStep).latched e' = s.latched e') ∧ (s.buildStep).host = s.host
    ∧ (s.buildStep).memory = s.memory ∧ (s.buildStep).epoch = s.epoch ∧ (s.buildStep).pending = s.pending := by
  unfold State.buildStep; split <;> simp

@[simp] theorem State.finishMicrosecond_frame (s : State) :
    (∀ m, ((s.finishMicrosecond).lane m).entry = (s.lane m).entry)
    ∧ (s.finishMicrosecond).routes = s.routes ∧ (∀ i', (s.finishMicrosecond).route i' = s.route i')
    ∧ (s.finishMicrosecond).pool.buildStart = s.pool.buildStart
    ∧ (s.finishMicrosecond).pool.lowThreshold = s.pool.lowThreshold
    ∧ (∀ t', ((s.finishMicrosecond).stream t').entry = (s.stream t').entry)
    ∧ (s.finishMicrosecond).holdLimit = s.holdLimit ∧ (s.finishMicrosecond).view = s.view
    ∧ (s.finishMicrosecond).window.handleReg = s.window.handleReg
    ∧ (s.finishMicrosecond).window.pointed = s.window.pointed ∧ (s.finishMicrosecond).window.offset = s.window.offset
    ∧ (s.finishMicrosecond).window.pastEnd = s.window.pastEnd ∧ (s.finishMicrosecond).port.position = s.port.position
    ∧ (s.finishMicrosecond).port.interval = s.port.interval ∧ (s.finishMicrosecond).port.nextSlice = s.port.nextSlice
    ∧ (s.finishMicrosecond).port.times.ends = s.port.times.ends
    ∧ (s.finishMicrosecond).cmd.code = s.cmd.code ∧ (s.finishMicrosecond).cmd.arg = s.cmd.arg
    ∧ (s.finishMicrosecond).cmd.argReg = s.cmd.argReg ∧ (s.finishMicrosecond).cmd.collision = s.cmd.collision
    ∧ (s.finishMicrosecond).cmd.image = s.cmd.image ∧ (s.finishMicrosecond).cmd.taken = s.cmd.taken
    ∧ (s.finishMicrosecond).cmd.capture = s.cmd.capture ∧ (s.finishMicrosecond).time = s.time
    ∧ (s.finishMicrosecond).now = s.now
    ∧ (s.finishMicrosecond).counts.completions = s.counts.completions
    ∧ (s.finishMicrosecond).events.enables = s.events.enables
    ∧ (s.finishMicrosecond).events.watermarks = s.events.watermarks
    ∧ (s.finishMicrosecond).events.watermarkEnables = s.events.watermarkEnables
    ∧ (s.finishMicrosecond).events.readyEnables = s.events.readyEnables
    ∧ (s.finishMicrosecond).events.latches &&& 0xFC08#16 = s.events.latches &&& 0xFC08#16
    ∧ (s.finishMicrosecond).host.resetHigh = s.host.resetHigh ∧ (s.finishMicrosecond).memory = s.memory
    ∧ (s.finishMicrosecond).pending = s.pending := by
  unfold State.finishMicrosecond; generalize List.finRange 32 = ls; simp; induction ls generalizing s with
  | nil => simp
  | cons d ds ih => simp +contextual [ih]

@[simp] theorem State.advance_frame (s : State) :
    (s.advance).lanes = s.lanes ∧ (∀ m, (s.advance).lane m = s.lane m) ∧ (s.advance).routes = s.routes
    ∧ (∀ i', (s.advance).route i' = s.route i') ∧ (s.advance).pool = s.pool ∧ (∀ d', (s.advance).desc d' = s.desc d')
    ∧ (s.advance).streams = s.streams ∧ (∀ t', (s.advance).stream t' = s.stream t') ∧ (s.advance).slots = s.slots
    ∧ (∀ k', (s.advance).slot k' = s.slot k') ∧ (s.advance).holdLimit = s.holdLimit ∧ (s.advance).view = s.view
    ∧ (s.advance).window = s.window ∧ (s.advance).port.op = s.port.op ∧ (s.advance).port.position = s.port.position
    ∧ (s.advance).port.balance = s.port.balance ∧ (s.advance).port.interval = s.port.interval
    ∧ (s.advance).port.nextSlice = s.port.nextSlice ∧ (s.advance).cmd = s.cmd
    ∧ (s.advance).time.hiHold = s.time.hiHold ∧ (s.advance).counts = s.counts
    ∧ (∀ l' k', (s.advance).laneCount l' k' = s.laneCount l' k')
    ∧ (∀ t' k', (s.advance).streamCount t' k' = s.streamCount t' k')
    ∧ (∀ k', (s.advance).deviceCount k' = s.deviceCount k') ∧ (s.advance).events = s.events
    ∧ (∀ e', (s.advance).latched e' = s.latched e') ∧ (s.advance).host = s.host ∧ (s.advance).memory = s.memory
    ∧ (s.advance).epoch = s.epoch ∧ (s.advance).pending = s.pending := by
  and_intros <;> intros <;> rfl

@[simp] theorem State.tick_frame (s : State) :
    (s.tick).lanes = s.lanes ∧ (∀ m, (s.tick).lane m = s.lane m) ∧ (s.tick).routes = s.routes
    ∧ (∀ i', (s.tick).route i' = s.route i') ∧ (s.tick).pool = s.pool ∧ (∀ d', (s.tick).desc d' = s.desc d')
    ∧ (∀ t', ((s.tick).stream t').entry = (s.stream t').entry)
    ∧ (∀ t', ((s.tick).stream t').queue = (s.stream t').queue)
    ∧ (∀ t', ((s.tick).stream t').heldCount = (s.stream t').heldCount)
    ∧ (∀ t', ((s.tick).stream t').charge = (s.stream t').charge) ∧ (s.tick).slots = s.slots
    ∧ (∀ k', (s.tick).slot k' = s.slot k') ∧ (s.tick).holdLimit = s.holdLimit ∧ (s.tick).view = s.view
    ∧ (s.tick).window = s.window ∧ (s.tick).port = s.port ∧ (s.tick).cmd = s.cmd ∧ (s.tick).time.count = s.time.count
    ∧ (s.tick).time.sub = s.time.sub ∧ (s.tick).time.hiHold = s.time.hiHold ∧ (s.tick).now = s.now
    ∧ (s.tick).counts = s.counts ∧ (∀ l' k', (s.tick).laneCount l' k' = s.laneCount l' k')
    ∧ (∀ t' k', (s.tick).streamCount t' k' = s.streamCount t' k') ∧ (∀ k', (s.tick).deviceCount k' = s.deviceCount k')
    ∧ (s.tick).events = s.events ∧ (∀ e', (s.tick).latched e' = s.latched e') ∧ (s.tick).host = s.host
    ∧ (s.tick).memory = s.memory ∧ (s.tick).epoch = s.epoch ∧ (s.tick).pending = s.pending := by
  and_intros <;> intros <;> first | rfl | (simp [State.tick, State.stream, Stream.atTick])

@[simp] theorem State.countMicrosecond_frame (s : State) :
    (s.countMicrosecond).lanes = s.lanes ∧ (∀ m, (s.countMicrosecond).lane m = s.lane m)
    ∧ (s.countMicrosecond).routes = s.routes ∧ (∀ i', (s.countMicrosecond).route i' = s.route i')
    ∧ (s.countMicrosecond).pool = s.pool ∧ (∀ d', (s.countMicrosecond).desc d' = s.desc d')
    ∧ (∀ t', ((s.countMicrosecond).stream t').entry = (s.stream t').entry)
    ∧ (∀ t', ((s.countMicrosecond).stream t').queue = (s.stream t').queue)
    ∧ (∀ t', ((s.countMicrosecond).stream t').heldCount = (s.stream t').heldCount)
    ∧ (∀ t', ((s.countMicrosecond).stream t').charge = (s.stream t').charge) ∧ (s.countMicrosecond).slots = s.slots
    ∧ (∀ k', (s.countMicrosecond).slot k' = s.slot k') ∧ (s.countMicrosecond).holdLimit = s.holdLimit
    ∧ (s.countMicrosecond).view = s.view ∧ (s.countMicrosecond).window = s.window
    ∧ (s.countMicrosecond).port.op = s.port.op ∧ (s.countMicrosecond).port.position = s.port.position
    ∧ (s.countMicrosecond).port.balance = s.port.balance ∧ (s.countMicrosecond).port.interval = s.port.interval
    ∧ (s.countMicrosecond).port.nextSlice = s.port.nextSlice ∧ (s.countMicrosecond).cmd = s.cmd
    ∧ (s.countMicrosecond).time.hiHold = s.time.hiHold ∧ (s.countMicrosecond).counts = s.counts
    ∧ (∀ l' k', (s.countMicrosecond).laneCount l' k' = s.laneCount l' k')
    ∧ (∀ t' k', (s.countMicrosecond).streamCount t' k' = s.streamCount t' k')
    ∧ (∀ k', (s.countMicrosecond).deviceCount k' = s.deviceCount k') ∧ (s.countMicrosecond).events = s.events
    ∧ (∀ e', (s.countMicrosecond).latched e' = s.latched e') ∧ (s.countMicrosecond).host = s.host
    ∧ (s.countMicrosecond).memory = s.memory ∧ (s.countMicrosecond).epoch = s.epoch
    ∧ (s.countMicrosecond).pending = s.pending := by
  unfold State.countMicrosecond; (repeat' split) <;> simp +contextual

@[simp] theorem State.nextMicrosecond_frame (s : State) :
    (∀ m, ((s.nextMicrosecond).lane m).entry = (s.lane m).entry)
    ∧ (s.nextMicrosecond).routes = s.routes ∧ (∀ i', (s.nextMicrosecond).route i' = s.route i')
    ∧ (s.nextMicrosecond).pool.buildStart = s.pool.buildStart
    ∧ (s.nextMicrosecond).pool.lowThreshold = s.pool.lowThreshold
    ∧ (∀ t', ((s.nextMicrosecond).stream t').entry = (s.stream t').entry)
    ∧ (s.nextMicrosecond).holdLimit = s.holdLimit ∧ (s.nextMicrosecond).view = s.view
    ∧ (s.nextMicrosecond).window.handleReg = s.window.handleReg
    ∧ (s.nextMicrosecond).window.pointed = s.window.pointed ∧ (s.nextMicrosecond).window.offset = s.window.offset
    ∧ (s.nextMicrosecond).window.pastEnd = s.window.pastEnd ∧ (s.nextMicrosecond).port.position = s.port.position
    ∧ (s.nextMicrosecond).port.interval = s.port.interval ∧ (s.nextMicrosecond).port.nextSlice = s.port.nextSlice
    ∧ (s.nextMicrosecond).cmd.code = s.cmd.code ∧ (s.nextMicrosecond).cmd.arg = s.cmd.arg
    ∧ (s.nextMicrosecond).cmd.argReg = s.cmd.argReg ∧ (s.nextMicrosecond).cmd.collision = s.cmd.collision
    ∧ (s.nextMicrosecond).cmd.image = s.cmd.image ∧ (s.nextMicrosecond).cmd.taken = s.cmd.taken
    ∧ (s.nextMicrosecond).cmd.capture = s.cmd.capture ∧ (s.nextMicrosecond).time.hiHold = s.time.hiHold
    ∧ (s.nextMicrosecond).counts.completions = s.counts.completions
    ∧ (s.nextMicrosecond).events.enables = s.events.enables
    ∧ (s.nextMicrosecond).events.watermarks = s.events.watermarks
    ∧ (s.nextMicrosecond).events.watermarkEnables = s.events.watermarkEnables
    ∧ (s.nextMicrosecond).events.readyEnables = s.events.readyEnables
    ∧ (s.nextMicrosecond).events.latches &&& 0xFC08#16 = s.events.latches &&& 0xFC08#16
    ∧ (s.nextMicrosecond).host.resetHigh = s.host.resetHigh ∧ (s.nextMicrosecond).memory = s.memory
    ∧ (s.nextMicrosecond).pending = s.pending := by
  simp +contextual [State.nextMicrosecond]

@[simp] theorem State.hold_frame (s : State) (t : StreamId) (d : DescId) (i : SlotId) :
    (s.hold t d i).lanes = s.lanes ∧ (∀ m, (s.hold t d i).lane m = s.lane m) ∧ (s.hold t d i).routes = s.routes
    ∧ (∀ i', (s.hold t d i).route i' = s.route i') ∧ (s.hold t d i).pool.ready = s.pool.ready
    ∧ (s.hold t d i).pool.buildStart = s.pool.buildStart ∧ (s.hold t d i).pool.freeCells = s.pool.freeCells
    ∧ (s.hold t d i).pool.freeDescs = s.pool.freeDescs ∧ (s.hold t d i).pool.links = s.pool.links
    ∧ (s.hold t d i).pool.lowThreshold = s.pool.lowThreshold
    ∧ (∀ t', ((s.hold t d i).stream t').entry = (s.stream t').entry)
    ∧ (∀ t', ((s.hold t d i).stream t').charge = (s.stream t').charge)
    ∧ (∀ t', ((s.hold t d i).stream t').examine = (s.stream t').examine)
    ∧ (∀ t', ((s.hold t d i).stream t').expired = (s.stream t').expired) ∧ (s.hold t d i).holdLimit = s.holdLimit
    ∧ (s.hold t d i).window = s.window ∧ (s.hold t d i).port = s.port ∧ (s.hold t d i).cmd = s.cmd
    ∧ (s.hold t d i).time = s.time ∧ (s.hold t d i).now = s.now ∧ (s.hold t d i).counts.lanes = s.counts.lanes
    ∧ (s.hold t d i).counts.device = s.counts.device ∧ (s.hold t d i).counts.completions = s.counts.completions
    ∧ (∀ l' k', (s.hold t d i).laneCount l' k' = s.laneCount l' k')
    ∧ (∀ k', (s.hold t d i).deviceCount k' = s.deviceCount k') ∧ (s.hold t d i).events = s.events
    ∧ (∀ e', (s.hold t d i).latched e' = s.latched e') ∧ (s.hold t d i).host = s.host
    ∧ (s.hold t d i).memory = s.memory ∧ (s.hold t d i).epoch = s.epoch ∧ (s.hold t d i).pending = s.pending := by
  unfold State.hold; dsimp only; simp +contextual

@[simp] theorem State.doTake_frame (s : State) (t : StreamId) :
    (s.doTake t).lanes = s.lanes ∧ (∀ m, (s.doTake t).lane m = s.lane m) ∧ (s.doTake t).routes = s.routes
    ∧ (∀ i', (s.doTake t).route i' = s.route i') ∧ (s.doTake t).pool.ready = s.pool.ready
    ∧ (s.doTake t).pool.buildStart = s.pool.buildStart ∧ (s.doTake t).pool.freeCells = s.pool.freeCells
    ∧ (s.doTake t).pool.freeDescs = s.pool.freeDescs ∧ (s.doTake t).pool.links = s.pool.links
    ∧ (s.doTake t).pool.lowThreshold = s.pool.lowThreshold
    ∧ (∀ t', ((s.doTake t).stream t').entry = (s.stream t').entry)
    ∧ (∀ t', ((s.doTake t).stream t').charge = (s.stream t').charge)
    ∧ (∀ t', ((s.doTake t).stream t').examine = (s.stream t').examine)
    ∧ (∀ t', ((s.doTake t).stream t').expired = (s.stream t').expired) ∧ (s.doTake t).holdLimit = s.holdLimit
    ∧ (s.doTake t).window = s.window ∧ (s.doTake t).port = s.port ∧ (s.doTake t).cmd.code = s.cmd.code
    ∧ (s.doTake t).cmd.arg = s.cmd.arg ∧ (s.doTake t).cmd.argReg = s.cmd.argReg
    ∧ (s.doTake t).cmd.collision = s.cmd.collision ∧ (s.doTake t).cmd.image = s.cmd.image
    ∧ (s.doTake t).cmd.taken = s.cmd.taken ∧ (s.doTake t).cmd.capture = s.cmd.capture ∧ (s.doTake t).time = s.time
    ∧ (s.doTake t).now = s.now ∧ (s.doTake t).counts.lanes = s.counts.lanes
    ∧ (s.doTake t).counts.device = s.counts.device ∧ (s.doTake t).counts.completions = s.counts.completions
    ∧ (∀ l' k', (s.doTake t).laneCount l' k' = s.laneCount l' k')
    ∧ (∀ k', (s.doTake t).deviceCount k' = s.deviceCount k') ∧ (s.doTake t).events.enables = s.events.enables
    ∧ (s.doTake t).events.watermarks = s.events.watermarks
    ∧ (s.doTake t).events.watermarkEnables = s.events.watermarkEnables
    ∧ (s.doTake t).events.readyEnables = s.events.readyEnables
    ∧ (s.doTake t).events.latches &&& 0xFC08#16 = s.events.latches &&& 0xFC08#16 ∧ (s.doTake t).host = s.host
    ∧ (s.doTake t).memory = s.memory ∧ (s.doTake t).epoch = s.epoch ∧ (s.doTake t).pending = s.pending := by
  unfold State.doTake; (repeat' split) <;> simp +contextual

@[simp] theorem State.doPeek_frame (s : State) (t : StreamId) :
    (s.doPeek t).lanes = s.lanes ∧ (∀ m, (s.doPeek t).lane m = s.lane m) ∧ (s.doPeek t).routes = s.routes
    ∧ (∀ i', (s.doPeek t).route i' = s.route i') ∧ (s.doPeek t).pool = s.pool
    ∧ (∀ d', (s.doPeek t).desc d' = s.desc d') ∧ (s.doPeek t).streams = s.streams
    ∧ (∀ t', (s.doPeek t).stream t' = s.stream t') ∧ (s.doPeek t).slots = s.slots
    ∧ (∀ k', (s.doPeek t).slot k' = s.slot k') ∧ (s.doPeek t).holdLimit = s.holdLimit ∧ (s.doPeek t).window = s.window
    ∧ (s.doPeek t).port = s.port ∧ (s.doPeek t).cmd.code = s.cmd.code ∧ (s.doPeek t).cmd.arg = s.cmd.arg
    ∧ (s.doPeek t).cmd.argReg = s.cmd.argReg ∧ (s.doPeek t).cmd.collision = s.cmd.collision
    ∧ (s.doPeek t).cmd.image = s.cmd.image ∧ (s.doPeek t).cmd.taken = s.cmd.taken
    ∧ (s.doPeek t).cmd.capture = s.cmd.capture ∧ (s.doPeek t).time = s.time ∧ (s.doPeek t).now = s.now
    ∧ (s.doPeek t).counts = s.counts ∧ (∀ l' k', (s.doPeek t).laneCount l' k' = s.laneCount l' k')
    ∧ (∀ t' k', (s.doPeek t).streamCount t' k' = s.streamCount t' k')
    ∧ (∀ k', (s.doPeek t).deviceCount k' = s.deviceCount k') ∧ (s.doPeek t).events.enables = s.events.enables
    ∧ (s.doPeek t).events.watermarks = s.events.watermarks
    ∧ (s.doPeek t).events.watermarkEnables = s.events.watermarkEnables
    ∧ (s.doPeek t).events.readyEnables = s.events.readyEnables
    ∧ (s.doPeek t).events.latches &&& 0xFC08#16 = s.events.latches &&& 0xFC08#16 ∧ (s.doPeek t).host = s.host
    ∧ (s.doPeek t).memory = s.memory ∧ (s.doPeek t).epoch = s.epoch ∧ (s.doPeek t).pending = s.pending := by
  unfold State.doPeek; (repeat' split) <;> simp +contextual

@[simp] theorem State.lowerHeld_frame (s : State) (t : StreamId) :
    (s.lowerHeld t).lanes = s.lanes ∧ (∀ m, (s.lowerHeld t).lane m = s.lane m) ∧ (s.lowerHeld t).routes = s.routes
    ∧ (∀ i', (s.lowerHeld t).route i' = s.route i') ∧ (s.lowerHeld t).pool = s.pool
    ∧ (∀ d', (s.lowerHeld t).desc d' = s.desc d') ∧ (∀ t', ((s.lowerHeld t).stream t').entry = (s.stream t').entry)
    ∧ (∀ t', ((s.lowerHeld t).stream t').queue = (s.stream t').queue)
    ∧ (∀ t', ((s.lowerHeld t).stream t').charge = (s.stream t').charge)
    ∧ (∀ t', ((s.lowerHeld t).stream t').examine = (s.stream t').examine)
    ∧ (∀ t', ((s.lowerHeld t).stream t').expired = (s.stream t').expired) ∧ (s.lowerHeld t).slots = s.slots
    ∧ (∀ k', (s.lowerHeld t).slot k' = s.slot k') ∧ (s.lowerHeld t).holdLimit = s.holdLimit
    ∧ (s.lowerHeld t).view = s.view ∧ (s.lowerHeld t).window = s.window ∧ (s.lowerHeld t).port = s.port
    ∧ (s.lowerHeld t).cmd = s.cmd ∧ (s.lowerHeld t).time = s.time ∧ (s.lowerHeld t).now = s.now
    ∧ (s.lowerHeld t).counts = s.counts ∧ (∀ l' k', (s.lowerHeld t).laneCount l' k' = s.laneCount l' k')
    ∧ (∀ t' k', (s.lowerHeld t).streamCount t' k' = s.streamCount t' k')
    ∧ (∀ k', (s.lowerHeld t).deviceCount k' = s.deviceCount k') ∧ (s.lowerHeld t).events = s.events
    ∧ (∀ e', (s.lowerHeld t).latched e' = s.latched e') ∧ (s.lowerHeld t).host = s.host
    ∧ (s.lowerHeld t).memory = s.memory ∧ (s.lowerHeld t).epoch = s.epoch ∧ (s.lowerHeld t).pending = s.pending := by
  simp +contextual [State.lowerHeld]

@[simp] theorem State.doRelease_frame (s : State) (h : Byte) :
    (s.doRelease h).lanes = s.lanes ∧ (∀ m, (s.doRelease h).lane m = s.lane m) ∧ (s.doRelease h).routes = s.routes
    ∧ (∀ i', (s.doRelease h).route i' = s.route i') ∧ (s.doRelease h).pool.ready = s.pool.ready
    ∧ (s.doRelease h).pool.buildStart = s.pool.buildStart ∧ (s.doRelease h).pool.lowThreshold = s.pool.lowThreshold
    ∧ (∀ t', ((s.doRelease h).stream t').entry = (s.stream t').entry)
    ∧ (∀ t', ((s.doRelease h).stream t').queue = (s.stream t').queue)
    ∧ (∀ t', ((s.doRelease h).stream t').examine = (s.stream t').examine)
    ∧ (∀ t', ((s.doRelease h).stream t').expired = (s.stream t').expired) ∧ (s.doRelease h).holdLimit = s.holdLimit
    ∧ (s.doRelease h).view = s.view ∧ (s.doRelease h).window.handleReg = s.window.handleReg
    ∧ (s.doRelease h).window.pointed = s.window.pointed ∧ (s.doRelease h).window.offset = s.window.offset
    ∧ (s.doRelease h).window.pastEnd = s.window.pastEnd ∧ (s.doRelease h).port.position = s.port.position
    ∧ (s.doRelease h).port.balance = s.port.balance ∧ (s.doRelease h).port.interval = s.port.interval
    ∧ (s.doRelease h).port.left = s.port.left ∧ (s.doRelease h).port.nextSlice = s.port.nextSlice
    ∧ (s.doRelease h).port.times = s.port.times
    ∧ (s.doRelease h).cmd.code = s.cmd.code ∧ (s.doRelease h).cmd.arg = s.cmd.arg
    ∧ (s.doRelease h).cmd.argReg = s.cmd.argReg ∧ (s.doRelease h).cmd.collision = s.cmd.collision
    ∧ (s.doRelease h).cmd.image = s.cmd.image ∧ (s.doRelease h).cmd.taken = s.cmd.taken
    ∧ (s.doRelease h).cmd.capture = s.cmd.capture ∧ (s.doRelease h).time = s.time ∧ (s.doRelease h).now = s.now
    ∧ (s.doRelease h).counts.lanes = s.counts.lanes ∧ (s.doRelease h).counts.streams = s.counts.streams
    ∧ (s.doRelease h).counts.completions = s.counts.completions
    ∧ (∀ l' k', (s.doRelease h).laneCount l' k' = s.laneCount l' k')
    ∧ (∀ t' k', (s.doRelease h).streamCount t' k' = s.streamCount t' k')
    ∧ (s.doRelease h).events.enables = s.events.enables ∧ (s.doRelease h).events.watermarks = s.events.watermarks
    ∧ (s.doRelease h).events.watermarkEnables = s.events.watermarkEnables
    ∧ (s.doRelease h).events.readyEnables = s.events.readyEnables
    ∧ (s.doRelease h).events.latches &&& 0xFC08#16 = s.events.latches &&& 0xFC08#16
    ∧ (s.doRelease h).host.resetHigh = s.host.resetHigh ∧ (s.doRelease h).memory = s.memory
    ∧ (s.doRelease h).epoch = s.epoch ∧ (s.doRelease h).pending = s.pending := by
  unfold State.doRelease; (repeat' split) <;> simp +contextual

@[simp] theorem State.doReturn_frame (s : State) (h : Byte) :
    (s.doReturn h).lanes = s.lanes ∧ (∀ m, (s.doReturn h).lane m = s.lane m) ∧ (s.doReturn h).routes = s.routes
    ∧ (∀ i', (s.doReturn h).route i' = s.route i') ∧ (s.doReturn h).pool.ready = s.pool.ready
    ∧ (s.doReturn h).pool.buildStart = s.pool.buildStart ∧ (s.doReturn h).pool.freeCells = s.pool.freeCells
    ∧ (s.doReturn h).pool.freeDescs = s.pool.freeDescs ∧ (s.doReturn h).pool.links = s.pool.links
    ∧ (s.doReturn h).pool.lowThreshold = s.pool.lowThreshold
    ∧ (∀ t', ((s.doReturn h).stream t').entry = (s.stream t').entry)
    ∧ (∀ t', ((s.doReturn h).stream t').charge = (s.stream t').charge)
    ∧ (∀ t', ((s.doReturn h).stream t').examine = (s.stream t').examine) ∧ (s.doReturn h).holdLimit = s.holdLimit
    ∧ (s.doReturn h).view = s.view ∧ (s.doReturn h).window.handleReg = s.window.handleReg
    ∧ (s.doReturn h).window.pointed = s.window.pointed ∧ (s.doReturn h).window.offset = s.window.offset
    ∧ (s.doReturn h).window.pastEnd = s.window.pastEnd ∧ (s.doReturn h).port.position = s.port.position
    ∧ (s.doReturn h).port.balance = s.port.balance ∧ (s.doReturn h).port.interval = s.port.interval
    ∧ (s.doReturn h).port.left = s.port.left ∧ (s.doReturn h).port.nextSlice = s.port.nextSlice
    ∧ (s.doReturn h).port.times = s.port.times
    ∧ (s.doReturn h).cmd.code = s.cmd.code ∧ (s.doReturn h).cmd.arg = s.cmd.arg
    ∧ (s.doReturn h).cmd.argReg = s.cmd.argReg ∧ (s.doReturn h).cmd.collision = s.cmd.collision
    ∧ (s.doReturn h).cmd.image = s.cmd.image ∧ (s.doReturn h).cmd.taken = s.cmd.taken
    ∧ (s.doReturn h).cmd.capture = s.cmd.capture ∧ (s.doReturn h).time = s.time ∧ (s.doReturn h).now = s.now
    ∧ (s.doReturn h).counts.lanes = s.counts.lanes ∧ (s.doReturn h).counts.streams = s.counts.streams
    ∧ (s.doReturn h).counts.completions = s.counts.completions
    ∧ (∀ l' k', (s.doReturn h).laneCount l' k' = s.laneCount l' k')
    ∧ (∀ t' k', (s.doReturn h).streamCount t' k' = s.streamCount t' k')
    ∧ (s.doReturn h).events.enables = s.events.enables ∧ (s.doReturn h).events.watermarks = s.events.watermarks
    ∧ (s.doReturn h).events.watermarkEnables = s.events.watermarkEnables
    ∧ (s.doReturn h).events.readyEnables = s.events.readyEnables
    ∧ (s.doReturn h).events.latches &&& 0xFC08#16 = s.events.latches &&& 0xFC08#16
    ∧ (s.doReturn h).host.resetHigh = s.host.resetHigh ∧ (s.doReturn h).memory = s.memory
    ∧ (s.doReturn h).epoch = s.epoch ∧ (s.doReturn h).pending = s.pending := by
  unfold State.doReturn; (repeat' split) <;> simp +contextual

@[simp] theorem State.setImage_frame (s : State) (w : Vector Word 8) :
    (s.setImage w).lanes = s.lanes ∧ (∀ m, (s.setImage w).lane m = s.lane m) ∧ (s.setImage w).routes = s.routes
    ∧ (∀ i', (s.setImage w).route i' = s.route i') ∧ (s.setImage w).pool = s.pool
    ∧ (∀ d', (s.setImage w).desc d' = s.desc d') ∧ (s.setImage w).streams = s.streams
    ∧ (∀ t', (s.setImage w).stream t' = s.stream t') ∧ (s.setImage w).slots = s.slots
    ∧ (∀ k', (s.setImage w).slot k' = s.slot k') ∧ (s.setImage w).holdLimit = s.holdLimit
    ∧ (s.setImage w).view = s.view ∧ (s.setImage w).window = s.window ∧ (s.setImage w).port = s.port
    ∧ (s.setImage w).cmd.phase = s.cmd.phase ∧ (s.setImage w).cmd.code = s.cmd.code
    ∧ (s.setImage w).cmd.arg = s.cmd.arg ∧ (s.setImage w).cmd.argReg = s.cmd.argReg
    ∧ (s.setImage w).cmd.result = s.cmd.result ∧ (s.setImage w).cmd.collision = s.cmd.collision
    ∧ (s.setImage w).cmd.taken = s.cmd.taken ∧ (s.setImage w).cmd.capture = s.cmd.capture
    ∧ (s.setImage w).time = s.time ∧ (s.setImage w).now = s.now ∧ (s.setImage w).counts = s.counts
    ∧ (∀ l' k', (s.setImage w).laneCount l' k' = s.laneCount l' k')
    ∧ (∀ t' k', (s.setImage w).streamCount t' k' = s.streamCount t' k')
    ∧ (∀ k', (s.setImage w).deviceCount k' = s.deviceCount k') ∧ (s.setImage w).events = s.events
    ∧ (∀ e', (s.setImage w).latched e' = s.latched e') ∧ (s.setImage w).host = s.host
    ∧ (s.setImage w).memory = s.memory ∧ (s.setImage w).epoch = s.epoch ∧ (s.setImage w).pending = s.pending := by
  and_intros <;> intros <;> rfl

@[simp] theorem State.doTableRead_frame (s : State) (e : TableEntry) :
    (s.doTableRead e).lanes = s.lanes ∧ (∀ m, (s.doTableRead e).lane m = s.lane m)
    ∧ (s.doTableRead e).routes = s.routes ∧ (∀ i', (s.doTableRead e).route i' = s.route i')
    ∧ (s.doTableRead e).pool = s.pool ∧ (∀ d', (s.doTableRead e).desc d' = s.desc d')
    ∧ (s.doTableRead e).streams = s.streams ∧ (∀ t', (s.doTableRead e).stream t' = s.stream t')
    ∧ (s.doTableRead e).slots = s.slots ∧ (∀ k', (s.doTableRead e).slot k' = s.slot k')
    ∧ (s.doTableRead e).holdLimit = s.holdLimit ∧ (s.doTableRead e).view = s.view
    ∧ (s.doTableRead e).window = s.window ∧ (s.doTableRead e).port = s.port ∧ (s.doTableRead e).cmd.code = s.cmd.code
    ∧ (s.doTableRead e).cmd.arg = s.cmd.arg ∧ (s.doTableRead e).cmd.argReg = s.cmd.argReg
    ∧ (s.doTableRead e).cmd.collision = s.cmd.collision ∧ (s.doTableRead e).cmd.taken = s.cmd.taken
    ∧ (s.doTableRead e).cmd.capture = s.cmd.capture ∧ (s.doTableRead e).time = s.time ∧ (s.doTableRead e).now = s.now
    ∧ (s.doTableRead e).counts = s.counts ∧ (∀ l' k', (s.doTableRead e).laneCount l' k' = s.laneCount l' k')
    ∧ (∀ t' k', (s.doTableRead e).streamCount t' k' = s.streamCount t' k')
    ∧ (∀ k', (s.doTableRead e).deviceCount k' = s.deviceCount k')
    ∧ (s.doTableRead e).events.enables = s.events.enables ∧ (s.doTableRead e).events.watermarks = s.events.watermarks
    ∧ (s.doTableRead e).events.watermarkEnables = s.events.watermarkEnables
    ∧ (s.doTableRead e).events.readyEnables = s.events.readyEnables
    ∧ (s.doTableRead e).events.latches &&& 0xFC08#16 = s.events.latches &&& 0xFC08#16
    ∧ (s.doTableRead e).host = s.host ∧ (s.doTableRead e).memory = s.memory ∧ (s.doTableRead e).epoch = s.epoch
    ∧ (s.doTableRead e).pending = s.pending := by
  simp +contextual [State.doTableRead]

@[simp] theorem State.setEntry_frame (s : State) (l : LaneId) (e : LaneEntry) :
    (∀ m, ((s.setEntry l e).lane m).rx = (s.lane m).rx) ∧ (∀ m, ((s.setEntry l e).lane m).unit = (s.lane m).unit)
    ∧ (∀ m, m ≠ l → (s.setEntry l e).lane m = s.lane m) ∧ (s.setEntry l e).routes = s.routes
    ∧ (∀ i', (s.setEntry l e).route i' = s.route i') ∧ (s.setEntry l e).pool = s.pool
    ∧ (∀ d', (s.setEntry l e).desc d' = s.desc d') ∧ (s.setEntry l e).streams = s.streams
    ∧ (∀ t', (s.setEntry l e).stream t' = s.stream t') ∧ (s.setEntry l e).slots = s.slots
    ∧ (∀ k', (s.setEntry l e).slot k' = s.slot k') ∧ (s.setEntry l e).holdLimit = s.holdLimit
    ∧ (s.setEntry l e).view = s.view ∧ (s.setEntry l e).window = s.window ∧ (s.setEntry l e).port = s.port
    ∧ (s.setEntry l e).cmd = s.cmd ∧ (s.setEntry l e).time = s.time ∧ (s.setEntry l e).now = s.now
    ∧ (s.setEntry l e).counts = s.counts ∧ (∀ l' k', (s.setEntry l e).laneCount l' k' = s.laneCount l' k')
    ∧ (∀ t' k', (s.setEntry l e).streamCount t' k' = s.streamCount t' k')
    ∧ (∀ k', (s.setEntry l e).deviceCount k' = s.deviceCount k') ∧ (s.setEntry l e).events = s.events
    ∧ (∀ e', (s.setEntry l e).latched e' = s.latched e') ∧ (s.setEntry l e).host = s.host
    ∧ (s.setEntry l e).memory = s.memory ∧ (s.setEntry l e).epoch = s.epoch ∧ (s.setEntry l e).pending = s.pending := by
  simp +contextual [State.setEntry]

@[simp] theorem State.commitLaneEntry_frame (s : State) (l : LaneId) (e : LaneEntry) :
    (∀ m, m ≠ l → (s.commitLaneEntry l e).lane m = s.lane m) ∧ (s.commitLaneEntry l e).routes = s.routes
    ∧ (∀ i', (s.commitLaneEntry l e).route i' = s.route i') ∧ (s.commitLaneEntry l e).pool.ready = s.pool.ready
    ∧ (s.commitLaneEntry l e).pool.buildStart = s.pool.buildStart
    ∧ (s.commitLaneEntry l e).pool.lowThreshold = s.pool.lowThreshold
    ∧ (∀ t', ((s.commitLaneEntry l e).stream t').entry = (s.stream t').entry)
    ∧ (∀ t', ((s.commitLaneEntry l e).stream t').queue = (s.stream t').queue)
    ∧ (∀ t', ((s.commitLaneEntry l e).stream t').heldCount = (s.stream t').heldCount)
    ∧ (∀ t', ((s.commitLaneEntry l e).stream t').examine = (s.stream t').examine)
    ∧ (∀ t', ((s.commitLaneEntry l e).stream t').expired = (s.stream t').expired)
    ∧ (s.commitLaneEntry l e).slots = s.slots ∧ (∀ k', (s.commitLaneEntry l e).slot k' = s.slot k')
    ∧ (s.commitLaneEntry l e).holdLimit = s.holdLimit ∧ (s.commitLaneEntry l e).view = s.view
    ∧ (s.commitLaneEntry l e).window = s.window ∧ (s.commitLaneEntry l e).port = s.port
    ∧ (s.commitLaneEntry l e).cmd = s.cmd ∧ (s.commitLaneEntry l e).time = s.time
    ∧ (s.commitLaneEntry l e).now = s.now ∧ (s.commitLaneEntry l e).counts.streams = s.counts.streams
    ∧ (s.commitLaneEntry l e).counts.device = s.counts.device
    ∧ (s.commitLaneEntry l e).counts.completions = s.counts.completions
    ∧ (∀ t' k', (s.commitLaneEntry l e).streamCount t' k' = s.streamCount t' k')
    ∧ (∀ k', (s.commitLaneEntry l e).deviceCount k' = s.deviceCount k')
    ∧ (s.commitLaneEntry l e).events.enables = s.events.enables
    ∧ (s.commitLaneEntry l e).events.watermarks = s.events.watermarks
    ∧ (s.commitLaneEntry l e).events.watermarkEnables = s.events.watermarkEnables
    ∧ (s.commitLaneEntry l e).events.readyEnables = s.events.readyEnables
    ∧ (s.commitLaneEntry l e).events.latches &&& 0xFC08#16 = s.events.latches &&& 0xFC08#16
    ∧ (s.commitLaneEntry l e).host = s.host ∧ (s.commitLaneEntry l e).memory = s.memory
    ∧ (s.commitLaneEntry l e).epoch = s.epoch ∧ (s.commitLaneEntry l e).pending = s.pending := by
  unfold State.commitLaneEntry; (repeat' split) <;> simp +contextual

@[simp] theorem State.doTableWrite_frame (s : State) (e : TableEntry) :
    (s.doTableWrite e).pool.ready = s.pool.ready ∧ (s.doTableWrite e).pool.buildStart = s.pool.buildStart
    ∧ (s.doTableWrite e).pool.lowThreshold = s.pool.lowThreshold
    ∧ (∀ t', ((s.doTableWrite e).stream t').queue = (s.stream t').queue)
    ∧ (∀ t', ((s.doTableWrite e).stream t').heldCount = (s.stream t').heldCount)
    ∧ (∀ t', ((s.doTableWrite e).stream t').examine = (s.stream t').examine)
    ∧ (∀ t', ((s.doTableWrite e).stream t').expired = (s.stream t').expired) ∧ (s.doTableWrite e).slots = s.slots
    ∧ (∀ k', (s.doTableWrite e).slot k' = s.slot k') ∧ (s.doTableWrite e).holdLimit = s.holdLimit
    ∧ (s.doTableWrite e).view = s.view ∧ (s.doTableWrite e).window = s.window ∧ (s.doTableWrite e).port = s.port
    ∧ (s.doTableWrite e).cmd.code = s.cmd.code ∧ (s.doTableWrite e).cmd.arg = s.cmd.arg
    ∧ (s.doTableWrite e).cmd.argReg = s.cmd.argReg ∧ (s.doTableWrite e).cmd.collision = s.cmd.collision
    ∧ (s.doTableWrite e).cmd.image = s.cmd.image ∧ (s.doTableWrite e).cmd.taken = s.cmd.taken
    ∧ (s.doTableWrite e).cmd.capture = s.cmd.capture ∧ (s.doTableWrite e).time = s.time
    ∧ (s.doTableWrite e).now = s.now ∧ (s.doTableWrite e).counts.streams = s.counts.streams
    ∧ (s.doTableWrite e).counts.device = s.counts.device
    ∧ (s.doTableWrite e).counts.completions = s.counts.completions
    ∧ (∀ t' k', (s.doTableWrite e).streamCount t' k' = s.streamCount t' k')
    ∧ (∀ k', (s.doTableWrite e).deviceCount k' = s.deviceCount k')
    ∧ (s.doTableWrite e).events.enables = s.events.enables
    ∧ (s.doTableWrite e).events.watermarks = s.events.watermarks
    ∧ (s.doTableWrite e).events.watermarkEnables = s.events.watermarkEnables
    ∧ (s.doTableWrite e).events.readyEnables = s.events.readyEnables
    ∧ (s.doTableWrite e).events.latches &&& 0xFC08#16 = s.events.latches &&& 0xFC08#16
    ∧ (s.doTableWrite e).host = s.host ∧ (s.doTableWrite e).memory = s.memory ∧ (s.doTableWrite e).epoch = s.epoch
    ∧ (s.doTableWrite e).pending = s.pending := by
  unfold State.doTableWrite
  cases h : s.commit e with
  | none => simp
  | some s' =>
    cases e <;> simp only [State.commit, State.commitRoute, State.commitStream, State.commitLane, Option.map_eq_some_iff] at h
    · obtain ⟨r, _, rfl⟩ := h; simp
    · split at h
      · split at h
        · exact absurd h (by simp)
        · obtain rfl := Option.some.inj h; simp
      · exact absurd h (by simp)
    · obtain ⟨r, _, rfl⟩ := h; simp

@[simp] theorem State.captureGroup_frame (s : State) (g : CounterGroup) :
    (s.captureGroup g).lanes = s.lanes ∧ (∀ m, (s.captureGroup g).lane m = s.lane m)
    ∧ (s.captureGroup g).routes = s.routes ∧ (∀ i', (s.captureGroup g).route i' = s.route i')
    ∧ (s.captureGroup g).pool = s.pool ∧ (∀ d', (s.captureGroup g).desc d' = s.desc d')
    ∧ (s.captureGroup g).streams = s.streams ∧ (∀ t', (s.captureGroup g).stream t' = s.stream t')
    ∧ (s.captureGroup g).slots = s.slots ∧ (∀ k', (s.captureGroup g).slot k' = s.slot k')
    ∧ (s.captureGroup g).holdLimit = s.holdLimit ∧ (s.captureGroup g).view = s.view
    ∧ (s.captureGroup g).window = s.window ∧ (s.captureGroup g).port = s.port
    ∧ (s.captureGroup g).cmd.phase = s.cmd.phase ∧ (s.captureGroup g).cmd.code = s.cmd.code
    ∧ (s.captureGroup g).cmd.arg = s.cmd.arg ∧ (s.captureGroup g).cmd.argReg = s.cmd.argReg
    ∧ (s.captureGroup g).cmd.result = s.cmd.result ∧ (s.captureGroup g).cmd.collision = s.cmd.collision
    ∧ (s.captureGroup g).cmd.image = s.cmd.image ∧ (s.captureGroup g).cmd.taken = s.cmd.taken
    ∧ (s.captureGroup g).time = s.time ∧ (s.captureGroup g).now = s.now
    ∧ (s.captureGroup g).counts.completions = s.counts.completions ∧ (s.captureGroup g).events = s.events
    ∧ (∀ e', (s.captureGroup g).latched e' = s.latched e') ∧ (s.captureGroup g).host = s.host
    ∧ (s.captureGroup g).memory = s.memory ∧ (s.captureGroup g).epoch = s.epoch
    ∧ (s.captureGroup g).pending = s.pending := by
  cases g <;> (and_intros <;> intros <;> rfl)

@[simp] theorem State.doCapture_frame (s : State) (g : CounterGroup) :
    (s.doCapture g).lanes = s.lanes ∧ (∀ m, (s.doCapture g).lane m = s.lane m) ∧ (s.doCapture g).routes = s.routes
    ∧ (∀ i', (s.doCapture g).route i' = s.route i') ∧ (s.doCapture g).pool = s.pool
    ∧ (∀ d', (s.doCapture g).desc d' = s.desc d') ∧ (s.doCapture g).streams = s.streams
    ∧ (∀ t', (s.doCapture g).stream t' = s.stream t') ∧ (s.doCapture g).slots = s.slots
    ∧ (∀ k', (s.doCapture g).slot k' = s.slot k') ∧ (s.doCapture g).holdLimit = s.holdLimit
    ∧ (s.doCapture g).view = s.view ∧ (s.doCapture g).window = s.window ∧ (s.doCapture g).port = s.port
    ∧ (s.doCapture g).cmd.code = s.cmd.code ∧ (s.doCapture g).cmd.arg = s.cmd.arg
    ∧ (s.doCapture g).cmd.argReg = s.cmd.argReg ∧ (s.doCapture g).cmd.collision = s.cmd.collision
    ∧ (s.doCapture g).cmd.image = s.cmd.image ∧ (s.doCapture g).cmd.taken = s.cmd.taken
    ∧ (s.doCapture g).time = s.time ∧ (s.doCapture g).now = s.now
    ∧ (s.doCapture g).counts.completions = s.counts.completions ∧ (s.doCapture g).events.enables = s.events.enables
    ∧ (s.doCapture g).events.watermarks = s.events.watermarks
    ∧ (s.doCapture g).events.watermarkEnables = s.events.watermarkEnables
    ∧ (s.doCapture g).events.readyEnables = s.events.readyEnables
    ∧ (s.doCapture g).events.latches &&& 0xFC08#16 = s.events.latches &&& 0xFC08#16 ∧ (s.doCapture g).host = s.host
    ∧ (s.doCapture g).memory = s.memory ∧ (s.doCapture g).epoch = s.epoch ∧ (s.doCapture g).pending = s.pending := by
  simp +contextual [State.doCapture]

@[simp] theorem State.takeCommand_frame (s : State) (code : Word) (p : Phase) :
    (s.takeCommand code p).lanes = s.lanes ∧ (∀ m, (s.takeCommand code p).lane m = s.lane m)
    ∧ (s.takeCommand code p).routes = s.routes ∧ (∀ i', (s.takeCommand code p).route i' = s.route i')
    ∧ (s.takeCommand code p).pool = s.pool ∧ (∀ d', (s.takeCommand code p).desc d' = s.desc d')
    ∧ (s.takeCommand code p).streams = s.streams ∧ (∀ t', (s.takeCommand code p).stream t' = s.stream t')
    ∧ (s.takeCommand code p).slots = s.slots ∧ (∀ k', (s.takeCommand code p).slot k' = s.slot k')
    ∧ (s.takeCommand code p).holdLimit = s.holdLimit ∧ (s.takeCommand code p).view = s.view
    ∧ (s.takeCommand code p).window = s.window ∧ (s.takeCommand code p).port = s.port
    ∧ (s.takeCommand code p).cmd.argReg = s.cmd.argReg ∧ (s.takeCommand code p).cmd.image = s.cmd.image
    ∧ (s.takeCommand code p).cmd.capture = s.cmd.capture ∧ (s.takeCommand code p).time = s.time
    ∧ (s.takeCommand code p).now = s.now ∧ (s.takeCommand code p).counts = s.counts
    ∧ (∀ l' k', (s.takeCommand code p).laneCount l' k' = s.laneCount l' k')
    ∧ (∀ t' k', (s.takeCommand code p).streamCount t' k' = s.streamCount t' k')
    ∧ (∀ k', (s.takeCommand code p).deviceCount k' = s.deviceCount k') ∧ (s.takeCommand code p).events = s.events
    ∧ (∀ e', (s.takeCommand code p).latched e' = s.latched e') ∧ (s.takeCommand code p).host = s.host
    ∧ (s.takeCommand code p).memory = s.memory ∧ (s.takeCommand code p).epoch = s.epoch
    ∧ (s.takeCommand code p).pending = s.pending := by
  and_intros <;> intros <;> rfl

@[simp] theorem State.restartWatches_frame (s : State) :
    (s.restartWatches).lanes = s.lanes ∧ (∀ m, (s.restartWatches).lane m = s.lane m)
    ∧ (s.restartWatches).pool = s.pool ∧ (∀ d', (s.restartWatches).desc d' = s.desc d')
    ∧ (s.restartWatches).streams = s.streams ∧ (∀ t', (s.restartWatches).stream t' = s.stream t')
    ∧ (s.restartWatches).slots = s.slots ∧ (∀ k', (s.restartWatches).slot k' = s.slot k')
    ∧ (s.restartWatches).holdLimit = s.holdLimit ∧ (s.restartWatches).view = s.view
    ∧ (s.restartWatches).window = s.window ∧ (s.restartWatches).port = s.port ∧ (s.restartWatches).cmd = s.cmd
    ∧ (s.restartWatches).time = s.time ∧ (s.restartWatches).now = s.now ∧ (s.restartWatches).counts = s.counts
    ∧ (∀ l' k', (s.restartWatches).laneCount l' k' = s.laneCount l' k')
    ∧ (∀ t' k', (s.restartWatches).streamCount t' k' = s.streamCount t' k')
    ∧ (∀ k', (s.restartWatches).deviceCount k' = s.deviceCount k') ∧ (s.restartWatches).events = s.events
    ∧ (∀ e', (s.restartWatches).latched e' = s.latched e') ∧ (s.restartWatches).host = s.host
    ∧ (s.restartWatches).memory = s.memory ∧ (s.restartWatches).epoch = s.epoch
    ∧ (s.restartWatches).pending = s.pending := by
  and_intros <;> intros <;> rfl

@[simp] theorem State.clearLane_frame (s : State) (l : LaneId) :
    (∀ m, ((s.clearLane l).lane m).entry = (s.lane m).entry) ∧ (∀ m, m ≠ l → (s.clearLane l).lane m = s.lane m)
    ∧ (s.clearLane l).routes = s.routes ∧ (∀ i', (s.clearLane l).route i' = s.route i')
    ∧ (s.clearLane l).pool.ready = s.pool.ready ∧ (s.clearLane l).pool.buildStart = s.pool.buildStart
    ∧ (s.clearLane l).pool.lowThreshold = s.pool.lowThreshold
    ∧ (∀ t', ((s.clearLane l).stream t').entry = (s.stream t').entry)
    ∧ (∀ t', ((s.clearLane l).stream t').queue = (s.stream t').queue)
    ∧ (∀ t', ((s.clearLane l).stream t').heldCount = (s.stream t').heldCount)
    ∧ (∀ t', ((s.clearLane l).stream t').examine = (s.stream t').examine)
    ∧ (∀ t', ((s.clearLane l).stream t').expired = (s.stream t').expired) ∧ (s.clearLane l).slots = s.slots
    ∧ (∀ k', (s.clearLane l).slot k' = s.slot k') ∧ (s.clearLane l).holdLimit = s.holdLimit
    ∧ (s.clearLane l).view = s.view ∧ (s.clearLane l).window = s.window ∧ (s.clearLane l).port = s.port
    ∧ (s.clearLane l).cmd = s.cmd ∧ (s.clearLane l).time = s.time ∧ (s.clearLane l).now = s.now
    ∧ (s.clearLane l).counts.streams = s.counts.streams ∧ (s.clearLane l).counts.device = s.counts.device
    ∧ (s.clearLane l).counts.completions = s.counts.completions
    ∧ (∀ t' k', (s.clearLane l).streamCount t' k' = s.streamCount t' k')
    ∧ (∀ k', (s.clearLane l).deviceCount k' = s.deviceCount k') ∧ (s.clearLane l).events.enables = s.events.enables
    ∧ (s.clearLane l).events.watermarks = s.events.watermarks
    ∧ (s.clearLane l).events.watermarkEnables = s.events.watermarkEnables
    ∧ (s.clearLane l).events.readyEnables = s.events.readyEnables
    ∧ (s.clearLane l).events.latches &&& 0xFC08#16 = s.events.latches &&& 0xFC08#16 ∧ (s.clearLane l).host = s.host
    ∧ (s.clearLane l).memory = s.memory ∧ (s.clearLane l).epoch = s.epoch ∧ (s.clearLane l).pending = s.pending := by
  unfold State.clearLane; dsimp only; (repeat' split) <;> simp +contextual

@[simp] theorem State.clearFirst_frame (s : State) :
    (∀ m, ((s.clearFirst).lane m).entry = (s.lane m).entry) ∧ (s.clearFirst).pool.ready = s.pool.ready
    ∧ (s.clearFirst).pool.buildStart = s.pool.buildStart ∧ (s.clearFirst).pool.lowThreshold = s.pool.lowThreshold
    ∧ (∀ t', ((s.clearFirst).stream t').entry = (s.stream t').entry)
    ∧ (∀ t', ((s.clearFirst).stream t').queue = (s.stream t').queue)
    ∧ (∀ t', ((s.clearFirst).stream t').heldCount = (s.stream t').heldCount)
    ∧ (∀ t', ((s.clearFirst).stream t').examine = (s.stream t').examine)
    ∧ (∀ t', ((s.clearFirst).stream t').expired = (s.stream t').expired) ∧ (s.clearFirst).slots = s.slots
    ∧ (∀ k', (s.clearFirst).slot k' = s.slot k') ∧ (s.clearFirst).holdLimit = s.holdLimit
    ∧ (s.clearFirst).view = s.view ∧ (s.clearFirst).window = s.window ∧ (s.clearFirst).port = s.port
    ∧ (s.clearFirst).cmd = s.cmd ∧ (s.clearFirst).time = s.time ∧ (s.clearFirst).now = s.now
    ∧ (s.clearFirst).counts.streams = s.counts.streams ∧ (s.clearFirst).counts.device = s.counts.device
    ∧ (s.clearFirst).counts.completions = s.counts.completions
    ∧ (∀ t' k', (s.clearFirst).streamCount t' k' = s.streamCount t' k')
    ∧ (∀ k', (s.clearFirst).deviceCount k' = s.deviceCount k') ∧ (s.clearFirst).events.enables = s.events.enables
    ∧ (s.clearFirst).events.watermarks = s.events.watermarks
    ∧ (s.clearFirst).events.watermarkEnables = s.events.watermarkEnables
    ∧ (s.clearFirst).events.readyEnables = s.events.readyEnables
    ∧ (s.clearFirst).events.latches &&& 0xFC08#16 = s.events.latches &&& 0xFC08#16 ∧ (s.clearFirst).host = s.host
    ∧ (s.clearFirst).memory = s.memory ∧ (s.clearFirst).epoch = s.epoch ∧ (s.clearFirst).pending = s.pending := by
  unfold State.clearFirst; generalize List.finRange 8 = ls; simp; induction ls generalizing s with
  | nil => simp
  | cons d ds ih => simp +contextual [ih]

@[simp] theorem State.beginCommand_frame (s : State) (code : Word) (c : Command) :
    (∀ m, ((s.beginCommand code c).lane m).entry = (s.lane m).entry)
    ∧ (s.beginCommand code c).pool.ready = s.pool.ready ∧ (s.beginCommand code c).pool.buildStart = s.pool.buildStart
    ∧ (s.beginCommand code c).pool.lowThreshold = s.pool.lowThreshold
    ∧ (∀ t', ((s.beginCommand code c).stream t').entry = (s.stream t').entry)
    ∧ (∀ t', ((s.beginCommand code c).stream t').queue = (s.stream t').queue)
    ∧ (∀ t', ((s.beginCommand code c).stream t').heldCount = (s.stream t').heldCount)
    ∧ (∀ t', ((s.beginCommand code c).stream t').examine = (s.stream t').examine)
    ∧ (∀ t', ((s.beginCommand code c).stream t').expired = (s.stream t').expired)
    ∧ (s.beginCommand code c).slots = s.slots ∧ (∀ k', (s.beginCommand code c).slot k' = s.slot k')
    ∧ (s.beginCommand code c).holdLimit = s.holdLimit ∧ (s.beginCommand code c).view = s.view
    ∧ (s.beginCommand code c).window = s.window ∧ (s.beginCommand code c).port = s.port
    ∧ (s.beginCommand code c).cmd.argReg = s.cmd.argReg ∧ (s.beginCommand code c).cmd.image = s.cmd.image
    ∧ (s.beginCommand code c).cmd.capture = s.cmd.capture ∧ (s.beginCommand code c).time = s.time
    ∧ (s.beginCommand code c).now = s.now ∧ (s.beginCommand code c).counts.streams = s.counts.streams
    ∧ (s.beginCommand code c).counts.device = s.counts.device
    ∧ (s.beginCommand code c).counts.completions = s.counts.completions
    ∧ (∀ t' k', (s.beginCommand code c).streamCount t' k' = s.streamCount t' k')
    ∧ (∀ k', (s.beginCommand code c).deviceCount k' = s.deviceCount k')
    ∧ (s.beginCommand code c).events.enables = s.events.enables
    ∧ (s.beginCommand code c).events.watermarks = s.events.watermarks
    ∧ (s.beginCommand code c).events.watermarkEnables = s.events.watermarkEnables
    ∧ (s.beginCommand code c).events.readyEnables = s.events.readyEnables
    ∧ (s.beginCommand code c).events.latches &&& 0xFC08#16 = s.events.latches &&& 0xFC08#16
    ∧ (s.beginCommand code c).host = s.host ∧ (s.beginCommand code c).memory = s.memory
    ∧ (s.beginCommand code c).epoch = s.epoch ∧ (s.beginCommand code c).pending = s.pending := by
  unfold State.beginCommand; (repeat' split) <;> simp +contextual

@[simp] theorem State.acceptCommand_frame (s : State) (code : Word) :
    (∀ m, ((s.acceptCommand code).lane m).entry = (s.lane m).entry) ∧ (s.acceptCommand code).pool.ready = s.pool.ready
    ∧ (s.acceptCommand code).pool.buildStart = s.pool.buildStart
    ∧ (s.acceptCommand code).pool.lowThreshold = s.pool.lowThreshold
    ∧ (∀ t', ((s.acceptCommand code).stream t').entry = (s.stream t').entry)
    ∧ (∀ t', ((s.acceptCommand code).stream t').queue = (s.stream t').queue)
    ∧ (∀ t', ((s.acceptCommand code).stream t').heldCount = (s.stream t').heldCount)
    ∧ (∀ t', ((s.acceptCommand code).stream t').examine = (s.stream t').examine)
    ∧ (∀ t', ((s.acceptCommand code).stream t').expired = (s.stream t').expired)
    ∧ (s.acceptCommand code).slots = s.slots ∧ (∀ k', (s.acceptCommand code).slot k' = s.slot k')
    ∧ (s.acceptCommand code).holdLimit = s.holdLimit ∧ (s.acceptCommand code).view = s.view
    ∧ (s.acceptCommand code).window = s.window ∧ (s.acceptCommand code).port = s.port
    ∧ (s.acceptCommand code).cmd.argReg = s.cmd.argReg ∧ (s.acceptCommand code).cmd.image = s.cmd.image
    ∧ (s.acceptCommand code).cmd.capture = s.cmd.capture ∧ (s.acceptCommand code).time = s.time
    ∧ (s.acceptCommand code).now = s.now ∧ (s.acceptCommand code).counts.streams = s.counts.streams
    ∧ (s.acceptCommand code).counts.device = s.counts.device
    ∧ (s.acceptCommand code).counts.completions = s.counts.completions
    ∧ (∀ t' k', (s.acceptCommand code).streamCount t' k' = s.streamCount t' k')
    ∧ (∀ k', (s.acceptCommand code).deviceCount k' = s.deviceCount k')
    ∧ (s.acceptCommand code).events.enables = s.events.enables
    ∧ (s.acceptCommand code).events.watermarks = s.events.watermarks
    ∧ (s.acceptCommand code).events.watermarkEnables = s.events.watermarkEnables
    ∧ (s.acceptCommand code).events.readyEnables = s.events.readyEnables
    ∧ (s.acceptCommand code).events.latches &&& 0xFC08#16 = s.events.latches &&& 0xFC08#16
    ∧ (s.acceptCommand code).host = s.host ∧ (s.acceptCommand code).memory = s.memory
    ∧ (s.acceptCommand code).epoch = s.epoch ∧ (s.acceptCommand code).pending = s.pending := by
  unfold State.acceptCommand; (repeat' split) <;> simp +contextual

@[simp] theorem State.collide_frame (s : State) :
    (s.collide).lanes = s.lanes ∧ (∀ m, (s.collide).lane m = s.lane m) ∧ (s.collide).routes = s.routes
    ∧ (∀ i', (s.collide).route i' = s.route i') ∧ (s.collide).pool = s.pool ∧ (∀ d', (s.collide).desc d' = s.desc d')
    ∧ (s.collide).streams = s.streams ∧ (∀ t', (s.collide).stream t' = s.stream t') ∧ (s.collide).slots = s.slots
    ∧ (∀ k', (s.collide).slot k' = s.slot k') ∧ (s.collide).holdLimit = s.holdLimit ∧ (s.collide).view = s.view
    ∧ (s.collide).window = s.window ∧ (s.collide).port = s.port ∧ (s.collide).cmd.phase = s.cmd.phase
    ∧ (s.collide).cmd.code = s.cmd.code ∧ (s.collide).cmd.arg = s.cmd.arg ∧ (s.collide).cmd.argReg = s.cmd.argReg
    ∧ (s.collide).cmd.result = s.cmd.result ∧ (s.collide).cmd.image = s.cmd.image
    ∧ (s.collide).cmd.taken = s.cmd.taken ∧ (s.collide).cmd.capture = s.cmd.capture ∧ (s.collide).time = s.time
    ∧ (s.collide).now = s.now ∧ (s.collide).counts.lanes = s.counts.lanes
    ∧ (s.collide).counts.streams = s.counts.streams ∧ (s.collide).counts.completions = s.counts.completions
    ∧ (∀ l' k', (s.collide).laneCount l' k' = s.laneCount l' k')
    ∧ (∀ t' k', (s.collide).streamCount t' k' = s.streamCount t' k') ∧ (s.collide).events = s.events
    ∧ (∀ e', (s.collide).latched e' = s.latched e') ∧ (s.collide).host = s.host ∧ (s.collide).memory = s.memory
    ∧ (s.collide).epoch = s.epoch ∧ (s.collide).pending = s.pending := by
  and_intros <;> intros <;> rfl

@[simp] theorem State.writeCmd_frame (s : State) (code : Word) :
    (∀ m, ((s.writeCmd code).lane m).entry = (s.lane m).entry) ∧ (s.writeCmd code).pool.ready = s.pool.ready
    ∧ (s.writeCmd code).pool.buildStart = s.pool.buildStart
    ∧ (s.writeCmd code).pool.lowThreshold = s.pool.lowThreshold
    ∧ (∀ t', ((s.writeCmd code).stream t').entry = (s.stream t').entry)
    ∧ (∀ t', ((s.writeCmd code).stream t').queue = (s.stream t').queue)
    ∧ (∀ t', ((s.writeCmd code).stream t').heldCount = (s.stream t').heldCount)
    ∧ (∀ t', ((s.writeCmd code).stream t').examine = (s.stream t').examine)
    ∧ (∀ t', ((s.writeCmd code).stream t').expired = (s.stream t').expired) ∧ (s.writeCmd code).slots = s.slots
    ∧ (∀ k', (s.writeCmd code).slot k' = s.slot k') ∧ (s.writeCmd code).holdLimit = s.holdLimit
    ∧ (s.writeCmd code).view = s.view ∧ (s.writeCmd code).window = s.window ∧ (s.writeCmd code).port = s.port
    ∧ (s.writeCmd code).cmd.argReg = s.cmd.argReg ∧ (s.writeCmd code).cmd.image = s.cmd.image
    ∧ (s.writeCmd code).cmd.capture = s.cmd.capture ∧ (s.writeCmd code).time = s.time ∧ (s.writeCmd code).now = s.now
    ∧ (s.writeCmd code).counts.streams = s.counts.streams
    ∧ (s.writeCmd code).counts.completions = s.counts.completions
    ∧ (∀ t' k', (s.writeCmd code).streamCount t' k' = s.streamCount t' k')
    ∧ (s.writeCmd code).events.enables = s.events.enables ∧ (s.writeCmd code).events.watermarks = s.events.watermarks
    ∧ (s.writeCmd code).events.watermarkEnables = s.events.watermarkEnables
    ∧ (s.writeCmd code).events.readyEnables = s.events.readyEnables
    ∧ (s.writeCmd code).events.latches &&& 0xFC08#16 = s.events.latches &&& 0xFC08#16
    ∧ (s.writeCmd code).host = s.host ∧ (s.writeCmd code).memory = s.memory ∧ (s.writeCmd code).epoch = s.epoch
    ∧ (s.writeCmd code).pending = s.pending := by
  unfold State.writeCmd; (repeat' split) <;> simp +contextual

@[simp] theorem State.purgeRecord_frame (s : State) (t : StreamId) (d : DescId) :
    (s.purgeRecord t d).lanes = s.lanes ∧ (∀ m, (s.purgeRecord t d).lane m = s.lane m)
    ∧ (s.purgeRecord t d).routes = s.routes ∧ (∀ i', (s.purgeRecord t d).route i' = s.route i')
    ∧ (s.purgeRecord t d).pool.ready = s.pool.ready ∧ (s.purgeRecord t d).pool.buildStart = s.pool.buildStart
    ∧ (s.purgeRecord t d).pool.lowThreshold = s.pool.lowThreshold
    ∧ (∀ t', ((s.purgeRecord t d).stream t').entry = (s.stream t').entry)
    ∧ (∀ t', ((s.purgeRecord t d).stream t').heldCount = (s.stream t').heldCount)
    ∧ (∀ t', ((s.purgeRecord t d).stream t').examine = (s.stream t').examine)
    ∧ (∀ t', ((s.purgeRecord t d).stream t').expired = (s.stream t').expired) ∧ (s.purgeRecord t d).slots = s.slots
    ∧ (∀ k', (s.purgeRecord t d).slot k' = s.slot k') ∧ (s.purgeRecord t d).holdLimit = s.holdLimit
    ∧ (s.purgeRecord t d).view = s.view ∧ (s.purgeRecord t d).window = s.window ∧ (s.purgeRecord t d).port = s.port
    ∧ (s.purgeRecord t d).cmd.code = s.cmd.code ∧ (s.purgeRecord t d).cmd.arg = s.cmd.arg
    ∧ (s.purgeRecord t d).cmd.argReg = s.cmd.argReg ∧ (s.purgeRecord t d).cmd.collision = s.cmd.collision
    ∧ (s.purgeRecord t d).cmd.image = s.cmd.image ∧ (s.purgeRecord t d).cmd.taken = s.cmd.taken
    ∧ (s.purgeRecord t d).cmd.capture = s.cmd.capture ∧ (s.purgeRecord t d).time = s.time
    ∧ (s.purgeRecord t d).now = s.now ∧ (s.purgeRecord t d).counts.lanes = s.counts.lanes
    ∧ (s.purgeRecord t d).counts.device = s.counts.device
    ∧ (s.purgeRecord t d).counts.completions = s.counts.completions
    ∧ (∀ l' k', (s.purgeRecord t d).laneCount l' k' = s.laneCount l' k')
    ∧ (∀ k', (s.purgeRecord t d).deviceCount k' = s.deviceCount k')
    ∧ (s.purgeRecord t d).events.enables = s.events.enables
    ∧ (s.purgeRecord t d).events.watermarks = s.events.watermarks
    ∧ (s.purgeRecord t d).events.watermarkEnables = s.events.watermarkEnables
    ∧ (s.purgeRecord t d).events.readyEnables = s.events.readyEnables
    ∧ (s.purgeRecord t d).events.latches &&& 0xFC08#16 = s.events.latches &&& 0xFC08#16
    ∧ (s.purgeRecord t d).host = s.host ∧ (s.purgeRecord t d).memory = s.memory ∧ (s.purgeRecord t d).epoch = s.epoch
    ∧ (s.purgeRecord t d).pending = s.pending := by
  simp +contextual [State.purgeRecord]

@[simp] theorem State.purgeStep_frame (s : State) (t : StreamId) (b : BitVec 32) :
    (s.purgeStep t b).lanes = s.lanes ∧ (∀ m, (s.purgeStep t b).lane m = s.lane m)
    ∧ (s.purgeStep t b).routes = s.routes ∧ (∀ i', (s.purgeStep t b).route i' = s.route i')
    ∧ (s.purgeStep t b).pool.ready = s.pool.ready ∧ (s.purgeStep t b).pool.buildStart = s.pool.buildStart
    ∧ (s.purgeStep t b).pool.lowThreshold = s.pool.lowThreshold
    ∧ (∀ t', ((s.purgeStep t b).stream t').entry = (s.stream t').entry)
    ∧ (∀ t', ((s.purgeStep t b).stream t').heldCount = (s.stream t').heldCount)
    ∧ (∀ t', ((s.purgeStep t b).stream t').examine = (s.stream t').examine)
    ∧ (∀ t', ((s.purgeStep t b).stream t').expired = (s.stream t').expired) ∧ (s.purgeStep t b).slots = s.slots
    ∧ (∀ k', (s.purgeStep t b).slot k' = s.slot k') ∧ (s.purgeStep t b).holdLimit = s.holdLimit
    ∧ (s.purgeStep t b).view = s.view ∧ (s.purgeStep t b).window = s.window ∧ (s.purgeStep t b).port = s.port
    ∧ (s.purgeStep t b).cmd.code = s.cmd.code ∧ (s.purgeStep t b).cmd.arg = s.cmd.arg
    ∧ (s.purgeStep t b).cmd.argReg = s.cmd.argReg ∧ (s.purgeStep t b).cmd.collision = s.cmd.collision
    ∧ (s.purgeStep t b).cmd.image = s.cmd.image ∧ (s.purgeStep t b).cmd.taken = s.cmd.taken
    ∧ (s.purgeStep t b).cmd.capture = s.cmd.capture ∧ (s.purgeStep t b).time = s.time ∧ (s.purgeStep t b).now = s.now
    ∧ (s.purgeStep t b).counts.lanes = s.counts.lanes ∧ (s.purgeStep t b).counts.device = s.counts.device
    ∧ (s.purgeStep t b).counts.completions = s.counts.completions
    ∧ (∀ l' k', (s.purgeStep t b).laneCount l' k' = s.laneCount l' k')
    ∧ (∀ k', (s.purgeStep t b).deviceCount k' = s.deviceCount k')
    ∧ (s.purgeStep t b).events.enables = s.events.enables ∧ (s.purgeStep t b).events.watermarks = s.events.watermarks
    ∧ (s.purgeStep t b).events.watermarkEnables = s.events.watermarkEnables
    ∧ (s.purgeStep t b).events.readyEnables = s.events.readyEnables
    ∧ (s.purgeStep t b).events.latches &&& 0xFC08#16 = s.events.latches &&& 0xFC08#16
    ∧ (s.purgeStep t b).host = s.host ∧ (s.purgeStep t b).memory = s.memory ∧ (s.purgeStep t b).epoch = s.epoch
    ∧ (s.purgeStep t b).pending = s.pending := by
  unfold State.purgeStep; (repeat' split) <;> simp +contextual

@[simp] theorem State.startBuild_frame (s : State) :
    (s.startBuild).lanes = s.lanes ∧ (∀ m, (s.startBuild).lane m = s.lane m) ∧ (s.startBuild).routes = s.routes
    ∧ (∀ i', (s.startBuild).route i' = s.route i') ∧ (s.startBuild).pool.links = s.pool.links
    ∧ (s.startBuild).pool.descs = s.pool.descs ∧ (s.startBuild).pool.lowThreshold = s.pool.lowThreshold
    ∧ (∀ d', (s.startBuild).desc d' = s.desc d') ∧ (s.startBuild).streams = s.streams
    ∧ (∀ t', (s.startBuild).stream t' = s.stream t') ∧ (s.startBuild).slots = s.slots
    ∧ (∀ k', (s.startBuild).slot k' = s.slot k') ∧ (s.startBuild).holdLimit = s.holdLimit
    ∧ (s.startBuild).view = s.view ∧ (s.startBuild).window = s.window ∧ (s.startBuild).port = s.port
    ∧ (s.startBuild).cmd = s.cmd ∧ (s.startBuild).time = s.time ∧ (s.startBuild).now = s.now
    ∧ (s.startBuild).counts = s.counts ∧ (∀ l' k', (s.startBuild).laneCount l' k' = s.laneCount l' k')
    ∧ (∀ t' k', (s.startBuild).streamCount t' k' = s.streamCount t' k')
    ∧ (∀ k', (s.startBuild).deviceCount k' = s.deviceCount k') ∧ (s.startBuild).events = s.events
    ∧ (∀ e', (s.startBuild).latched e' = s.latched e') ∧ (s.startBuild).host = s.host
    ∧ (s.startBuild).memory = s.memory ∧ (s.startBuild).epoch = s.epoch ∧ (s.startBuild).pending = s.pending := by
  and_intros <;> intros <;> rfl

@[simp] theorem State.clearHolds_frame (s : State) :
    (s.clearHolds).lanes = s.lanes ∧ (∀ m, (s.clearHolds).lane m = s.lane m) ∧ (s.clearHolds).routes = s.routes
    ∧ (∀ i', (s.clearHolds).route i' = s.route i') ∧ (s.clearHolds).pool = s.pool
    ∧ (∀ d', (s.clearHolds).desc d' = s.desc d') ∧ (s.clearHolds).streams = s.streams
    ∧ (∀ t', (s.clearHolds).stream t' = s.stream t') ∧ (s.clearHolds).slots = s.slots
    ∧ (∀ k', (s.clearHolds).slot k' = s.slot k') ∧ (s.clearHolds).holdLimit = s.holdLimit
    ∧ (s.clearHolds).view = s.view ∧ (s.clearHolds).window.handleReg = s.window.handleReg
    ∧ (s.clearHolds).window.pointed = s.window.pointed ∧ (s.clearHolds).window.offset = s.window.offset
    ∧ (s.clearHolds).window.pastEnd = s.window.pastEnd ∧ (s.clearHolds).port.position = s.port.position
    ∧ (s.clearHolds).port.balance = s.port.balance ∧ (s.clearHolds).port.interval = s.port.interval
    ∧ (s.clearHolds).port.left = s.port.left ∧ (s.clearHolds).port.nextSlice = s.port.nextSlice
    ∧ (s.clearHolds).port.times = s.port.times
    ∧ (s.clearHolds).cmd = s.cmd ∧ (s.clearHolds).time = s.time ∧ (s.clearHolds).now = s.now
    ∧ (s.clearHolds).counts.lanes = s.counts.lanes ∧ (s.clearHolds).counts.streams = s.counts.streams
    ∧ (s.clearHolds).counts.completions = s.counts.completions
    ∧ (∀ l' k', (s.clearHolds).laneCount l' k' = s.laneCount l' k')
    ∧ (∀ t' k', (s.clearHolds).streamCount t' k' = s.streamCount t' k')
    ∧ (s.clearHolds).events.enables = s.events.enables ∧ (s.clearHolds).events.watermarks = s.events.watermarks
    ∧ (s.clearHolds).events.watermarkEnables = s.events.watermarkEnables
    ∧ (s.clearHolds).events.readyEnables = s.events.readyEnables
    ∧ (s.clearHolds).events.latches &&& 0xFC08#16 = s.events.latches &&& 0xFC08#16
    ∧ (s.clearHolds).host.resetHigh = s.host.resetHigh ∧ (s.clearHolds).memory = s.memory
    ∧ (s.clearHolds).epoch = s.epoch ∧ (s.clearHolds).pending = s.pending := by
  unfold State.clearHolds; (repeat' split) <;> simp +contextual

@[simp] theorem State.emptyQueues_frame (s : State) :
    (s.emptyQueues).lanes = s.lanes ∧ (∀ m, (s.emptyQueues).lane m = s.lane m) ∧ (s.emptyQueues).routes = s.routes
    ∧ (∀ i', (s.emptyQueues).route i' = s.route i') ∧ (s.emptyQueues).pool = s.pool
    ∧ (∀ d', (s.emptyQueues).desc d' = s.desc d') ∧ (∀ t', ((s.emptyQueues).stream t').entry = (s.stream t').entry)
    ∧ (∀ t', ((s.emptyQueues).stream t').examine = (s.stream t').examine)
    ∧ (∀ t', ((s.emptyQueues).stream t').expired = (s.stream t').expired) ∧ (s.emptyQueues).holdLimit = s.holdLimit
    ∧ (s.emptyQueues).view = s.view ∧ (s.emptyQueues).window = s.window ∧ (s.emptyQueues).port = s.port
    ∧ (s.emptyQueues).cmd = s.cmd ∧ (s.emptyQueues).time = s.time ∧ (s.emptyQueues).now = s.now
    ∧ (s.emptyQueues).counts = s.counts ∧ (∀ l' k', (s.emptyQueues).laneCount l' k' = s.laneCount l' k')
    ∧ (∀ t' k', (s.emptyQueues).streamCount t' k' = s.streamCount t' k')
    ∧ (∀ k', (s.emptyQueues).deviceCount k' = s.deviceCount k') ∧ (s.emptyQueues).events = s.events
    ∧ (∀ e', (s.emptyQueues).latched e' = s.latched e') ∧ (s.emptyQueues).host = s.host
    ∧ (s.emptyQueues).memory = s.memory ∧ (s.emptyQueues).epoch = s.epoch ∧ (s.emptyQueues).pending = s.pending := by
  and_intros <;> intros <;> first | rfl | (simp [State.emptyQueues, State.stream, Stream.emptied])

@[simp] theorem State.clearSecond_frame (s : State) :
    (s.clearSecond).lanes = s.lanes ∧ (∀ m, (s.clearSecond).lane m = s.lane m) ∧ (s.clearSecond).routes = s.routes
    ∧ (∀ i', (s.clearSecond).route i' = s.route i') ∧ (s.clearSecond).pool.links = s.pool.links
    ∧ (s.clearSecond).pool.descs = s.pool.descs ∧ (s.clearSecond).pool.lowThreshold = s.pool.lowThreshold
    ∧ (∀ d', (s.clearSecond).desc d' = s.desc d') ∧ (∀ t', ((s.clearSecond).stream t').entry = (s.stream t').entry)
    ∧ (∀ t', ((s.clearSecond).stream t').examine = (s.stream t').examine)
    ∧ (∀ t', ((s.clearSecond).stream t').expired = (s.stream t').expired) ∧ (s.clearSecond).holdLimit = s.holdLimit
    ∧ (s.clearSecond).view = s.view ∧ (s.clearSecond).window.handleReg = s.window.handleReg
    ∧ (s.clearSecond).window.pointed = s.window.pointed ∧ (s.clearSecond).window.offset = s.window.offset
    ∧ (s.clearSecond).window.pastEnd = s.window.pastEnd ∧ (s.clearSecond).port.position = s.port.position
    ∧ (s.clearSecond).port.balance = s.port.balance ∧ (s.clearSecond).port.interval = s.port.interval
    ∧ (s.clearSecond).port.left = s.port.left ∧ (s.clearSecond).port.nextSlice = s.port.nextSlice
    ∧ (s.clearSecond).port.times = s.port.times
    ∧ (s.clearSecond).cmd.code = s.cmd.code ∧ (s.clearSecond).cmd.arg = s.cmd.arg
    ∧ (s.clearSecond).cmd.argReg = s.cmd.argReg ∧ (s.clearSecond).cmd.result = s.cmd.result
    ∧ (s.clearSecond).cmd.collision = s.cmd.collision ∧ (s.clearSecond).cmd.image = s.cmd.image
    ∧ (s.clearSecond).cmd.taken = s.cmd.taken ∧ (s.clearSecond).cmd.capture = s.cmd.capture
    ∧ (s.clearSecond).time = s.time ∧ (s.clearSecond).now = s.now ∧ (s.clearSecond).counts.lanes = s.counts.lanes
    ∧ (s.clearSecond).counts.streams = s.counts.streams ∧ (s.clearSecond).counts.completions = s.counts.completions
    ∧ (∀ l' k', (s.clearSecond).laneCount l' k' = s.laneCount l' k')
    ∧ (∀ t' k', (s.clearSecond).streamCount t' k' = s.streamCount t' k')
    ∧ (s.clearSecond).events.enables = s.events.enables ∧ (s.clearSecond).events.watermarks = s.events.watermarks
    ∧ (s.clearSecond).events.watermarkEnables = s.events.watermarkEnables
    ∧ (s.clearSecond).events.readyEnables = s.events.readyEnables
    ∧ (s.clearSecond).events.latches &&& 0xFC08#16 = s.events.latches &&& 0xFC08#16
    ∧ (s.clearSecond).host.resetHigh = s.host.resetHigh ∧ (s.clearSecond).memory = s.memory
    ∧ (s.clearSecond).epoch = s.epoch ∧ (s.clearSecond).pending = s.pending := by
  simp +contextual [State.clearSecond]

@[simp] theorem State.clearThird_frame (s : State) :
    (s.clearThird).lanes = s.lanes ∧ (∀ m, (s.clearThird).lane m = s.lane m) ∧ (s.clearThird).routes = s.routes
    ∧ (∀ i', (s.clearThird).route i' = s.route i') ∧ (s.clearThird).pool = s.pool
    ∧ (∀ d', (s.clearThird).desc d' = s.desc d') ∧ (s.clearThird).streams = s.streams
    ∧ (∀ t', (s.clearThird).stream t' = s.stream t') ∧ (s.clearThird).slots = s.slots
    ∧ (∀ k', (s.clearThird).slot k' = s.slot k') ∧ (s.clearThird).holdLimit = s.holdLimit
    ∧ (s.clearThird).view = s.view ∧ (s.clearThird).window = s.window ∧ (s.clearThird).port = s.port
    ∧ (s.clearThird).cmd.code = s.cmd.code ∧ (s.clearThird).cmd.arg = s.cmd.arg
    ∧ (s.clearThird).cmd.argReg = s.cmd.argReg ∧ (s.clearThird).cmd.result = s.cmd.result
    ∧ (s.clearThird).cmd.collision = s.cmd.collision ∧ (s.clearThird).cmd.image = s.cmd.image
    ∧ (s.clearThird).cmd.taken = s.cmd.taken ∧ (s.clearThird).cmd.capture = s.cmd.capture
    ∧ (s.clearThird).time = s.time ∧ (s.clearThird).now = s.now
    ∧ (s.clearThird).counts.completions = s.counts.completions ∧ (s.clearThird).events = s.events
    ∧ (∀ e', (s.clearThird).latched e' = s.latched e') ∧ (s.clearThird).host = s.host
    ∧ (s.clearThird).memory = s.memory ∧ (s.clearThird).epoch = s.epoch ∧ (s.clearThird).pending = s.pending := by
  and_intros <;> intros <;> rfl

@[simp] theorem State.idleWindow_frame (s : State) :
    (s.idleWindow).lanes = s.lanes ∧ (∀ m, (s.idleWindow).lane m = s.lane m) ∧ (s.idleWindow).routes = s.routes
    ∧ (∀ i', (s.idleWindow).route i' = s.route i') ∧ (s.idleWindow).pool = s.pool
    ∧ (∀ d', (s.idleWindow).desc d' = s.desc d') ∧ (s.idleWindow).streams = s.streams
    ∧ (∀ t', (s.idleWindow).stream t' = s.stream t') ∧ (s.idleWindow).slots = s.slots
    ∧ (∀ k', (s.idleWindow).slot k' = s.slot k') ∧ (s.idleWindow).holdLimit = s.holdLimit
    ∧ (s.idleWindow).view = s.view ∧ (s.idleWindow).port.position = s.port.position
    ∧ (s.idleWindow).port.balance = s.port.balance ∧ (s.idleWindow).port.interval = s.port.interval
    ∧ (s.idleWindow).port.left = s.port.left ∧ (s.idleWindow).port.nextSlice = s.port.nextSlice
    ∧ (s.idleWindow).port.times = s.port.times
    ∧ (s.idleWindow).cmd = s.cmd ∧ (s.idleWindow).time = s.time ∧ (s.idleWindow).now = s.now
    ∧ (s.idleWindow).counts = s.counts ∧ (∀ l' k', (s.idleWindow).laneCount l' k' = s.laneCount l' k')
    ∧ (∀ t' k', (s.idleWindow).streamCount t' k' = s.streamCount t' k')
    ∧ (∀ k', (s.idleWindow).deviceCount k' = s.deviceCount k') ∧ (s.idleWindow).events = s.events
    ∧ (∀ e', (s.idleWindow).latched e' = s.latched e') ∧ (s.idleWindow).host = s.host
    ∧ (s.idleWindow).memory = s.memory ∧ (s.idleWindow).epoch = s.epoch ∧ (s.idleWindow).pending = s.pending := by
  and_intros <;> intros <;> rfl

@[simp] theorem State.clearFourth_frame (s : State) :
    (s.clearFourth).lanes = s.lanes ∧ (∀ m, (s.clearFourth).lane m = s.lane m) ∧ (s.clearFourth).routes = s.routes
    ∧ (∀ i', (s.clearFourth).route i' = s.route i') ∧ (s.clearFourth).pool = s.pool
    ∧ (∀ d', (s.clearFourth).desc d' = s.desc d') ∧ (s.clearFourth).streams = s.streams
    ∧ (∀ t', (s.clearFourth).stream t' = s.stream t') ∧ (s.clearFourth).slots = s.slots
    ∧ (∀ k', (s.clearFourth).slot k' = s.slot k') ∧ (s.clearFourth).holdLimit = s.holdLimit
    ∧ (s.clearFourth).view = s.view ∧ (s.clearFourth).port.position = s.port.position
    ∧ (s.clearFourth).port.balance = s.port.balance ∧ (s.clearFourth).port.interval = s.port.interval
    ∧ (s.clearFourth).port.left = s.port.left ∧ (s.clearFourth).port.nextSlice = s.port.nextSlice
    ∧ (s.clearFourth).port.times = s.port.times
    ∧ (s.clearFourth).cmd.code = s.cmd.code ∧ (s.clearFourth).cmd.arg = s.cmd.arg
    ∧ (s.clearFourth).cmd.argReg = s.cmd.argReg ∧ (s.clearFourth).cmd.collision = s.cmd.collision
    ∧ (s.clearFourth).cmd.image = s.cmd.image ∧ (s.clearFourth).cmd.taken = s.cmd.taken
    ∧ (s.clearFourth).cmd.capture = s.cmd.capture ∧ (s.clearFourth).time = s.time ∧ (s.clearFourth).now = s.now
    ∧ (s.clearFourth).counts.lanes = s.counts.lanes ∧ (s.clearFourth).counts.streams = s.counts.streams
    ∧ (s.clearFourth).counts.completions = s.counts.completions
    ∧ (∀ l' k', (s.clearFourth).laneCount l' k' = s.laneCount l' k')
    ∧ (∀ t' k', (s.clearFourth).streamCount t' k' = s.streamCount t' k')
    ∧ (s.clearFourth).events.enables = s.events.enables ∧ (s.clearFourth).events.watermarks = s.events.watermarks
    ∧ (s.clearFourth).events.watermarkEnables = s.events.watermarkEnables
    ∧ (s.clearFourth).events.readyEnables = s.events.readyEnables
    ∧ (s.clearFourth).events.latches &&& 0xFC08#16 = s.events.latches &&& 0xFC08#16
    ∧ (s.clearFourth).host.resetHigh = s.host.resetHigh ∧ (s.clearFourth).memory = s.memory
    ∧ (s.clearFourth).epoch = s.epoch ∧ (s.clearFourth).pending = s.pending := by
  unfold State.clearFourth; (repeat' split) <;> simp +contextual

@[simp] theorem State.readTimeLo_frame (s : State) :
    (s.readTimeLo).lanes = s.lanes ∧ (∀ m, (s.readTimeLo).lane m = s.lane m) ∧ (s.readTimeLo).routes = s.routes
    ∧ (∀ i', (s.readTimeLo).route i' = s.route i') ∧ (s.readTimeLo).pool = s.pool
    ∧ (∀ d', (s.readTimeLo).desc d' = s.desc d') ∧ (s.readTimeLo).streams = s.streams
    ∧ (∀ t', (s.readTimeLo).stream t' = s.stream t') ∧ (s.readTimeLo).slots = s.slots
    ∧ (∀ k', (s.readTimeLo).slot k' = s.slot k') ∧ (s.readTimeLo).holdLimit = s.holdLimit
    ∧ (s.readTimeLo).view = s.view ∧ (s.readTimeLo).window = s.window ∧ (s.readTimeLo).port = s.port
    ∧ (s.readTimeLo).cmd = s.cmd ∧ (s.readTimeLo).time.count = s.time.count ∧ (s.readTimeLo).time.sub = s.time.sub
    ∧ (s.readTimeLo).time.judging = s.time.judging ∧ (s.readTimeLo).now = s.now ∧ (s.readTimeLo).counts = s.counts
    ∧ (∀ l' k', (s.readTimeLo).laneCount l' k' = s.laneCount l' k')
    ∧ (∀ t' k', (s.readTimeLo).streamCount t' k' = s.streamCount t' k')
    ∧ (∀ k', (s.readTimeLo).deviceCount k' = s.deviceCount k') ∧ (s.readTimeLo).events = s.events
    ∧ (∀ e', (s.readTimeLo).latched e' = s.latched e') ∧ (s.readTimeLo).host.resetHigh = s.host.resetHigh
    ∧ (s.readTimeLo).host.heldRead = s.host.heldRead ∧ (s.readTimeLo).memory = s.memory
    ∧ (s.readTimeLo).epoch = s.epoch ∧ (s.readTimeLo).pending = s.pending := by
  and_intros <;> intros <;> rfl

@[simp] theorem State.writeEventLatch_frame (s : State) (v : Word) :
    (s.writeEventLatch v).lanes = s.lanes ∧ (∀ m, (s.writeEventLatch v).lane m = s.lane m)
    ∧ (s.writeEventLatch v).routes = s.routes ∧ (∀ i', (s.writeEventLatch v).route i' = s.route i')
    ∧ (s.writeEventLatch v).pool = s.pool ∧ (∀ d', (s.writeEventLatch v).desc d' = s.desc d')
    ∧ (s.writeEventLatch v).streams = s.streams ∧ (∀ t', (s.writeEventLatch v).stream t' = s.stream t')
    ∧ (s.writeEventLatch v).slots = s.slots ∧ (∀ k', (s.writeEventLatch v).slot k' = s.slot k')
    ∧ (s.writeEventLatch v).holdLimit = s.holdLimit ∧ (s.writeEventLatch v).view = s.view
    ∧ (s.writeEventLatch v).window = s.window ∧ (s.writeEventLatch v).port = s.port
    ∧ (s.writeEventLatch v).cmd = s.cmd ∧ (s.writeEventLatch v).time = s.time ∧ (s.writeEventLatch v).now = s.now
    ∧ (s.writeEventLatch v).counts = s.counts ∧ (∀ l' k', (s.writeEventLatch v).laneCount l' k' = s.laneCount l' k')
    ∧ (∀ t' k', (s.writeEventLatch v).streamCount t' k' = s.streamCount t' k')
    ∧ (∀ k', (s.writeEventLatch v).deviceCount k' = s.deviceCount k')
    ∧ (s.writeEventLatch v).events.enables = s.events.enables
    ∧ (s.writeEventLatch v).events.watermarks = s.events.watermarks
    ∧ (s.writeEventLatch v).events.watermarkEnables = s.events.watermarkEnables
    ∧ (s.writeEventLatch v).events.readyEnables = s.events.readyEnables ∧ (s.writeEventLatch v).host = s.host
    ∧ (s.writeEventLatch v).memory = s.memory ∧ (s.writeEventLatch v).epoch = s.epoch
    ∧ (s.writeEventLatch v).pending = s.pending := by
  and_intros <;> intros <;> rfl

@[simp] theorem State.writeEventEnable_frame (s : State) (v : Word) :
    (s.writeEventEnable v).lanes = s.lanes ∧ (∀ m, (s.writeEventEnable v).lane m = s.lane m)
    ∧ (s.writeEventEnable v).routes = s.routes ∧ (∀ i', (s.writeEventEnable v).route i' = s.route i')
    ∧ (s.writeEventEnable v).pool = s.pool ∧ (∀ d', (s.writeEventEnable v).desc d' = s.desc d')
    ∧ (s.writeEventEnable v).streams = s.streams ∧ (∀ t', (s.writeEventEnable v).stream t' = s.stream t')
    ∧ (s.writeEventEnable v).slots = s.slots ∧ (∀ k', (s.writeEventEnable v).slot k' = s.slot k')
    ∧ (s.writeEventEnable v).holdLimit = s.holdLimit ∧ (s.writeEventEnable v).view = s.view
    ∧ (s.writeEventEnable v).window = s.window ∧ (s.writeEventEnable v).port = s.port
    ∧ (s.writeEventEnable v).cmd = s.cmd ∧ (s.writeEventEnable v).time = s.time ∧ (s.writeEventEnable v).now = s.now
    ∧ (s.writeEventEnable v).counts = s.counts ∧ (∀ l' k', (s.writeEventEnable v).laneCount l' k' = s.laneCount l' k')
    ∧ (∀ t' k', (s.writeEventEnable v).streamCount t' k' = s.streamCount t' k')
    ∧ (∀ k', (s.writeEventEnable v).deviceCount k' = s.deviceCount k')
    ∧ (s.writeEventEnable v).events.latches = s.events.latches
    ∧ (s.writeEventEnable v).events.watermarks = s.events.watermarks
    ∧ (s.writeEventEnable v).events.watermarkEnables = s.events.watermarkEnables
    ∧ (s.writeEventEnable v).events.readyEnables = s.events.readyEnables
    ∧ (∀ e', (s.writeEventEnable v).latched e' = s.latched e') ∧ (s.writeEventEnable v).host = s.host
    ∧ (s.writeEventEnable v).memory = s.memory ∧ (s.writeEventEnable v).epoch = s.epoch
    ∧ (s.writeEventEnable v).pending = s.pending := by
  and_intros <;> intros <;> rfl

@[simp] theorem State.writeWmark_frame (s : State) (h : Half) (v : Word) :
    (s.writeWmark h v).lanes = s.lanes ∧ (∀ m, (s.writeWmark h v).lane m = s.lane m)
    ∧ (s.writeWmark h v).routes = s.routes ∧ (∀ i', (s.writeWmark h v).route i' = s.route i')
    ∧ (s.writeWmark h v).pool = s.pool ∧ (∀ d', (s.writeWmark h v).desc d' = s.desc d')
    ∧ (s.writeWmark h v).streams = s.streams ∧ (∀ t', (s.writeWmark h v).stream t' = s.stream t')
    ∧ (s.writeWmark h v).slots = s.slots ∧ (∀ k', (s.writeWmark h v).slot k' = s.slot k')
    ∧ (s.writeWmark h v).holdLimit = s.holdLimit ∧ (s.writeWmark h v).view = s.view
    ∧ (s.writeWmark h v).window = s.window ∧ (s.writeWmark h v).port = s.port ∧ (s.writeWmark h v).cmd = s.cmd
    ∧ (s.writeWmark h v).time = s.time ∧ (s.writeWmark h v).now = s.now ∧ (s.writeWmark h v).counts = s.counts
    ∧ (∀ l' k', (s.writeWmark h v).laneCount l' k' = s.laneCount l' k')
    ∧ (∀ t' k', (s.writeWmark h v).streamCount t' k' = s.streamCount t' k')
    ∧ (∀ k', (s.writeWmark h v).deviceCount k' = s.deviceCount k')
    ∧ (s.writeWmark h v).events.latches = s.events.latches ∧ (s.writeWmark h v).events.enables = s.events.enables
    ∧ (s.writeWmark h v).events.watermarkEnables = s.events.watermarkEnables
    ∧ (s.writeWmark h v).events.readyEnables = s.events.readyEnables
    ∧ (∀ e', (s.writeWmark h v).latched e' = s.latched e') ∧ (s.writeWmark h v).host = s.host
    ∧ (s.writeWmark h v).memory = s.memory ∧ (s.writeWmark h v).epoch = s.epoch
    ∧ (s.writeWmark h v).pending = s.pending := by
  and_intros <;> intros <;> rfl

@[simp] theorem State.writeWmarkEn_frame (s : State) (h : Half) (v : Word) :
    (s.writeWmarkEn h v).lanes = s.lanes ∧ (∀ m, (s.writeWmarkEn h v).lane m = s.lane m)
    ∧ (s.writeWmarkEn h v).routes = s.routes ∧ (∀ i', (s.writeWmarkEn h v).route i' = s.route i')
    ∧ (s.writeWmarkEn h v).pool = s.pool ∧ (∀ d', (s.writeWmarkEn h v).desc d' = s.desc d')
    ∧ (s.writeWmarkEn h v).streams = s.streams ∧ (∀ t', (s.writeWmarkEn h v).stream t' = s.stream t')
    ∧ (s.writeWmarkEn h v).slots = s.slots ∧ (∀ k', (s.writeWmarkEn h v).slot k' = s.slot k')
    ∧ (s.writeWmarkEn h v).holdLimit = s.holdLimit ∧ (s.writeWmarkEn h v).view = s.view
    ∧ (s.writeWmarkEn h v).window = s.window ∧ (s.writeWmarkEn h v).port = s.port ∧ (s.writeWmarkEn h v).cmd = s.cmd
    ∧ (s.writeWmarkEn h v).time = s.time ∧ (s.writeWmarkEn h v).now = s.now ∧ (s.writeWmarkEn h v).counts = s.counts
    ∧ (∀ l' k', (s.writeWmarkEn h v).laneCount l' k' = s.laneCount l' k')
    ∧ (∀ t' k', (s.writeWmarkEn h v).streamCount t' k' = s.streamCount t' k')
    ∧ (∀ k', (s.writeWmarkEn h v).deviceCount k' = s.deviceCount k')
    ∧ (s.writeWmarkEn h v).events.latches = s.events.latches ∧ (s.writeWmarkEn h v).events.enables = s.events.enables
    ∧ (s.writeWmarkEn h v).events.watermarks = s.events.watermarks
    ∧ (s.writeWmarkEn h v).events.readyEnables = s.events.readyEnables
    ∧ (∀ e', (s.writeWmarkEn h v).latched e' = s.latched e') ∧ (s.writeWmarkEn h v).host = s.host
    ∧ (s.writeWmarkEn h v).memory = s.memory ∧ (s.writeWmarkEn h v).epoch = s.epoch
    ∧ (s.writeWmarkEn h v).pending = s.pending := by
  and_intros <;> intros <;> rfl

@[simp] theorem State.writeReadyEn_frame (s : State) (h : Half) (v : Word) :
    (s.writeReadyEn h v).lanes = s.lanes ∧ (∀ m, (s.writeReadyEn h v).lane m = s.lane m)
    ∧ (s.writeReadyEn h v).routes = s.routes ∧ (∀ i', (s.writeReadyEn h v).route i' = s.route i')
    ∧ (s.writeReadyEn h v).pool = s.pool ∧ (∀ d', (s.writeReadyEn h v).desc d' = s.desc d')
    ∧ (s.writeReadyEn h v).streams = s.streams ∧ (∀ t', (s.writeReadyEn h v).stream t' = s.stream t')
    ∧ (s.writeReadyEn h v).slots = s.slots ∧ (∀ k', (s.writeReadyEn h v).slot k' = s.slot k')
    ∧ (s.writeReadyEn h v).holdLimit = s.holdLimit ∧ (s.writeReadyEn h v).view = s.view
    ∧ (s.writeReadyEn h v).window = s.window ∧ (s.writeReadyEn h v).port = s.port ∧ (s.writeReadyEn h v).cmd = s.cmd
    ∧ (s.writeReadyEn h v).time = s.time ∧ (s.writeReadyEn h v).now = s.now ∧ (s.writeReadyEn h v).counts = s.counts
    ∧ (∀ l' k', (s.writeReadyEn h v).laneCount l' k' = s.laneCount l' k')
    ∧ (∀ t' k', (s.writeReadyEn h v).streamCount t' k' = s.streamCount t' k')
    ∧ (∀ k', (s.writeReadyEn h v).deviceCount k' = s.deviceCount k')
    ∧ (s.writeReadyEn h v).events.latches = s.events.latches ∧ (s.writeReadyEn h v).events.enables = s.events.enables
    ∧ (s.writeReadyEn h v).events.watermarks = s.events.watermarks
    ∧ (s.writeReadyEn h v).events.watermarkEnables = s.events.watermarkEnables
    ∧ (∀ e', (s.writeReadyEn h v).latched e' = s.latched e') ∧ (s.writeReadyEn h v).host = s.host
    ∧ (s.writeReadyEn h v).memory = s.memory ∧ (s.writeReadyEn h v).epoch = s.epoch
    ∧ (s.writeReadyEn h v).pending = s.pending := by
  and_intros <;> intros <;> rfl

@[simp] theorem State.writeRefreshCfg_frame (s : State) (v : Word) :
    (s.writeRefreshCfg v).lanes = s.lanes ∧ (∀ m, (s.writeRefreshCfg v).lane m = s.lane m)
    ∧ (s.writeRefreshCfg v).routes = s.routes ∧ (∀ i', (s.writeRefreshCfg v).route i' = s.route i')
    ∧ (s.writeRefreshCfg v).pool = s.pool ∧ (∀ d', (s.writeRefreshCfg v).desc d' = s.desc d')
    ∧ (s.writeRefreshCfg v).streams = s.streams ∧ (∀ t', (s.writeRefreshCfg v).stream t' = s.stream t')
    ∧ (s.writeRefreshCfg v).slots = s.slots ∧ (∀ k', (s.writeRefreshCfg v).slot k' = s.slot k')
    ∧ (s.writeRefreshCfg v).holdLimit = s.holdLimit ∧ (s.writeRefreshCfg v).view = s.view
    ∧ (s.writeRefreshCfg v).window = s.window ∧ (s.writeRefreshCfg v).port.op = s.port.op
    ∧ (s.writeRefreshCfg v).port.position = s.port.position ∧ (s.writeRefreshCfg v).port.balance = s.port.balance
    ∧ (s.writeRefreshCfg v).port.left = s.port.left ∧ (s.writeRefreshCfg v).port.nextSlice = s.port.nextSlice
    ∧ (s.writeRefreshCfg v).port.times = s.port.times
    ∧ (s.writeRefreshCfg v).cmd = s.cmd ∧ (s.writeRefreshCfg v).time = s.time ∧ (s.writeRefreshCfg v).now = s.now
    ∧ (s.writeRefreshCfg v).counts.lanes = s.counts.lanes ∧ (s.writeRefreshCfg v).counts.streams = s.counts.streams
    ∧ (s.writeRefreshCfg v).counts.completions = s.counts.completions
    ∧ (∀ l' k', (s.writeRefreshCfg v).laneCount l' k' = s.laneCount l' k')
    ∧ (∀ t' k', (s.writeRefreshCfg v).streamCount t' k' = s.streamCount t' k')
    ∧ (s.writeRefreshCfg v).events.enables = s.events.enables
    ∧ (s.writeRefreshCfg v).events.watermarks = s.events.watermarks
    ∧ (s.writeRefreshCfg v).events.watermarkEnables = s.events.watermarkEnables
    ∧ (s.writeRefreshCfg v).events.readyEnables = s.events.readyEnables
    ∧ (s.writeRefreshCfg v).events.latches &&& 0xFC08#16 = s.events.latches &&& 0xFC08#16
    ∧ (s.writeRefreshCfg v).host = s.host ∧ (s.writeRefreshCfg v).memory = s.memory
    ∧ (s.writeRefreshCfg v).epoch = s.epoch ∧ (s.writeRefreshCfg v).pending = s.pending := by
  unfold State.writeRefreshCfg; dsimp only; (repeat' split) <;> simp +contextual <;> (and_intros <;> intros <;> rfl)

@[simp] theorem State.writePoolLow_frame (s : State) (v : Word) :
    (s.writePoolLow v).lanes = s.lanes ∧ (∀ m, (s.writePoolLow v).lane m = s.lane m)
    ∧ (s.writePoolLow v).routes = s.routes ∧ (∀ i', (s.writePoolLow v).route i' = s.route i')
    ∧ (s.writePoolLow v).pool.ready = s.pool.ready ∧ (s.writePoolLow v).pool.buildStart = s.pool.buildStart
    ∧ (s.writePoolLow v).pool.freeCells = s.pool.freeCells ∧ (s.writePoolLow v).pool.freeDescs = s.pool.freeDescs
    ∧ (s.writePoolLow v).pool.links = s.pool.links ∧ (s.writePoolLow v).pool.descs = s.pool.descs
    ∧ (∀ d', (s.writePoolLow v).desc d' = s.desc d') ∧ (s.writePoolLow v).streams = s.streams
    ∧ (∀ t', (s.writePoolLow v).stream t' = s.stream t') ∧ (s.writePoolLow v).slots = s.slots
    ∧ (∀ k', (s.writePoolLow v).slot k' = s.slot k') ∧ (s.writePoolLow v).holdLimit = s.holdLimit
    ∧ (s.writePoolLow v).view = s.view ∧ (s.writePoolLow v).window = s.window ∧ (s.writePoolLow v).port = s.port
    ∧ (s.writePoolLow v).cmd = s.cmd ∧ (s.writePoolLow v).time = s.time ∧ (s.writePoolLow v).now = s.now
    ∧ (s.writePoolLow v).counts.lanes = s.counts.lanes ∧ (s.writePoolLow v).counts.streams = s.counts.streams
    ∧ (s.writePoolLow v).counts.completions = s.counts.completions
    ∧ (∀ l' k', (s.writePoolLow v).laneCount l' k' = s.laneCount l' k')
    ∧ (∀ t' k', (s.writePoolLow v).streamCount t' k' = s.streamCount t' k')
    ∧ (s.writePoolLow v).events.enables = s.events.enables
    ∧ (s.writePoolLow v).events.watermarks = s.events.watermarks
    ∧ (s.writePoolLow v).events.watermarkEnables = s.events.watermarkEnables
    ∧ (s.writePoolLow v).events.readyEnables = s.events.readyEnables
    ∧ (s.writePoolLow v).events.latches &&& 0xFC08#16 = s.events.latches &&& 0xFC08#16
    ∧ (s.writePoolLow v).host = s.host ∧ (s.writePoolLow v).memory = s.memory ∧ (s.writePoolLow v).epoch = s.epoch
    ∧ (s.writePoolLow v).pending = s.pending := by
  unfold State.writePoolLow; dsimp only; (repeat' split) <;> simp +contextual <;> (and_intros <;> intros <;> rfl)

@[simp] theorem State.writeHoldLimit_frame (s : State) (v : Word) :
    (s.writeHoldLimit v).lanes = s.lanes ∧ (∀ m, (s.writeHoldLimit v).lane m = s.lane m)
    ∧ (s.writeHoldLimit v).routes = s.routes ∧ (∀ i', (s.writeHoldLimit v).route i' = s.route i')
    ∧ (s.writeHoldLimit v).pool = s.pool ∧ (∀ d', (s.writeHoldLimit v).desc d' = s.desc d')
    ∧ (s.writeHoldLimit v).streams = s.streams ∧ (∀ t', (s.writeHoldLimit v).stream t' = s.stream t')
    ∧ (s.writeHoldLimit v).slots = s.slots ∧ (∀ k', (s.writeHoldLimit v).slot k' = s.slot k')
    ∧ (s.writeHoldLimit v).view = s.view ∧ (s.writeHoldLimit v).window = s.window ∧ (s.writeHoldLimit v).port = s.port
    ∧ (s.writeHoldLimit v).cmd = s.cmd ∧ (s.writeHoldLimit v).time = s.time ∧ (s.writeHoldLimit v).now = s.now
    ∧ (s.writeHoldLimit v).counts = s.counts ∧ (∀ l' k', (s.writeHoldLimit v).laneCount l' k' = s.laneCount l' k')
    ∧ (∀ t' k', (s.writeHoldLimit v).streamCount t' k' = s.streamCount t' k')
    ∧ (∀ k', (s.writeHoldLimit v).deviceCount k' = s.deviceCount k') ∧ (s.writeHoldLimit v).events = s.events
    ∧ (∀ e', (s.writeHoldLimit v).latched e' = s.latched e') ∧ (s.writeHoldLimit v).host = s.host
    ∧ (s.writeHoldLimit v).memory = s.memory ∧ (s.writeHoldLimit v).epoch = s.epoch
    ∧ (s.writeHoldLimit v).pending = s.pending := by
  and_intros <;> intros <;> rfl

@[simp] theorem State.writeArg_frame (s : State) (v : Word) :
    (s.writeArg v).lanes = s.lanes ∧ (∀ m, (s.writeArg v).lane m = s.lane m) ∧ (s.writeArg v).routes = s.routes
    ∧ (∀ i', (s.writeArg v).route i' = s.route i') ∧ (s.writeArg v).pool = s.pool
    ∧ (∀ d', (s.writeArg v).desc d' = s.desc d') ∧ (s.writeArg v).streams = s.streams
    ∧ (∀ t', (s.writeArg v).stream t' = s.stream t') ∧ (s.writeArg v).slots = s.slots
    ∧ (∀ k', (s.writeArg v).slot k' = s.slot k') ∧ (s.writeArg v).holdLimit = s.holdLimit
    ∧ (s.writeArg v).view = s.view ∧ (s.writeArg v).window = s.window ∧ (s.writeArg v).port = s.port
    ∧ (s.writeArg v).cmd.phase = s.cmd.phase ∧ (s.writeArg v).cmd.code = s.cmd.code
    ∧ (s.writeArg v).cmd.arg = s.cmd.arg ∧ (s.writeArg v).cmd.result = s.cmd.result
    ∧ (s.writeArg v).cmd.collision = s.cmd.collision ∧ (s.writeArg v).cmd.image = s.cmd.image
    ∧ (s.writeArg v).cmd.taken = s.cmd.taken ∧ (s.writeArg v).cmd.capture = s.cmd.capture
    ∧ (s.writeArg v).time = s.time ∧ (s.writeArg v).now = s.now ∧ (s.writeArg v).counts = s.counts
    ∧ (∀ l' k', (s.writeArg v).laneCount l' k' = s.laneCount l' k')
    ∧ (∀ t' k', (s.writeArg v).streamCount t' k' = s.streamCount t' k')
    ∧ (∀ k', (s.writeArg v).deviceCount k' = s.deviceCount k') ∧ (s.writeArg v).events = s.events
    ∧ (∀ e', (s.writeArg v).latched e' = s.latched e') ∧ (s.writeArg v).host = s.host
    ∧ (s.writeArg v).memory = s.memory ∧ (s.writeArg v).epoch = s.epoch ∧ (s.writeArg v).pending = s.pending := by
  and_intros <;> intros <;> rfl

@[simp] theorem State.writeImage_frame (s : State) (i : Fin 8) (v : Word) :
    (s.writeImage i v).lanes = s.lanes ∧ (∀ m, (s.writeImage i v).lane m = s.lane m)
    ∧ (s.writeImage i v).routes = s.routes ∧ (∀ i', (s.writeImage i v).route i' = s.route i')
    ∧ (s.writeImage i v).pool = s.pool ∧ (∀ d', (s.writeImage i v).desc d' = s.desc d')
    ∧ (s.writeImage i v).streams = s.streams ∧ (∀ t', (s.writeImage i v).stream t' = s.stream t')
    ∧ (s.writeImage i v).slots = s.slots ∧ (∀ k', (s.writeImage i v).slot k' = s.slot k')
    ∧ (s.writeImage i v).holdLimit = s.holdLimit ∧ (s.writeImage i v).view = s.view
    ∧ (s.writeImage i v).window = s.window ∧ (s.writeImage i v).port = s.port
    ∧ (s.writeImage i v).cmd.phase = s.cmd.phase ∧ (s.writeImage i v).cmd.code = s.cmd.code
    ∧ (s.writeImage i v).cmd.arg = s.cmd.arg ∧ (s.writeImage i v).cmd.argReg = s.cmd.argReg
    ∧ (s.writeImage i v).cmd.result = s.cmd.result ∧ (s.writeImage i v).cmd.collision = s.cmd.collision
    ∧ (s.writeImage i v).cmd.taken = s.cmd.taken ∧ (s.writeImage i v).cmd.capture = s.cmd.capture
    ∧ (s.writeImage i v).time = s.time ∧ (s.writeImage i v).now = s.now ∧ (s.writeImage i v).counts = s.counts
    ∧ (∀ l' k', (s.writeImage i v).laneCount l' k' = s.laneCount l' k')
    ∧ (∀ t' k', (s.writeImage i v).streamCount t' k' = s.streamCount t' k')
    ∧ (∀ k', (s.writeImage i v).deviceCount k' = s.deviceCount k') ∧ (s.writeImage i v).events = s.events
    ∧ (∀ e', (s.writeImage i v).latched e' = s.latched e') ∧ (s.writeImage i v).host = s.host
    ∧ (s.writeImage i v).memory = s.memory ∧ (s.writeImage i v).epoch = s.epoch
    ∧ (s.writeImage i v).pending = s.pending := by
  and_intros <;> intros <;> rfl

@[simp] theorem State.writeWord_frame (s : State) (a : BitVec 7) (v : Word) :
    (∀ m, ((s.writeWord a v).lane m).entry = (s.lane m).entry) ∧ (s.writeWord a v).pool.ready = s.pool.ready
    ∧ (s.writeWord a v).pool.buildStart = s.pool.buildStart
    ∧ (∀ t', ((s.writeWord a v).stream t').entry = (s.stream t').entry)
    ∧ (∀ t', ((s.writeWord a v).stream t').queue = (s.stream t').queue)
    ∧ (∀ t', ((s.writeWord a v).stream t').heldCount = (s.stream t').heldCount)
    ∧ (∀ t', ((s.writeWord a v).stream t').examine = (s.stream t').examine)
    ∧ (∀ t', ((s.writeWord a v).stream t').expired = (s.stream t').expired) ∧ (s.writeWord a v).slots = s.slots
    ∧ (∀ k', (s.writeWord a v).slot k' = s.slot k') ∧ (s.writeWord a v).view = s.view
    ∧ (s.writeWord a v).port.position = s.port.position ∧ (s.writeWord a v).port.balance = s.port.balance
    ∧ (s.writeWord a v).port.left = s.port.left ∧ (s.writeWord a v).port.nextSlice = s.port.nextSlice
    ∧ (s.writeWord a v).port.times = s.port.times
    ∧ (s.writeWord a v).cmd.capture = s.cmd.capture ∧ (s.writeWord a v).time = s.time ∧ (s.writeWord a v).now = s.now
    ∧ (s.writeWord a v).counts.streams = s.counts.streams
    ∧ (s.writeWord a v).counts.completions = s.counts.completions
    ∧ (∀ t' k', (s.writeWord a v).streamCount t' k' = s.streamCount t' k') ∧ (s.writeWord a v).host = s.host
    ∧ (s.writeWord a v).memory = s.memory ∧ (s.writeWord a v).epoch = s.epoch ∧ (s.writeWord a v).pending = s.pending := by
  unfold State.writeWord; (repeat' split) <;> simp +contextual

@[simp] theorem State.releaseReset_frame (s : State) :
    (s.releaseReset).lanes = s.lanes ∧ (∀ m, (s.releaseReset).lane m = s.lane m) ∧ (s.releaseReset).routes = s.routes
    ∧ (∀ i', (s.releaseReset).route i' = s.route i') ∧ (s.releaseReset).pool.ready = s.pool.ready
    ∧ (s.releaseReset).pool.freeCells = s.pool.freeCells ∧ (s.releaseReset).pool.freeDescs = s.pool.freeDescs
    ∧ (s.releaseReset).pool.links = s.pool.links ∧ (s.releaseReset).pool.descs = s.pool.descs
    ∧ (s.releaseReset).pool.lowThreshold = s.pool.lowThreshold ∧ (∀ d', (s.releaseReset).desc d' = s.desc d')
    ∧ (s.releaseReset).streams = s.streams ∧ (∀ t', (s.releaseReset).stream t' = s.stream t')
    ∧ (s.releaseReset).slots = s.slots ∧ (∀ k', (s.releaseReset).slot k' = s.slot k')
    ∧ (s.releaseReset).holdLimit = s.holdLimit ∧ (s.releaseReset).view = s.view ∧ (s.releaseReset).window = s.window
    ∧ (s.releaseReset).port.op = s.port.op ∧ (s.releaseReset).port.position = s.port.position
    ∧ (s.releaseReset).port.balance = s.port.balance ∧ (s.releaseReset).port.interval = s.port.interval
    ∧ (s.releaseReset).port.nextSlice = s.port.nextSlice ∧ (s.releaseReset).cmd = s.cmd
    ∧ (s.releaseReset).port.times = s.port.times
    ∧ (s.releaseReset).time = s.time ∧ (s.releaseReset).now = s.now ∧ (s.releaseReset).counts = s.counts
    ∧ (∀ l' k', (s.releaseReset).laneCount l' k' = s.laneCount l' k')
    ∧ (∀ t' k', (s.releaseReset).streamCount t' k' = s.streamCount t' k')
    ∧ (∀ k', (s.releaseReset).deviceCount k' = s.deviceCount k') ∧ (s.releaseReset).events = s.events
    ∧ (∀ e', (s.releaseReset).latched e' = s.latched e') ∧ (s.releaseReset).host.heldRead = s.host.heldRead
    ∧ (s.releaseReset).host.driven = s.host.driven ∧ (s.releaseReset).memory = s.memory
    ∧ (s.releaseReset).epoch = s.epoch ∧ (s.releaseReset).pending = s.pending := by
  and_intros <;> intros <;> rfl

end Sys2Proof.Machine
end

