-- ==== Sys2Proof/Laws/Compose.lean ====
section
/-! SUPPORT. How the operations compose: setters over setters, event latches that only rise, the edges that complete a
header or a byte, and what the Cell Pool's operations, abort and the queue operations change. -/

namespace Sys2Proof.Machine

/-! ### The outcome of an act or an access -/

theorem act_next {n : String} {s : State} {b : Bool} {x t : State} (h : act n s b x = .next t) : t = x := by
  unfold act at h; split at h <;> simp_all

theorem act_of_enabled {n : String} {s : State} {b : Bool} {x : State} (h : s.host.resetHigh = true) (hb : b = true) :
    act n s b x = .next x := by simp [act, h, hb]

/-- Lines that are released stay so (R173). -/
theorem State.released_of_none {s : State} (h : s.host.driven = none) : s.released = s := by
  unfold State.released; rw [← h]

/-- A write by the host: it is taken, or the part is in reset and only the lines are released, or a read is held. -/
theorem hostAccess_next {s x t : State} (h : hostAccess s x = .next t) :
    s.host.heldRead = true ∧ t = s
      ∨ s.host.heldRead = false ∧ s.host.resetHigh = true ∧ t = x.released
      ∨ s.host.heldRead = false ∧ s.host.resetHigh = false ∧ t = s.released := by
  unfold hostAccess at h
  split at h
  · cases h; simp [*]
  · split at h <;> cases h <;> simp_all

theorem hostAccess_of_takes {s x : State} (h : s.takesAccess) (hx : x.host = s.host := by simp) :
    hostAccess s x = .next x := by
  simp [hostAccess, h.1, h.2.1, State.released_of_none (hx ▸ h.2.2)]

/-- A read by the host: it is taken, or the part is in reset and answers 0000h, or a read is held. -/
theorem hostRead_next {s x t : State} (h : hostRead s x = .next t) :
    s.host.heldRead = true ∧ t = s
      ∨ s.host.heldRead = false ∧ s.host.resetHigh = true ∧ t = x
      ∨ s.host.heldRead = false ∧ s.host.resetHigh = false ∧ t = { s with host := { s.host with driven := some 0 } } := by
  unfold hostRead at h
  split at h
  · cases h; simp [*]
  · split at h <;> cases h <;> simp_all

theorem hostRead_of_takes {s x : State} (h : s.takesAccess) : hostRead s x = .next x := by
  simp [hostRead, h.1, h.2.1]

/-! ### Setters over setters -/

@[simp] theorem State.setLane_setLane (s : State) (l : LaneId) (x y : Lane) :
    (s.setLane l x).setLane l y = s.setLane l y := by
  simp [State.setLane, Vector.set_set]

@[simp] theorem State.setRx_setRx (s : State) (l : LaneId) (x y : Receiver) :
    (s.setRx l x).setRx l y = s.setRx l y := by
  simp [State.setRx]

theorem State.setRx_latch (s : State) (l : LaneId) (x : Receiver) (e : Event) :
    (s.latch e).setRx l x = (s.setRx l x).latch e := rfl

theorem State.setRx_bumpLane (s : State) (l m : LaneId) (x : Receiver) (k : LaneCounter) :
    (s.bumpLane m k).setRx l x = (s.setRx l x).bumpLane m k := rfl

theorem State.setRx_bumpStream (s : State) (l : LaneId) (x : Receiver) (t : StreamId) (k : StreamCounter) :
    (s.bumpStream t k).setRx l x = (s.setRx l x).bumpStream t k := rfl

theorem State.bumpLane_latch (s : State) (l : LaneId) (k : LaneCounter) (e : Event) :
    (s.latch e).bumpLane l k = (s.bumpLane l k).latch e := rfl

theorem State.bumpStream_latch (s : State) (t : StreamId) (k : StreamCounter) (e : Event) :
    (s.latch e).bumpStream t k = (s.bumpStream t k).latch e := rfl

theorem State.noteEdge_eq (s : State) (l : LaneId) : s.noteEdge l = s.setRx l ((s.lane l).rx.heard s.now) := rfl

/-! ### What an edge brings -/

theorem State.silenceDue_eq_false_iff (s : State) (l : LaneId) : s.silenceDue l = false ↔ s.heardInTime l := by
  simp only [State.silenceDue, State.heardInTime, State.since, Config.silenceMicros, Bool.and_eq_false_iff,
    bne_eq_false_iff_eq, Bool.not_eq_eq_eq_not, Bool.not_false, or_assoc]
  exact or_congr Iff.rfl (or_congr Iff.rfl (decide_eq_false_iff_not.trans not_le))

theorem State.silenceStep_of_heard {s : State} {l : LaneId} (h : s.heardInTime l) : s.silenceStep l = s := by
  rw [State.silenceStep, if_neg (by simp [(State.silenceDue_eq_false_iff s l).mpr h])]

/-- An edge before silence is due is taken as the lane's state has it (R1, R15). -/
theorem State.clockEdge_of_heard {s : State} {l : LaneId} (b : Bool) (hr : s.host.resetHigh = true)
    (h : s.heardInTime l) : s.clockEdge l b = s.takeEdge l b := by
  rw [State.clockEdge, if_pos hr, State.silenceStep_of_heard h]

/-- Silence is detected once: it is not due on a lane that is silent (R15). -/
theorem State.silenceDue_fallSilent (s : State) (l m : LaneId) :
    (s.fallSilent l).silenceDue m = if m = l then false else s.silenceDue m := by
  split
  · subst m; simp [State.silenceDue, State.fallSilent]
  · rename_i h
    have e : (s.fallSilent l).lane m = s.lane m := by simp [h]
    unfold State.silenceDue State.since; rw [e, show (s.fallSilent l).time = s.time by simp]

/-- An edge on a lane whose silence is due comes after the silence (R15, entry 24). -/
theorem State.clockEdge_fallSilent {s : State} {l : LaneId} (b : Bool) (hr : s.host.resetHigh = true) (h : s.silenceDue l = true) :
    (s.fallSilent l).clockEdge l b = s.clockEdge l b := by
  have e : (s.fallSilent l).silenceDue l = false := by rw [State.silenceDue_fallSilent, if_pos rfl]
  simp [State.clockEdge, State.silenceStep, hr, h, e]

theorem State.clockEdge_of_endsProvisionalHeader {s : State} {l : LaneId} {b : Bool} {h : Header}
    (he : s.endsProvisionalHeader l b h) : s.clockEdge l b = (s.noteEdge l).confirmHeader l h := by
  obtain ⟨h1, h2, h3, h4, h5, h6⟩ := he
  rw [State.clockEdge_of_heard b h1 h6]
  simp [State.takeEdge, h2, State.provisionalEdge, State.noteEdge_eq, Receiver.heard, h3, h4, h5]

theorem State.clockEdge_of_endsHeader {s : State} {l : LaneId} {b : Bool} {h : Header} (he : s.endsHeader l b h) :
    s.clockEdge l b = (s.noteEdge l).lockedHeader l h := by
  obtain ⟨h1, h2, h3, h4, h5, h6⟩ := he
  rw [State.clockEdge_of_heard b h1 h6]
  simp [State.takeEdge, h2, State.lockedEdge, State.noteEdge_eq, Receiver.heard, h3, h4, h5]

theorem State.clockEdge_of_endsByte {s : State} {l : LaneId} {b : Bool} {x : Byte} {sub : SubState}
    (he : s.endsByte l b sub x) (hs : sub ≠ .awaitHeader) : s.clockEdge l b = (s.noteEdge l).lockedByte l x := by
  obtain ⟨h1, h2, h3, h4, h5, h6⟩ := he
  rw [State.clockEdge_of_heard b h1 h6]
  simp [State.takeEdge, h2, State.lockedEdge, State.noteEdge_eq, Receiver.heard, h3, h4, h5, hs]

/-! ### Event latches: every operation but a write of EVENT_LATCH and a reset keeps one that is set -/

theorem State.latched_latch (s : State) (f e : Event) (h : s.latched e = true) : (s.latch f).latched e = true := by
  by_cases hh : e = f
  · subst hh; simp
  · simp [hh, h]

theorem State.latched_congr {s t : State} (h : s.events.latches = t.events.latches) (e : Event) :
    s.latched e = t.latched e := by simp [State.latched, h]

theorem State.latched_endCommand (s : State) (r : Result) (e : Event) (h : s.latched e = true) :
    (s.endCommand r).latched e = true := State.latched_latch _ _ _ h

theorem State.latched_settlePurge (s : State) (e : Event) (h : s.latched e = true) : s.settlePurge.latched e = true := by
  unfold State.settlePurge; split
  · split
    · exact State.latched_endCommand _ _ _ h
    · exact h
  · exact h

theorem State.latched_evict (s : State) (t : StreamId) (d : DescId) (e : Event) (h : s.latched e = true) :
    (s.evict t d).latched e = true := State.latched_latch _ _ _ h

theorem State.latched_evictUntil (s : State) (t : StreamId) (n : Nat) (ds : List DescId) (e : Event)
    (h : s.latched e = true) : (s.evictUntil t n ds).latched e = true := by
  induction ds generalizing s with
  | nil => exact h
  | cons d ds ih =>
    unfold State.evictUntil; split
    · exact h
    · exact ih _ (State.latched_evict _ _ _ _ h)

theorem State.latched_admission (s : State) (t : StreamId) (n : Nat) (e : Event) (h : s.latched e = true) :
    (s.admission t n).1.latched e = true := by
  unfold State.admission; split
  · exact h
  · split
    · exact State.latched_settlePurge _ _ (State.latched_evictUntil _ _ _ _ _ h)
    · exact h

theorem State.latched_refuse (s : State) (l : LaneId) (h : Header) (c : Option StreamId) (e : Event)
    (hl : s.latched e = true) : (s.refuse l h c).latched e = true := by
  cases c <;> exact State.latched_latch _ _ _ hl

theorem State.latched_notePoolLow (s : State) (a b : Nat) (e : Event) (h : s.latched e = true) :
    (s.notePoolLow a b).latched e = true := by
  unfold State.notePoolLow; split
  · exact State.latched_latch _ _ _ h
  · exact h

theorem State.latched_raiseCharge (s : State) (t : StreamId) (n : Nat) (e : Event) (h : s.latched e = true) :
    (s.raiseCharge t n).latched e = true := by
  unfold State.raiseCharge; dsimp only; split <;> exact h

theorem State.latched_accept (s : State) (l : LaneId) (h : Header) (t : StreamId) (r : Option (RouteId × Byte))
    (d : DescId) (e : Event) (hl : s.latched e = true) : (s.accept l h t r d).latched e = true := by
  unfold State.accept; exact State.latched_raiseCharge _ _ _ _ (State.latched_notePoolLow _ _ _ _ hl)

theorem State.latched_offer (s : State) (l : LaneId) (h : Header) (e : Event) (hl : s.latched e = true) :
    (s.offer l h).latched e = true := by
  unfold State.offer
  split
  · exact State.latched_refuse _ _ _ _ _ hl
  · split
    · exact State.latched_refuse _ _ _ _ _ hl
    · split
      · dsimp only; split
        · exact State.latched_accept _ _ _ _ _ _ _ (State.latched_admission _ _ _ _ hl)
        · exact State.latched_refuse _ _ _ _ _ (State.latched_admission _ _ _ _ hl)
      · exact State.latched_refuse _ _ _ _ _ hl

/-! ### An offered header leaves the lane in SKIP or in BODY -/

theorem State.rx_refuse (s : State) (l : LaneId) (h : Header) (c : Option StreamId) :
    ((s.refuse l h c).lane l).rx = { (s.lane l).rx with sub := .skip, byteCount := h.length.toNat + 2, bits := [] } := by
  cases c <;> simp [State.refuse, State.skipRecord]

theorem State.rx_accept (s : State) (l : LaneId) (h : Header) (t : StreamId) (r : Option (RouteId × Byte)) (d : DescId) :
    ((s.accept l h t r d).lane l).rx = { (s.lane l).rx with sub := .body, byteCount := h.length.toNat, bits := [] } := by
  simp [State.accept]

theorem State.rx_offer (s : State) (l : LaneId) (h : Header) :
    ((s.offer l h).lane l).rx = { (s.lane l).rx with sub := .skip, byteCount := h.length.toNat + 2, bits := [] }
      ∨ ((s.offer l h).lane l).rx = { (s.lane l).rx with sub := .body, byteCount := h.length.toNat, bits := [] } := by
  unfold State.offer
  split
  · simp [State.rx_refuse]
  · split
    · simp [State.rx_refuse]
    · split
      · rename_i t r _ _
        have ha : ((s.admission t (cellsFor h.length)).1.lane l).rx = (s.lane l).rx := by simp
        dsimp only
        split
        · right; rw [State.rx_accept, ha]
        · left; rw [State.rx_refuse, ha]
      · simp [State.rx_refuse]

/-! ### Cell chains -/

theorem linkOf_set (links : Tab (Option CellId)) (c k : CellId) (x : Option CellId) :
    linkOf (Tab.set none links c.val x) k = if k = c then x else linkOf links k := by
  simp only [linkOf, Tab.get_set, Fin.ext_iff]

theorem linkOf_linkChain (cs : List CellId) (links : Tab (Option CellId)) (k : CellId) (h : k ∉ cs) :
    linkOf (linkChain links cs) k = linkOf links k := by
  induction cs generalizing links with
  | nil => rfl
  | cons c cs ih =>
    have hc : k ≠ c := fun e => h (e ▸ List.mem_cons_self ..)
    have hcs : k ∉ cs := fun e => h (List.mem_cons_of_mem _ e)
    cases cs with
    | nil => simp only [linkChain, linkOf_set, hc, if_false]
    | cons c' cs => rw [linkChain, ih _ hcs, linkOf_set, if_neg hc]

/-- Cells linked in order form the chain from the first of them (R28, R60, R61). -/
theorem chainFrom_linkChain (cs : List CellId) (links : Tab (Option CellId)) (d : CellId) (h : cs.Nodup) :
    chainFrom (linkChain links cs) cs.length (cs.headD d) = cs := by
  induction cs generalizing links with
  | nil => rfl
  | cons c cs ih =>
    cases cs with
    | nil => simp [linkChain, chainFrom, linkOf_set]
    | cons c' cs =>
      have hc : c ∉ c' :: cs := (List.nodup_cons.mp h).1
      have e : linkOf (linkChain links (c :: c' :: cs)) c = some c' := by
        rw [linkChain, linkOf_linkChain _ _ _ hc, linkOf_set, if_pos rfl]
      rw [List.length_cons, List.headD_cons, chainFrom, e]
      simp only [linkChain]
      exact congrArg (c :: ·) (ih (Tab.set none links c.val (some c')) (List.nodup_cons.mp h).2)

/-! ### Giving back -/

theorem State.desc_returnDesc (s : State) (d e : DescId) :
    (s.returnDesc d).desc e = if e = d then { s.desc d with state := .free } else s.desc e := by
  show (s.setDesc d _).desc e = _
  exact State.desc_setDesc ..

@[simp] theorem State.freeDescs_returnDesc (s : State) (d : DescId) :
    (s.returnDesc d).pool.freeDescs = s.pool.freeDescs ++ [d] := rfl

@[simp] theorem State.freeCells_returnCells (s : State) (cs : List CellId) :
    (s.returnCells cs).pool.freeCells = s.pool.freeCells ++ cs := rfl

theorem State.stream_lowerCharge (s : State) (t : StreamId) (n : Nat) (u : StreamId) :
    (s.lowerCharge t n).stream u
      = if u = t then { s.stream t with charge := (s.stream t).charge - n } else s.stream u := by
  unfold State.lowerCharge; exact State.stream_setStream ..

theorem State.desc_freeRecord (s : State) (d e : DescId) :
    (s.freeRecord d).desc e = if e = d then { s.desc d with state := .free } else s.desc e := by
  show ((s.returnCells _).returnDesc d).desc e = _
  rw [State.desc_returnDesc]; rfl

@[simp] theorem State.freeDescs_freeRecord (s : State) (d : DescId) :
    (s.freeRecord d).pool.freeDescs = s.pool.freeDescs ++ [d] := rfl

@[simp] theorem State.freeCells_freeRecord (s : State) (d : DescId) :
    (s.freeRecord d).pool.freeCells = s.pool.freeCells ++ s.chain d := rfl

theorem State.stream_freeRecord (s : State) (d : DescId) (u : StreamId) :
    (s.freeRecord d).stream u = if u = (s.desc d).stream
      then { s.stream u with charge := (s.stream u).charge - (s.desc d).cellCount } else s.stream u := by
  show (((s.returnCells _).returnDesc d).lowerCharge _ _).stream u = _
  rw [State.stream_lowerCharge]; split
  · subst_vars; rfl
  · rfl

theorem State.stream_dequeue (s : State) (t u : StreamId) (d : DescId) :
    (s.dequeue t d).stream u
      = if u = t then { s.stream t with queue := (s.stream t).queue.erase d } else s.stream u := by
  unfold State.dequeue; exact State.stream_setStream ..

/-! ### Abort -/

theorem State.desc_abort (s : State) (l : LaneId) (d e : DescId) :
    (s.abort l d).desc e = if e = d then { s.desc d with state := .free } else s.desc e := by
  show (((s.setUnit l _).returnCells _).returnDesc d).desc e = _
  rw [State.desc_returnDesc]; rfl

@[simp] theorem State.freeDescs_abort (s : State) (l : LaneId) (d : DescId) :
    (s.abort l d).pool.freeDescs = s.pool.freeDescs ++ [d] := rfl

theorem State.stream_abort (s : State) (l : LaneId) (d : DescId) (u : StreamId) :
    (s.abort l d).stream u = if u = (s.desc d).stream
      then { s.stream u with charge := (s.stream u).charge - (s.desc d).cellCount } else s.stream u := by
  show ((((s.setUnit l _).returnCells _).returnDesc d).lowerCharge _ _).stream u = _
  rw [State.stream_lowerCharge]; split
  · subst_vars; rfl
  · rfl

theorem State.unit_abort (s : State) (l : LaneId) (d : DescId) :
    ((s.abort l d).lane l).unit = (s.lane l).unit.abort d := by
  show ((s.setUnit l _).lane l).unit = _
  simp

@[simp] theorem State.latched_abort (s : State) (l : LaneId) (d : DescId) : (s.abort l d).latched .recordDrop = true :=
  State.latched_latch_self _ _

@[simp] theorem State.latched_abort_ne (s : State) (l : LaneId) (d : DescId) {e : Event} (h : e ≠ .recordDrop) :
    (s.abort l d).latched e = s.latched e := by
  unfold State.abort; simp [h]

/-! ### Completion -/

theorem Reception.findStaging_eq_none (u : Reception) (p : StagingCell → Bool) :
    u.findStaging p = none ↔ ∀ i : Fin 4, p u.staging[i.val] = false := by
  unfold Reception.findStaging; rw [List.find?_eq_none]; simp

theorem State.tryComplete_eq (s : State) (l : LaneId) (d : DescId) (h : (s.lane l).unit.list.head? = some d) :
    s.tryComplete l = if (s.desc d).state = .completing
        ∧ ∀ i : Fin 4, (s.lane l).unit.staging[i.val].busyFor d = false then s.complete l d else s := by
  unfold State.tryComplete
  split
  · rename_i hl; simp [hl] at h
  · rename_i e es hl
    obtain rfl : e = d := by simpa [hl] using h
    simp only [Option.isNone_iff_eq_none, Reception.findStaging_eq_none]

theorem State.desc_number (s : State) (d e : DescId) :
    (s.number d).desc e = if e = d then { s.desc d with completion := some s.counts.completions } else s.desc e := by
  show (s.setDesc d _).desc e = _
  exact State.desc_setDesc ..

theorem State.desc_enqueue (s : State) (d e : DescId) :
    (s.enqueue d).desc e = if e = d then { s.desc d with state := .queued } else s.desc e := by
  show (s.setDesc d _).desc e = _
  exact State.desc_setDesc ..

theorem State.stream_enqueue (s : State) (d : DescId) (u : StreamId) :
    (s.enqueue d).stream u = if u = (s.desc d).stream
      then { s.stream u with queue := (s.stream u).queue ++ [d], expired := (s.stream u).unexamined d }
      else s.stream u := by
  unfold State.enqueue; dsimp only
  rw [(State.bumpStream_frame _ _ _).2.2.2.2.2.2.2.1, State.stream_setStream]; split
  · subst_vars; rfl
  · rfl

/-- What sequence tracking may change of the record: its three flags and its Gap Size. -/
theorem State.desc_track (s : State) (d e : DescId) :
    ((s.track d).desc e).state = (s.desc e).state ∧ ((s.track d).desc e).stream = (s.desc e).stream
      ∧ ((s.track d).desc e).completion = (s.desc e).completion ∧ ((s.track d).desc e).damaged = (s.desc e).damaged
      ∧ ((s.track d).desc e).cellCount = (s.desc e).cellCount ∧ ((s.track d).desc e).firstCell = (s.desc e).firstCell
      ∧ ((s.track d).desc e).length = (s.desc e).length ∧ (e ≠ d → (s.track d).desc e = s.desc e) := by
  by_cases he : e = d
  · subst he; unfold State.track; dsimp only; (repeat' split) <;> simp
  · have : (s.track d).desc e = s.desc e := by
      unfold State.track; dsimp only; (repeat' split) <;> simp [he]
    simp [this]

/-- Sequence tracking does nothing to a record that is damaged or not sequence tracked (R51). -/
theorem State.track_of_untracked (s : State) (d : DescId) (h : (s.desc d).damaged = true ∨ (s.desc d).route = none
    ∨ ∃ i e, (s.desc d).route = some (i, e) ∧ (s.route i).seqCheck = false) : s.track d = s := by
  unfold State.track; dsimp only
  rcases h with h | h | ⟨i, e, h, h'⟩
  · rw [h]
  · rw [h]; split <;> simp_all
  · rw [h]; split <;> simp_all

@[simp] theorem State.streamCount_track (s : State) (d : DescId) (t : StreamId) {k : StreamCounter} (h1 : k ≠ .gapEvents)
    (h2 : k ≠ .sequenceErrors) : (s.track d).streamCount t k = s.streamCount t k := by
  unfold State.track; dsimp only; (repeat' split) <;> simp [h1, h2]

theorem State.tryComplete_cases (s : State) (l : LaneId) :
    s.tryComplete l = s ∨ ∃ d, s.tryComplete l = s.complete l d ∧ (s.lane l).unit.list.head? = some d := by
  unfold State.tryComplete; split
  · simp
  · rename_i d ds h
    split
    · right; exact ⟨d, rfl, by simp [h]⟩
    · simp

/-! ### The end of a cell write -/

theorem Reception.findStaging_writing (u : Reception) (i : Fin 4) (h : u.staging[i.val].isWriting = true)
    (hn : ∀ j : Fin 4, j ≠ i → u.staging[j.val].isWriting = false) : u.findStaging StagingCell.isWriting = some i := by
  unfold Reception.findStaging
  cases hf : (List.finRange 4).find? (fun i => u.staging[i.val].isWriting) with
  | none => rw [List.find?_eq_none] at hf; exact absurd h (hf i (by simp))
  | some j =>
    have := List.find?_some hf
    by_cases hj : j = i
    · rw [hj]
    · rw [hn j hj] at this; cases this

/-- The end of the write of a lane whose one WRITING staging cell is known: the bytes are stored, the staging cell is
FREE, and then a retiring cell returns or a record may complete (R32, R36, R38). -/
theorem State.finishWrite_eq (s : State) (l : LaneId) (i : Fin 4) (c : Staged)
    (hw : (s.lane l).unit.staging[i.val] = .writing c)
    (hn : ∀ j : Fin 4, j ≠ i → (s.lane l).unit.staging[j.val].isWriting = false) (x : State)
    (hx : x = (s.freePort.storeCell c.cell c.image).setUnit l { (s.lane l).unit with
      staging := (s.lane l).unit.staging.set i.val .free, retiring := none }) :
    (∀ k, (s.lane l).unit.retiring = some k → s.finishWrite l = x.returnCells [k])
      ∧ ((s.lane l).unit.retiring = none → s.finishWrite l = x.tryComplete l) := by
  subst hx
  unfold State.finishWrite
  simp only [Reception.findStaging_writing _ i (by rw [hw]; rfl) hn, hw, StagingCell.staged]
  constructor
  · intro k hk; rw [hk]
  · intro hk; rw [hk]

/-! ### Return to a queue -/

/-- A record is put behind every record of greater age and ahead of the others (R82). -/
theorem insertByAge_split (f : DescId → Nat) (d : DescId) (xs : List DescId) :
    ∃ front back, xs = front ++ back ∧ insertByAge f d xs = front ++ d :: back ∧ (∀ e ∈ front, f d < f e)
      ∧ ∀ e, back.head? = some e → f e ≤ f d := by
  induction xs with
  | nil => exact ⟨[], [], rfl, rfl, by simp, by simp⟩
  | cons x xs ih =>
    unfold insertByAge
    split
    · obtain ⟨front, back, h1, h2, h3, h4⟩ := ih
      exact ⟨x :: front, back, by simp [h1], by simp [h2], by simpa using ⟨by assumption, h3⟩, h4⟩
    · rename_i h
      exact ⟨[], x :: xs, rfl, rfl, by simp, by simpa using Nat.le_of_not_lt h⟩

theorem State.desc_requeue (s : State) (d e : DescId) :
    (s.requeue d).desc e = if e = d then { s.desc d with state := .queued } else s.desc e := by
  show (s.setDesc d _).desc e = _
  exact State.desc_setDesc ..

theorem State.stream_requeue (s : State) (d : DescId) (u : StreamId) :
    (s.requeue d).stream u = if u = (s.desc d).stream
      then { s.stream u with
        queue := insertByAge s.age d (s.stream u).queue, heldCount := (s.stream u).heldCount - 1
        expired := (s.stream u).unexamined d }
      else s.stream u := by
  unfold State.requeue; rw [State.stream_setStream]; split
  · subst_vars; rfl
  · rfl

/-! ### Hold slots and the end act -/

theorem State.slot_emptySlot (s : State) (i j : SlotId) :
    (s.emptySlot i).slot j = if j = i then ⟨(s.slot i).generation + 1, none⟩ else s.slot j := by
  have h : (s.emptySlot i).slot j = (s.setSlot i ⟨(s.slot i).generation + 1, none⟩).slot j := by
    unfold State.emptySlot; dsimp only; split
    · simp
    · rfl
  rw [h]; split
  · subst_vars; simp
  · simp [*]

theorem State.counters_staleWindow (s : State) (k : DeviceCounter) (h : k ≠ .windowErrors) :
    s.staleWindow.deviceCount k = s.deviceCount k := by
  unfold State.staleWindow; dsimp only; split
  · exact State.deviceCount_bumpDevice_ne _ h
  · rfl

theorem State.latched_staleWindow_ne (s : State) {e : Event} (h : e ≠ .windowError) :
    s.staleWindow.latched e = s.latched e := by
  unfold State.staleWindow; dsimp only; split
  · exact State.latched_latch_ne _ h
  · rfl

@[simp] theorem State.deviceCount_emptySlot (s : State) (i : SlotId) {k : DeviceCounter} (h : k ≠ .windowErrors) :
    (s.emptySlot i).deviceCount k = s.deviceCount k := by
  unfold State.emptySlot; dsimp only; split
  · rw [State.counters_staleWindow _ _ h]; rfl
  · rfl

@[simp] theorem State.latched_emptySlot_ne (s : State) (i : SlotId) {e : Event} (h : e ≠ .windowError) :
    (s.emptySlot i).latched e = s.latched e := by
  unfold State.emptySlot; dsimp only; split
  · rw [State.latched_staleWindow_ne _ h]; rfl
  · rfl

/-- The window after a slot is emptied: STALE where it served the slot (R130). -/
theorem State.mode_emptySlot (s : State) (i : SlotId) :
    (s.emptySlot i).window.mode = if s.windowServes i then .stale else s.window.mode := by
  unfold State.emptySlot; dsimp only; split
  · unfold State.staleWindow; dsimp only; split <;> rfl
  · rfl

theorem State.endCommand_eq (s : State) (r : Result) : s.endCommand r = { s with
    cmd := { s.cmd with phase := .idle, result := r }
    events := { s.events with latches := s.events.latches ||| 0x0080 } } := by
  simp only [State.endCommand, State.latch, Event.position]
  have h : (1 : Word) <<< 7 = 0x0080 := by decide
  rw [h]

theorem State.ended_endCommand (s : State) (r : Result) : s.ended (s.endCommand r) r :=
  ⟨rfl, State.latched_latch_self _ _⟩

end Sys2Proof.Machine
end

