-- ==== Sys2Proof/Laws/Acts.lean ====
section
/-! SUPPORT. What a step can do, said once: every next state of a command is one of the named operations applied to the
state, with the conditions the operation was taken under. A proof over every step is a proof over these cases. -/

namespace Sys2Proof.Machine

/-- What a command's next state is made of: the acts, each on the state it is taken in. -/
inductive State.Act (s : State) : State → Prop where
  | same : State.Act s s
  | released : State.Act s s.released
  | readsZero : s.host.resetHigh = false → State.Act s { s with host := { s.host with driven := some 0 } }
  | hardReset : State.Act s s.hardReset
  | releaseReset : s.host.resetHigh = false → State.Act s s.releaseReset
  | takeEdge (l : LaneId) (b : Bool) : State.Act s (s.takeEdge l b)
  | silence (l : LaneId) : s.silenceDue l = true → State.Act s (s.fallSilent l)
  | arbitrate : s.port.op = none → State.Act s s.arbitrate
  | finishWrite (l : LaneId) : s.port.op = some (.write l) → s.portEnds = true → State.Act s (s.finishWrite l)
  | finishRead : s.readInFlight = true → s.portEnds = true → State.Act s s.finishRead
  | finishRefresh : s.port.op = some .refresh → s.portEnds = true → State.Act s s.finishRefresh
  | intervalExpiry : s.port.left ≤ unitsPerMicrosecond → State.Act s s.intervalExpiry
  | countMicrosecond : (s.port.interval ≠ 0 → unitsPerMicrosecond ≤ s.port.left) → State.Act s s.countMicrosecond
  | examination (t : StreamId) : State.Act s (s.examination t)
  | ageOut (t : StreamId) (d : DescId) : s.expiredRecord t = some d → State.Act s (s.ageOut t d)
  | expireHold (i : SlotId) (h : Holding) : s.expiredHold = some (i, h) → State.Act s (s.expireHold i h)
  | finishBuild : s.buildDue = true → State.Act s s.finishBuild
  | take (t : StreamId) : s.awaits .take = true → State.Act s (s.doTake t)
  | peek (t : StreamId) : s.awaits .peek = true → State.Act s (s.doPeek t)
  | release (h : Byte) : s.awaits .release = true → State.Act s (s.doRelease h)
  | returnRecord (h : Byte) : s.awaits .returnRecord = true → State.Act s (s.doReturn h)
  | purgeStep (t : StreamId) (b : BitVec 32) : s.cmd.phase = .purging t b → State.Act s (s.purgeStep t b)
  | clearSecond : s.cmd.phase = .clearing .second → s.noWriteInFlight = true → State.Act s s.clearSecond
  | clearThird : s.cmd.phase = .clearing .third → State.Act s s.clearThird
  | clearFourth : s.cmd.phase = .clearing .fourth → State.Act s s.clearFourth
  | capture (g : CounterGroup) : s.awaits .capture = true → State.Act s (s.doCapture g)
  | tableRead (e : TableEntry) : s.awaits .tableRead = true → State.Act s (s.doTableRead e)
  | tableWrite (e : TableEntry) : s.awaits .tableWrite = true → State.Act s (s.doTableWrite e)
  | endsRunning (r : Result) : s.cmd.phase = .running → State.Act s (s.endCommand r)
  | endsFailed (r : Result) : s.cmd.phase = .failed r → State.Act s (s.endCommand r)
  | endsPurged : s.cmd.phase = .purged → State.Act s (s.endCommand .ok)
  | writeCmd (code : Word) : s.host.heldRead = false → State.Act s (s.writeCmd code)
  | readWindow : s.host.heldRead = false → State.Act s s.readWindow
  | abandonRead : State.Act s s.abandonRead
  | readTimeLo : s.host.heldRead = false → State.Act s s.readTimeLo
  | writeWord (a : BitVec 7) (v : Word) : s.host.heldRead = false → State.Act s (s.writeWord a v)

/-- One act after another. -/
abbrev State.Acts : State → State → Prop := Relation.ReflTransGen State.Act

theorem State.Act.one {s t : State} (h : State.Act s t) : State.Acts s t := .single h

theorem State.Acts.silenceStep (s : State) (l : LaneId) : State.Acts s (s.silenceStep l) := by
  unfold State.silenceStep; split
  · exact .single (.silence l ‹_›)
  · exact .refl

/-- An edge is the silence it finds, where there is one, and the edge. -/
theorem State.Acts.clockEdge (s : State) (l : LaneId) (b : Bool) : State.Acts s (s.clockEdge l b) := by
  unfold State.clockEdge; split
  · exact (State.Acts.silenceStep s l).tail (.takeEdge l b)
  · exact .refl

/-! ### What comes before a count (entry 7) -/

theorem State.Acts.examined (s : State) (u : StreamId) : State.Acts s (s.examined u) := by
  unfold State.examined; split
  · exact .refl
  · exact .single (.examination u)

theorem State.Acts.ageStep (s : State) (u : StreamId) : State.Acts s (s.ageStep u) := by
  unfold State.ageStep; split
  · exact .single (.ageOut u _ ‹_›)
  · exact .refl

theorem State.Acts.ageSteps (s : State) (u : StreamId) (n : Nat) : State.Acts s (s.ageSteps u n) := by
  induction n generalizing s with
  | zero => exact .refl
  | succ n ih => exact (State.Acts.ageStep s u).trans (ih _)

theorem State.Acts.finishAges (s : State) (u : StreamId) : State.Acts s (s.finishAges u) :=
  (State.Acts.examined s u).trans (State.Acts.ageSteps _ u _)

theorem State.Acts.holdStep (s : State) : State.Acts s s.holdStep := by
  unfold State.holdStep; split
  · exact .single (.expireHold _ _ ‹_›)
  · exact .refl

theorem State.Acts.holdSteps (s : State) (n : Nat) : State.Acts s (s.holdSteps n) := by
  induction n generalizing s with
  | zero => exact .refl
  | succ n ih => exact (State.Acts.holdStep s).trans (ih _)

theorem State.Acts.takeIntervals (s : State) (n : Nat) : State.Acts s (s.takeIntervals n) := by
  induction n generalizing s with
  | zero => exact .refl
  | succ n ih =>
    unfold State.takeIntervals; split
    · exact (State.Act.one (.intervalExpiry (Nat.le_of_lt ‹_›))).trans (ih _)
    · exact .refl

theorem State.Acts.finishSilences (s : State) : State.Acts s s.finishSilences := by
  have h : ∀ (ls : List LaneId) (s : State), State.Acts s (ls.foldl State.silenceStep s) := by
    intro ls; induction ls with
    | nil => exact fun _ => .refl
    | cons l ls ih => exact fun s => (State.Acts.silenceStep s l).trans (ih _)
  exact h _ s

theorem State.Acts.buildStep (s : State) : State.Acts s s.buildStep := by
  unfold State.buildStep; split
  · exact .single (.finishBuild ‹_›)
  · exact .refl

/-- What a microsecond still has to bring is made of the part's own acts. -/
theorem State.Acts.finishMicrosecond (s : State) : State.Acts s s.finishMicrosecond := by
  have h : ∀ (us : List StreamId) (s : State), State.Acts s (us.foldl State.finishAges s) := by
    intro us; induction us with
    | nil => exact fun _ => .refl
    | cons u us ih => exact fun s => (State.Acts.finishAges s u).trans (ih _)
  exact ((((h _ s).trans (State.Acts.holdSteps _ _)).trans (State.Acts.finishSilences _)).trans
    (State.Acts.buildStep _)).trans (State.Acts.takeIntervals _ _)

/-- Each interval is a unit or more, so n steps take every expiry of the next n units (R139). -/
theorem State.left_takeIntervals (s : State) (n : Nat) (hi : s.port.interval ≠ 0)
    (h : unitsPerMicrosecond ≤ s.port.left + n) : unitsPerMicrosecond ≤ (s.takeIntervals n).port.left := by
  induction n generalizing s with
  | zero => exact h
  | succ n ih =>
    unfold State.takeIntervals; split
    · have h1 : s.intervalExpiry.port.left = s.port.left + s.port.interval.toNat := by
        unfold State.intervalExpiry; split <;> simp [State.startInterval, State.lateRefresh, State.oweRefresh]
      have h0 : s.port.interval.toNat ≠ 0 := fun hh => hi (by apply BitVec.eq_of_toNat_eq; simpa using hh)
      exact ih _ (by simpa using hi) (by omega)
    · omega

/-- At a count no expiry of the microsecond before it is left (R139). -/
theorem State.left_finishMicrosecond (s : State) (hi : s.port.interval ≠ 0) :
    unitsPerMicrosecond ≤ s.finishMicrosecond.port.left := by
  obtain ⟨x, hx⟩ : ∃ x, x = (((List.finRange 32).foldl State.finishAges s).holdSteps 16).finishSilences.buildStep :=
    ⟨_, rfl⟩
  have hf : s.finishMicrosecond = x.takeIntervals unitsPerMicrosecond := by rw [hx, State.finishMicrosecond]
  have e : s.finishMicrosecond.port.interval = s.port.interval := by simp
  have ex : x.port.interval = s.port.interval := by rw [← e, hf]; simp
  rw [hf]
  exact State.left_takeIntervals _ _ (by rwa [ex]) (Nat.le_add_left ..)

/-- A count is what comes before it and the count itself. -/
theorem State.Acts.nextMicrosecond (s : State) : State.Acts s s.nextMicrosecond :=
  (State.Acts.finishMicrosecond s).tail (.countMicrosecond fun hi => State.left_finishMicrosecond s (by simpa using hi))

/-! ### Every command -/

theorem act_next_iff {n : String} {s : State} {b : Bool} {x t : State} :
    act n s b x = .next t ↔ s.host.resetHigh = true ∧ b = true ∧ t = x := by
  unfold act; split
  · rename_i h
    rw [Bool.and_eq_true] at h
    exact ⟨fun e => ⟨h.1, h.2, (Host.Outcome.next.inj e).symm⟩, fun e => by rw [e.2.2]⟩
  · rename_i h
    rw [Bool.and_eq_true] at h
    exact ⟨fun e => (by cases e), fun e => absurd ⟨e.1, e.2.1⟩ h⟩

theorem State.running_of_awaits {s : State} {c : Command} (h : s.awaits c = true) : s.cmd.phase = .running := by
  simp only [State.awaits, Bool.and_eq_true, beq_iff_eq] at h; exact h.1

theorem State.Acts.ofAccess {s x t : State} (h : hostAccess s x = .next t)
    (hx : s.host.heldRead = false → State.Act s x) : State.Acts s t := by
  rcases hostAccess_next h with ⟨_, rfl⟩ | ⟨hr, _, rfl⟩ | ⟨_, _, rfl⟩
  · exact .refl
  · exact (hx hr).one.tail .released
  · exact .single .released

theorem State.Acts.ofRead {s x t : State} (h : hostRead s x = .next t)
    (hx : s.host.heldRead = false → State.Act s x) : State.Acts s t := by
  rcases hostRead_next h with ⟨_, rfl⟩ | ⟨hr, _, rfl⟩ | ⟨_, hr, rfl⟩
  · exact .refl
  · exact (hx hr).one
  · exact .single (.readsZero hr)

theorem State.Act.purgeNext {s x : State} (h : s.purgeNext = some x) : State.Act s x := by
  cases hp : s.cmd.phase with
  | purging u b =>
    have e : s.purgeNext = some (s.purgeStep u b) := by rw [State.purgeNext, hp]
    rw [e] at h
    exact Option.some.inj h ▸ State.Act.purgeStep u b hp
  | purged =>
    have e : s.purgeNext = some (s.endCommand .ok) := by rw [State.purgeNext, hp]
    rw [e] at h
    exact Option.some.inj h ▸ State.Act.endsPurged hp
  | idle => rw [State.purgeNext, hp] at h; cases h
  | running => rw [State.purgeNext, hp] at h; cases h
  | failed r => rw [State.purgeNext, hp] at h; cases h
  | clearing n => rw [State.purgeNext, hp] at h; cases h

/-- A purge's next state is what `State.purgeNext` gives. -/
theorem execPurgeRemoval_next {P : State → Prop} {s t : State} (h : execPurgeRemoval s = .next t)
    (hp : ∀ x, s.purgeNext = some x → P x) : P t := by
  have h2 := act_next_iff.mp h
  have h3 := h2.2.1
  rw [h2.2.2]
  clear h2 h
  revert hp h3
  generalize s.purgeNext = o
  intro hp h3
  match o, hp with
  | some x, hp => exact hp x rfl

/-- Every next state of a command is made of the acts. -/
theorem State.Acts.of_exec {c : Instr} {s t : State} (h : exec c s = .next t) : State.Acts s t := by
  cases c
  case hardReset => cases h; exact State.Act.one (.hardReset)
  case resetRelease =>
    cases h; split
    · exact State.Act.one (.same)
    · rename_i hr; exact State.Act.one (.releaseReset (by simpa using hr))
  case candidate l b => cases h; exact .clockEdge s l b
  case provisionalHeader l b => cases h; exact .clockEdge s l b
  case header l b => cases h; exact .clockEdge s l b
  case bodyByte l b => cases h; exact .clockEdge s l b
  case trailerCheck l b => cases h; exact .clockEdge s l b
  case laneClockEdge l b => cases h; exact .clockEdge s l b
  case silence l => obtain ⟨_, hb, rfl⟩ := act_next_iff.mp h; exact State.Act.one (.silence l hb)
  case portGrant =>
    obtain ⟨_, hb, rfl⟩ := act_next_iff.mp h
    exact State.Act.one (.arbitrate (by simpa [State.portFree] using hb))
  case cellWriteComplete =>
    simp only [exec, execCellWriteComplete] at h
    split at h
    · rename_i l hl
      obtain ⟨_, he, rfl⟩ := act_next_iff.mp h
      refine State.Act.one (.finishWrite l ?_ he)
      unfold State.writingLane at hl
      split at hl
      · cases hl; assumption
      · cases hl
    · obtain ⟨_, hb, _⟩ := act_next_iff.mp h; cases hb
  case cellReadComplete =>
    obtain ⟨_, hb, rfl⟩ := act_next_iff.mp h
    rw [Bool.and_eq_true] at hb
    exact State.Act.one (.finishRead hb.1 hb.2)
  case refreshComplete =>
    obtain ⟨_, hb, rfl⟩ := act_next_iff.mp h
    rw [Bool.and_eq_true] at hb
    exact State.Act.one (.finishRefresh (by simpa using hb.1) hb.2)
  case intervalExpiry =>
    obtain ⟨_, hb, rfl⟩ := act_next_iff.mp h
    exact State.Act.one (.intervalExpiry (by simpa [State.intervalDue] using hb))
  case millisecondTick =>
    simp only [exec, execMillisecondTick] at h
    rw [(act_next_iff.mp h).2.2]
    exact State.Acts.nextMicrosecond s
  case timebaseCount =>
    cases h; split
    · exact State.Acts.nextMicrosecond s
    · exact .refl
  case ageExpiry u =>
    obtain ⟨_, _, rfl⟩ := act_next_iff.mp h
    exact (State.Acts.examined s u).trans (State.Acts.ageStep _ u)
  case holdExpiry => obtain ⟨_, _, rfl⟩ := act_next_iff.mp h; exact State.Acts.holdStep s
  case poolBuildEnd => obtain ⟨_, hb, rfl⟩ := act_next_iff.mp h; exact State.Act.one (.finishBuild hb)
  case take =>
    obtain ⟨_, hb, rfl⟩ := act_next_iff.mp h
    unfold State.onStream; split
    · exact State.Act.one (.take _ hb)
    · exact State.Act.one (.endsRunning _ (State.running_of_awaits hb))
  case peek =>
    obtain ⟨_, hb, rfl⟩ := act_next_iff.mp h
    unfold State.onStream; split
    · exact State.Act.one (.peek _ hb)
    · exact State.Act.one (.endsRunning _ (State.running_of_awaits hb))
  case release => obtain ⟨_, hb, rfl⟩ := act_next_iff.mp h; exact State.Act.one (.release _ hb)
  case returnRecord =>
    simp only [exec, execReturnRecord] at h
    rw [(act_next_iff.mp h).2.2]
    exact State.Act.one (.returnRecord _ (act_next_iff.mp h).2.1)
  case purgeRemoval => exact execPurgeRemoval_next h fun _ hx => (State.Act.purgeNext hx).one
  case clearSecondStep =>
    obtain ⟨_, hb, rfl⟩ := act_next_iff.mp h
    simp only [Bool.and_eq_true, beq_iff_eq] at hb
    exact State.Act.one (.clearSecond hb.1 hb.2)
  case clearThirdStep => obtain ⟨_, hb, rfl⟩ := act_next_iff.mp h; exact State.Act.one (.clearThird (by simpa using hb))
  case clearFourthStep => obtain ⟨_, hb, rfl⟩ := act_next_iff.mp h; exact State.Act.one (.clearFourth (by simpa using hb))
  case capture =>
    obtain ⟨_, hb, rfl⟩ := act_next_iff.mp h
    unfold State.onGroup; split
    · exact State.Act.one (.capture _ hb)
    · exact State.Act.one (.endsRunning _ (State.running_of_awaits hb))
  case tableRead =>
    obtain ⟨_, hb, rfl⟩ := act_next_iff.mp h
    unfold State.onTable; split
    · exact State.Act.one (.tableRead _ hb)
    · exact State.Act.one (.endsRunning _ (State.running_of_awaits hb))
  case tableWrite =>
    obtain ⟨_, hb, rfl⟩ := act_next_iff.mp h
    unfold State.onTable; split
    · exact State.Act.one (.tableWrite _ hb)
    · exact State.Act.one (.endsRunning _ (State.running_of_awaits hb))
  case failedTestEndAct =>
    simp only [exec, execFailedTestEndAct] at h
    split at h
    · rename_i r hr
      obtain ⟨_, _, rfl⟩ := act_next_iff.mp h
      refine State.Act.one (.endsFailed r ?_)
      unfold State.failedResult at hr
      split at hr
      · cases hr; assumption
      · cases hr
    · obtain ⟨_, hb, _⟩ := act_next_iff.mp h; cases hb
  case heldReadAbandon => cases h; exact State.Act.one (.abandonRead)
  case winDataRead => exact .ofRead h .readWindow
  case timeLoRead => exact .ofRead h .readTimeLo
  case purge => exact .ofAccess h (.writeCmd _)
  case clear => exact .ofAccess h (.writeCmd _)
  case collision c => exact .ofAccess h (.writeCmd c)
  case commandAcceptance c => exact .ofAccess h (.writeCmd c)
  case pointing v => exact .ofAccess h (.writeWord 0x29 v)
  case winHandleWrite v => exact .ofAccess h (.writeWord 0x28 v)
  case eventLatchWrite v => exact .ofAccess h (.writeWord 0x30 v)
  case eventEnableWrite v => exact .ofAccess h (.writeWord 0x31 v)
  case wmarkWrite p v =>
    cases p
    · exact .ofAccess h (.writeWord 0x36 v)
    · exact .ofAccess h (.writeWord 0x37 v)
  case wmarkEnWrite p v =>
    cases p
    · exact .ofAccess h (.writeWord 0x3C v)
    · exact .ofAccess h (.writeWord 0x3D v)
  case readyEnWrite p v =>
    cases p
    · exact .ofAccess h (.writeWord 0x34 v)
    · exact .ofAccess h (.writeWord 0x35 v)
  case refreshCfgWrite v => exact .ofAccess h (.writeWord 0x07 v)
  case poolLowWrite v => exact .ofAccess h (.writeWord 0x08 v)
  case holdLimitWrite v => exact .ofAccess h (.writeWord 0x09 v)
  case registerWrite a v => exact .ofAccess h (.writeWord a v)

/-- A next state of a step is the state itself, or made of the acts on the state with the queue's rest. -/
theorem State.Acts.of_step {s t : State} (h : step s = .next t) :
    t = s ∨ ∃ rest, State.Acts { s with pending := rest } t := by
  unfold step at h
  split at h
  · left; cases h; rfl
  · rename_i c rest _; right; exact ⟨rest, State.Acts.of_exec h⟩

/-- What every act keeps, acts one after another keep. -/
theorem State.Acts.keep {P : State → Prop} (ha : ∀ s t, P s → State.Act s t → P t) {s t : State} (h : State.Acts s t)
    (hs : P s) : P t := by
  induction h with
  | refl => exact hs
  | tail _ h ih => exact ha _ _ ih h

/-- A predicate that does not speak of the queue and that every act keeps is kept by every step. -/
theorem State.Act.invariant {P : State → Prop} (hq : ∀ s rest, P s → P { s with pending := rest })
    (ha : ∀ s t, P s → State.Act s t → P t) : ∀ s t, P s → step s = .next t → P t := by
  intro s t hs h
  rcases State.Acts.of_step h with rfl | ⟨rest, h⟩
  · exact hs
  · exact h.keep ha (hq _ _ hs)

end Sys2Proof.Machine
end

