-- ==== Sys2Proof/Laws/Ext.lean ====
section
/-! SUPPORT. Extensionality of the structures of the state, one goal per field. -/

namespace Sys2Proof.Machine

theorem State.ext_fields {x y : State} (lanes : x.lanes = y.lanes) (routes : x.routes = y.routes)
    (pool : x.pool = y.pool) (streams : x.streams = y.streams) (slots : x.slots = y.slots)
    (holdLimit : x.holdLimit = y.holdLimit) (view : x.view = y.view) (window : x.window = y.window)
    (port : x.port = y.port) (cmd : x.cmd = y.cmd) (time : x.time = y.time) (counts : x.counts = y.counts)
    (events : x.events = y.events) (host : x.host = y.host) (memory : x.memory = y.memory)
    (epoch : x.epoch = y.epoch) (pending : x.pending = y.pending) : x = y := by
  cases x; cases y; simp_all

theorem Pool.ext_fields {x y : Pool} (ready : x.ready = y.ready) (buildStart : x.buildStart = y.buildStart)
    (freeCells : x.freeCells = y.freeCells) (freeDescs : x.freeDescs = y.freeDescs) (links : x.links = y.links)
    (descs : x.descs = y.descs) (lowThreshold : x.lowThreshold = y.lowThreshold) : x = y := by
  cases x; cases y; simp_all

theorem Counters.ext_fields {x y : Counters} (lanes : x.lanes = y.lanes) (streams : x.streams = y.streams)
    (device : x.device = y.device) (completions : x.completions = y.completions) : x = y := by
  cases x; cases y; simp_all

theorem Events.ext_fields {x y : Events} (latches : x.latches = y.latches) (enables : x.enables = y.enables)
    (watermarks : x.watermarks = y.watermarks) (watermarkEnables : x.watermarkEnables = y.watermarkEnables)
    (readyEnables : x.readyEnables = y.readyEnables) : x = y := by
  cases x; cases y; simp_all

theorem Window.ext_fields {x y : Window} (handleReg : x.handleReg = y.handleReg) (pointed : x.pointed = y.pointed)
    (offset : x.offset = y.offset) (mode : x.mode = y.mode) (pastEnd : x.pastEnd = y.pastEnd)
    (buffer : x.buffer = y.buffer) (request : x.request = y.request) : x = y := by
  cases x; cases y; simp_all

theorem Port.ext_fields {x y : Port} (op : x.op = y.op) (position : x.position = y.position)
    (balance : x.balance = y.balance) (interval : x.interval = y.interval) (left : x.left = y.left)
    (nextSlice : x.nextSlice = y.nextSlice) (times : x.times = y.times) : x = y := by
  cases x; cases y; simp_all

theorem CmdUnit.ext_fields {x y : CmdUnit} (phase : x.phase = y.phase) (code : x.code = y.code)
    (arg : x.arg = y.arg) (argReg : x.argReg = y.argReg) (result : x.result = y.result)
    (collision : x.collision = y.collision) (image : x.image = y.image) (taken : x.taken = y.taken)
    (capture : x.capture = y.capture) : x = y := by
  cases x; cases y; simp_all

theorem HostPort.ext_fields {x y : HostPort} (resetHigh : x.resetHigh = y.resetHigh)
    (heldRead : x.heldRead = y.heldRead) (driven : x.driven = y.driven) : x = y := by
  cases x; cases y; simp_all

theorem Stream.ext_fields {x y : Stream} (entry : x.entry = y.entry) (queue : x.queue = y.queue)
    (heldCount : x.heldCount = y.heldCount) (charge : x.charge = y.charge) (examine : x.examine = y.examine)
    (expired : x.expired = y.expired) : x = y := by
  cases x; cases y; simp_all

theorem Lane.ext_fields {x y : Lane} (entry : x.entry = y.entry) (rx : x.rx = y.rx) (unit : x.unit = y.unit) : x = y := by
  cases x; cases y; simp_all

theorem Reception.ext_fields {x y : Reception} (list : x.list = y.list) (staging : x.staging = y.staging)
    (order : x.order = y.order) (retiring : x.retiring = y.retiring) (countdown : x.countdown = y.countdown)
    (chainCell : x.chainCell = y.chainCell) (chainByte : x.chainByte = y.chainByte) (check : x.check = y.check)
    (trailer : x.trailer = y.trailer) : x = y := by
  cases x; cases y; simp_all

end Sys2Proof.Machine
end

