-- ==== Sys2Proof/Laws/Places.lean ====
section
/-! SUPPORT. Conservation of descriptors (R66), operation by operation: each moves a descriptor from one place to another. -/

namespace Sys2Proof.Machine

theorem finSum_one {n} (f g : Fin n → ℕ) (i : Fin n) (h : ∀ j, j ≠ i → g j = f j) : (∑ j, g j) + f i = (∑ j, f j) + g i := by
  rw [← Finset.add_sum_erase _ g (Finset.mem_univ i), ← Finset.add_sum_erase _ f (Finset.mem_univ i)]
  have : ∑ x ∈ Finset.univ.erase i, g x = ∑ x ∈ Finset.univ.erase i, f x := Finset.sum_congr rfl (fun j hj => h j (Finset.ne_of_mem_erase hj))
  omega

theorem countP_eq_sum {n} {α} (v : Vector α n) (p : α → Bool) : v.toList.countP p = ∑ i : Fin n, if p v[i.val] then 1 else 0 := by
  have : v.toList = List.ofFn (fun i : Fin n => v[i.val]) := by
    apply List.ext_getElem
    · simp
    · intro i h1 h2; simp
  rw [this]
  have : ∀ (n : ℕ) (f : Fin n → α), (List.ofFn f).countP p = ∑ i, if p (f i) then 1 else 0 := by
    intro n; induction n with
    | zero => simp
    | succ n ih => intro f; rw [List.ofFn_succ, List.countP_cons, ih, Fin.sum_univ_succ]; omega
  exact this n _

/-- Records on the reception lists. -/
def listsSum (s : State) : ℕ := ∑ l, (s.lane l).unit.list.length

/-- Records in the stream queues. -/
def queuesSum (s : State) : ℕ := ∑ t, (s.stream t).queue.length

/-- HELD slots. -/
def slotsSum (s : State) : ℕ := ∑ i, if (s.slot i).held.isSome then 1 else 0

/-- Descriptors in every place R66 names, as sums. -/
def placesSum (s : State) : ℕ := s.pool.freeDescs.length + listsSum s + queuesSum s + slotsSum s

theorem listsSum_one (s t : State) (l) (h : ∀ m, m ≠ l → (t.lane m).unit.list = (s.lane m).unit.list) : listsSum t + (s.lane l).unit.list.length = listsSum s + (t.lane l).unit.list.length := finSum_one (fun l => (s.lane l).unit.list.length) (fun l => (t.lane l).unit.list.length) l (fun m hm => by simp only [h m hm])

theorem queuesSum_one (s t : State) (l) (h : ∀ m, m ≠ l → (t.stream m).queue.length = (s.stream m).queue.length) : queuesSum t + (s.stream l).queue.length = queuesSum s + (t.stream l).queue.length := finSum_one (fun l => (s.stream l).queue.length) (fun l => (t.stream l).queue.length) l (fun m hm => by simp only [h m hm])

theorem slotsSum_one (s t : State) (i) (h : ∀ m, m ≠ i → (t.slot m).held = (s.slot m).held) : slotsSum t + (if (s.slot i).held.isSome then 1 else 0) = slotsSum s + (if (t.slot i).held.isSome then 1 else 0) := finSum_one (fun i => if (s.slot i).held.isSome then 1 else 0) (fun i => if (t.slot i).held.isSome then 1 else 0) i (fun m hm => by simp only [h m hm])

theorem listsSum_eq (s t : State) (h : ∀ m, (t.lane m).unit.list = (s.lane m).unit.list) : listsSum t = listsSum s := by unfold listsSum; simp only [h]

theorem queuesSum_eq (s t : State) (h : ∀ m, (t.stream m).queue = (s.stream m).queue) : queuesSum t = queuesSum s := by unfold queuesSum; simp only [h]

theorem slotsSum_eq (s t : State) (h : ∀ m, t.slot m = s.slot m) : slotsSum t = slotsSum s := by unfold slotsSum; simp only [h]

theorem State.descPlaces_eq (s : State) : s.descPlaces = placesSum s := by
  unfold State.descPlaces placesSum State.heldSlots listsSum queuesSum slotsSum
  rw [countP_eq_sum, Fin.sum_univ_def, Fin.sum_univ_def]; rfl

theorem placesSum_eq_zero (s : State) : placesSum s = 0 ↔ s.pool.freeDescs = [] ∧ s.listsEmpty ∧ (∀ t, (s.stream t).queue = []) ∧ ∀ i, (s.slot i).held = none := by
  unfold placesSum State.listsEmpty listsSum queuesSum slotsSum
  simp only [Nat.add_eq_zero_iff, List.length_eq_zero_iff, Finset.sum_eq_zero_iff, Finset.mem_univ, forall_const]
  simp [and_assoc]

@[simp] theorem State.list_setUnit (s : State) (l m) (u : Reception) (h : u.list = (s.lane l).unit.list) : ((s.setUnit l u).lane m).unit.list = (s.lane m).unit.list := by
  by_cases hm : m = l
  · subst hm; simpa using h
  · simp [hm]

@[simp] theorem State.list_stageByte (s : State) (l d i c b m) : ((s.stageByte l d i c b).lane m).unit.list = (s.lane m).unit.list := by
  unfold State.stageByte; dsimp only; split <;> simp

/-- The second state has as many descriptors in the places of R66 as the first. -/
structure PlacesKept (s t : State) : Prop where
  d : placesSum t = placesSum s
  r : t.pool.ready = s.pool.ready
  c : t.cmd.phase = .clearing .second → s.cmd.phase = .clearing .second ∧ (s.listsEmpty → t.listsEmpty)

theorem PlacesKept.same (s) : PlacesKept s s := ⟨rfl, rfl, fun h => ⟨h, id⟩⟩

theorem PlacesKept.andThen {s t u} (h : PlacesKept s t) (h2 : PlacesKept t u) : PlacesKept s u := ⟨h2.d.trans h.d, h2.r.trans h.r, fun hu => ⟨(h.c (h2.c hu).1).1, fun hl => (h2.c hu).2 ((h.c (h2.c hu).1).2 hl)⟩⟩

theorem PlacesKept.keeps {s t} (h : PlacesKept s t) (hs : DescInv s) : DescInv t := by
  unfold DescInv at *
  rw [State.descPlaces_eq, ← placesSum_eq_zero, h.d, h.r]; rw [State.descPlaces_eq, ← placesSum_eq_zero] at hs
  exact ⟨hs.1, hs.2.1, fun hp => (h.c hp).2 (hs.2.2 (h.c hp).1)⟩

theorem PlacesKept.of_eq {s t : State} (h1 : t.pool.freeDescs = s.pool.freeDescs) (h2 : ∀ l, (t.lane l).unit.list = (s.lane l).unit.list) (h3 : ∀ u, (t.stream u).queue = (s.stream u).queue) (h4 : ∀ i, t.slot i = s.slot i) (h5 : t.pool.ready = s.pool.ready) (h6 : t.cmd.phase = s.cmd.phase ∨ t.cmd.phase ≠ .clearing .second) : PlacesKept s t := by
  refine ⟨?_, h5, ?_⟩
  · unfold placesSum; rw [h1, listsSum_eq s t h2, queuesSum_eq s t h3, slotsSum_eq s t h4]
  · intro h; rcases h6 with h6 | h6
    · exact ⟨h6 ▸ h, fun hl l => by rw [h2]; exact hl l⟩
    · exact absurd h h6

theorem PlacesKept.of_same {s t : State} (h1 : t.pool.freeDescs = s.pool.freeDescs := by simp)
    (h2 : ∀ l, (t.lane l).unit.list = (s.lane l).unit.list := by simp)
    (h3 : ∀ u, (t.stream u).queue = (s.stream u).queue := by simp) (h4 : ∀ i, t.slot i = s.slot i := by simp)
    (h5 : t.pool.ready = s.pool.ready := by simp) (h6 : t.cmd.phase = s.cmd.phase := by simp) : PlacesKept s t :=
  PlacesKept.of_eq h1 h2 h3 h4 h5 (.inl h6)

theorem PlacesKept.of_phase {s t : State} (h : t.cmd.phase = s.cmd.phase) (hl : s.listsEmpty → t.listsEmpty) : t.cmd.phase = .clearing .second → s.cmd.phase = .clearing .second ∧ (s.listsEmpty → t.listsEmpty) := fun hh => ⟨h ▸ hh, hl⟩

theorem PlacesKept.settlePurge (s : State) : PlacesKept s s.settlePurge := by
  apply PlacesKept.of_eq <;> try (simp; done)
  unfold State.settlePurge; split
  · split
    · right; simp [State.endCommand]
    · left; rfl
  · left; rfl

theorem PlacesKept.endCommand (s : State) (r) : PlacesKept s (s.endCommand r) := by
  apply PlacesKept.of_eq <;> try (simp; done)
  right; simp [State.endCommand]

theorem PlacesKept.dequeue_freeRecord (s : State) (t : StreamId) (d : DescId) (h : d ∈ (s.stream t).queue) : PlacesKept s ((s.dequeue t d).freeRecord d) := by
  refine ⟨?_, by simp, PlacesKept.of_phase (by simp) (by intro h l; simpa using h l)⟩
  have h1 : ∀ u, (((s.dequeue t d).freeRecord d).stream u).queue = if u = t then (s.stream t).queue.erase d else (s.stream u).queue := by
    intro u; simp [State.stream_dequeue]; split <;> rfl
  have e1 := queuesSum_one s ((s.dequeue t d).freeRecord d) t (by intro j hj; simp [h1, hj])
  have e2 := listsSum_eq s ((s.dequeue t d).freeRecord d) (by simp)
  have e3 := slotsSum_eq s ((s.dequeue t d).freeRecord d) (by simp)
  rw [h1, if_pos rfl] at e1
  have hl := List.length_erase_of_mem h
  have hp := List.length_pos_of_mem h
  have hf : ((s.dequeue t d).freeRecord d).pool.freeDescs.length = s.pool.freeDescs.length + 1 := by simp
  unfold placesSum; omega

theorem PlacesKept.evict (s : State) (t d) (h : d ∈ (s.stream t).queue) : PlacesKept s (s.evict t d) :=
  (PlacesKept.dequeue_freeRecord s t d h).andThen (PlacesKept.of_eq (by simp [State.evict]) (by simp [State.evict]) (by simp [State.evict]) (by simp [State.evict]) (by simp [State.evict]) (.inl (by simp [State.evict])))

theorem PlacesKept.evictUntil (s : State) (t n ds) (h : (s.stream t).queue = ds) : PlacesKept s (s.evictUntil t n ds) := by
  induction ds generalizing s with
  | nil => exact PlacesKept.same s
  | cons d ds ih => 
    unfold State.evictUntil; split; exact PlacesKept.same s
    exact (PlacesKept.evict s t d (by simp [h])).andThen (ih _ (by simp [State.evict, State.stream_dequeue, h]))

theorem PlacesKept.admission (s : State) (t n) : PlacesKept s (s.admission t n).1 := by
  unfold State.admission; split; exact PlacesKept.same s; split
  · exact (PlacesKept.evictUntil s t n _ rfl).andThen (PlacesKept.settlePurge _)
  · exact PlacesKept.same s

theorem PlacesKept.refuse (s : State) (l x c) : PlacesKept s (s.refuse l x c) := PlacesKept.of_same

theorem PlacesKept.accept (s : State) (l x t r d ds) (h : s.pool.freeDescs = d :: ds) (hp : s.cmd.phase ≠ .clearing .second) : PlacesKept s (s.accept l x t r d) := by
  refine ⟨?_, by simp, fun hh => absurd (by simpa using hh) hp⟩
  have h1 : ∀ m, ((s.accept l x t r d).lane m).unit.list = if m = l then (s.lane l).unit.list ++ [d] else (s.lane m).unit.list := by
    intro m; by_cases hm : m = l
    · subst hm; simp [State.accept]
    · simp [hm]
  have h2 : (s.accept l x t r d).pool.freeDescs = ds := by simp [State.accept, State.takeFromPool, h]
  have e1 := listsSum_one s (s.accept l x t r d) l (by intro j hj; simp [h1, hj])
  have e2 := queuesSum_eq s (s.accept l x t r d) (by simp)
  have e3 := slotsSum_eq s (s.accept l x t r d) (by simp)
  rw [h1, if_pos rfl, List.length_append, List.length_singleton] at e1
  unfold placesSum; rw [h2, h, List.length_cons]; omega

theorem PlacesKept.offer (s : State) (l x) : PlacesKept s (s.offer l x) := by
  unfold State.offer; split; exact PlacesKept.refuse _ _ _ _
  rename_i hn
  have hp : s.cmd.phase ≠ .clearing .second := by intro h; simp [State.notReady, h] at hn
  split; exact PlacesKept.refuse _ _ _ _; split
  · rename_i t r _ _
    have hk := PlacesKept.admission s t (cellsFor x.length)
    dsimp only; split
    · rename_i d ds _ hd
      exact hk.andThen (PlacesKept.accept _ _ _ _ _ _ _ hd (fun h => hp (hk.c h).1))
    · exact hk.andThen (PlacesKept.refuse _ _ _ _)
  · exact PlacesKept.refuse _ _ _ _

theorem PlacesKept.abort (s : State) (l d) (h : d ∈ (s.lane l).unit.list) : PlacesKept s (s.abort l d) := by
  have h1 : ∀ m, ((s.abort l d).lane m).unit.list = if m = l then (s.lane l).unit.list.erase d else (s.lane m).unit.list := by
    intro m; by_cases hm : m = l
    · subst hm; simp [State.unit_abort, Reception.abort]
    · simp [hm]
  refine ⟨?_, by simp, PlacesKept.of_phase (by simp) ?_⟩
  · have e1 := listsSum_one s (s.abort l d) l (by intro j hj; simp [h1, hj])
    have e2 := queuesSum_eq s (s.abort l d) (by simp)
    have e3 := slotsSum_eq s (s.abort l d) (by simp)
    rw [h1, if_pos rfl] at e1
    have hl := List.length_erase_of_mem h
    have hp := List.length_pos_of_mem h
    have hf : (s.abort l d).pool.freeDescs.length = s.pool.freeDescs.length + 1 := by simp
    unfold placesSum; omega
  · intro he; rw [he l] at h; simp at h

theorem PlacesKept.cut (s : State) (l d) (h : d ∈ (s.lane l).unit.list) : PlacesKept s (s.cut l d) :=
  (PlacesKept.abort s l d h).andThen (PlacesKept.of_eq (by simp [State.cut]) (by simp [State.cut]) (by simp [State.cut]) (by simp [State.cut]) (by simp [State.cut]) (.inl (by simp [State.cut])))

theorem PlacesKept.cutAll (s : State) (l) : PlacesKept s (s.cutAll l) := by
  unfold State.cutAll
  have : ∀ ds (s : State), (s.lane l).unit.list = ds → PlacesKept s (ds.foldl (fun s d => s.cut l d) s) := by
    intro ds; induction ds with
    | nil => intro s _; exact PlacesKept.same s
    | cons d ds ih => intro s h; exact (PlacesKept.cut s l d (by simp [h])).andThen (ih _ (by simp [State.cut, State.unit_abort, Reception.abort, h]))
  exact this _ s rfl

theorem PlacesKept.complete (s : State) (l d) (h : (s.lane l).unit.list.head? = some d) : PlacesKept s (s.complete l d) := by
  obtain ⟨ds, hds⟩ : ∃ ds, (s.lane l).unit.list = d :: ds := by
    cases hh : (s.lane l).unit.list with
    | nil => simp [hh] at h
    | cons a as => simp [hh] at h; exact ⟨as, by rw [h]⟩
  obtain ⟨s3, hs3⟩ : ∃ x, ((s.setUnit l { (s.lane l).unit with list := (s.lane l).unit.list.tail }).number d).track d = x := ⟨_, rfl⟩
  obtain ⟨t, ht⟩ : ∃ x, (s3.enqueue d).bumpLane l .recordsStored = x := ⟨_, rfl⟩
  have hc : s.complete l d = t.settlePurge := by subst ht; subst hs3; rfl
  rw [hc]
  refine PlacesKept.andThen ?_ (PlacesKept.settlePurge t)
  have h1 : ∀ m, (t.lane m).unit.list = if m = l then ds else (s.lane m).unit.list := by
    intro m; subst ht; subst hs3; by_cases hm : m = l
    · subst hm; simp [hds]
    · simp [hm]
  have h3 : ∀ u, s3.stream u = s.stream u := by subst hs3; simp
  have h2 : ∀ u, (t.stream u).queue = if u = (s3.desc d).stream then (s.stream u).queue ++ [d] else (s.stream u).queue := by
    intro u; subst ht
    simp [State.stream_enqueue]; split <;> simp_all
  refine ⟨?_, by subst ht; subst hs3; simp, PlacesKept.of_phase (by subst ht; subst hs3; simp) ?_⟩
  · have e1 := listsSum_one s t l (by intro j hj; rw [h1, if_neg hj])
    have e2 := queuesSum_one s t (s3.desc d).stream (by intro j hj; rw [h2, if_neg hj])
    have e3 := slotsSum_eq s t (by subst ht; subst hs3; simp)
    rw [h1, if_pos rfl, hds, List.length_cons] at e1
    rw [h2, if_pos rfl, List.length_append, List.length_singleton] at e2
    have hf : t.pool.freeDescs = s.pool.freeDescs := by subst ht; subst hs3; simp
    unfold placesSum; rw [hf]; omega
  · intro he; rw [he l] at h; simp at h

theorem PlacesKept.tryComplete (s : State) (l) : PlacesKept s (s.tryComplete l) := by
  rcases State.tryComplete_cases s l with h2 | ⟨d, h2, h3⟩ <;> rw [h2]; exact PlacesKept.same s; exact PlacesKept.complete _ _ _ h3

theorem PlacesKept.toCompleting (s : State) (l d b) : PlacesKept s (s.toCompleting l d b) := by
  unfold State.toCompleting; dsimp only
  have : ∀ x, PlacesKept s (s.setDesc d x) := fun x => PlacesKept.of_same
  split
  · exact (this _).andThen (PlacesKept.tryComplete _ _)
  · exact this _

theorem State.mem_of_receiving {s : State} {l d} (h : s.receiving l = some d) : d ∈ (s.lane l).unit.list := by
  unfold State.receiving at h; split at h
  · cases h
  · rename_i e he; split at h
    · cases h; exact List.mem_of_getLast? he
    · cases h

theorem PlacesKept.checkTrailer (s : State) (l) : PlacesKept s (s.checkTrailer l) := by
  unfold State.checkTrailer; dsimp only; split; exact PlacesKept.same s; split; exact PlacesKept.toCompleting _ _ _ _
  have hb : PlacesKept s (s.bumpLane l .recordsDamaged) := PlacesKept.of_same
  split; exact hb.andThen (PlacesKept.toCompleting _ _ _ _); rename_i d hd _ _; exact hb.andThen (PlacesKept.abort (s.bumpLane l .recordsDamaged) l _ (by have := State.mem_of_receiving (by assumption : s.receiving l = some _); simpa using this))

theorem PlacesKept.takeEdge (s : State) (l b) : PlacesKept s (s.takeEdge l b) := by
  have hrx : ∀ (s : State) x, PlacesKept s (s.setRx l x) := fun s x => PlacesKept.of_same
  have hact : ∀ s x, PlacesKept s (s.actOnHeader l x) := by
    intro s x; unfold State.actOnHeader; dsimp only; split; exact hrx _ _; split; exact PlacesKept.of_same; exact (hrx _ _).andThen (PlacesKept.offer _ _ _)
  have hnote : PlacesKept s (s.noteEdge l) := PlacesKept.of_same
  unfold State.takeEdge
  split
  · exact PlacesKept.same s
  · exact PlacesKept.of_same
  · refine hnote.andThen ?_
    generalize s.noteEdge l = s
    unfold State.provisionalEdge; dsimp only
    split; split; exact PlacesKept.of_same; exact PlacesKept.of_same
    split
    · unfold State.confirmHeader; dsimp only; split; exact PlacesKept.of_same; split; exact PlacesKept.of_same
      have : PlacesKept s (s.enterLocked l) := PlacesKept.of_same
      exact this.andThen (hact _ _)
    · exact PlacesKept.of_same
  · refine hnote.andThen ?_
    generalize s.noteEdge l = s
    unfold State.lockedEdge; dsimp only; split
    · split
      · unfold State.lockedHeader; split; exact hact _ _; exact PlacesKept.of_same
      · exact PlacesKept.of_same
    · split
      · have hp : ∀ s : State, PlacesKept s (s.passBody l) := fun s => PlacesKept.of_same
        unfold State.lockedByte; split
        · unfold State.bodyByte; split; exact hp _; split
          · rename_i d hd _ _
            unfold State.overrun; dsimp only
            refine (PlacesKept.abort s l _ (State.mem_of_receiving (by assumption))).andThen ?_
            exact PlacesKept.of_same
          · exact PlacesKept.of_same
        · unfold State.trailerByte; dsimp only; split
          · refine PlacesKept.andThen ?_ (PlacesKept.checkTrailer _ _); exact PlacesKept.of_same
          · exact PlacesKept.of_same
        · exact PlacesKept.of_same
      · exact PlacesKept.of_same

theorem PlacesKept.hold (s : State) (t d ds i) (hq : (s.stream t).queue = d :: ds) (hi : (s.slot i).held = none) : PlacesKept s (s.hold t d i) := by
  have h1 : ∀ u, ((s.hold t d i).stream u).queue = if u = t then ds else (s.stream u).queue := by
    intro u; by_cases hu : u = t
    · subst hu; simp [State.hold, hq]
    · simp [State.hold, hu]
  have h2 : ∀ j, ((s.hold t d i).slot j).held.isSome = if j = i then true else (s.slot j).held.isSome := by
    intro j; by_cases hj : j = i
    · subst hj; simp [State.hold]
    · simp [State.hold, hj]
  refine ⟨?_, by simp, PlacesKept.of_phase (by simp) (by intro h l; simpa using h l)⟩
  have e1 := queuesSum_one s (s.hold t d i) t (by intro j hj; simp [h1, hj])
  have e2 := slotsSum_one s (s.hold t d i) i (by intro j hj; simp [State.hold, hj])
  have e3 := listsSum_eq s (s.hold t d i) (by simp)
  rw [h1, if_pos rfl, hq, List.length_cons] at e1
  rw [h2, if_pos rfl, hi] at e2
  simp only [Option.isSome_none, if_true] at e2
  have hf : (s.hold t d i).pool.freeDescs = s.pool.freeDescs := by simp
  unfold placesSum; rw [hf]; simp at e2; omega

theorem slotsSum_drop (s t : State) (i : SlotId) (h : Holding) (hh : (s.slot i).held = some h) (hn : ∀ j, (t.slot j).held = if j = i then none else (s.slot j).held) : slotsSum t + 1 = slotsSum s := by
  have e2 := slotsSum_one s t i (by intro j hj; simp [hn, hj])
  rw [hh, hn, if_pos rfl] at e2
  simp at e2; omega

theorem State.held_emptySlot (s : State) (i j) : ((s.emptySlot i).slot j).held = if j = i then none else (s.slot j).held := by
  rw [State.slot_emptySlot]; split <;> rfl

theorem PlacesKept.release (s : State) (i : SlotId) (h : Holding) (hh : (s.slot i).held = some h) : PlacesKept s (((s.freeRecord h.desc).lowerHeld (s.desc h.desc).stream).emptySlot i) := by
  refine ⟨?_, by simp, PlacesKept.of_phase (by simp) (by intro h l; simpa using h l)⟩
  have := slotsSum_drop s (((s.freeRecord h.desc).lowerHeld (s.desc h.desc).stream).emptySlot i) i h hh (by intro j; rw [State.held_emptySlot]; simp)
  have e1 := queuesSum_eq s (((s.freeRecord h.desc).lowerHeld (s.desc h.desc).stream).emptySlot i) (by simp)
  have e2 := listsSum_eq s (((s.freeRecord h.desc).lowerHeld (s.desc h.desc).stream).emptySlot i) (by simp)
  have hf : (((s.freeRecord h.desc).lowerHeld (s.desc h.desc).stream).emptySlot i).pool.freeDescs.length = s.pool.freeDescs.length + 1 := by simp
  unfold placesSum; omega

theorem insertByAge_length (f d xs) : (insertByAge f d xs).length = xs.length + 1 := by
  obtain ⟨a, b, h1, h2, _⟩ := insertByAge_split f d xs
  rw [h1] at *; rw [h2]; simp; omega

theorem PlacesKept.requeue (s : State) (i : SlotId) (h : Holding) (hh : (s.slot i).held = some h) : PlacesKept s ((s.requeue h.desc).emptySlot i) := by
  refine ⟨?_, by simp, PlacesKept.of_phase (by simp) (by intro h l; simpa using h l)⟩
  have := slotsSum_drop s ((s.requeue h.desc).emptySlot i) i h hh (by intro j; rw [State.held_emptySlot]; simp)
  have h1 : ∀ u, (((s.requeue h.desc).emptySlot i).stream u).queue.length = if u = (s.desc h.desc).stream then (s.stream u).queue.length + 1 else (s.stream u).queue.length := by
    intro u; simp [State.stream_requeue]; split <;> simp [insertByAge_length]
  have e1 := queuesSum_one s ((s.requeue h.desc).emptySlot i) (s.desc h.desc).stream (by intro j hj; rw [h1, if_neg hj])
  have e2 := listsSum_eq s ((s.requeue h.desc).emptySlot i) (by simp)
  rw [h1, if_pos rfl] at e1
  have hf : ((s.requeue h.desc).emptySlot i).pool.freeDescs.length = s.pool.freeDescs.length := by simp
  unfold placesSum; omega

theorem State.held_of_currentHandle {s : State} {x g} (h : s.currentHandle x = some g) : (s.slot (handleSlot x)).held = some g := by
  unfold State.currentHandle at h; dsimp only at h; split at h; exact h; cases h

theorem PlacesKept.tableWrite (s : State) (e) : PlacesKept s (s.doTableWrite e) := by
  unfold State.doTableWrite
  cases hc : s.commit e with
  | none => exact PlacesKept.endCommand _ _
  | some s' =>
    refine PlacesKept.andThen ?_ (PlacesKept.endCommand s' _)
    cases e with
    | route i => simp only [State.commit, State.commitRoute, Option.map_eq_some_iff] at hc; obtain ⟨r, hr, rfl⟩ := hc; exact PlacesKept.of_same
    | stream u => 
      simp only [State.commit, State.commitStream] at hc
      split at hc
      · split at hc
        · cases hc
        · cases hc; exact PlacesKept.of_same
      · cases hc
    | lane l => 
      simp only [State.commit, State.commitLane, Option.map_eq_some_iff] at hc; obtain ⟨r, hr, rfl⟩ := hc
      unfold State.commitLaneEntry; split
      · exact PlacesKept.of_eq (by simp [State.setEntry]) (by simp [State.setEntry]) (by simp [State.setEntry]) (by simp [State.setEntry]) (by simp [State.setEntry]) (.inl (by simp [State.setEntry]))
      · exact PlacesKept.of_same
      · exact PlacesKept.of_same
      · refine (PlacesKept.cutAll s l).andThen ?_
        exact PlacesKept.of_eq (by simp [State.setEntry]) (by simp [State.setEntry]) (by simp [State.setEntry]) (by simp [State.setEntry]) (by simp [State.setEntry]) (.inl (by simp [State.setEntry]))

theorem DescInv.clearFirst (s : State) (h : DescInv s) (hr : s.pool.ready = true) (code) : DescInv (s.takeCommand code (.clearing .second)).clearFirst := by
  have hk : ∀ (ls : List LaneId) (s : State), placesSum (ls.foldl State.clearLane s) = placesSum s ∧ (ls.foldl State.clearLane s).pool.ready = s.pool.ready ∧ (∀ m, (s.lane m).unit.list = [] → ((ls.foldl State.clearLane s).lane m).unit.list = []) ∧ ∀ l ∈ ls, ((ls.foldl State.clearLane s).lane l).unit.list = [] := by
    have hone : ∀ (s : State) l, PlacesKept s (s.clearLane l) ∧ (∀ m, (s.lane m).unit.list = [] → ((s.clearLane l).lane m).unit.list = []) ∧ ((s.clearLane l).lane l).unit.list = [] := by
      intro s l
      have hn : ((s.cutAll l).lane l).unit.list = [] := by
        have : ∀ ds (s : State), (s.lane l).unit.list = ds → ((ds.foldl (fun s d => s.cut l d) s).lane l).unit.list = [] := by
          intro ds; induction ds with
          | nil => intro s h; exact h
          | cons d ds ih => intro s h; rw [List.foldl_cons]; apply ih; simp [State.cut, State.unit_abort, Reception.abort, h]
        exact this _ s rfl
      have hcl : ((s.clearLane l).lane l).unit.list = [] := by unfold State.clearLane; dsimp only; split <;> simp [hn]
      refine ⟨?_, ?_, hcl⟩
      · unfold State.clearLane; dsimp only; split
        · refine (PlacesKept.cutAll s l).andThen ?_; exact PlacesKept.of_same
        · exact PlacesKept.cutAll s l
      · intro m hm; by_cases h : m = l
        · subst h; exact hcl
        · simpa [h] using hm
    intro ls; induction ls with
    | nil => intro s; exact ⟨rfl, rfl, fun _ h => h, by simp⟩
    | cons a as ih =>
      intro s
      obtain ⟨k1, k2, k3⟩ := hone s a
      obtain ⟨i1, i2, i3, i4⟩ := ih (s.clearLane a)
      refine ⟨i1.trans k1.d, i2.trans k1.r, fun m hm => i3 m (k2 m hm), ?_⟩
      intro l hl; rcases List.mem_cons.mp hl with rfl | hl
      · exact i3 _ k3
      · exact i4 l hl
  obtain ⟨i1, i2, i3, i4⟩ := hk (List.finRange 8) (s.takeCommand code (.clearing .second))
  have hcf : placesSum (s.takeCommand code (.clearing .second)).clearFirst = placesSum s ∧ (s.takeCommand code (.clearing .second)).clearFirst.pool.ready = true ∧ (s.takeCommand code (.clearing .second)).clearFirst.listsEmpty := by
    unfold State.clearFirst State.listsEmpty
    generalize (List.finRange 8).foldl State.clearLane (s.takeCommand code (.clearing .second)) = x at *
    refine ⟨i1, i2.trans hr, fun l => i4 l (by simp)⟩
  refine ⟨fun _ => ?_, fun hh => ?_, fun _ => hcf.2.2⟩
  · rw [State.descPlaces_eq, hcf.1, ← State.descPlaces_eq]; exact h.1 hr
  · rw [hcf.2.1] at hh; cases hh

theorem DescInv.writeCmd (s : State) (c) (h : DescInv s) : DescInv (s.writeCmd c) := by
  unfold State.writeCmd; split
  · exact (PlacesKept.of_eq (s := s) (t := s.collide) (by simp) (by simp) (by simp) (by simp) (by simp) (.inl (by simp [State.collide]))).keeps h
  · have ht : ∀ c p, p ≠ .clearing .second → PlacesKept s (s.takeCommand c p) := fun c p hp => PlacesKept.of_eq (by simp) (by simp) (by simp) (by simp) (by simp) (.inr (by simpa [State.takeCommand] using hp))
    unfold State.acceptCommand; split
    · exact (ht _ _ (by simp)).keeps h
    · rename_i c hft hc
      cases c <;> simp only [State.beginCommand]
      case purge =>
        split
        · refine (ht _ _ ?_).keeps h; unfold State.purgePhase; split <;> simp
        · exact (ht _ _ (by simp)).keeps h
      case clear =>
        apply DescInv.clearFirst s h
        unfold State.failedTest at hft; rw [hc] at hft; simp [argLegal, needsReady] at hft; exact hft
      all_goals exact (ht _ _ (by simp)).keeps h
    · exact (ht _ _ (by simp)).keeps h

end Sys2Proof.Machine
end

