-- ==== Sys2Proof/Laws/Operands.lean ====
section
/-! SUPPORT. How operands read: arguments, handles, matches, requesters, bits; one lemma for each function. -/

namespace Sys2Proof.Machine

/-- The low byte of an argument, as a number. -/
theorem argLow_nat (a : Word) : (argLow a).toNat = a.toNat % 256 := by simp [argLow]

/-- The high byte of an argument, as a number. -/
theorem argHigh_nat (a : Word) : (argHigh a).toNat = a.toNat / 256 := by
  simp [argHigh, BitVec.extractLsb'_toNat, Nat.shiftRight_eq_div_pow]; omega

/-- An argument whose low byte is a stream's number names that stream (R103). -/
theorem argStream_eq (a : Word) (u : StreamId) (h : a.toNat % 256 = u.val) : argStream a = some u := by
  unfold argStream; rw [dif_pos (by rw [argLow_nat, h]; exact u.isLt)]; congr 1; apply Fin.ext; simp only [argLow_nat, h]

/-- A running command awaits its end act (R150). -/
theorem State.awaits_of_running {s : State} {c} (h : s.running c) : s.awaits c = true := by simp [State.awaits, h.2.1, h.2.2]

/-- The slot an argument's handle names, as a number (R101). -/
theorem handleSlot_nat (a : Word) : (handleSlot (argLow a)).val = a.toNat % 16 := by
  simp [handleSlot, argLow, BitVec.extractLsb'_toNat]

/-- The generation an argument's handle names, as a number (R101). -/
theorem handleGeneration_nat (a : Word) : (handleGeneration (argLow a)).toNat = a.toNat / 16 % 16 := by
  simp [handleGeneration, argLow, BitVec.extractLsb'_toNat, Nat.shiftRight_eq_div_pow]

/-- A handle that names a HELD slot at its generation is current (R101). -/
theorem State.currentHandle_of_held (s : State) (i : SlotId) (a : Word) (h : Holding) (hi : i.val = a.toNat % 16) (hg : (s.slot i).generation.toNat = a.toNat / 16 % 16) (hh : (s.slot i).held = some h) : handleSlot (argLow a) = i ∧ s.currentHandle (argLow a) = some h := by
  have e : handleSlot (argLow a) = i := Fin.ext (by rw [handleSlot_nat, hi])
  refine ⟨e, ?_⟩
  unfold State.currentHandle
  rw [e]; simp only
  rw [if_pos]; exact hh
  apply BitVec.eq_of_toNat_eq; rw [hg, handleGeneration_nat]

/-- The window serves a slot exactly when it is FETCHING or READY and pointed at it (R130). -/
theorem State.windowServes_iff (s : State) (i : SlotId) : s.windowServes i = true ↔ s.window.pointed.toNat % 16 = i.val ∧ (s.window.mode = .fetching ∨ s.window.mode = .ready) := by
  simp only [State.windowServes, Bool.and_eq_true, beq_iff_eq, Bool.or_eq_true]
  have : handleSlot s.window.pointed = i ↔ s.window.pointed.toNat % 16 = i.val := by
    rw [Fin.ext_iff]; simp [handleSlot, BitVec.extractLsb'_toNat]
  rw [this]

/-- The first index in ascending order that satisfies a test. -/
theorem finRange_find_first {n} {p : Fin n → Bool} {i} (hi : p i = true) (h : ∀ j, j < i → p j = false) : (List.finRange n).find? p = some i := by
  rw [List.find?_eq_some_iff_append]
  refine ⟨hi, ?_⟩
  obtain ⟨a, b, hab⟩ := List.append_of_mem (List.mem_finRange i)
  refine ⟨a, b, hab, ?_⟩
  intro x hx
  have := List.pairwise_lt_finRange n
  rw [hab, List.pairwise_append] at this
  simp [h x (this.2.2 x hx i (by simp))]

/-- A route entry matches a header exactly when the three conditions of R44 hold. -/
theorem RouteEntry.matchesHeader_iff (e : RouteEntry) (l tag) : e.matchesHeader l tag = true ↔ (e.valid = true ∧ (e.laneMatch = none ∨ e.laneMatch = some l)
        ∧ ∀ k < 8, e.tagMask.getLsbD k = true → tag.getLsbD k = e.tag.getLsbD k) := by
  unfold RouteEntry.matchesHeader
  have : ((e.tag ^^^ tag) &&& e.tagMask == 0) = true ↔ ∀ k < 8, e.tagMask.getLsbD k = true → tag.getLsbD k = e.tag.getLsbD k := by
    rw [beq_iff_eq]
    constructor
    · intro h k hk hm
      have := congrArg (fun w => w.getLsbD k) h
      simp at this
      cases h1 : tag.getLsbD k <;> cases h2 : e.tag.getLsbD k <;> simp_all
    · intro h
      apply BitVec.eq_of_getLsbD_eq
      intro k hk
      have := h k hk
      rw [BitVec.getLsbD_and, BitVec.getLsbD_xor, show (0:BitVec 8).getLsbD k = false from BitVec.getLsbD_zero]
      revert this
      cases tag.getLsbD k <;> cases e.tag.getLsbD k <;> cases e.tagMask.getLsbD k <;> simp
  simp only [Bool.and_eq_true, this, Bool.or_eq_true, Option.isNone_iff_eq_none, beq_iff_eq, and_assoc]

/-- The first requester waiting after the round-robin position is the next one granted (R136, R137). -/
theorem State.nextRequester_first (s : State) (k : Fin 9) (r) (hr : r = s.port.position + 1 + k) (h : ∀ j : Fin 9, j < k → s.requesterWaiting (s.port.position + 1 + j) = false) (hw : s.requesterWaiting r = true) : s.nextRequester = some r := by
  subst hr
  unfold State.nextRequester roundRobin
  rw [List.find?_map]
  have : (List.finRange 9).find? (s.requesterWaiting ∘ fun k => s.port.position + 1 + k) = some k := by
    rw [List.find?_eq_some_iff_append]
    refine ⟨hw, ?_⟩
    obtain ⟨a, b, hab⟩ := List.append_of_mem (List.mem_finRange k)
    refine ⟨a, b, hab, ?_⟩
    intro x hx
    have := List.pairwise_lt_finRange 9
    rw [hab, List.pairwise_append] at this
    simp [h x (this.2.2 x hx k (by simp))]
  rw [this]; rfl

/-- A staging buffer with one cell replaced. -/
theorem staging_set_get (v : Vector StagingCell 4) (i j : Fin 4) (x : StagingCell) : (v.set i.val x)[j.val] = if j = i then x else v[j.val] := by
  rw [Vector.getElem_set]; simp only [Fin.ext_iff, eq_comm]

/-- What a cell read of a record whose Suspect flag is clear returns (R134, R143). -/
theorem State.readCell_clear (s : State) (k) : s.readCell k false = (List.range 64).map fun j => s.byteAt (k.val * 64 + j) := by
  simp [State.readCell, cellBase, Config.cellBytes]

/-- A descriptor after the marking of a Late refresh (R141). -/
theorem State.desc_markSuspects (s : State) (h : s.pool.ready = true) (d) : s.markSuspects.desc d = (s.desc d).markSuspect := by
  simp [State.markSuspects, h, State.desc, Tab.get_mapValues _ _ (show Desc.markSuspect Desc.blank = Desc.blank from rfl)]

/-- The bits of a pair of words with one half replaced (R170). -/
theorem withHalf_bits (w : BitVec 32) (h : Half) (v : Word) (k : Nat) (hk : k < 32) : (withHalf w h v).getLsbD k = if (match h with | .lo => 0 | .hi => 16) ≤ k ∧ k < (match h with | .lo => 0 | .hi => 16) + 16 then v.getLsbD (k - (match h with | .lo => 0 | .hi => 16)) else w.getLsbD k := by
  cases h
  · simp only [withHalf, BitVec.getLsbD_append, BitVec.getLsbD_extractLsb']
    by_cases h : k < 16
    · simp [h]
    · simp [h]
      have : 16 + (k-16) = k := by omega
      simp [this]; intro; omega
  · simp only [withHalf, BitVec.getLsbD_append, BitVec.getLsbD_extractLsb']
    by_cases h : k < 16
    · simp [h]
    · simp [h, hk]

/-- A bit vector differs from 0 exactly when one of its bits is 1. -/
theorem ne_zero_iff_bit {n} (w : BitVec n) : w ≠ 0 ↔ ∃ k < n, w.getLsbD k = true := by
  constructor
  · intro h; by_contra hn; push Not at hn; apply h; apply BitVec.eq_of_getLsbD_eq; intro i hi; have := hn i hi; simp at this; rw [show (0:BitVec n).getLsbD i = false from BitVec.getLsbD_zero]; simpa using this
  · rintro ⟨k, hk, h⟩ h0; rw [h0] at h; rw [show (0:BitVec n).getLsbD k = false from BitVec.getLsbD_zero] at h; cases h

/-- The WATERMARK item is 1 exactly when an enabled watermark bit is (R168). -/
theorem State.watermarkItem_iff (s : State) : s.watermarkItem = true ↔ ∃ k < 32, s.events.watermarks.getLsbD k = true ∧ s.events.watermarkEnables.getLsbD k = true := by
  unfold State.watermarkItem; rw [bne_iff_ne, ne_zero_iff_bit]; simp only [BitVec.getLsbD_and, Bool.and_eq_true]

/-- A purge is settled at once while none runs (R96). -/
theorem State.settlePurge_of_idle (s : State) (h : s.cmd.phase = .idle) : s.settlePurge = s := by
  simp [State.settlePurge, h]

/-! ### The Data Window when a slot empties (R130) -/

/-- Emptying a slot does to the Data Window what R130 says. -/
theorem State.windowEmptied_emptySlot (s : State) (i : SlotId) : s.windowEmptied (s.emptySlot i) i := by
  unfold State.windowEmptied State.emptySlot
  dsimp only
  by_cases h : s.windowServes i = true
  · rw [if_pos h, if_pos ((s.windowServes_iff i).mp h)]
    unfold State.staleWindow
    dsimp only
    have hh : (s.setSlot i ⟨(s.slot i).generation + 1, none⟩).host.heldRead = s.host.heldRead := rfl
    by_cases hr : s.host.heldRead = true
    · rw [if_pos (hh ▸ hr)]
      refine ⟨rfl, ?_, ?_, ?_, ?_⟩
      · simp only [State.answerError, discardRead]; rfl
      · rw [if_pos hr]; rfl
      · rw [hr, Bool.or_true]; exact State.latched_latch_self _ _
      · rw [if_pos hr]; exact State.deviceCount_bumpDevice_self _ _
    · rw [if_neg (hh ▸ hr)]
      have hr' : s.host.heldRead = false := by simpa using hr
      refine ⟨rfl, rfl, ?_, ?_, ?_⟩
      · rw [if_neg hr]; rfl
      · rw [hr', Bool.or_false]; rfl
      · rw [if_neg hr]; rfl
  · rw [if_neg h, if_neg (fun h' => h ((s.windowServes_iff i).mpr h'))]
    exact ⟨rfl, rfl, rfl, rfl, rfl⟩

/-- What a window's emptying says is carried over by states with the same window, port, host, WINDOW_ERROR and Window
Errors. -/
theorem State.windowEmptied_congr {s s' x x' : State} {i : SlotId} (h : s.windowEmptied s' i)
    (before : x.window = s.window ∧ x.port = s.port ∧ x.host = s.host ∧ x.latched .windowError = s.latched .windowError
      ∧ x.deviceCount .windowErrors = s.deviceCount .windowErrors)
    (after : x'.window = s'.window ∧ x'.port = s'.port ∧ x'.host = s'.host
      ∧ x'.latched .windowError = s'.latched .windowError
      ∧ x'.deviceCount .windowErrors = s'.deviceCount .windowErrors) : x.windowEmptied x' i := by
  obtain ⟨b1, b2, b3, b4, b5⟩ := before
  obtain ⟨a1, a2, a3, a4, a5⟩ := after
  unfold State.windowEmptied at h ⊢
  rw [b1, b2, b3, b4, b5, a1, a2, a3, a4, a5]; exact h

/-- An end act latches COMMAND_DONE and no other event (R150). -/
theorem State.latched_endCommand_ne (s : State) (r : Result) {e : Event} (h : e ≠ .commandDone) :
    (s.endCommand r).latched e = s.latched e := by
  have hs : s.endCommand r
      = ({ s with cmd := { s.cmd with phase := .idle, result := r } } : State).latch .commandDone := rfl
  rw [hs, State.latched_latch_ne _ h]; rfl

/-! ### Entry images by their fields (Tables 11-5 to 11-7) -/

theorem fieldOf_eq (v : Word) (n w : Nat) : fieldOf v n w = v.toNat / 2 ^ n % 2 ^ w := by
  simp [fieldOf, BitVec.extractLsb'_toNat, Nat.shiftRight_eq_div_pow]

/-- Which route images are refused: a Lane Match code above 8, or a check that Lane Match or Tag Mask does not allow
(R48). -/
theorem routeOfImage_refused {img : Vector Word 8} {edition : Byte} {code : Nat} (hc : code = img[0].toNat / 256 % 16)
    (h : 8 < code ∨ img[0].getLsbD 13 = true ∧ (code = 8 ∨ img[1].toNat % 256 ≠ 0xFF)) : routeOfImage img edition = none := by
  have hf : fieldOf img[0] 8 4 = code := by rw [fieldOf_eq, hc]; rfl
  have hm : (img[1].extractLsb' 0 8).toNat = img[1].toNat % 256 := by simp [BitVec.extractLsb'_toNat]
  unfold routeOfImage laneMatchOf
  rw [hf]
  rcases h with h | ⟨hs, h⟩
  · rw [dif_neg (by omega), if_neg (by omega)]
  · by_cases h8 : 8 < code
    · rw [dif_neg (by omega), if_neg (by omega)]
    · rcases h with h | h
      · rw [dif_neg (by omega), if_pos h]; simp [hs]
      · have hne : img[1].extractLsb' 0 8 ≠ 0xFF := fun e => h (by rw [← hm, e]; rfl)
        by_cases h7 : code < 8
        · rw [dif_pos h7]; simp [hs]; exact hne
        · rw [dif_neg h7, if_pos (by omega)]; simp [hs]

/-- Every other route image is legal, and this is what it commits (R48, R49, Table 11-5). -/
theorem routeOfImage_legal {img : Vector Word 8} {edition : Byte} {code : Nat} (hc : code = img[0].toNat / 256 % 16)
    (h8 : code ≤ 8) (h : img[0].getLsbD 13 = true → code ≠ 8 ∧ img[1].toNat % 256 = 0xFF) :
    ∃ e, routeOfImage img edition = some e ∧ e.valid = img[0].getLsbD 15
      ∧ e.action = (if img[0].getLsbD 14 then .store else .discard) ∧ e.seqCheck = img[0].getLsbD 13
      ∧ e.laneMatch.map (fun l => l.val) = (if code = 8 then none else some code) ∧ e.stream.val = img[0].toNat % 32
      ∧ e.tag.toNat = img[1].toNat / 256 ∧ e.tagMask.toNat = img[1].toNat % 256 ∧ e.expected = 0
      ∧ e.expectedKnown = false ∧ e.edition = edition + 1 := by
  have hf : fieldOf img[0] 8 4 = code := by rw [fieldOf_eq, hc]; rfl
  have hm : (img[1].extractLsb' 0 8).toNat = img[1].toNat % 256 := by simp [BitVec.extractLsb'_toNat]
  have ht : (img[1].extractLsb' 8 8).toNat = img[1].toNat / 256 := by
    have := img[1].isLt
    simp [BitVec.extractLsb'_toNat, Nat.shiftRight_eq_div_pow]; omega
  have hst : (streamOfWord img[0]).val = img[0].toNat % 32 := by simp [streamOfWord, fieldOf_eq]
  obtain ⟨m, hm1, hm2⟩ : ∃ m, laneMatchOf code = some m ∧ m.map (fun l => l.val) = (if code = 8 then none else some code) := by
    unfold laneMatchOf
    by_cases h7 : code < 8
    · exact ⟨some ⟨code, h7⟩, by rw [dif_pos h7], by rw [if_neg (by omega)]; rfl⟩
    · exact ⟨none, by rw [dif_neg h7, if_pos (by omega)], by rw [if_pos (by omega)]; rfl⟩
  have hok : (img[0].getLsbD 13 && (m.isNone || img[1].extractLsb' 0 8 != 0xFF)) = false := by
    by_cases hs : img[0].getLsbD 13 = true
    · obtain ⟨a, b⟩ := h hs
      have e : img[1].extractLsb' 0 8 = 0xFF := BitVec.eq_of_toNat_eq (by rw [hm, b]; rfl)
      rw [if_neg a] at hm2
      have : m.isNone = false := by cases m <;> simp_all
      rw [this, e]; simp
    · rw [Bool.not_eq_true] at hs; rw [hs, Bool.false_and]
  unfold routeOfImage
  rw [hf, hm1]
  simp only [hok, Bool.false_eq_true, if_false]
  exact ⟨_, rfl, rfl, rfl, rfl, hm2, hst, ht, hm, rfl, rfl, rfl⟩

/-- Which lane images are refused: Confirm Count 0 (R17). -/
theorem laneOfImage_refused {img : Vector Word 8} (h : img[0].toNat / 4096 % 4 = 0) : laneOfImage img = none := by
  have : img[0].extractLsb' 12 2 = 0 := BitVec.eq_of_toNat_eq (by
    rw [BitVec.extractLsb'_toNat, Nat.shiftRight_eq_div_pow]; exact h)
  unfold laneOfImage; rw [if_pos this]

/-- Every other lane image is legal and commits its fields (R17, Table 11-7). -/
theorem laneOfImage_legal {img : Vector Word 8} {e : LaneEntry} (h : img[0].toNat / 4096 % 4 ≠ 0)
    (h1 : e.enable = img[0].getLsbD 15) (h2 : e.confirmCount.toNat = img[0].toNat / 4096 % 4)
    (h3 : e.missTolerance.toNat = img[0].toNat / 256 % 4) (h4 : e.keepDamaged = img[0].getLsbD 7)
    (h5 : e.defaultAction = (if img[0].getLsbD 6 then .store else .discard))
    (h6 : e.defaultStream.val = img[0].toNat % 32) : laneOfImage img = some e := by
  have a : (img[0].extractLsb' 12 2).toNat = img[0].toNat / 4096 % 4 := by
    rw [BitVec.extractLsb'_toNat, Nat.shiftRight_eq_div_pow]
  have b : (img[0].extractLsb' 8 2).toNat = img[0].toNat / 256 % 4 := by
    rw [BitVec.extractLsb'_toNat, Nat.shiftRight_eq_div_pow]
  have hst : streamOfWord img[0] = e.defaultStream := Fin.ext (by rw [h6]; simp [streamOfWord, fieldOf_eq])
  unfold laneOfImage
  rw [if_neg fun hh => h (by rw [← a, hh]; rfl), hst]
  rw [BitVec.eq_of_toNat_eq (a.trans h2.symm), BitVec.eq_of_toNat_eq (b.trans h3.symm), ← h1, ← h4]
  unfold actionOf
  rw [← h5]

end Sys2Proof.Machine
end

