-- ==== Sys2Proof/Laws/Units.lean ====
section
/-! SUPPORT. What `PlacesInv` rests on: a reception unit's operations keep `ReceptionInv` (R29). -/

namespace Sys2Proof.Machine

/-! ### Lists -/

theorem mem_dropLast_or_last {α} {l : List α} {a : α} (h : a ∈ l) : a ∈ l.dropLast ∨ l.getLast? = some a := by
  rcases List.eq_nil_or_concat l with rfl | ⟨xs, x, rfl⟩
  · cases h
  · simp at h ⊢; exact h.imp id Eq.symm

theorem dropLast_sublist_of_sublist {α} {l m : List α} (h : l.Sublist m) : l.dropLast.Sublist m.dropLast := by
  have := h.reverse.tail.reverse
  simpa [List.tail_reverse] using this

theorem pair_sublist_tail {α} {a x : α} {xs l : List α} (h : (a :: l).Sublist (x :: xs)) (ha : a ≠ x) : (a :: l).Sublist xs := by
  cases h with
  | cons _ h => exact h
  | cons_cons _ h => exact absurd rfl ha

theorem pair_sublist_erase {α} [DecidableEq α] {a b x : α} {l : List α} (h : [a, b].Sublist l) (ha : a ≠ x) (hb : b ≠ x) :
    [a, b].Sublist (l.erase x) := by
  have := h.erase x
  rwa [List.erase_cons_tail (by simpa using ha), List.erase_cons_tail (by simpa using hb), List.erase_nil] at this

theorem pair_sublist_last {α} {a b : α} {l : List α} (h : a ∈ l) (hb : l.getLast? = some b) : a = b ∨ [a, b].Sublist l := by
  rcases List.eq_nil_or_concat l with rfl | ⟨xs, x, rfl⟩
  · cases h
  · simp at h hb; subst hb
    rcases h with h | h
    · right; rw [List.concat_eq_append]; exact (List.singleton_sublist.mpr h).append (List.Sublist.refl [x])
    · exact .inl h

/-! ### A staging cell after an abort -/

theorem StagingCell.staged_abort {x : StagingCell} {d : DescId} {c : Staged} (h : (x.abort d).staged = some c) :
    x.staged = some c ∧ c.owner ≠ some d ∧ x.abort d = x
      ∨ c.owner = none ∧ ∃ c', x = .writing c' ∧ c'.owner = some d ∧ c = { c' with owner := none } ∧ x.abort d = .writing c := by
  cases x <;> simp only [StagingCell.abort] at h ⊢
  · cases h
  all_goals split at h
  all_goals simp_all [StagingCell.staged]
  all_goals (try subst h)
  all_goals simp_all

theorem StagingCell.abort_of_ne {x : StagingCell} {d : DescId} (h : ∀ c, x.staged = some c → c.owner ≠ some d) : x.abort d = x := by
  cases x <;> simp_all [StagingCell.abort, StagingCell.staged]

theorem StagingCell.busyFor_iff {x : StagingCell} {d : DescId} : x.busyFor d = true ↔ ∃ c, c.owner = some d ∧ (x = .pending c ∨ x = .writing c) := by
  cases x <;> simp [StagingCell.busyFor]

theorem StagingCell.isPending_abort {x : StagingCell} {d : DescId} : (x.abort d).isPending = (x.isPending && !x.busyFor d) := by
  cases x with
  | free => rfl
  | filling c => by_cases h : c.owner = some d <;> simp [StagingCell.abort, StagingCell.isPending, h]
  | pending c => by_cases h : c.owner = some d <;> simp [StagingCell.abort, StagingCell.isPending, StagingCell.busyFor, h]
  | writing c => by_cases h : c.owner = some d <;> simp [StagingCell.abort, StagingCell.isPending, h]

theorem StagingCell.isWriting_abort {x : StagingCell} {d : DescId} : (x.abort d).isWriting = x.isWriting := by
  cases x with
  | free => rfl
  | filling c => by_cases h : c.owner = some d <;> simp [StagingCell.abort, StagingCell.isWriting, h]
  | pending c => by_cases h : c.owner = some d <;> simp [StagingCell.abort, StagingCell.isWriting, h]
  | writing c => by_cases h : c.owner = some d <;> simp [StagingCell.abort, StagingCell.isWriting, h]

theorem StagingCell.busyFor_abort {x : StagingCell} {d e : DescId} (he : e ≠ d) : (x.abort d).busyFor e = x.busyFor e := by
  have he' : ¬ d = e := fun h => he h.symm
  cases x with
  | free => rfl
  | filling c => by_cases h : c.owner = some d <;> simp [StagingCell.abort, StagingCell.busyFor, h]
  | pending c => by_cases h : c.owner = some d <;> simp [StagingCell.abort, StagingCell.busyFor, h, he']
  | writing c => by_cases h : c.owner = some d <;> simp [StagingCell.abort, StagingCell.busyFor, h, he']

namespace ReceptionInv

variable {u : Reception} {st st' : DescId → DescState} {ch ch' : DescId → List CellId} {w w' : Prop}

theorem congr (h : ReceptionInv u st ch w) (hs : ∀ d ∈ u.list, st' d = st d) (hc : ∀ d ∈ u.list, ch' d = ch d)
    (hw : w → w') : ReceptionInv u st' ch' w' where
  states d hd := by rw [hs d hd]; exact h.states d hd
  receivingLast d hd := by rw [hs d (List.dropLast_subset _ hd)]; exact h.receivingLast d hd
  completingBusy d hd e := h.completingBusy d hd (by rw [← hs d hd]; exact e)
  endedBusy d hd e := h.endedBusy d hd (by rw [← hs d (List.mem_of_getLast? hd)]; exact e)
  orderOnce := h.orderOnce
  orderPending := h.orderPending
  orderByList := h.orderByList
  owned i c d hi hd := by
    obtain ⟨a, b⟩ := h.owned i c d hi hd
    exact ⟨a, by rw [hc d a]; exact b⟩
  ownerless := h.ownerless
  filling i c d hi hd := by
    rw [hs d (h.owned i c d (by rw [hi]; rfl) hd).1]; exact h.filling i c d hi hd
  oneFilling := h.oneFilling
  writing i c hi := ⟨hw (h.writing i c hi).1, (h.writing i c hi).2⟩
  oneWriting := h.oneWriting
  retiringWriting := h.retiringWriting

/-- The RECEIVING record is the last (R29). -/
theorem last (h : ReceptionInv u st ch w) {d : DescId} (hd : d ∈ u.list) (hr : st d = .receiving) : u.list.getLast? = some d := by
  rcases mem_dropLast_or_last hd with hm | hm
  · rw [h.receivingLast d hm] at hr; cases hr
  · exact hm

/-- At most one staging cell is WRITING, so a record whose staging cell is WRITING has the cell that is retired (R37). -/
theorem writingCell (h : ReceptionInv u st ch w) {i : Fin 4} {c : Staged} {d : DescId} (hi : u.staging[i.val] = .writing c)
    (hd : c.owner = some d) : u.writingCell d = some c.cell := by
  unfold Reception.writingCell
  generalize hf : (fun x : StagingCell => match x with | .writing c => if c.owner = some d then some c.cell else none | _ => none) = f
  have h1 : ∀ x ∈ u.staging.toList, f x ≠ none → x = u.staging[i.val] := by
    intro x hx hn
    obtain ⟨j, hj, rfl⟩ := List.getElem_of_mem hx
    have hj4 : j < 4 := by simpa using hj
    simp only [Vector.getElem_toList] at hn ⊢
    have := h.oneWriting ⟨j, hj4⟩ i (by
      subst hf; dsimp only at hn ⊢
      cases hs : u.staging[j] <;> simp_all [StagingCell.isWriting]) (by rw [hi]; rfl)
    rw [← this]
  cases hg : u.staging.toList.findSome? f with
  | none =>
    rw [List.findSome?_eq_none_iff] at hg
    have := hg (u.staging[i.val]) (by simp)
    rw [hi] at this; subst hf; simp [hd] at this
  | some k =>
    obtain ⟨x, hx, hk⟩ := List.exists_of_findSome?_eq_some hg
    rw [h1 x hx (by simp [hk]), hi] at hk
    subst hf; simpa [hd] using hk.symm

theorem writingCell_none {d : DescId} (hn : ∀ (i : Fin 4) c, u.staging[i.val] = .writing c → c.owner ≠ some d) : u.writingCell d = none := by
  unfold Reception.writingCell
  rw [List.findSome?_eq_none_iff]
  intro x hx
  obtain ⟨j, hj, rfl⟩ := List.getElem_of_mem hx
  have hj4 : j < 4 := by simpa using hj
  simp only [Vector.getElem_toList]
  have := hn ⟨j, hj4⟩
  dsimp only at this
  cases hs : u.staging[j] <;> simp_all

/-- The WRITING staging cell of a record, where it has one: it retires and the set is empty (R37, R38). -/
theorem writing_cases (h : ReceptionInv u st ch w) (d : DescId) :
    (u.writingCell d = none ∧ ∀ (i : Fin 4) c, u.staging[i.val] = .writing c → c.owner ≠ some d)
      ∨ ∃ (i : Fin 4) (c : Staged), u.staging[i.val] = .writing c ∧ c.owner = some d ∧ u.writingCell d = some c.cell
        ∧ c.cell ∈ ch d ∧ u.retiring = none := by
  by_cases hn : ∀ (i : Fin 4) c, u.staging[i.val] = .writing c → c.owner ≠ some d
  · exact .inl ⟨writingCell_none hn, hn⟩
  · push Not at hn
    obtain ⟨i, c, hi, hd⟩ := hn
    exact .inr ⟨i, c, hi, hd, h.writingCell hi hd, (h.owned i c d (by rw [hi]; rfl) hd).2, ((h.writing i c hi).2.1 d hd).2⟩

theorem abort_staging (u : Reception) (d : DescId) (i : Fin 4) : (u.abort d).staging[i.val] = (u.staging[i.val]).abort d := by
  simp [Reception.abort]

/-- An abort keeps the reception unit as R29 says (R37). -/
theorem abort (h : ReceptionInv u st ch w) (d : DescId) (hu : u.list.Nodup) (hs : ∀ e ∈ u.list, e ≠ d → st' e = st e)
    (hc : ∀ e ∈ u.list, e ≠ d → ch' e = ch e) (hw : w → w') : ReceptionInv (u.abort d) st' ch' w' := by
  have hl : (u.abort d).list = u.list.erase d := rfl
  have hm : ∀ e, e ∈ u.list.erase d → e ∈ u.list ∧ e ≠ d := fun e he => by
    rw [hu.mem_erase_iff] at he; exact ⟨he.2, he.1⟩
  have hb : ∀ e, e ≠ d → (∃ i : Fin 4, u.staging[i.val].busyFor e = true) → ∃ i : Fin 4, (u.abort d).staging[i.val].busyFor e = true := by
    rintro e he ⟨i, hi⟩; exact ⟨i, by rw [abort_staging, StagingCell.busyFor_abort he]; exact hi⟩
  have hst : ∀ (i : Fin 4) c, (u.abort d).staging[i.val].staged = some c →
      (u.staging[i.val].staged = some c ∧ c.owner ≠ some d ∧ (u.abort d).staging[i.val] = u.staging[i.val])
      ∨ (c.owner = none ∧ ∃ c', u.staging[i.val] = .writing c' ∧ c'.owner = some d ∧ c = { c' with owner := none } ∧ (u.abort d).staging[i.val] = .writing c) := by
    intro i c hi; rw [abort_staging] at hi ⊢; exact StagingCell.staged_abort hi
  refine ⟨?_, ?_, ?_, ?_, ?_, ?_, ?_, ?_, ?_, ?_, ?_, ?_, ?_, ?_⟩
  · intro e he; rw [hl] at he; rw [hs e (hm e he).1 (hm e he).2]; exact h.states e (hm e he).1
  · intro e he; rw [hl] at he
    have h1 := (dropLast_sublist_of_sublist (List.erase_sublist (l := u.list) (a := d))).mem he
    rw [hs e (hm e (List.dropLast_subset _ he)).1 (hm e (List.dropLast_subset _ he)).2]; exact h.receivingLast e h1
  · intro e he hcp; rw [hl] at he
    exact hb e (hm e he).2 (h.completingBusy e (hm e he).1 (by rw [← hs e (hm e he).1 (hm e he).2]; exact hcp))
  · intro e he hr hcd hh
    rw [hl] at he hh
    obtain ⟨h1, h2⟩ := hm e (List.mem_of_getLast? he)
    have hr' : st e = .receiving := by rw [← hs e h1 h2]; exact hr
    have hlast := h.last h1 hr'
    refine hb e h2 (h.endedBusy e hlast hr' hcd ?_)
    intro hhd
    apply hh
    cases hq : u.list with
    | nil => rw [hq] at h1; cases h1
    | cons x xs =>
      rw [hq] at hhd; simp at hhd; subst hhd
      rw [List.erase_cons_tail (by simpa using h2)]; rfl
  · exact h.orderOnce.filter _
  · intro i
    rw [abort_staging, StagingCell.isPending_abort]
    show i ∈ u.order.filter _ ↔ _
    rw [List.mem_filter, h.orderPending, Bool.and_eq_true]
  · refine (h.orderByList.filter _).imp_of_mem ?_
    intro i j hi hj hp ci cj x y h1 h2 h3 h4
    have hne : ∀ (i : Fin 4) c x, (u.abort d).staging[i.val].staged = some c → c.owner = some x → u.staging[i.val].staged = some c ∧ x ≠ d := by
      intro i c x h1 h3
      rcases hst i c h1 with ⟨a, b, _⟩ | ⟨a, _⟩
      · exact ⟨a, fun e => b (e ▸ h3)⟩
      · rw [a] at h3; cases h3
    obtain ⟨a1, a2⟩ := hne i ci x h1 h3
    obtain ⟨b1, b2⟩ := hne j cj y h2 h4
    rcases hp ci cj x y a1 b1 h3 h4 with e | e
    · exact .inl e
    · exact .inr (pair_sublist_erase e a2 b2)
  · intro i c x hi hx
    rcases hst i c hi with ⟨a, b, _⟩ | ⟨a, _⟩
    · obtain ⟨h1, h2⟩ := h.owned i c x a hx
      have hxd : x ≠ d := fun e => b (e ▸ hx)
      exact ⟨by rw [hl]; exact (List.mem_erase_of_ne hxd).mpr h1, by rw [hc x h1 hxd]; exact h2⟩
    · rw [a] at hx; cases hx
  · intro i c hi hx
    rcases hst i c hi with ⟨a, b, e⟩ | ⟨a, c', _, _, _, e⟩
    · rw [e]; exact h.ownerless i c a hx
    · exact e
  · intro i c x hi hx
    rcases hst i c (by rw [hi]; rfl) with ⟨a, b, e⟩ | ⟨a, _⟩
    · rw [e] at hi
      have hxd : x ≠ d := fun e => b (e ▸ hx)
      rw [hs x (h.owned i c x a hx).1 hxd]; exact h.filling i c x hi hx
    · rw [a] at hx; cases hx
  · have hf : ∀ (i : Fin 4) c, (u.abort d).staging[i.val] = .filling c → u.staging[i.val] = .filling c := by
      intro i c hi
      rcases hst i c (by rw [hi]; rfl) with ⟨_, _, e⟩ | ⟨_, _, _, _, _, e⟩
      · rw [e] at hi; exact hi
      · rw [e] at hi; cases hi
    intro i j ci cj hi hj; exact h.oneFilling i j ci cj (hf i ci hi) (hf j cj hj)
  · intro i c hi
    rcases hst i c (by rw [hi]; rfl) with ⟨a, b, e⟩ | ⟨a, c', h1, h2, h3, e⟩
    · rw [e] at hi
      obtain ⟨w1, w2, w3⟩ := h.writing i c hi
      have hwc : u.writingCell d = none := by
        apply writingCell_none; intro j c' hj hd
        obtain rfl := h.oneWriting j i (by rw [hj]; rfl) (by rw [hi]; rfl)
        rw [hj] at hi; cases hi; exact b hd
      refine ⟨hw w1, ?_, ?_⟩
      · intro x hx
        have hxd : x ≠ d := fun e => b (e ▸ hx)
        obtain ⟨p1, p2⟩ := w2 x hx
        refine ⟨?_, by show (u.writingCell d).or u.retiring = none; rw [hwc, p2]; rfl⟩
        rw [hl]
        cases hq : u.list with
        | nil => rw [hq] at p1; cases p1
        | cons y ys =>
          rw [hq] at p1; simp at p1; subst p1
          rw [List.erase_cons_tail (by simpa using hxd)]; rfl
      · intro hx; show (u.writingCell d).or u.retiring = _; rw [hwc]; exact w3 hx
    · refine ⟨hw (h.writing i c' h1).1, ?_, ?_⟩
      · intro x hx; rw [a] at hx; cases hx
      · intro _; show (u.writingCell d).or u.retiring = _; rw [h.writingCell h1 h2, h3]; rfl
  · intro i j hi hj
    rw [abort_staging, StagingCell.isWriting_abort] at hi hj
    exact h.oneWriting i j hi hj
  · intro hn
    rcases h.writing_cases d with ⟨hwc, hno⟩ | ⟨i, c, h1, h2, h3, _⟩
    · have : u.retiring ≠ none := by
        intro e; apply hn; show (u.writingCell d).or u.retiring = none; rw [hwc, e]; rfl
      obtain ⟨i, c, h1, h2⟩ := h.retiringWriting this
      refine ⟨i, c, ?_, h2⟩
      rw [abort_staging, h1]; simp [StagingCell.abort, h2]
    · refine ⟨i, { c with owner := none }, ?_, rfl⟩
      rw [abort_staging, h1]; simp [StagingCell.abort, h2]


/-- A record that joins the tail of the list, RECEIVING, with a body to come (R27, R28). -/
theorem accept (h : ReceptionInv u st ch w) {d : DescId} {u' : Reception} (hd : d ∉ u.list) (hall : ∀ e ∈ u.list, st e = .completing)
    (hl : u'.list = u.list ++ [d]) (hst : u'.staging = u.staging) (ho : u'.order = u.order) (hret : u'.retiring = u.retiring)
    (hcd : u'.countdown ≠ 0) (hr : st' d = .receiving) (hs : ∀ e ∈ u.list, st' e = st e) (hc : ∀ e ∈ u.list, ch' e = ch e)
    (hw : w → w') : ReceptionInv u' st' ch' w' where
  states e he := by
    rw [hl, List.mem_append, List.mem_singleton] at he
    rcases he with he | rfl
    · rw [hs e he]; exact h.states e he
    · exact .inl hr
  receivingLast e he := by
    rw [hl, List.dropLast_concat] at he
    rw [hs e he]; exact hall e he
  completingBusy e he hcp := by
    rw [hl, List.mem_append, List.mem_singleton] at he
    rcases he with he | rfl
    · rw [hst]; exact h.completingBusy e he (hall e he)
    · rw [hr] at hcp; cases hcp
  endedBusy e _ _ h0 := absurd h0 hcd
  orderOnce := ho ▸ h.orderOnce
  orderPending i := by rw [ho, hst]; exact h.orderPending i
  orderByList := by
    rw [ho, hst, hl]
    exact h.orderByList.imp fun hp ci cj x y a b c e => (hp ci cj x y a b c e).imp id
      fun hs => hs.trans (List.sublist_append_left ..)
  owned i c x hi hx := by
    rw [hst] at hi
    obtain ⟨a, b⟩ := h.owned i c x hi hx
    exact ⟨by rw [hl]; exact List.mem_append_left _ a, by rw [hc x a]; exact b⟩
  ownerless i c hi hx := by rw [hst] at hi ⊢; exact h.ownerless i c hi hx
  filling i c x hi hx := by
    rw [hst] at hi
    have hm := (h.owned i c x (by rw [hi]; rfl) hx).1
    exact absurd (hall x hm) (by rw [(h.filling i c x hi hx).1]; simp)
  oneFilling i j ci cj hi hj := by rw [hst] at hi hj; exact h.oneFilling i j ci cj hi hj
  writing i c hi := by
    rw [hst] at hi; rw [hret]
    obtain ⟨a, b, e⟩ := h.writing i c hi
    refine ⟨hw a, fun x hx => ⟨?_, (b x hx).2⟩, e⟩
    rw [hl, List.head?_append, (b x hx).1]; rfl
  oneWriting i j hi hj := by rw [hst] at hi hj; exact h.oneWriting i j hi hj
  retiringWriting hn := by rw [hret] at hn; rw [hst]; exact h.retiringWriting hn

theorem get_set (v : Vector StagingCell 4) (i j : Fin 4) (x : StagingCell) :
    (v.set i.val x)[j.val] = if j = i then x else v[j.val] := staging_set_get v i j x

/-- A body byte into a staging cell that stays FILLING (R30). -/
theorem stageFilling (h : ReceptionInv u st ch w) {d : DescId} {u' : Reception} {i : Fin 4} {c : Staged}
    (hlast : u.list.getLast? = some d) (hr : st d = .receiving)
    (hi : u.staging[i.val] = .free ∧ (∀ (j : Fin 4) c, u.staging[j.val] = .filling c → c.owner ≠ some d) ∨ ∃ c0, u.staging[i.val] = .filling c0)
    (hco : c.owner = some d) (hcc : c.cell ∈ ch d) (hcd : u'.countdown ≠ 0)
    (hl : u'.list = u.list) (hst : u'.staging = u.staging.set i.val (.filling c)) (ho : u'.order = u.order)
    (hret : u'.retiring = u.retiring) : ReceptionInv u' st ch w := by
  have hg : ∀ j : Fin 4, u'.staging[j.val] = if j = i then .filling c else u.staging[j.val] := by
    intro j; rw [hst]; exact get_set _ _ _ _
  have hdm := List.mem_of_getLast? hlast
  have hni : ∀ e, u.staging[i.val].busyFor e = false := by
    intro e; rcases hi with ⟨hi, _⟩ | ⟨c0, hi⟩ <;> rw [hi] <;> rfl
  have hb : ∀ e, (∃ j : Fin 4, u.staging[j.val].busyFor e = true) → ∃ j : Fin 4, u'.staging[j.val].busyFor e = true := by
    rintro e ⟨j, hj⟩
    refine ⟨j, ?_⟩
    rw [hg, if_neg (fun e2 => by rw [e2, hni] at hj; cases hj)]; exact hj
  have hnp : u.staging[i.val].isPending = false := by rcases hi with ⟨hi, _⟩ | ⟨c0, hi⟩ <;> rw [hi] <;> rfl
  have hio : i ∉ u.order := by rw [h.orderPending, hnp]; simp
  refine ⟨?_, ?_, ?_, ?_, ?_, ?_, ?_, ?_, ?_, ?_, ?_, ?_, ?_, ?_⟩
  · rw [hl]; exact h.states
  · rw [hl]; exact h.receivingLast
  · rw [hl]; exact fun e he hcp => hb e (h.completingBusy e he hcp)
  · exact fun _ _ _ h0 => absurd h0 hcd
  · rw [ho]; exact h.orderOnce
  · intro j; rw [ho, hg]; split
    · rename_i e; subst e; simp [hio, StagingCell.isPending]
    · exact h.orderPending j
  · rw [ho, hl]
    refine h.orderByList.imp_of_mem ?_
    intro a b ha hb2 hp ci cj x y h1 h2
    rw [hg a, if_neg (fun e : a = i => hio (e ▸ ha))] at h1
    rw [hg b, if_neg (fun e : b = i => hio (e ▸ hb2))] at h2
    exact hp ci cj x y h1 h2
  · intro j c' x hj hx
    rw [hg] at hj; split at hj
    · cases hj; rw [hco] at hx; cases hx; rw [hl]; exact ⟨hdm, hcc⟩
    · rw [hl]; exact h.owned j c' x hj hx
  · intro j c' hj hx
    rw [hg] at hj ⊢; split at hj
    · cases hj; rw [hco] at hx; cases hx
    · rw [if_neg (by assumption)]; exact h.ownerless j c' hj hx
  · intro j c' x hj hx
    rw [hg] at hj; split at hj
    · cases hj; rw [hco] at hx; cases hx; exact ⟨hr, hcd⟩
    · exact ⟨(h.filling j c' x hj hx).1, hcd⟩
  · have hone : ∀ (j : Fin 4) c', u.staging[j.val] = .filling c' → j = i := by
      intro j c' hj
      rcases hi with ⟨hi, hno⟩ | ⟨c0, hi⟩
      · exfalso
        cases ho2 : c'.owner with
        | none => have := h.ownerless j c' (by rw [hj]; rfl) ho2; rw [hj] at this; cases this
        | some x =>
          have hm := (h.owned j c' x (by rw [hj]; rfl) ho2).1
          have := h.last hm (h.filling j c' x hj ho2).1
          rw [hlast] at this; cases this; exact hno j c' hj ho2
      · exact h.oneFilling j i c' c0 hj hi
    intro j k cj ck hj hk
    have : ∀ (j : Fin 4) c', u'.staging[j.val] = .filling c' → j = i := by
      intro j c' hj; rw [hg] at hj; split at hj
      · assumption
      · exact hone j c' hj
    rw [this j cj hj, this k ck hk]
  · intro j c' hj
    rw [hg] at hj; split at hj
    · cases hj
    · rw [hl, hret]; exact h.writing j c' hj
  · have : ∀ j : Fin 4, u'.staging[j.val].isWriting = true → u.staging[j.val].isWriting = true := by
      intro j hj; rw [hg] at hj; split at hj
      · cases hj
      · exact hj
    intro j k hj hk; exact h.oneWriting j k (this j hj) (this k hk)
  · intro hn; rw [hret] at hn
    obtain ⟨j, c', h1, h2⟩ := h.retiringWriting hn
    refine ⟨j, c', ?_, h2⟩
    rw [hg, if_neg]; exact h1
    intro e; subst e; rcases hi with ⟨hi, _⟩ | ⟨c0, hi⟩ <;> rw [hi] at h1 <;> cases h1

/-- A body byte with which a staging cell becomes PENDING (R31). -/
theorem stagePending (h : ReceptionInv u st ch w) {d : DescId} {u' : Reception} {i : Fin 4} {c : Staged}
    (hlast : u.list.getLast? = some d) (hr : st d = .receiving)
    (hi : u.staging[i.val] = .free ∧ (∀ (j : Fin 4) c, u.staging[j.val] = .filling c → c.owner ≠ some d) ∨ ∃ c0, u.staging[i.val] = .filling c0)
    (hco : c.owner = some d) (hcc : c.cell ∈ ch d)
    (hl : u'.list = u.list) (hst : u'.staging = u.staging.set i.val (.pending c)) (ho : u'.order = u.order ++ [i])
    (hret : u'.retiring = u.retiring) : ReceptionInv u' st ch w := by
  have hg : ∀ j : Fin 4, u'.staging[j.val] = if j = i then .pending c else u.staging[j.val] := by
    intro j; rw [hst]; exact get_set _ _ _ _
  have hdm := List.mem_of_getLast? hlast
  have hni : ∀ e, u.staging[i.val].busyFor e = false := by
    intro e; rcases hi with ⟨hi, _⟩ | ⟨c0, hi⟩ <;> rw [hi] <;> rfl
  have hb : ∀ e, (∃ j : Fin 4, u.staging[j.val].busyFor e = true) → ∃ j : Fin 4, u'.staging[j.val].busyFor e = true := by
    rintro e ⟨j, hj⟩
    refine ⟨j, ?_⟩
    rw [hg, if_neg (fun e2 => by rw [e2, hni] at hj; cases hj)]; exact hj
  have hnp : u.staging[i.val].isPending = false := by rcases hi with ⟨hi, _⟩ | ⟨c0, hi⟩ <;> rw [hi] <;> rfl
  have hio : i ∉ u.order := by rw [h.orderPending, hnp]; simp
  have hfill : ∀ (j : Fin 4) c', u'.staging[j.val] = .filling c' → False := by
    intro j c' hj; rw [hg] at hj; split at hj
    · cases hj
    · rename_i hji
      rcases hi with ⟨hi, hno⟩ | ⟨c0, hi⟩
      · cases ho2 : c'.owner with
        | none => have := h.ownerless j c' (by rw [hj]; rfl) ho2; rw [hj] at this; cases this
        | some x =>
          have hm := (h.owned j c' x (by rw [hj]; rfl) ho2).1
          have := h.last hm (h.filling j c' x hj ho2).1
          rw [hlast] at this; cases this; exact hno j c' hj ho2
      · exact hji (h.oneFilling j i c' c0 hj hi)
  refine ⟨?_, ?_, ?_, ?_, ?_, ?_, ?_, ?_, ?_, ?_, ?_, ?_, ?_, ?_⟩
  · rw [hl]; exact h.states
  · rw [hl]; exact h.receivingLast
  · rw [hl]; exact fun e he hcp => hb e (h.completingBusy e he hcp)
  · intro e he _ _ _
    rw [hl, hlast] at he; cases he
    exact ⟨i, by rw [hg, if_pos rfl]; simp [StagingCell.busyFor, hco]⟩
  · rw [ho, List.nodup_append]
    exact ⟨h.orderOnce, List.nodup_singleton _, fun a ha b hb2 e => by
      rw [List.mem_singleton] at hb2; exact hio (by rw [← hb2, ← e]; exact ha)⟩
  · intro j; rw [ho, hg, List.mem_append, List.mem_singleton]; split
    · rename_i e; subst e; simp [StagingCell.isPending]
    · rename_i e; simp only [e, or_false]; exact h.orderPending j
  · rw [ho, hl, List.pairwise_append]
    refine ⟨h.orderByList.imp_of_mem ?_, List.pairwise_singleton _ _, ?_⟩
    · intro a b ha hb2 hp ci cj x y h1 h2
      rw [hg a, if_neg (fun e : a = i => hio (e ▸ ha))] at h1
      rw [hg b, if_neg (fun e : b = i => hio (e ▸ hb2))] at h2
      exact hp ci cj x y h1 h2
    · intro a ha b hb2 ci cj x y h1 h2 h3 h4
      rw [List.mem_singleton] at hb2; subst hb2
      rw [hg a, if_neg (fun e : a = b => hio (e ▸ ha))] at h1
      rw [hg, if_pos rfl] at h2; cases h2
      rw [hco] at h4; cases h4
      exact pair_sublist_last (h.owned a ci x h1 h3).1 hlast
  · intro j c' x hj hx
    rw [hg] at hj; split at hj
    · cases hj; rw [hco] at hx; cases hx; rw [hl]; exact ⟨hdm, hcc⟩
    · rw [hl]; exact h.owned j c' x hj hx
  · intro j c' hj hx
    rw [hg] at hj ⊢; split at hj
    · cases hj; rw [hco] at hx; cases hx
    · rw [if_neg (by assumption)]; exact h.ownerless j c' hj hx
  · intro j c' x hj _; exact absurd hj (hfill j c')
  · intro j k cj ck hj _; exact absurd hj (hfill j cj)
  · intro j c' hj
    rw [hg] at hj; split at hj
    · cases hj
    · rw [hl, hret]; exact h.writing j c' hj
  · have : ∀ j : Fin 4, u'.staging[j.val].isWriting = true → u.staging[j.val].isWriting = true := by
      intro j hj; rw [hg] at hj; split at hj
      · cases hj
      · exact hj
    intro j k hj hk; exact h.oneWriting j k (this j hj) (this k hk)
  · intro hn; rw [hret] at hn
    obtain ⟨j, c', h1, h2⟩ := h.retiringWriting hn
    refine ⟨j, c', ?_, h2⟩
    rw [hg, if_neg]; exact h1
    intro e; subst e; rcases hi with ⟨hi, _⟩ | ⟨c0, hi⟩ <;> rw [hi] at h1 <;> cases h1

/-- The RECEIVING record becomes COMPLETING at the end of its trailer, with a write outstanding (R34, R35). -/
theorem completing (h : ReceptionInv u st ch w) {d : DescId} (hlast : u.list.getLast? = some d)
    (hcd : u.countdown = 0) (hbusy : ∃ i : Fin 4, u.staging[i.val].busyFor d = true) (hs : st' d = .completing)
    (hse : ∀ e ∈ u.list, e ≠ d → st' e = st e) (hc : ∀ e ∈ u.list, ch' e = ch e) (hw : w → w') : ReceptionInv u st' ch' w' where
  states e he := by
    by_cases hd : e = d
    · subst hd; exact .inr hs
    · rw [hse e he hd]; exact h.states e he
  receivingLast e he := by
    by_cases hd : e = d
    · subst hd; exact hs
    · rw [hse e (List.dropLast_subset _ he) hd]; exact h.receivingLast e he
  completingBusy e he hcp := by
    by_cases hd : e = d
    · subst hd; exact hbusy
    · rw [hse e he hd] at hcp; exact h.completingBusy e he hcp
  endedBusy e he hr := by rw [hlast] at he; cases he; rw [hs] at hr; cases hr
  orderOnce := h.orderOnce
  orderPending := h.orderPending
  orderByList := h.orderByList
  owned i c x hi hx := by obtain ⟨a, b⟩ := h.owned i c x hi hx; exact ⟨a, by rw [hc x a]; exact b⟩
  ownerless := h.ownerless
  filling i c x hi hx := absurd hcd (h.filling i c x hi hx).2
  oneFilling := h.oneFilling
  writing i c hi := ⟨hw (h.writing i c hi).1, (h.writing i c hi).2⟩
  oneWriting := h.oneWriting
  retiringWriting := h.retiringWriting

/-- The head leaves the list when none of its staging cells is PENDING or WRITING any more (R36). -/
theorem removeHead (h : ReceptionInv u st ch w) {d : DescId} {u' : Reception} (hu : u.list.Nodup) (hd : u.list.head? = some d)
    (hl : u'.list = u.list.tail) (ho : u'.order = u.order) (hret : u'.retiring = u.retiring) (hcd : u'.countdown = u.countdown)
    (hsame : ∀ i : Fin 4, u'.staging[i.val] = u.staging[i.val] ∨ u'.staging[i.val] = .free ∧ ∃ c, u.staging[i.val] = .writing c ∧ c.owner = some d)
    (hown : ∀ (i : Fin 4) c, u'.staging[i.val].staged = some c → c.owner ≠ some d)
    (hs : ∀ e ∈ u.list, e ≠ d → st' e = st e) (hc : ∀ e ∈ u.list, e ≠ d → ch' e = ch e)
    (hw : w → (∃ i : Fin 4, u'.staging[i.val].isWriting = true) → w') : ReceptionInv u' st' ch' w' := by
  obtain ⟨ds, hds⟩ : ∃ ds, u.list = d :: ds := by
    cases hh : u.list with
    | nil => simp [hh] at hd
    | cons a as => simp [hh] at hd; exact ⟨as, by rw [hd]⟩
  have hl' : u'.list = ds := by rw [hl, hds]; rfl
  have hm : ∀ e ∈ ds, e ∈ u.list ∧ e ≠ d := by
    intro e he; rw [hds] at hu ⊢
    exact ⟨List.mem_cons_of_mem _ he, fun e2 => (List.nodup_cons.mp hu).1 (e2 ▸ he)⟩
  have hback : ∀ (i : Fin 4) c, u'.staging[i.val].staged = some c → u'.staging[i.val] = u.staging[i.val] := by
    intro i c hi; rcases hsame i with e | ⟨e, _⟩
    · exact e
    · rw [e] at hi; cases hi
  have hb : ∀ e, e ≠ d → (∃ j : Fin 4, u.staging[j.val].busyFor e = true) → ∃ j : Fin 4, u'.staging[j.val].busyFor e = true := by
    rintro e he ⟨j, hj⟩
    refine ⟨j, ?_⟩
    rcases hsame j with e2 | ⟨_, c, e2, e3⟩
    · rw [e2]; exact hj
    · rw [e2] at hj; simp [StagingCell.busyFor, e3] at hj; exact absurd hj.symm he
  have hpend : ∀ i : Fin 4, u'.staging[i.val].isPending = u.staging[i.val].isPending := by
    intro i; rcases hsame i with e | ⟨e, c, e2, _⟩
    · rw [e]
    · rw [e, e2]; rfl
  refine ⟨?_, ?_, ?_, ?_, ?_, ?_, ?_, ?_, ?_, ?_, ?_, ?_, ?_, ?_⟩
  · intro e he; rw [hl'] at he; rw [hs e (hm e he).1 (hm e he).2]; exact h.states e (hm e he).1
  · intro e he; rw [hl'] at he
    have he' := List.dropLast_subset _ he
    rw [hs e (hm e he').1 (hm e he').2]
    apply h.receivingLast; rw [hds]
    exact (dropLast_sublist_of_sublist (List.sublist_cons_self d ds)).mem he
  · intro e he hcp; rw [hl'] at he; rw [hs e (hm e he).1 (hm e he).2] at hcp
    exact hb e (hm e he).2 (h.completingBusy e (hm e he).1 hcp)
  · intro e he hr h0 _; rw [hl'] at he
    have he' := List.mem_of_getLast? he
    rw [hs e (hm e he').1 (hm e he').2] at hr
    refine hb e (hm e he').2 (h.endedBusy e (h.last (hm e he').1 hr) hr (hcd ▸ h0) ?_)
    rw [hds]; simp; exact fun e2 => (hm e he').2 e2.symm
  · rw [ho]; exact h.orderOnce
  · intro i; rw [ho, hpend]; exact h.orderPending i
  · rw [ho, hl']
    refine h.orderByList.imp ?_
    intro a b hp ci cj x y h1 h2 h3 h4
    have hx : x ≠ d := fun e => hown a ci h1 (e ▸ h3)
    rw [hback a ci h1] at h1; rw [hback b cj h2] at h2
    rcases hp ci cj x y h1 h2 h3 h4 with e | e
    · exact .inl e
    · rw [hds] at e; exact .inr (pair_sublist_tail e hx)
  · intro i c x hi hx
    have hxd : x ≠ d := fun e => hown i c hi (e ▸ hx)
    rw [hback i c hi] at hi
    obtain ⟨a, b⟩ := h.owned i c x hi hx
    refine ⟨?_, by rw [hc x a hxd]; exact b⟩
    rw [hl']; rw [hds] at a; exact (List.mem_cons.mp a).resolve_left hxd
  · intro i c hi hx
    have := hback i c hi
    rw [this] at hi ⊢; exact h.ownerless i c hi hx
  · intro i c x hi hx
    have hst : u'.staging[i.val].staged = some c := by rw [hi]; rfl
    have hxd : x ≠ d := fun e => hown i c hst (e ▸ hx)
    rw [hback i c hst] at hi
    rw [hs x (h.owned i c x (by rw [hi]; rfl) hx).1 hxd, hcd]; exact h.filling i c x hi hx
  · have hf : ∀ (i : Fin 4) c, u'.staging[i.val] = .filling c → u.staging[i.val] = .filling c := by
      intro i c hi; rw [hback i c (by rw [hi]; rfl)] at hi; exact hi
    intro i j ci cj hi hj; exact h.oneFilling i j ci cj (hf i ci hi) (hf j cj hj)
  · intro i c hi
    have hst : u'.staging[i.val].staged = some c := by rw [hi]; rfl
    have hi2 := hi
    rw [hback i c hst] at hi2
    obtain ⟨a, b, e⟩ := h.writing i c hi2
    refine ⟨hw a ⟨i, by rw [hi]; rfl⟩, ?_, fun hx => by rw [hret]; exact e hx⟩
    intro x hx; have := (b x hx).1; rw [hd] at this; cases this; exact absurd hx (hown i c hst)
  · have : ∀ j : Fin 4, u'.staging[j.val].isWriting = true → u.staging[j.val].isWriting = true := by
      intro j hj; rcases hsame j with e | ⟨e, _⟩
      · rw [e] at hj; exact hj
      · rw [e] at hj; cases hj
    intro j k hj hk; exact h.oneWriting j k (this j hj) (this k hk)
  · intro hn; rw [hret] at hn
    obtain ⟨j, c', h1, h2⟩ := h.retiringWriting hn
    refine ⟨j, c', ?_, h2⟩
    rcases hsame j with e | ⟨_, c, e2, e3⟩
    · rw [e]; exact h1
    · rw [e2] at h1; cases h1; rw [h2] at e3; cases e3

/-- A write ends, its staging cell is FREE, and nobody completes by it (R32, R38). -/
theorem written (h : ReceptionInv u st ch w) {u' : Reception} {i : Fin 4} {c : Staged} (hi : u.staging[i.val] = .writing c)
    (hl : u'.list = u.list) (hst : u'.staging = u.staging.set i.val .free) (ho : u'.order = u.order) (hret : u'.retiring = none)
    (hcd : u'.countdown = u.countdown)
    (hbusy : ∀ d, c.owner = some d → st d = .completing → ∃ j : Fin 4, u'.staging[j.val].busyFor d = true) :
    ReceptionInv u' st ch w' := by
  have hg : ∀ j : Fin 4, u'.staging[j.val] = if j = i then .free else u.staging[j.val] := by
    intro j; rw [hst]; exact get_set _ _ _ _
  have hnw : ∀ j : Fin 4, u'.staging[j.val].isWriting = true → False := by
    intro j hj; rw [hg] at hj; split at hj
    · cases hj
    · rename_i hne; exact hne (h.oneWriting j i hj (by rw [hi]; rfl))
  have hb : ∀ e, c.owner ≠ some e → (∃ j : Fin 4, u.staging[j.val].busyFor e = true) → ∃ j : Fin 4, u'.staging[j.val].busyFor e = true := by
    rintro e he ⟨j, hj⟩
    refine ⟨j, ?_⟩
    rw [hg, if_neg]; exact hj
    intro e2; subst e2; rw [hi] at hj; simp [StagingCell.busyFor] at hj; exact he hj
  have hback : ∀ (j : Fin 4) c', u'.staging[j.val].staged = some c' → u'.staging[j.val] = u.staging[j.val] := by
    intro j c' hj; rw [hg] at hj ⊢; split at hj
    · cases hj
    · rw [if_neg (by assumption)]
  refine ⟨?_, ?_, ?_, ?_, ?_, ?_, ?_, ?_, ?_, ?_, ?_, ?_, ?_, ?_⟩
  · rw [hl]; exact h.states
  · rw [hl]; exact h.receivingLast
  · rw [hl]; intro e he hcp
    by_cases hx : c.owner = some e
    · exact hbusy e hx hcp
    · exact hb e hx (h.completingBusy e he hcp)
  · rw [hl, hcd]; intro e he hr h0 hh
    refine hb e ?_ (h.endedBusy e he hr h0 hh)
    intro hx; exact hh ((h.writing i c hi).2.1 e hx).1
  · rw [ho]; exact h.orderOnce
  · intro j; rw [ho, hg]; split
    · rename_i e; subst e; rw [h.orderPending, hi]; simp [StagingCell.isPending]
    · exact h.orderPending j
  · rw [ho, hl]
    refine h.orderByList.imp ?_
    intro a b hp ci cj x y h1 h2
    rw [hback a ci h1] at h1; rw [hback b cj h2] at h2
    exact hp ci cj x y h1 h2
  · intro j c' x hj hx; rw [hback j c' hj] at hj; rw [hl]; exact h.owned j c' x hj hx
  · intro j c' hj hx; have := hback j c' hj; rw [this] at hj ⊢; exact h.ownerless j c' hj hx
  · intro j c' x hj hx; rw [hback j c' (by rw [hj]; rfl)] at hj; rw [hcd]; exact h.filling j c' x hj hx
  · have hf : ∀ (j : Fin 4) c', u'.staging[j.val] = .filling c' → u.staging[j.val] = .filling c' := by
      intro j c' hj; rw [hback j c' (by rw [hj]; rfl)] at hj; exact hj
    intro j k cj ck hj hk; exact h.oneFilling j k cj ck (hf j cj hj) (hf k ck hk)
  · intro j c' hj; exact absurd (by rw [hj]; rfl) (hnw j)
  · intro j k hj _; exact absurd hj (hnw j)
  · intro hn; exact absurd hret hn

/-- The first cell of the pending write order is granted the port (R32). -/
theorem grant (h : ReceptionInv u st ch w) {u' : Reception} {i : Fin 4} {c : Staged} {is} (hu : u.list.Nodup) (hord : u.order = i :: is)
    (hi : u.staging[i.val] = .pending c) (hnw : ∀ j : Fin 4, u.staging[j.val].isWriting = false)
    (hl : u'.list = u.list) (hst : u'.staging = u.staging.set i.val (.writing c)) (ho : u'.order = is)
    (hret : u'.retiring = u.retiring) (hcd : u'.countdown = u.countdown) (hw : w') : ReceptionInv u' st ch w' := by
  have hg : ∀ j : Fin 4, u'.staging[j.val] = if j = i then .writing c else u.staging[j.val] := by
    intro j; rw [hst]; exact get_set _ _ _ _
  have hret0 : u.retiring = none := by
    by_contra hn
    obtain ⟨j, c', h1, _⟩ := h.retiringWriting hn
    have := hnw j; rw [h1] at this; cases this
  have hb : ∀ e, (∃ j : Fin 4, u.staging[j.val].busyFor e = true) → ∃ j : Fin 4, u'.staging[j.val].busyFor e = true := by
    rintro e ⟨j, hj⟩
    refine ⟨j, ?_⟩
    rw [hg]; split
    · rename_i e2; subst e2; rw [hi] at hj; exact hj
    · exact hj
  have hnd : i ∉ is := by have := h.orderOnce; rw [hord] at this; exact (List.nodup_cons.mp this).1
  have hw2 : ∀ j : Fin 4, u'.staging[j.val].isWriting = true → j = i := by
    intro j hj; rw [hg] at hj; split at hj
    · assumption
    · rw [hnw j] at hj; cases hj
  have hpair := h.orderByList
  rw [hord, List.pairwise_cons] at hpair
  refine ⟨?_, ?_, ?_, ?_, ?_, ?_, ?_, ?_, ?_, ?_, ?_, ?_, ?_, ?_⟩
  · rw [hl]; exact h.states
  · rw [hl]; exact h.receivingLast
  · rw [hl]; exact fun e he hcp => hb e (h.completingBusy e he hcp)
  · rw [hl, hcd]; exact fun e he hr h0 hh => hb e (h.endedBusy e he hr h0 hh)
  · rw [ho]; have := h.orderOnce; rw [hord] at this; exact (List.nodup_cons.mp this).2
  · intro j; rw [ho, hg]; split
    · rename_i e; subst e; simp [hnd, StagingCell.isPending]
    · rename_i e; rw [← h.orderPending, hord, List.mem_cons]; simp [e]
  · rw [ho, hl]
    refine hpair.2.imp_of_mem ?_
    intro a b ha hb2 hp ci cj x y h1 h2
    rw [hg a, if_neg (fun e : a = i => hnd (e ▸ ha))] at h1
    rw [hg b, if_neg (fun e : b = i => hnd (e ▸ hb2))] at h2
    exact hp ci cj x y h1 h2
  · intro j c' x hj hx; rw [hl]
    rw [hg] at hj; split at hj
    · cases hj; exact h.owned i c x (by rw [hi]; rfl) hx
    · exact h.owned j c' x hj hx
  · intro j c' hj hx; rw [hg] at hj ⊢; split at hj
    · cases hj; rw [if_pos (by assumption)]
    · rw [if_neg (by assumption)]; exact h.ownerless j c' hj hx
  · intro j c' x hj hx; rw [hg] at hj; split at hj
    · cases hj
    · rw [hcd]; exact h.filling j c' x hj hx
  · have hf : ∀ (j : Fin 4) c', u'.staging[j.val] = .filling c' → u.staging[j.val] = .filling c' := by
      intro j c' hj; rw [hg] at hj; split at hj
      · cases hj
      · exact hj
    intro j k cj ck hj hk; exact h.oneFilling j k cj ck (hf j cj hj) (hf k ck hk)
  · intro j c' hj
    obtain rfl := hw2 j (by rw [hj]; rfl)
    rw [hg, if_pos rfl] at hj; cases hj
    refine ⟨hw, ?_, ?_⟩
    · intro x hx
      refine ⟨?_, by rw [hret]; exact hret0⟩
      rw [hl]
      have hxm := (h.owned j c x (by rw [hi]; rfl) hx).1
      cases hq : u.list with
      | nil => rw [hq] at hxm; cases hxm
      | cons y ys =>
        by_contra hne
        have hyx : x ≠ y := fun e => hne (by rw [e]; rfl)
        have hxy : x ∈ ys := by rw [hq] at hxm; exact (List.mem_cons.mp hxm).resolve_left hyx
        have hyc : st y = .completing := by
          apply h.receivingLast; rw [hq]
          cases ys with
          | nil => cases hxy
          | cons z zs => exact List.mem_cons_self ..
        obtain ⟨k, hk⟩ := h.completingBusy y (by rw [hq]; exact List.mem_cons_self ..) hyc
        obtain ⟨ck, hck, hk2 | hk2⟩ := StagingCell.busyFor_iff.mp hk
        · have hkp : k ∈ u.order := by rw [h.orderPending, hk2]; rfl
          rw [hord, List.mem_cons] at hkp
          rcases hkp with e | hkp
          · subst e; rw [hi] at hk2; cases hk2; rw [hx] at hck; cases hck; exact hyx rfl
          · rcases hpair.1 k hkp c ck x y (by rw [hi]; rfl) (by rw [hk2]; rfl) hx hck with e | e
            · exact hyx e
            · rw [hq] at e hu
              have := pair_sublist_tail e hyx
              exact (List.nodup_cons.mp hu).1 (this.mem (by simp))
        · have := hnw k; rw [hk2] at this; cases this
    · intro hx; have := h.ownerless j c (by rw [hi]; rfl) hx; rw [hi] at this; cases this
  · intro j k hj hk; rw [hw2 j hj, hw2 k hk]
  · intro hn; rw [hret] at hn; exact absurd hret0 hn

/-- "Each lane's reception list holds at most 5 descriptors" (R29). -/
theorem length_le (h : ReceptionInv u st ch w) (hu : u.list.Nodup) : u.list.length ≤ 5 := by
  have hb : ∀ d, d ∈ u.list.dropLast → ∃ i : Fin 4, u.staging[i.val].busyFor d = true :=
    fun d hd => h.completingBusy d (List.dropLast_subset _ hd) (h.receivingLast d hd)
  choose! f hf using hb
  have hinj : ∀ a ∈ u.list.dropLast, ∀ b ∈ u.list.dropLast, f a = f b → a = b := by
    intro a ha b hb e
    have h1 := hf a ha; have h2 := hf b hb
    rw [e] at h1
    obtain ⟨c1, o1, k1⟩ := StagingCell.busyFor_iff.mp h1
    obtain ⟨c2, o2, k2⟩ := StagingCell.busyFor_iff.mp h2
    have : c1 = c2 := by
      rcases k1 with k1 | k1 <;> rcases k2 with k2 | k2 <;> rw [k1] at k2 <;> cases k2 <;> rfl
    subst this; rw [o1] at o2; cases o2; rfl
  have hn : u.list.dropLast.Nodup := hu.sublist (List.dropLast_sublist _)
  have : (u.list.dropLast.map f).Nodup := List.Nodup.map_on hinj hn
  have hle := this.length_le_card
  simp at hle; omega

/-- A reception unit with nothing on its list and no staging cell in use (R42). -/
theorem of_empty (hl : u.list = []) (ho : u.order = []) (hr : u.retiring = none) (hs : ∀ i : Fin 4, u.staging[i.val] = .free) :
    ReceptionInv u st ch w where
  states d hd := by rw [hl] at hd; cases hd
  receivingLast d hd := by rw [hl] at hd; cases hd
  completingBusy d hd := by rw [hl] at hd; cases hd
  endedBusy d hd := by rw [hl] at hd; cases hd
  orderOnce := by rw [ho]; exact List.nodup_nil
  orderPending i := by rw [ho, hs]; simp [StagingCell.isPending]
  orderByList := by rw [ho]; exact List.Pairwise.nil
  owned i c d hi := by rw [hs] at hi; cases hi
  ownerless i c hi := by rw [hs] at hi; cases hi
  filling i c d hi := by rw [hs] at hi; cases hi
  oneFilling i j ci cj hi := by rw [hs] at hi; cases hi
  writing i c hi := by rw [hs] at hi; cases hi
  oneWriting i j hi := by rw [hs] at hi; cases hi
  retiringWriting hn := absurd hr hn

end ReceptionInv

end Sys2Proof.Machine
end

