-- ==== Sys2Proof/Laws/Books.lean ====
section
/-! SUPPORT. Conservation of cells and descriptors (R65, R66) in counts: what each operation moves from one place to
another. -/

namespace Sys2Proof.Machine

theorem ReceptionInv.fields {u u' : Reception} {st ch w} (h : ReceptionInv u st ch w) (hl : u'.list = u.list)
    (hst : u'.staging = u.staging) (ho : u'.order = u.order) (hr : u'.retiring = u.retiring) (hc : u'.countdown = u.countdown) :
    ReceptionInv u' st ch w := by
  obtain ⟨a1, a2, a3, a4, a5, a6, a7, a8, a9⟩ := u
  obtain ⟨b1, b2, b3, b4, b5, b6, b7, b8, b9⟩ := u'
  simp only at hl hst ho hr hc
  subst hl; subst hst; subst ho; subst hr; subst hc
  exact ⟨h.states, h.receivingLast, h.completingBusy, h.endedBusy, h.orderOnce, h.orderPending, h.orderByList, h.owned,
    h.ownerless, h.filling, h.oneFilling, h.writing, h.oneWriting, h.retiringWriting⟩

/-! ### Chains -/

theorem chainFrom_congr {links links' : Tab (Option CellId)} (n : Nat) (c : CellId)
    (h : ∀ k ∈ chainFrom links n c, linkOf links' k = linkOf links k) : chainFrom links' n c = chainFrom links n c := by
  induction n generalizing c with
  | zero => rfl
  | succ n ih =>
    have h0 : linkOf links' c = linkOf links c := h c (by simp [chainFrom])
    simp only [chainFrom, h0]
    cases hl : linkOf links c with
    | none => rfl
    | some c' =>
      simp only
      rw [ih c' (fun k hk => h k (by simp [chainFrom, hl, hk]))]

theorem linkOf_endLinks (cs : List CellId) (links : Tab (Option CellId)) (k : CellId) :
    linkOf (endLinks links cs) k = if k ∈ cs then none else linkOf links k := by
  unfold endLinks
  induction cs generalizing links with
  | nil => simp
  | cons c cs ih =>
    rw [List.foldl_cons, ih, linkOf_set]
    by_cases h1 : k ∈ cs
    · simp [h1]
    · by_cases h2 : k = c <;> simp [h1, h2]

/-- The chain lookup stays in a chain that ends (R60). -/
theorem walkLinks_mem (links : Tab (Option CellId)) (p n : Nat) (c : CellId)
    (hend : ∀ k, (chainFrom links (n + 1) c).getLast? = some k → linkOf links k = none) : walkLinks links p c ∈ chainFrom links (n + 1) c := by
  induction n generalizing c p with
  | zero =>
    have hc : linkOf links c = none := by
      apply hend; simp only [chainFrom]; split <;> rfl
    cases p <;> simp [walkLinks, chainFrom, hc]
  | succ n ih =>
    cases p with
    | zero => simp [walkLinks, chainFrom]
    | succ p =>
      cases hl : linkOf links c with
      | none => simp [walkLinks, chainFrom, hl]
      | some c' =>
        have : chainFrom links (n + 1 + 1) c = c :: chainFrom links (n + 1) c' := by rw [chainFrom, hl]
        rw [this] at hend ⊢
        simp only [walkLinks, hl]
        refine List.mem_cons_of_mem _ (ih p c' fun k hk => hend k ?_)
        rw [List.getLast?_cons, hk]; rfl

/-! ### Counts -/

def listCount (s : State) (d : DescId) : ℕ := ∑ l, (s.lane l).unit.list.count d
def queueCount (s : State) (d : DescId) : ℕ := ∑ t, (s.stream t).queue.count d
def slotCount (s : State) (d : DescId) : ℕ := ∑ i, if (s.slot i).held.map Holding.desc = some d then 1 else 0

/-- How often a record stands in the places of R66 other than the free list. -/
def live (s : State) (d : DescId) : ℕ := listCount s d + queueCount s d + slotCount s d

/-- How often a cell stands in the chains of the records. -/
def chainCount (s : State) (k : CellId) : ℕ := ∑ d, live s d * (s.chain d).count k

/-- How often a cell stands in the retiring sets. -/
def retCount (s : State) (k : CellId) : ℕ := ∑ l, if (s.lane l).unit.retiring = some k then 1 else 0

theorem count_filterMap_fin {n} {α} [DecidableEq α] (f : Fin n → Option α) (a : α) :
    ((List.finRange n).filterMap f).count a = ∑ i, if f i = some a then 1 else 0 := by
  rw [Fin.sum_univ_def]
  induction List.finRange n with
  | nil => rfl
  | cons i is ih =>
    rw [List.map_cons, List.sum_cons, ← ih]
    cases hf : f i with
    | none => simp [hf]
    | some b =>
      rw [List.filterMap_cons_some hf, List.count_cons]
      by_cases hb : b = a <;> simp [hb, Nat.add_comm]

theorem count_flatMap_fin {n} {α} [DecidableEq α] (f : Fin n → List α) (a : α) :
    ((List.finRange n).flatMap f).count a = ∑ i, (f i).count a := by
  rw [Fin.sum_univ_def, List.count_flatMap]; rfl

theorem count_records (s : State) (d : DescId) : s.records.count d = live s d := by
  unfold State.records live listCount queueCount slotCount
  rw [List.count_append, List.count_append, count_flatMap_fin, count_flatMap_fin, count_filterMap_fin]

theorem mem_records_iff (s : State) (d : DescId) : d ∈ s.records ↔ live s d ≠ 0 := by
  rw [← count_records, Ne, List.count_eq_zero, not_not]

theorem count_retiring (s : State) (k : CellId) : s.retiringCells.count k = retCount s k := count_filterMap_fin _ _

theorem sum_records (s : State) (g : DescId → ℕ) : (s.records.map g).sum = ∑ d, live s d * g d := by
  have : ∀ l : List DescId, (l.map g).sum = ∑ d, l.count d * g d := by
    intro l; induction l with
    | nil => simp
    | cons a l ih =>
      rw [List.map_cons, List.sum_cons, ih]
      simp only [List.count_cons, add_mul, Finset.sum_add_distrib]
      have : ∑ x, (if (a == x) = true then 1 else 0) * g x = g a := by simp
      rw [this, Nat.add_comm]
  rw [this]; simp only [count_records]

theorem count_chains (s : State) (k : CellId) : (s.records.flatMap s.chain).count k = chainCount s k := by
  rw [List.count_flatMap]; exact sum_records s _

theorem list_le_live (s : State) (l d) : (s.lane l).unit.list.count d ≤ live s d := by
  have := Finset.single_le_sum (f := fun l => (s.lane l).unit.list.count d) (fun _ _ => Nat.zero_le _) (Finset.mem_univ l)
  unfold live listCount; omega

theorem list_queue_le_live (s : State) (l u d) : (s.lane l).unit.list.count d + (s.stream u).queue.count d ≤ live s d := by
  have h1 := Finset.single_le_sum (f := fun l => (s.lane l).unit.list.count d) (fun _ _ => Nat.zero_le _) (Finset.mem_univ l)
  have h2 := Finset.single_le_sum (f := fun t => (s.stream t).queue.count d) (fun _ _ => Nat.zero_le _) (Finset.mem_univ u)
  unfold live listCount queueCount; omega

theorem two_lists_le_live (s : State) (l m d) (h : l ≠ m) : (s.lane l).unit.list.count d + (s.lane m).unit.list.count d ≤ live s d := by
  have h1 := Finset.add_le_sum (f := fun l => (s.lane l).unit.list.count d) (fun _ _ => Nat.zero_le _) (Finset.mem_univ l) (Finset.mem_univ m) h
  unfold live listCount; omega

theorem two_queues_le_live (s : State) (l m d) (h : l ≠ m) : (s.stream l).queue.count d + (s.stream m).queue.count d ≤ live s d := by
  have h1 := Finset.add_le_sum (f := fun l => (s.stream l).queue.count d) (fun _ _ => Nat.zero_le _) (Finset.mem_univ l) (Finset.mem_univ m) h
  unfold live queueCount; omega

theorem slot_le_live (s : State) (i : SlotId) (h : Holding) (hh : (s.slot i).held = some h) (l u) :
    (s.lane l).unit.list.count h.desc + (s.stream u).queue.count h.desc + 1 ≤ live s h.desc := by
  have h1 := Finset.single_le_sum (f := fun l => (s.lane l).unit.list.count h.desc) (fun _ _ => Nat.zero_le _) (Finset.mem_univ l)
  have h2 := Finset.single_le_sum (f := fun t => (s.stream t).queue.count h.desc) (fun _ _ => Nat.zero_le _) (Finset.mem_univ u)
  have h3 := Finset.single_le_sum (f := fun i => if (s.slot i).held.map Holding.desc = some h.desc then 1 else 0) (fun _ _ => Nat.zero_le _) (Finset.mem_univ i)
  simp only [hh, Option.map_some, if_true] at h3
  unfold live listCount queueCount slotCount; omega

theorem two_slots_le_live (s : State) (i j : SlotId) (h g : Holding) (hij : i ≠ j) (hh : (s.slot i).held = some h) (hg : (s.slot j).held = some g)
    (he : g.desc = h.desc) : 2 ≤ live s h.desc := by
  have h3 := Finset.add_le_sum (f := fun i => if (s.slot i).held.map Holding.desc = some h.desc then 1 else 0) (fun _ _ => Nat.zero_le _) (Finset.mem_univ i) (Finset.mem_univ j) hij
  simp only [hh, hg, he, Option.map_some, if_true] at h3
  unfold live slotCount; omega

/-! ### Sums that change at one place -/

theorem listCount_one (s t : State) (l d) (h : ∀ m, m ≠ l → (t.lane m).unit.list = (s.lane m).unit.list) :
    listCount t d + (s.lane l).unit.list.count d = listCount s d + (t.lane l).unit.list.count d :=
  finSum_one (fun l => (s.lane l).unit.list.count d) (fun l => (t.lane l).unit.list.count d) l (fun m hm => by simp only [h m hm])

theorem queueCount_one (s t : State) (l d) (h : ∀ m, m ≠ l → (t.stream m).queue.count d = (s.stream m).queue.count d) :
    queueCount t d + (s.stream l).queue.count d = queueCount s d + (t.stream l).queue.count d :=
  finSum_one (fun l => (s.stream l).queue.count d) (fun l => (t.stream l).queue.count d) l (fun m hm => by simp only [h m hm])

theorem slotCount_one (s t : State) (i d) (h : ∀ m, m ≠ i → (t.slot m).held = (s.slot m).held) :
    slotCount t d + (if (s.slot i).held.map Holding.desc = some d then 1 else 0)
      = slotCount s d + (if (t.slot i).held.map Holding.desc = some d then 1 else 0) :=
  finSum_one (fun i => if (s.slot i).held.map Holding.desc = some d then 1 else 0)
    (fun i => if (t.slot i).held.map Holding.desc = some d then 1 else 0) i (fun m hm => by simp only [h m hm])

theorem listCount_eq (s t : State) (d) (h : ∀ m, (t.lane m).unit.list = (s.lane m).unit.list) : listCount t d = listCount s d := by
  unfold listCount; simp only [h]

theorem queueCount_eq (s t : State) (d) (h : ∀ m, (t.stream m).queue = (s.stream m).queue) : queueCount t d = queueCount s d := by
  unfold queueCount; simp only [h]

theorem slotCount_eq (s t : State) (d) (h : ∀ m, (t.slot m).held = (s.slot m).held) : slotCount t d = slotCount s d := by
  unfold slotCount; simp only [h]

theorem retCount_one (s t : State) (l k) (h : ∀ m, m ≠ l → (t.lane m).unit.retiring = (s.lane m).unit.retiring) :
    retCount t k + (if (s.lane l).unit.retiring = some k then 1 else 0) = retCount s k + (if (t.lane l).unit.retiring = some k then 1 else 0) :=
  finSum_one (fun l => if (s.lane l).unit.retiring = some k then 1 else 0) (fun l => if (t.lane l).unit.retiring = some k then 1 else 0) l
    (fun m hm => by simp only [h m hm])

theorem retCount_eq (s t : State) (k) (h : ∀ m, (t.lane m).unit.retiring = (s.lane m).unit.retiring) : retCount t k = retCount s k := by
  unfold retCount; simp only [h]

theorem chainCount_one (s t : State) (d k) (h : ∀ e, e ≠ d → live t e * (t.chain e).count k = live s e * (s.chain e).count k) :
    chainCount t k + live s d * (s.chain d).count k = chainCount s k + live t d * (t.chain d).count k :=
  finSum_one (fun e => live s e * (s.chain e).count k) (fun e => live t e * (t.chain e).count k) d h

/-! ### The books -/

/-- `PlacesInv` in counts, less what `HandedOver` and CLEAR's first step say. -/
structure Books (s : State) : Prop where
  descs : s.pool.ready = true → ∀ d, s.pool.freeDescs.count d + live s d = 1
  free : ∀ d ∈ s.pool.freeDescs, (s.desc d).state = .free
  queued : ∀ t, ∀ d ∈ (s.stream t).queue, (s.desc d).state = .queued
  held : ∀ i h, (s.slot i).held = some h → (s.desc h.desc).state = .held
  cells : s.pool.ready = true → ∀ k, s.pool.freeCells.count k + chainCount s k + retCount s k = 1
  chains : ∀ d, live s d ≠ 0 → (s.chain d).length = (s.desc d).cellCount ∧ s.chain d ≠ []
    ∧ ∀ k, (s.chain d).getLast? = some k → linkOf s.pool.links k = none
  empty : s.pool.ready = false → s.pool.freeDescs = [] ∧ s.pool.freeCells = [] ∧ (∀ d, live s d = 0) ∧ ∀ k, retCount s k = 0
  lanes : ∀ l, ReceptionInv (s.lane l).unit (fun d => (s.desc d).state) s.chain (s.port.op = some (.write l))

theorem eq_nil_of_count {α} [DecidableEq α] {l : List α} : (∀ a, l.count a = 0) ↔ l = [] := by
  constructor
  · intro h; cases l with
    | nil => rfl
    | cons a l => have := h a; simp at this
  · rintro rfl; simp

theorem PlacesInv.iff (s : State) : PlacesInv s ↔ Books s ∧ (∀ l, HandedOver (s.lane l) fun d => (s.desc d).state)
    ∧ (s.cmd.phase = .clearing .second → s.listsEmpty) := by
  constructor
  · intro h
    refine ⟨⟨fun hr d => ?_, h.free, h.queued, h.held, fun hr k => ?_, fun d hd => h.chains d ((mem_records_iff s d).mpr hd),
      fun hr => ?_, h.lanes⟩, h.handed, h.clearing⟩
    · have := h.descs hr d; rwa [List.count_append, count_records] at this
    · have := h.cells hr k; rwa [List.count_append, List.count_append, count_chains, count_retiring] at this
    · obtain ⟨a, b, c, e⟩ := h.empty hr
      exact ⟨a, b, fun d => by rw [← count_records, c]; rfl, fun k => by rw [← count_retiring, e]; rfl⟩
  · rintro ⟨h, hh, hc⟩
    refine ⟨fun hr d => ?_, h.free, h.queued, h.held, fun hr k => ?_, fun d hd => h.chains d ((mem_records_iff s d).mp hd),
      fun hr => ?_, h.lanes, hh, hc⟩
    · rw [List.count_append, count_records]; exact h.descs hr d
    · rw [List.count_append, List.count_append, count_chains, count_retiring]; exact h.cells hr k
    · obtain ⟨a, b, c, e⟩ := h.empty hr
      exact ⟨a, b, eq_nil_of_count.mp fun d => by rw [count_records]; exact c d, eq_nil_of_count.mp fun k => by rw [count_retiring]; exact e k⟩

namespace Books

variable {s t : State}

theorem live_le (h : Books s) (d : DescId) : live s d ≤ 1 := by
  by_cases hr : s.pool.ready = true
  · have := h.descs hr d; omega
  · rw [(h.empty (by simpa using hr)).2.2.1 d]; omega

theorem ready (h : Books s) {d : DescId} (hd : live s d ≠ 0) : s.pool.ready = true := by
  by_contra hr; exact hd ((h.empty (by simpa using hr)).2.2.1 d)

theorem nodup (h : Books s) (l) : (s.lane l).unit.list.Nodup := by
  rw [List.nodup_iff_count_le_one]; intro d; exact (list_le_live s l d).trans (h.live_le d)

theorem live_list (h : Books s) {l d} (hd : d ∈ (s.lane l).unit.list) : live s d = 1 := by
  have := list_le_live s l d; have := h.live_le d; have := List.count_pos_iff.mpr hd; omega

theorem live_queue (h : Books s) {u d} (hd : d ∈ (s.stream u).queue) : live s d = 1 := by
  have := list_queue_le_live s 0 u d; have := h.live_le d; have := List.count_pos_iff.mpr hd; omega

theorem live_slot (h : Books s) {i g} (hd : (s.slot i).held = some g) : live s g.desc = 1 := by
  have := slot_le_live s i g hd 0 0; have := h.live_le g.desc; omega

theorem not_list_of_queue (h : Books s) {u d} (hd : d ∈ (s.stream u).queue) (l) : d ∉ (s.lane l).unit.list := by
  intro hl
  have := list_queue_le_live s l u d; have := h.live_le d
  have := List.count_pos_iff.mpr hd; have := List.count_pos_iff.mpr hl; omega

theorem not_list_of_slot (h : Books s) {i g} (hd : (s.slot i).held = some g) (l) : g.desc ∉ (s.lane l).unit.list := by
  intro hl
  have := slot_le_live s i g hd l 0; have := h.live_le g.desc; have := List.count_pos_iff.mpr hl; omega

theorem not_list_of_list (h : Books s) {l m d} (hd : d ∈ (s.lane l).unit.list) (hm : m ≠ l) : d ∉ (s.lane m).unit.list := by
  intro hl
  have := two_lists_le_live s m l d hm; have := h.live_le d
  have := List.count_pos_iff.mpr hd; have := List.count_pos_iff.mpr hl; omega

theorem not_free (h : Books s) {d} (hd : live s d ≠ 0) : d ∉ s.pool.freeDescs := by
  intro hf
  have := h.descs (h.ready hd) d; have := List.count_pos_iff.mpr hf; omega

/-- A cell of a live record's chain stands in no other live record's chain, nor among the free cells, nor in a retiring set
(R65). -/
theorem chain_once (h : Books s) {d} (hd : live s d ≠ 0) (k) : (s.chain d).count k ≤ 1 := by
  have h1 := h.cells (h.ready hd) k
  have h2 := Finset.single_le_sum (f := fun d => live s d * (s.chain d).count k) (fun _ _ => Nat.zero_le _) (Finset.mem_univ d)
  have h3 := h.live_le d
  have : live s d = 1 := by omega
  simp only [this, one_mul] at h2
  unfold chainCount at h1; omega

theorem chain_apart (h : Books s) {d e} (hd : live s d ≠ 0) (he : live s e ≠ 0) (hde : d ≠ e) {k} (hk : k ∈ s.chain d) : k ∉ s.chain e := by
  intro hk2
  have h1 := h.cells (h.ready hd) k
  have h2 := Finset.add_le_sum (f := fun d => live s d * (s.chain d).count k) (fun _ _ => Nat.zero_le _) (Finset.mem_univ d) (Finset.mem_univ e) hde
  have h3 := h.live_le d; have h4 := h.live_le e
  have e1 : live s d = 1 := by omega
  have e2 : live s e = 1 := by omega
  simp only [e1, e2, one_mul] at h2
  have := List.count_pos_iff.mpr hk; have := List.count_pos_iff.mpr hk2
  unfold chainCount at h1; omega

theorem retiring_apart (h : Books s) {d} (hd : live s d ≠ 0) {l k} (hk : (s.lane l).unit.retiring = some k) : k ∉ s.chain d := by
  intro hk2
  have h1 := h.cells (h.ready hd) k
  have h2 := Finset.single_le_sum (f := fun d => live s d * (s.chain d).count k) (fun _ _ => Nat.zero_le _) (Finset.mem_univ d)
  have h3 := Finset.single_le_sum (f := fun l => if (s.lane l).unit.retiring = some k then 1 else 0) (fun _ _ => Nat.zero_le _) (Finset.mem_univ l)
  have h4 := h.live_le d
  have e1 : live s d = 1 := by omega
  simp only [e1, one_mul] at h2
  simp only [hk, if_true] at h3
  have := List.count_pos_iff.mpr hk2
  unfold chainCount retCount at h1; omega

theorem free_apart (h : Books s) {d} (hd : live s d ≠ 0) {k} (hk : k ∈ s.pool.freeCells) : k ∉ s.chain d := by
  intro hk2
  have h1 := h.cells (h.ready hd) k
  have h2 := Finset.single_le_sum (f := fun d => live s d * (s.chain d).count k) (fun _ _ => Nat.zero_le _) (Finset.mem_univ d)
  have h4 := h.live_le d
  have e1 : live s d = 1 := by omega
  simp only [e1, one_mul] at h2
  have := List.count_pos_iff.mpr hk2; have := List.count_pos_iff.mpr hk
  unfold chainCount at h1; omega

theorem freeCells_nodup (h : Books s) : s.pool.freeCells.Nodup := by
  rw [List.nodup_iff_count_le_one]; intro k
  by_cases hr : s.pool.ready = true
  · have := h.cells hr k; omega
  · rw [(h.empty (by simpa using hr)).2.1]; simp

/-- Cells given back leave the other live chains as they are (R60, R65). -/
theorem chain_given {cs} (hlk : t.pool.links = endLinks s.pool.links cs)
    {e} (hc : (t.desc e).firstCell = (s.desc e).firstCell ∧ (t.desc e).cellCount = (s.desc e).cellCount)
    (hcs : ∀ k ∈ cs, k ∉ s.chain e) : t.chain e = s.chain e := by
  unfold State.chain; rw [hc.1, hc.2, hlk]
  refine chainFrom_congr _ _ fun k hk => ?_
  rw [linkOf_endLinks, if_neg]; exact fun hkc => hcs k hkc hk

/-- Records move between reception lists, queues and slots, and nothing goes back to the pool. -/
theorem moved (h : Books s) (hr : t.pool.ready = s.pool.ready) (hfd : t.pool.freeDescs = s.pool.freeDescs)
    (hfc : t.pool.freeCells = s.pool.freeCells) (hlk : t.pool.links = s.pool.links)
    (hc : ∀ d, (t.desc d).firstCell = (s.desc d).firstCell ∧ (t.desc d).cellCount = (s.desc d).cellCount)
    (hlive : ∀ d, live t d = live s d) (hret : ∀ l, (t.lane l).unit.retiring = (s.lane l).unit.retiring)
    (hfree : ∀ d, live s d = 0 → (t.desc d).state = (s.desc d).state)
    (hq : ∀ u, ∀ d ∈ (t.stream u).queue, (t.desc d).state = .queued)
    (hh : ∀ i g, (t.slot i).held = some g → (t.desc g.desc).state = .held)
    (hl : (∀ d, t.chain d = s.chain d) → ∀ l, ReceptionInv (t.lane l).unit (fun d => (t.desc d).state) t.chain (t.port.op = some (.write l))) :
    Books t := by
  have hch : ∀ d, t.chain d = s.chain d := fun d => by unfold State.chain; rw [(hc d).1, (hc d).2, hlk]
  have hrc : ∀ k, retCount t k = retCount s k := fun k => retCount_eq s t k hret
  refine ⟨fun hrt d => ?_, ?_, hq, hh, fun hrt k => ?_, fun d hd => ?_, fun hrt => ?_, hl hch⟩
  · rw [hfd, hlive]; exact h.descs (hr.symm.trans hrt) d
  · rw [hfd]; intro d hd; rw [hfree d]; exact h.free d hd
    by_contra hne; exact h.not_free hne hd
  · have : chainCount t k = chainCount s k := by unfold chainCount; simp only [hlive, hch]
    rw [hfc, this, hrc]; exact h.cells (hr.symm.trans hrt) k
  · rw [hch, (hc d).2, hlk]; exact h.chains d (hlive d ▸ hd)
  · obtain ⟨a, b, c, e⟩ := h.empty (hr.symm.trans hrt)
    exact ⟨hfd ▸ a, hfc ▸ b, fun d => by rw [hlive]; exact c d, fun k => by rw [hrc]; exact e k⟩

/-- One record goes back to the pool, with these cells (R37, R67). -/
theorem freed (h : Books s) (d : DescId) (cs : List CellId) (hr : t.pool.ready = s.pool.ready)
    (hfd : t.pool.freeDescs = s.pool.freeDescs ++ [d]) (hfc : t.pool.freeCells = s.pool.freeCells ++ cs)
    (hlk : t.pool.links = endLinks s.pool.links cs)
    (hc : ∀ e, (t.desc e).firstCell = (s.desc e).firstCell ∧ (t.desc e).cellCount = (s.desc e).cellCount)
    (hst : ∀ e, e ≠ d → (t.desc e).state = (s.desc e).state) (hstd : (t.desc d).state = .free)
    (hlive : ∀ e, live t e + (if e = d then 1 else 0) = live s e)
    (hcs : ∀ k, cs.count k + retCount t k = (s.chain d).count k + retCount s k) (hsub : ∀ k ∈ cs, k ∈ s.chain d)
    (hq : ∀ u, ∀ e ∈ (t.stream u).queue, e ∈ (s.stream u).queue) (hh : ∀ i g, (t.slot i).held = some g → (s.slot i).held = some g)
    (hl : live t d = 0 → (∀ e, live t e ≠ 0 → t.chain e = s.chain e) →
      ∀ l, ReceptionInv (t.lane l).unit (fun d => (t.desc d).state) t.chain (t.port.op = some (.write l))) :
    Books t := by
  have hd1 := hlive d
  rw [if_pos rfl] at hd1
  have hds : live s d ≠ 0 := by omega
  have hds1 : live s d = 1 := by have := h.live_le d; omega
  have hd0 : live t d = 0 := by omega
  have hne : ∀ e, live t e ≠ 0 → e ≠ d := fun e he h2 => he (h2 ▸ hd0)
  have hle : ∀ e, e ≠ d → live t e = live s e := fun e he => by have := hlive e; rw [if_neg he] at this; omega
  have hch : ∀ e, live t e ≠ 0 → t.chain e = s.chain e := by
    intro e he
    refine chain_given hlk (hc e) fun k hk => ?_
    exact h.chain_apart hds (by rw [← hle e (hne e he)]; exact he) (fun h2 => hne e he h2.symm) (hsub k hk)
  have hrdy : s.pool.ready = true := h.ready hds
  have hqd : ∀ u, ∀ e ∈ (t.stream u).queue, e ≠ d := by
    intro u e he h2
    have := list_queue_le_live t 0 u e; have := List.count_pos_iff.mpr he
    rw [h2] at this; rw [h2] at *; omega
  refine ⟨fun _ e => ?_, ?_, ?_, ?_, fun _ k => ?_, fun e he => ?_, fun hrt => ?_, hl hd0 hch⟩
  · have := h.descs hrdy e
    rw [hfd, List.count_append, List.count_singleton]
    have h2 := hlive e
    by_cases hed : e = d
    · subst hed; simp at h2 ⊢; omega
    · rw [if_neg hed] at h2; have : ¬ (d == e) = true := by simpa using fun h3 => hed h3.symm
      rw [if_neg this]; omega
  · intro e he; rw [hfd, List.mem_append, List.mem_singleton] at he
    rcases he with he | rfl
    · rw [hst e (fun h2 => h.not_free hds (h2 ▸ he))]; exact h.free e he
    · exact hstd
  · intro u e he; rw [hst e (hqd u e he)]; exact h.queued u e (hq u e he)
  · intro i g hg
    have : g.desc ≠ d := by
      intro h2; have := slot_le_live t i g hg 0 0; rw [h2] at this; omega
    rw [hst _ this]; exact h.held i g (hh i g hg)
  · have h1 := h.cells hrdy k
    have h2 := chainCount_one s t d k (by
      intro e he
      by_cases h0 : live t e = 0
      · rw [← hle e he, h0, Nat.zero_mul, Nat.zero_mul]
      · rw [hle e he, hch e h0])
    rw [hd0, hds1, Nat.zero_mul, Nat.one_mul] at h2
    have h3 := hcs k
    rw [hfc, List.count_append]; omega
  · obtain ⟨a, b, c⟩ := h.chains e (by rw [← hle e (hne e he)]; exact he)
    rw [hch e he, (hc e).2]
    refine ⟨a, b, fun k hk => ?_⟩
    rw [hlk, linkOf_endLinks]; split
    · rfl
    · exact c k hk
  · rw [hr, hrdy] at hrt; cases hrt

/-- The cell of a retiring set goes back to the pool when its write has ended (R38). -/
theorem retired (h : Books s) (l : LaneId) (k0 : CellId) (hk0 : (s.lane l).unit.retiring = some k0) (hr : t.pool.ready = s.pool.ready)
    (hfd : t.pool.freeDescs = s.pool.freeDescs) (hfc : t.pool.freeCells = s.pool.freeCells ++ [k0])
    (hlk : t.pool.links = endLinks s.pool.links [k0])
    (hdesc : ∀ e, t.desc e = s.desc e) (hlive : ∀ e, live t e = live s e)
    (hret : (t.lane l).unit.retiring = none) (hrets : ∀ m, m ≠ l → (t.lane m).unit.retiring = (s.lane m).unit.retiring)
    (hq : ∀ u, (t.stream u).queue = (s.stream u).queue) (hh : ∀ i, (t.slot i).held = (s.slot i).held)
    (hl : (∀ e, live s e ≠ 0 → t.chain e = s.chain e) →
      ∀ l, ReceptionInv (t.lane l).unit (fun d => (t.desc d).state) t.chain (t.port.op = some (.write l))) :
    Books t := by
  have hch : ∀ e, live s e ≠ 0 → t.chain e = s.chain e := by
    intro e he
    refine chain_given hlk (by rw [hdesc]; exact ⟨rfl, rfl⟩) fun k hk => ?_
    rw [List.mem_singleton] at hk; subst hk
    exact h.retiring_apart he hk0
  have hrc : ∀ k, retCount t k + (if k0 = k then 1 else 0) = retCount s k := by
    intro k; have := retCount_one s t l k hrets
    rw [hk0, hret] at this; simpa using this
  have hrdy : s.pool.ready = true := by
    by_contra hn
    have h0 := (h.empty (by simpa using hn)).2.2.2 k0
    have := hrc k0; simp at this; omega
  refine ⟨fun _ d => ?_, ?_, ?_, ?_, fun _ k => ?_, fun d hd => ?_, fun hrt => ?_, hl hch⟩
  · rw [hfd, hlive]; exact h.descs hrdy d
  · rw [hfd]; intro d hd; rw [hdesc]; exact h.free d hd
  · intro u d hd; rw [hdesc]; rw [hq] at hd; exact h.queued u d hd
  · intro i g hg; rw [hdesc]; rw [hh] at hg; exact h.held i g hg
  · have h1 := h.cells hrdy k
    have h2 : chainCount t k = chainCount s k := by
      unfold chainCount
      refine Finset.sum_congr rfl fun d _ => ?_
      rw [hlive]
      by_cases h0 : live s d = 0
      · rw [h0, Nat.zero_mul, Nat.zero_mul]
      · rw [hch d h0]
    have h3 := hrc k
    rw [hfc, List.count_append, List.count_singleton, h2]
    by_cases hk : k0 = k
    · subst hk; simp at h3 ⊢; omega
    · rw [if_neg hk] at h3; rw [if_neg (by simpa using hk)]; omega
  · rw [hlive] at hd
    obtain ⟨a, b, c⟩ := h.chains d hd
    rw [hch d hd, hdesc]
    refine ⟨a, b, fun k hk => ?_⟩
    rw [hlk, linkOf_endLinks]; split
    · rfl
    · exact c k hk
  · rw [hr, hrdy] at hrt; cases hrt

theorem linkOf_linkChain_last (cs : List CellId) (links : Tab (Option CellId)) (k : CellId) (hn : cs.Nodup) (hk : cs.getLast? = some k) :
    linkOf (linkChain links cs) k = none := by
  induction cs generalizing links with
  | nil => cases hk
  | cons c cs ih =>
    cases cs with
    | nil => simp at hk; subst hk; simp [linkChain, linkOf_set]
    | cons c' cs =>
      rw [linkChain]
      exact ih _ (List.nodup_cons.mp hn).2 (by simpa using hk)

/-- A record and its cells are taken from the pool (R27, R28). -/
theorem accepted (h : Books s) (d : DescId) (ds : List DescId) (n : Nat) (hd : s.pool.freeDescs = d :: ds) (hn : n ≠ 0)
    (hnc : n ≤ s.pool.freeCells.length) (hr : t.pool.ready = s.pool.ready)
    (hfd : t.pool.freeDescs = ds) (hfc : t.pool.freeCells = s.pool.freeCells.drop n)
    (hlk : t.pool.links = linkChain s.pool.links (s.pool.freeCells.take n))
    (hdd : (t.desc d).firstCell = s.pool.freeCells.headD 0 ∧ (t.desc d).cellCount = n) (hst : (t.desc d).state ≠ .free)
    (hdesc : ∀ e, e ≠ d → t.desc e = s.desc e)
    (hlive : ∀ e, live t e = live s e + (if e = d then 1 else 0)) (hret : ∀ l, (t.lane l).unit.retiring = (s.lane l).unit.retiring)
    (hq : ∀ u, (t.stream u).queue = (s.stream u).queue) (hh : ∀ i, (t.slot i).held = (s.slot i).held)
    (hl : live s d = 0 → (∀ e, live s e ≠ 0 → t.chain e = s.chain e) →
      ∀ l, ReceptionInv (t.lane l).unit (fun d => (t.desc d).state) t.chain (t.port.op = some (.write l))) :
    Books t := by
  have hrdy : s.pool.ready = true := by
    by_contra hn
    have := (h.empty (by simpa using hn)).1
    rw [hd] at this; cases this
  have hfd1 : s.pool.freeDescs.Nodup := by
    rw [List.nodup_iff_count_le_one]; intro e; have := h.descs hrdy e; omega
  have hd0 : live s d = 0 := by
    have h1 := h.descs hrdy d
    have := List.count_pos_iff.mpr (by rw [hd]; exact List.mem_cons_self .. : d ∈ s.pool.freeDescs); omega
  have hnd : (s.pool.freeCells.take n).Nodup := h.freeCells_nodup.sublist (List.take_sublist _ _)
  have hlen : (s.pool.freeCells.take n).length = n := by rw [List.length_take]; omega
  have hcd : t.chain d = s.pool.freeCells.take n := by
    unfold State.chain; rw [hdd.1, hdd.2, hlk]
    have h1 := chainFrom_linkChain (s.pool.freeCells.take n) s.pool.links 0 hnd
    rw [hlen] at h1
    have : (s.pool.freeCells.take n).headD 0 = s.pool.freeCells.headD 0 := by
      cases hq : s.pool.freeCells with
      | nil => simp
      | cons a as => cases n with
        | zero => exact absurd rfl hn
        | succ n => rfl
    rw [this] at h1; exact h1
  have hne : ∀ e, live s e ≠ 0 → e ≠ d := fun e he h2 => he (h2 ▸ hd0)
  have hch : ∀ e, live s e ≠ 0 → t.chain e = s.chain e := by
    intro e he
    unfold State.chain; rw [hdesc e (hne e he), hlk]
    refine chainFrom_congr _ _ fun k hk => ?_
    exact linkOf_linkChain _ _ _ fun hkt => h.free_apart he (List.mem_of_mem_take hkt) hk
  have hrc : ∀ k, retCount t k = retCount s k := fun k => retCount_eq s t k hret
  refine ⟨fun _ e => ?_, ?_, ?_, ?_, fun _ k => ?_, fun e he => ?_, fun hrt => ?_, hl hd0 hch⟩
  · have := h.descs hrdy e
    rw [hlive, hfd]; rw [hd, List.count_cons] at this
    by_cases hed : e = d
    · subst hed; simp at this ⊢; omega
    · rw [if_neg (by simpa using fun h2 => hed h2.symm)] at this; rw [if_neg hed]; omega
  · rw [hfd]; intro e he
    have : e ≠ d := by
      intro h2; rw [hd] at hfd1; exact (List.nodup_cons.mp hfd1).1 (h2 ▸ he)
    rw [hdesc e this]; exact h.free e (by rw [hd]; exact List.mem_cons_of_mem _ he)
  · intro u e he; rw [hq] at he
    rw [hdesc e (hne e (by rw [h.live_queue he]; exact Nat.one_ne_zero))]; exact h.queued u e he
  · intro i g hg; rw [hh] at hg
    rw [hdesc _ (hne _ (by rw [h.live_slot hg]; exact Nat.one_ne_zero))]; exact h.held i g hg
  · have h1 := h.cells hrdy k
    have h2 := chainCount_one s t d k (by
      intro e he
      have hle : live t e = live s e := by rw [hlive, if_neg he, Nat.add_zero]
      rw [hle]
      by_cases h0 : live s e = 0
      · rw [h0, Nat.zero_mul, Nat.zero_mul]
      · rw [hch e h0])
    have hd1 : live t d = 1 := by rw [hlive, hd0, if_pos rfl]
    rw [hd0, hd1, Nat.zero_mul, Nat.one_mul, hcd] at h2
    rw [hfc, hrc]
    have h3 : s.pool.freeCells.count k = (s.pool.freeCells.take n).count k + (s.pool.freeCells.drop n).count k := by
      conv_lhs => rw [← List.take_append_drop n s.pool.freeCells]
      exact List.count_append ..
    omega
  · by_cases hed : e = d
    · subst hed
      rw [hcd, hdd.2]
      refine ⟨hlen, ?_, fun k hk => ?_⟩
      · intro h2; rw [h2] at hlen; exact hn hlen.symm
      · rw [hlk]; exact linkOf_linkChain_last _ _ _ hnd hk
    · have hle : live t e = live s e := by rw [hlive, if_neg hed, Nat.add_zero]
      have he' : live s e ≠ 0 := by rw [← hle]; exact he
      obtain ⟨a, b, c⟩ := h.chains e he'
      rw [hch e he', hdesc e hed]
      refine ⟨a, b, fun k hk => ?_⟩
      rw [hlk, linkOf_linkChain]
      · exact c k hk
      · exact fun hkt => h.free_apart he' (List.mem_of_mem_take hkt) (List.mem_of_getLast? hk)
  · rw [hr, hrdy] at hrt; cases hrt

end Books

end Sys2Proof.Machine
end

