-- ==== Sys2Proof/Laws/Canonical.lean ====
section
/-! SUPPORT. Every operation keeps the canonical form of the sparse tables, and a cell write that of the buffer memory. -/

namespace Sys2Proof.Machine

/-- The links and the descriptors stand in their canonical form. -/
def State.TablesWf (s : State) : Prop := Tab.wf none s.pool.links = true ∧ Tab.wf Desc.blank s.pool.descs = true

theorem State.TablesWf.congr {s t : State} (h : State.TablesWf s) (h1 : t.pool.links = s.pool.links) (h2 : t.pool.descs = s.pool.descs) : State.TablesWf t := by unfold State.TablesWf; rw [h1, h2]; exact h

theorem State.TablesWf.setDesc {s : State} {d x} (h : State.TablesWf s) : State.TablesWf (s.setDesc d x) := ⟨h.1, Tab.wf_set _ _ _ _ h.2⟩

theorem endLinks_wf (cs : List CellId) (t) (h : Tab.wf none t = true) : Tab.wf none (endLinks t cs) = true := by
  unfold endLinks
  induction cs generalizing t with
  | nil => exact h
  | cons c cs ih => exact ih _ (Tab.wf_set _ _ _ _ h)

theorem linkChain_wf (cs : List CellId) (t) (h : Tab.wf none t = true) : Tab.wf none (linkChain t cs) = true := by
  induction cs generalizing t with
  | nil => exact h
  | cons c cs ih =>
    cases cs with
    | nil => exact Tab.wf_set _ _ _ _ h
    | cons c' cs => exact ih _ (Tab.wf_set _ _ _ _ h)

theorem State.TablesWf.returnCells {s : State} {cs} (h : State.TablesWf s) : State.TablesWf (s.returnCells cs) := ⟨endLinks_wf _ _ h.1, h.2⟩

theorem State.TablesWf.returnDesc {s : State} {d} (h : State.TablesWf s) : State.TablesWf (s.returnDesc d) := State.TablesWf.setDesc h

theorem State.TablesWf.setStream {s : State} {t x} (h : State.TablesWf s) : State.TablesWf (s.setStream t x) := h

theorem State.TablesWf.setLane {s : State} {t x} (h : State.TablesWf s) : State.TablesWf (s.setLane t x) := h

theorem State.TablesWf.setRx {s : State} {t x} (h : State.TablesWf s) : State.TablesWf (s.setRx t x) := h

theorem State.TablesWf.setUnit {s : State} {t x} (h : State.TablesWf s) : State.TablesWf (s.setUnit t x) := h

theorem State.TablesWf.setRoute {s : State} {t x} (h : State.TablesWf s) : State.TablesWf (s.setRoute t x) := h

theorem State.TablesWf.bumpLane {s : State} {t x} (h : State.TablesWf s) : State.TablesWf (s.bumpLane t x) := h

theorem State.TablesWf.bumpStream {s : State} {t x} (h : State.TablesWf s) : State.TablesWf (s.bumpStream t x) := h

theorem State.TablesWf.bumpDevice {s : State} {x} (h : State.TablesWf s) : State.TablesWf (s.bumpDevice x) := h

theorem State.TablesWf.latch {s : State} {x} (h : State.TablesWf s) : State.TablesWf (s.latch x) := h

theorem State.TablesWf.lowerCharge {s : State} {t n} (h : State.TablesWf s) : State.TablesWf (s.lowerCharge t n) := h

theorem State.TablesWf.dequeue {s : State} {t n} (h : State.TablesWf s) : State.TablesWf (s.dequeue t n) := h

theorem State.TablesWf.settlePurge {s : State} (h : State.TablesWf s) : State.TablesWf s.settlePurge := State.TablesWf.congr h (by simp) (by simp)

theorem State.TablesWf.endCommand {s : State} {r} (h : State.TablesWf s) : State.TablesWf (s.endCommand r) := State.TablesWf.congr h (by simp) (by simp)

theorem State.TablesWf.emptySlot {s : State} {i} (h : State.TablesWf s) : State.TablesWf (s.emptySlot i) := State.TablesWf.congr h (by simp) (by simp)

theorem State.TablesWf.freeRecord {s : State} {d} (h : State.TablesWf s) : State.TablesWf (s.freeRecord d) := State.TablesWf.returnDesc (State.TablesWf.returnCells h)

theorem State.TablesWf.evict {s : State} {t d} (h : State.TablesWf s) : State.TablesWf (s.evict t d) := by unfold State.evict; (repeat' (first | assumption | apply State.TablesWf.setDesc | apply State.TablesWf.returnCells | apply State.TablesWf.returnDesc | apply State.TablesWf.setStream | apply State.TablesWf.setLane | apply State.TablesWf.setRx | apply State.TablesWf.setUnit | apply State.TablesWf.setRoute | apply State.TablesWf.bumpLane | apply State.TablesWf.bumpStream | apply State.TablesWf.bumpDevice | apply State.TablesWf.latch | apply State.TablesWf.lowerCharge | apply State.TablesWf.dequeue | apply State.TablesWf.settlePurge | apply State.TablesWf.endCommand | apply State.TablesWf.emptySlot | apply State.TablesWf.freeRecord))

theorem State.TablesWf.evictUntil {s : State} {t n ds} (h : State.TablesWf s) : State.TablesWf (s.evictUntil t n ds) := by
  induction ds generalizing s with
  | nil => exact h
  | cons d ds ih => unfold State.evictUntil; split; exact h; exact ih (State.TablesWf.evict h)

theorem State.TablesWf.admission {s : State} {t n} (h : State.TablesWf s) : State.TablesWf (s.admission t n).1 := by
  unfold State.admission; split; exact h; split; exact State.TablesWf.settlePurge (State.TablesWf.evictUntil h); exact h

theorem State.TablesWf.refuse {s : State} {l x c} (h : State.TablesWf s) : State.TablesWf (s.refuse l x c) := State.TablesWf.congr h (by simp) (by simp)

theorem State.TablesWf.notePoolLow {s : State} {a b} (h : State.TablesWf s) : State.TablesWf (s.notePoolLow a b) := State.TablesWf.congr h (by simp) (by simp)

theorem State.TablesWf.raiseCharge {s : State} {a b} (h : State.TablesWf s) : State.TablesWf (s.raiseCharge a b) := State.TablesWf.congr h (by simp) (by simp)

theorem State.TablesWf.takeFromPool {s : State} {d n x} (h : State.TablesWf s) : State.TablesWf (s.takeFromPool d n x) := ⟨linkChain_wf _ _ h.1, (State.TablesWf.setDesc h).2⟩

theorem State.TablesWf.accept {s : State} {l x t r d} (h : State.TablesWf s) : State.TablesWf (s.accept l x t r d) := by
  unfold State.accept; exact State.TablesWf.raiseCharge (State.TablesWf.notePoolLow (State.TablesWf.takeFromPool h))

theorem State.TablesWf.offer {s : State} {l x} (h : State.TablesWf s) : State.TablesWf (s.offer l x) := by
  unfold State.offer; split; exact State.TablesWf.refuse h; split; exact State.TablesWf.refuse h; split
  · dsimp only; split; exact State.TablesWf.accept (State.TablesWf.admission h); exact State.TablesWf.refuse (State.TablesWf.admission h)
  · exact State.TablesWf.refuse h

theorem State.TablesWf.stageByte {s : State} {l d i c b} (h : State.TablesWf s) : State.TablesWf (s.stageByte l d i c b) := by
  unfold State.stageByte; dsimp only; split <;> (repeat' (first | assumption | apply State.TablesWf.setDesc | apply State.TablesWf.returnCells | apply State.TablesWf.returnDesc | apply State.TablesWf.setStream | apply State.TablesWf.setLane | apply State.TablesWf.setRx | apply State.TablesWf.setUnit | apply State.TablesWf.setRoute | apply State.TablesWf.bumpLane | apply State.TablesWf.bumpStream | apply State.TablesWf.bumpDevice | apply State.TablesWf.latch | apply State.TablesWf.lowerCharge | apply State.TablesWf.dequeue | apply State.TablesWf.settlePurge | apply State.TablesWf.endCommand | apply State.TablesWf.emptySlot | apply State.TablesWf.freeRecord))

theorem State.TablesWf.abort {s : State} {l d} (h : State.TablesWf s) : State.TablesWf (s.abort l d) := by unfold State.abort; dsimp only; (repeat' (first | assumption | apply State.TablesWf.setDesc | apply State.TablesWf.returnCells | apply State.TablesWf.returnDesc | apply State.TablesWf.setStream | apply State.TablesWf.setLane | apply State.TablesWf.setRx | apply State.TablesWf.setUnit | apply State.TablesWf.setRoute | apply State.TablesWf.bumpLane | apply State.TablesWf.bumpStream | apply State.TablesWf.bumpDevice | apply State.TablesWf.latch | apply State.TablesWf.lowerCharge | apply State.TablesWf.dequeue | apply State.TablesWf.settlePurge | apply State.TablesWf.endCommand | apply State.TablesWf.emptySlot | apply State.TablesWf.freeRecord))

theorem State.TablesWf.cut {s : State} {l d} (h : State.TablesWf s) : State.TablesWf (s.cut l d) := State.TablesWf.abort h

theorem State.TablesWf.cutAll {s : State} {l} (h : State.TablesWf s) : State.TablesWf (s.cutAll l) := by
  unfold State.cutAll; generalize (s.lane l).unit.list = ds
  induction ds generalizing s with
  | nil => exact h
  | cons d ds ih => exact ih (State.TablesWf.cut h)

theorem State.TablesWf.track {s : State} {d} (h : State.TablesWf s) : State.TablesWf (s.track d) := by
  unfold State.track; dsimp only; (repeat' split) <;> (repeat' (first | assumption | apply State.TablesWf.setDesc | apply State.TablesWf.returnCells | apply State.TablesWf.returnDesc | apply State.TablesWf.setStream | apply State.TablesWf.setLane | apply State.TablesWf.setRx | apply State.TablesWf.setUnit | apply State.TablesWf.setRoute | apply State.TablesWf.bumpLane | apply State.TablesWf.bumpStream | apply State.TablesWf.bumpDevice | apply State.TablesWf.latch | apply State.TablesWf.lowerCharge | apply State.TablesWf.dequeue | apply State.TablesWf.settlePurge | apply State.TablesWf.endCommand | apply State.TablesWf.emptySlot | apply State.TablesWf.freeRecord))

theorem State.TablesWf.number {s : State} {d} (h : State.TablesWf s) : State.TablesWf (s.number d) := State.TablesWf.setDesc h

theorem State.TablesWf.enqueue {s : State} {d} (h : State.TablesWf s) : State.TablesWf (s.enqueue d) := State.TablesWf.setDesc h

theorem State.TablesWf.complete {s : State} {l d} (h : State.TablesWf s) : State.TablesWf (s.complete l d) := by
  unfold State.complete; dsimp only; exact State.TablesWf.settlePurge (State.TablesWf.bumpLane (State.TablesWf.enqueue (State.TablesWf.track (State.TablesWf.number (State.TablesWf.setUnit h)))))

theorem State.TablesWf.tryComplete {s : State} {l} (h : State.TablesWf s) : State.TablesWf (s.tryComplete l) := by
  rcases State.tryComplete_cases s l with h2 | ⟨d, h2, _⟩ <;> rw [h2]; exact h; exact State.TablesWf.complete h

theorem State.TablesWf.toCompleting {s : State} {l d b} (h : State.TablesWf s) : State.TablesWf (s.toCompleting l d b) := by
  unfold State.toCompleting; dsimp only; split; exact State.TablesWf.tryComplete (State.TablesWf.setDesc h); exact State.TablesWf.setDesc h

theorem State.TablesWf.checkTrailer {s : State} {l} (h : State.TablesWf s) : State.TablesWf (s.checkTrailer l) := by
  unfold State.checkTrailer; dsimp only; split; exact h; split; exact State.TablesWf.toCompleting h; split; exact State.TablesWf.toCompleting h; exact State.TablesWf.abort h

theorem State.TablesWf.takeEdge {s : State} {l b} (h : State.TablesWf s) : State.TablesWf (s.takeEdge l b) := by
  have hact : ∀ {s x}, State.TablesWf s → State.TablesWf (s.actOnHeader l x) := by
    intro s x h; unfold State.actOnHeader; dsimp only; split; exact h; split; exact h; exact State.TablesWf.offer h
  unfold State.takeEdge
  have hn : State.TablesWf (s.noteEdge l) := h
  split
  · exact h
  · exact State.TablesWf.congr hn (by simp) (by simp)
  · unfold State.provisionalEdge; dsimp only
    split; split; exact hn; exact hn
    split
    · unfold State.confirmHeader; dsimp only; split; exact hn; split; exact hn; exact hact hn
    · exact hn
  · unfold State.lockedEdge; dsimp only; split
    · split
      · unfold State.lockedHeader; split; exact hact hn; exact State.TablesWf.congr hn (by simp) (by simp)
      · exact hn
    · split
      · unfold State.lockedByte; split
        · have hp : ∀ {s}, State.TablesWf s → State.TablesWf (s.passBody l) := fun h => State.TablesWf.congr h (by simp) (by simp)
          unfold State.bodyByte; split; exact hp hn; split; exact State.TablesWf.abort hn; exact hp (State.TablesWf.stageByte hn)
        · unfold State.trailerByte; dsimp only; split; exact State.TablesWf.checkTrailer hn; exact hn
        · exact State.TablesWf.congr hn (by simp) (by simp)
      · exact hn

theorem State.TablesWf.finishWrite {s : State} {l} (h : State.TablesWf s) : State.TablesWf (s.finishWrite l) := by
  unfold State.finishWrite; dsimp only; split; exact h; split; exact h; split
  · exact State.TablesWf.returnCells h
  · exact State.TablesWf.tryComplete h

theorem State.TablesWf.fallSilent {s : State} {l} (h : State.TablesWf s) : State.TablesWf (s.fallSilent l) := by
  have : State.TablesWf ((s.latch .laneSilent).cutReceiving l) := by
    unfold State.cutReceiving; dsimp only; split; split; exact State.TablesWf.cut h; exact h; exact h
  exact State.TablesWf.congr this (by simp [State.fallSilent]) (by simp [State.fallSilent])

theorem State.finishWrite_memory_wf {s : State} {l} (h : Memory.wf s.memory = true) : Memory.wf (s.finishWrite l).memory = true := by
  unfold State.finishWrite; dsimp only; split; exact h; split; exact h
  rename_i c _
  have : Memory.wf (Memory.write s.memory (cellBase c.cell) c.image) = true := by
    apply Memory.wf_write _ _ _ h
    have := c.cell.isLt
    have h2 : c.image.length ≤ 64 := by simp [Staged.image, Config.cellBytes]
    simp only [cellBase, Config.cellBytes, Config.cellCount]; omega
  split
  · simpa [State.storeCell] using this
  · simpa [State.storeCell] using this

theorem State.TablesWf.writeCmd {s : State} {c} (h : State.TablesWf s) : State.TablesWf (s.writeCmd c) := by
  have hcl : ∀ {s l}, State.TablesWf s → State.TablesWf (s.clearLane l) := by
    intro s l h; unfold State.clearLane; dsimp only; split; exact State.TablesWf.cutAll h; exact State.TablesWf.cutAll h
  have hcf : ∀ {s : State}, State.TablesWf s → State.TablesWf s.clearFirst := by
    intro s h
    have : ∀ (ls : List LaneId) (s : State), State.TablesWf s → State.TablesWf (ls.foldl State.clearLane s) := by
      intro ls; induction ls with
      | nil => intro s h; exact h
      | cons a as ih => intro s h; exact ih _ (hcl h)
    refine State.TablesWf.congr (this (List.finRange 8) s h) ?_ ?_ <;> (unfold State.clearFirst; generalize (List.finRange 8).foldl State.clearLane s = x; simp)
  unfold State.writeCmd; split
  · exact h
  · unfold State.acceptCommand; split
    · exact h
    · rename_i c _ _; cases c <;> simp only [State.beginCommand]
      case purge => split <;> exact h
      case clear => exact hcf (State.TablesWf.congr h (by simp) (by simp))
      all_goals exact h
    · exact h

theorem State.TablesWf.commit {s : State} {e} (h : State.TablesWf s) : State.TablesWf (s.doTableWrite e) := by
  unfold State.doTableWrite
  cases hc : s.commit e with
  | none => exact State.TablesWf.endCommand h
  | some s' =>
    apply State.TablesWf.endCommand
    cases e with
    | route i => simp only [State.commit, State.commitRoute, Option.map_eq_some_iff] at hc; obtain ⟨r, hr, rfl⟩ := hc; exact h
    | stream u => 
      simp only [State.commit, State.commitStream] at hc
      split at hc
      · split at hc
        · cases hc
        · cases hc; exact h
      · cases hc
    | lane l => 
      simp only [State.commit, State.commitLane, Option.map_eq_some_iff] at hc; obtain ⟨r, hr, rfl⟩ := hc
      unfold State.commitLaneEntry; split; exact h; exact h; exact h; exact State.TablesWf.cutAll h

theorem State.TablesWf.writeWord {s : State} {a v} (h : State.TablesWf s) : State.TablesWf (s.writeWord a v) := by
  unfold State.writeWord; split
  case h_1 => exact State.TablesWf.congr h (by simp) (by simp)
  case h_2 => exact State.TablesWf.congr h (by simp) (by simp)
  case h_4 => exact State.TablesWf.writeCmd h
  all_goals exact State.TablesWf.congr h (by simp) (by simp)

end Sys2Proof.Machine
end

