-- ==== Sys2Proof/Laws/Descriptors.lean ====
section
/-! SUPPORT. Every act keeps the descriptor counts of R66 (`DescInv`). -/

namespace Sys2Proof.Machine

theorem State.held_of_expiredHold {s : State} {i x} (hx : s.expiredHold = some (i, x)) : (s.slot i).held = some x := by
  obtain ⟨j, hj, hjj⟩ := List.exists_of_findSome?_eq_some hx
  split at hjj
  · split at hjj
    · cases hjj; assumption
    · cases hjj
  · cases hjj

theorem State.mem_of_purgeHead {s : State} {u b d} (hd : s.purgeHead u b = some d) : d ∈ (s.stream u).queue := by
  unfold State.purgeHead at hd; split at hd
  · cases hd
  · rename_i e es hq; split at hd
    · cases hd; simp [hq]
    · cases hd

/-- A count leaves the queues as they are (R161). -/
theorem State.queue_countMicrosecond (s : State) (v : StreamId) : (s.countMicrosecond.stream v).queue = (s.stream v).queue := by
  unfold State.countMicrosecond State.tick; split
  · simp [State.stream, State.advance, Stream.atTick]
  · rfl

/-- Every act keeps the descriptor counts (R66). -/
theorem DescInv.act {s t : State} (h : DescInv s) (ha : State.Act s t) : DescInv t := by
  cases ha
  case readsZero _ => exact h
  case hardReset =>
    refine ⟨(by intro h; cases h), fun _ => ⟨rfl, ?_, ?_, ?_⟩, (by intro h; cases h)⟩
    · intro l; simp [State.hardReset, State.lane, State.reset, Lane.reset, Reception.reset]
    · intro t; simp [State.hardReset, State.stream, State.reset, Stream.reset]
    · intro t; simp [State.hardReset, State.slot, State.reset, HoldSlot.reset]
  case takeEdge l b => exact (PlacesKept.takeEdge s l b).keeps h
  case silence l _ =>
    have : PlacesKept s ((s.latch .laneSilent).cutReceiving l) := by
      have h0 : PlacesKept s (s.latch .laneSilent) := by exact PlacesKept.of_same
      unfold State.cutReceiving; dsimp only; split
      · split
        · exact h0.andThen (PlacesKept.cut _ _ _ (State.mem_of_receiving (by assumption)))
        · exact h0
      · exact h0
    refine (this.andThen ?_).keeps h
    exact PlacesKept.of_eq (by simp [State.fallSilent]) (by simp [State.fallSilent]) (by simp [State.fallSilent]) (by simp [State.fallSilent]) (by simp [State.fallSilent]) (.inl (by simp [State.fallSilent]))
  case finishWrite l _ _ =>
    have : PlacesKept s (s.finishWrite l) := by
      unfold State.finishWrite; dsimp only; split; exact PlacesKept.of_same; split; exact PlacesKept.of_same; split
      · exact PlacesKept.of_same
      · refine PlacesKept.andThen ?_ (PlacesKept.tryComplete _ _); exact PlacesKept.of_same
    exact this.keeps h
  case intervalExpiry =>
    have : PlacesKept s s.intervalExpiry := by unfold State.intervalExpiry; split; exact ⟨rfl, rfl, fun h => ⟨h, id⟩⟩; exact PlacesKept.of_same
    exact this.keeps h
  case ageOut t d hd =>
    have hmem : d ∈ (s.stream t).queue := by
      exact List.mem_of_find?_eq_some hd
    have : PlacesKept s (s.ageOut t d) := by
      unfold State.ageOut
      refine (PlacesKept.dequeue_freeRecord s t d hmem).andThen (PlacesKept.andThen ?_ (PlacesKept.settlePurge _)); exact PlacesKept.of_same
    exact this.keeps h
  case expireHold i x hx =>
    have hh : (s.slot i).held = some x := by
      exact State.held_of_expiredHold hx
    have : PlacesKept s (s.expireHold i x) := by
      unfold State.expireHold
      refine (PlacesKept.requeue s i x hh).andThen (PlacesKept.andThen ?_ (PlacesKept.settlePurge _)); exact PlacesKept.of_same
    exact this.keeps h
  case finishBuild hb =>
    have hr : s.pool.ready = false := by unfold State.buildDue at hb; simp at hb; exact hb.1.1
    obtain ⟨b1, b2, b3, b4⟩ := h.2.1 hr
    refine ⟨fun _ => ?_, fun hh => ?_, fun hh => b2⟩
    · rw [State.descPlaces_eq]
      have : s.finishBuild.pool.freeDescs.length = 4096 := by simp [State.finishBuild, allDescs, Config.descCount]
      have e1 : ∀ l, (s.finishBuild.lane l).unit.list = [] := b2
      have e2 : ∀ l, (s.finishBuild.stream l).queue = [] := b3
      have e3 : ∀ l, (s.finishBuild.slot l).held = none := b4
      unfold placesSum listsSum queuesSum slotsSum; rw [this]; simp only [e1, e2, e3]; simp
    · cases hh
  case take t _ =>
    unfold State.doTake; split
    · exact (PlacesKept.endCommand _ _).keeps h
    · split
      · exact (PlacesKept.endCommand _ _).keeps h
      · rename_i d ds hq _ i hi
        have : (s.slot i).held = none := by have := List.find?_some hi; simpa using this
        exact ((PlacesKept.hold s t d ds i hq this).andThen (PlacesKept.endCommand _ _)).keeps h
  case peek t _ =>
    unfold State.doPeek; split
    · exact (PlacesKept.endCommand _ _).keeps h
    · refine (PlacesKept.andThen ?_ (PlacesKept.endCommand _ _)).keeps h; exact PlacesKept.of_same
  case release x _ =>
    unfold State.doRelease; split
    · exact (PlacesKept.endCommand _ _).keeps h
    · rename_i g hg; exact ((PlacesKept.release s _ g (State.held_of_currentHandle hg)).andThen (PlacesKept.endCommand _ _)).keeps h
  case returnRecord x _ =>
    unfold State.doReturn; split
    · exact (PlacesKept.endCommand _ _).keeps h
    · rename_i g hg; exact ((PlacesKept.requeue s _ g (State.held_of_currentHandle hg)).andThen (PlacesKept.endCommand _ _)).keeps h
  case purgeStep t b hp =>
    unfold State.purgeStep; split
    · rename_i d hd
      have hmem : d ∈ (s.stream t).queue := by
        unfold State.purgeHead at hd; split at hd
        · cases hd
        · rename_i e es hq; split at hd
          · cases hd; simp [hq]
          · cases hd
      unfold State.purgeRecord
      refine ((PlacesKept.dequeue_freeRecord s t d hmem).andThen (PlacesKept.andThen ?_ (PlacesKept.settlePurge _))).keeps h; exact PlacesKept.of_same
    · exact (PlacesKept.settlePurge _).keeps h
  case clearSecond hp _ =>
    have hl := h.2.2 hp
    refine ⟨?_, fun _ => ⟨rfl, ?_, ?_, ?_⟩, ?_⟩
    · intro hr; cases hr
    · intro l; simpa using hl l
    · intro u; simp [State.clearSecond, State.emptyQueues, State.stream, State.startBuild, State.setPhase, Stream.emptied]
    · intro i
      simp [State.clearSecond, State.emptyQueues, State.slot, State.startBuild, State.setPhase, HoldSlot.emptied]
      split <;> simp_all
    · intro hh; cases hh
  case clearThird => exact (PlacesKept.of_eq (s := s) (t := s.clearThird) rfl (fun _ => rfl) (fun _ => rfl) (fun _ => rfl) rfl (.inr (by simp [State.clearThird]))).keeps h
  case clearFourth => 
    refine (PlacesKept.of_eq (s := s) (t := s.clearFourth) (by simp) (by simp) (by simp) (by simp) (by simp) (.inr ?_)).keeps h
    simp [State.clearFourth, State.endCommand]
  case capture g _ => 
    unfold State.doCapture
    refine (PlacesKept.andThen ?_ (PlacesKept.endCommand _ _)).keeps h; exact PlacesKept.of_same
  case tableRead e _ =>
    unfold State.doTableRead
    refine (PlacesKept.andThen ?_ (PlacesKept.endCommand _ _)).keeps h; exact PlacesKept.of_same
  case tableWrite e _ => exact (PlacesKept.tableWrite s e).keeps h
  case endsPurged _ => exact (PlacesKept.endCommand _ _).keeps h
  case endsRunning r _ => exact (PlacesKept.endCommand _ _).keeps h
  case endsFailed r _ => exact (PlacesKept.endCommand _ _).keeps h
  case writeCmd c _ => exact DescInv.writeCmd s c h
  case writeWord a v _ =>
    unfold State.writeWord; split
    case h_4 => exact DescInv.writeCmd s _ h
    case h_1 => exact PlacesKept.keeps PlacesKept.of_same h
    case h_2 => exact PlacesKept.keeps PlacesKept.of_same h
    case h_15 => exact PlacesKept.keeps PlacesKept.of_same h
    all_goals exact h
  case arbitrate _ =>
    have hw : ∀ (s : State) l, PlacesKept s (s.grantWrite l) := by
      intro s l; unfold State.grantWrite; dsimp only; split
      · exact PlacesKept.same s
      · refine PlacesKept.of_eq (by simp) ?_ (by simp) (by simp) (by simp) (.inl (by simp))
        intro m; simp
    have hr : ∀ (s : State), PlacesKept s s.grantRead := by
      intro s; unfold State.grantRead; split <;> exact PlacesKept.of_same
    have : PlacesKept s s.arbitrate := by
      unfold State.arbitrate; split
      · exact PlacesKept.of_same
      · split
        · unfold State.grantRequester; split
          · rename_i r _ hlt; refine (hw s ⟨r.val, hlt⟩).andThen ?_; exact PlacesKept.of_same
          · refine (hr s).andThen ?_; exact PlacesKept.of_same
        · split
          · exact PlacesKept.of_same
          · exact PlacesKept.same s
    exact this.keeps h
  case same => exact h
  case released => exact h
  case examination u => exact PlacesKept.keeps (PlacesKept.of_same (h3 := fun v => by unfold State.examination; by_cases hv : v = u <;> simp [hv])) h
  case countMicrosecond =>
    exact PlacesKept.keeps (PlacesKept.of_same (h3 := fun v => State.queue_countMicrosecond s v)) h
  all_goals first | exact h | exact PlacesKept.keeps PlacesKept.of_same h

end Sys2Proof.Machine
end

