-- ==== Sys2Proof/Laws/Conserve.lean ====
section
/-! SUPPORT. Every act keeps the books of cells and descriptors (R65, R66), operation by operation. -/

namespace Sys2Proof.Machine

namespace Books

variable {s t : State}

/-- Lanes whose units stand as they did, on records that stand as they did. -/
theorem lanes_of (h : Books s) (hu : ∀ l, (t.lane l).unit = (s.lane l).unit) (hop : ∀ l, s.port.op = some (.write l) → t.port.op = some (.write l))
    (hs : ∀ l, ∀ d ∈ (s.lane l).unit.list, (t.desc d).state = (s.desc d).state) (hc : ∀ l, ∀ d ∈ (s.lane l).unit.list, t.chain d = s.chain d) :
    ∀ l, ReceptionInv (t.lane l).unit (fun d => (t.desc d).state) t.chain (t.port.op = some (.write l)) := by
  intro l; rw [hu l]
  exact (h.lanes l).congr (hs l) (hc l) (hop l)

/-- Nothing the books speak of changes. -/
theorem same (h : Books s) (hr : t.pool.ready = s.pool.ready := by simp) (hfd : t.pool.freeDescs = s.pool.freeDescs := by simp)
    (hfc : t.pool.freeCells = s.pool.freeCells := by simp) (hlk : t.pool.links = s.pool.links := by simp)
    (hd : ∀ d, (t.desc d).state = (s.desc d).state ∧ (t.desc d).firstCell = (s.desc d).firstCell ∧ (t.desc d).cellCount = (s.desc d).cellCount := by simp)
    (hu : ∀ l, (t.lane l).unit = (s.lane l).unit := by simp) (hq : ∀ u, (t.stream u).queue = (s.stream u).queue := by simp)
    (hs : ∀ i, (t.slot i).held = (s.slot i).held := by simp)
    (hop : ∀ l, s.port.op = some (.write l) → t.port.op = some (.write l) := by simp) : Books t := by
  have hlive : ∀ d, live t d = live s d := fun d => by
    unfold live; rw [listCount_eq s t d (fun l => by rw [hu]), queueCount_eq s t d hq, slotCount_eq s t d hs]
  refine h.moved hr hfd hfc hlk (fun d => (hd d).2) hlive (fun l => by rw [hu]) (fun d _ => (hd d).1) ?_ ?_ ?_
  · intro u d hm; rw [hq] at hm; rw [(hd d).1]; exact h.queued u d hm
  · intro i g hm; rw [hs] at hm; rw [(hd _).1]; exact h.held i g hm
  · intro hch; exact h.lanes_of hu hop (fun l d _ => (hd d).1) (fun l d _ => hch d)

/-- A queued record leaves its queue and is freed (R67). -/
theorem dequeue_freeRecord (h : Books s) {u : StreamId} {d : DescId} (hd : d ∈ (s.stream u).queue) : Books ((s.dequeue u d).freeRecord d) := by
  have hdesc : ∀ e, ((s.dequeue u d).freeRecord d).desc e = if e = d then { s.desc d with state := .free } else s.desc e :=
    fun e => State.desc_freeRecord (s.dequeue u d) d e
  have hq : ∀ v, (((s.dequeue u d).freeRecord d).stream v).queue = if v = u then (s.stream u).queue.erase d else (s.stream v).queue := by
    intro v; simp [State.stream_dequeue]; split <;> rfl
  refine h.freed d (s.chain d) (by simp) (by simp) rfl rfl ?_ ?_ ?_ ?_ ?_ ?_ ?_ ?_ ?_
  · intro e; rw [hdesc]; split
    · subst_vars; exact ⟨rfl, rfl⟩
    · exact ⟨rfl, rfl⟩
  · intro e he; rw [hdesc, if_neg he]
  · rw [hdesc, if_pos rfl]
  · intro e
    have e1 := queueCount_one s ((s.dequeue u d).freeRecord d) u e (by intro v hv; rw [hq, if_neg hv])
    rw [hq, if_pos rfl, List.count_erase] at e1
    have e2 := listCount_eq s ((s.dequeue u d).freeRecord d) e (by simp)
    have e3 := slotCount_eq s ((s.dequeue u d).freeRecord d) e (by simp)
    have e4 := List.count_pos_iff.mpr hd
    unfold live
    by_cases he : e = d
    · subst he; simp at e1 ⊢; omega
    · rw [if_neg (by simpa using fun h2 => he h2.symm)] at e1; rw [if_neg he]; omega
  · intro k; rw [retCount_eq s ((s.dequeue u d).freeRecord d) k (by simp)]
  · exact fun k hk => hk
  · intro v e he; rw [hq] at he; split at he
    · subst_vars; exact List.mem_of_mem_erase he
    · exact he
  · intro i g hg; simpa using hg
  · intro _ hch
    refine h.lanes_of (by simp) (by simp) ?_ ?_
    · intro l e he; rw [hdesc, if_neg]; intro h2; exact h.not_list_of_queue hd l (h2 ▸ he)
    · intro l e he; apply hch
      have := list_le_live ((s.dequeue u d).freeRecord d) l e
      have h2 := List.count_pos_iff.mpr he
      have h3 : (((s.dequeue u d).freeRecord d).lane l).unit.list = (s.lane l).unit.list := by simp
      rw [h3] at this; omega

theorem settlePurge (h : Books s) : Books s.settlePurge := h.same
theorem endCommand (h : Books s) (r) : Books (s.endCommand r) := h.same
theorem bumpStream (h : Books s) (u k) : Books (s.bumpStream u k) := h.same
theorem bumpLane (h : Books s) (u k) : Books (s.bumpLane u k) := h.same
theorem bumpDevice (h : Books s) (k) : Books (s.bumpDevice k) := h.same
theorem latch (h : Books s) (e) : Books (s.latch e) := h.same
theorem setRx (h : Books s) (l rx) : Books (s.setRx l rx) := h.same

theorem evict (h : Books s) {u : StreamId} {d : DescId} (hd : d ∈ (s.stream u).queue) : Books (s.evict u d) :=
  ((h.dequeue_freeRecord hd).bumpStream _ _).latch _

theorem evictUntil (h : Books s) (u n ds) (hq : (s.stream u).queue = ds) : Books (s.evictUntil u n ds) := by
  induction ds generalizing s with
  | nil => exact h
  | cons d ds ih =>
    unfold State.evictUntil; split; exact h
    exact ih (h.evict (by simp [hq])) (by simp [State.evict, State.stream_dequeue, hq])

theorem admission (h : Books s) (u n) : Books (s.admission u n).1 := by
  unfold State.admission; split; exact h; split
  · exact (h.evictUntil u n _ rfl).settlePurge
  · exact h

/-- A held record is released and its slot emptied (R107). -/
theorem release (h : Books s) {i : SlotId} {g : Holding} (hg : (s.slot i).held = some g) :
    Books (((s.freeRecord g.desc).lowerHeld (s.desc g.desc).stream).emptySlot i) := by
  obtain ⟨t, ht⟩ : ∃ t, ((s.freeRecord g.desc).lowerHeld (s.desc g.desc).stream).emptySlot i = t := ⟨_, rfl⟩
  have hdesc : ∀ e, t.desc e = if e = g.desc then { s.desc g.desc with state := .free } else s.desc e := by
    intro e; rw [← ht]; simp [State.desc_freeRecord]
  have hheld : ∀ j, (t.slot j).held = if j = i then none else (s.slot j).held := by
    intro j; rw [← ht, State.held_emptySlot]; simp
  have hlist : ∀ l, (t.lane l).unit = (s.lane l).unit := by intro l; rw [← ht]; simp
  have hqueue : ∀ u, (t.stream u).queue = (s.stream u).queue := by intro u; rw [← ht]; simp
  have hop : ∀ l, s.port.op = some (.write l) → t.port.op = some (.write l) := by
    intro l hl; rw [← ht]; unfold State.emptySlot; dsimp only
    split
    · unfold State.staleWindow; dsimp only
      split <;> simp [discardRead, hl, State.answerError]
    · simpa using hl
  rw [ht]
  refine h.freed g.desc (s.chain g.desc) (by rw [← ht]; simp) (by rw [← ht]; simp) (by rw [← ht]; simp) (by rw [← ht]; simp; rfl) ?_ ?_ ?_ ?_ ?_ ?_ ?_ ?_ ?_
  · intro e; rw [hdesc]; split
    · subst_vars; exact ⟨rfl, rfl⟩
    · exact ⟨rfl, rfl⟩
  · intro e he; rw [hdesc, if_neg he]
  · rw [hdesc, if_pos rfl]
  · intro e
    have e1 := slotCount_one s t i e (by intro v hv; rw [hheld, if_neg hv])
    rw [hheld, if_pos rfl, hg] at e1
    have e2 := listCount_eq s t e (fun l => by rw [hlist])
    have e3 := queueCount_eq s t e hqueue
    unfold live
    by_cases he : e = g.desc
    · subst he; simp at e1 ⊢; omega
    · rw [if_neg he]; rw [if_neg (by simpa using fun h2 => he h2.symm)] at e1; simp at e1; omega
  · intro k; rw [retCount_eq s t k (fun l => by rw [hlist])]
  · exact fun k hk => hk
  · intro u e he; rwa [hqueue] at he
  · intro j g' hg'; rw [hheld] at hg'; split at hg'
    · cases hg'
    · exact hg'
  · intro _ hch
    refine h.lanes_of hlist hop ?_ ?_
    · intro l e he; rw [hdesc, if_neg]; intro h2; exact h.not_list_of_slot hg l (h2 ▸ he)
    · intro l e he; apply hch
      have := list_le_live t l e
      have h2 := List.count_pos_iff.mpr he
      rw [hlist] at this; omega

theorem count_insertByAge (f d xs e) : (insertByAge f d xs).count e = xs.count e + if e = d then 1 else 0 := by
  obtain ⟨a, b, h1, h2, _⟩ := insertByAge_split f d xs
  rw [h2, h1, List.count_append, List.count_append, List.count_cons]
  by_cases he : e = d
  · subst he; simp; omega
  · rw [if_neg he, if_neg (by simpa using fun h => he h.symm)]; omega

/-- The port's operation after a slot is emptied is a write where it was one (R130). -/
theorem op_emptySlot (s : State) (i l) (hl : s.port.op = some (.write l)) : (s.emptySlot i).port.op = some (.write l) := by
  unfold State.emptySlot; dsimp only
  split
  · unfold State.staleWindow; dsimp only
    split <;> simp [discardRead, hl, State.answerError]
  · simpa using hl

/-- A held record goes back to its queue and its slot is emptied (R82, R108). -/
theorem requeue (h : Books s) {i : SlotId} {g : Holding} (hg : (s.slot i).held = some g) : Books ((s.requeue g.desc).emptySlot i) := by
  obtain ⟨t, ht⟩ : ∃ t, (s.requeue g.desc).emptySlot i = t := ⟨_, rfl⟩
  have hdesc : ∀ e, t.desc e = if e = g.desc then { s.desc g.desc with state := .queued } else s.desc e := by
    intro e; rw [← ht]; simp [State.desc_requeue]
  have hheld : ∀ j, (t.slot j).held = if j = i then none else (s.slot j).held := by
    intro j; rw [← ht, State.held_emptySlot]; simp
  have hlist : ∀ l, (t.lane l).unit = (s.lane l).unit := by intro l; rw [← ht]; simp
  have hcount : ∀ u e, (t.stream u).queue.count e
      = if u = (s.desc g.desc).stream then (s.stream u).queue.count e + (if e = g.desc then 1 else 0) else (s.stream u).queue.count e := by
    intro u e; rw [← ht]; simp [State.stream_requeue]; split <;> simp [count_insertByAge]
  have hop : ∀ l, s.port.op = some (.write l) → t.port.op = some (.write l) := by
    intro l hl; rw [← ht]; exact op_emptySlot _ _ _ (by simpa using hl)
  have hlive : ∀ e, live t e = live s e := by
    intro e
    have e1 := slotCount_one s t i e (by intro v hv; rw [hheld, if_neg hv])
    rw [hheld, if_pos rfl, hg] at e1
    have e2 := listCount_eq s t e (fun l => by rw [hlist])
    have e3 := queueCount_one s t (s.desc g.desc).stream e (by intro v hv; rw [hcount, if_neg hv])
    rw [hcount, if_pos rfl] at e3
    unfold live
    by_cases he : e = g.desc
    · subst he; simp at e1 e3 ⊢; omega
    · rw [if_neg he] at e3; rw [if_neg (by simpa using fun h2 => he h2.symm)] at e1; simp at e1; omega
  rw [ht]
  refine h.moved (by rw [← ht]; simp) (by rw [← ht]; simp) (by rw [← ht]; simp) (by rw [← ht]; simp) ?_ hlive ?_ ?_ ?_ ?_ ?_
  · intro e; rw [hdesc]; split
    · subst_vars; exact ⟨rfl, rfl⟩
    · exact ⟨rfl, rfl⟩
  · intro l; rw [hlist]
  · intro e he; rw [hdesc, if_neg]; intro h2; rw [h2, h.live_slot hg] at he; cases he
  · intro u e he
    rw [hdesc]; split
    · rfl
    · rename_i hne
      have := List.count_pos_iff.mpr he
      rw [hcount, if_neg hne, Nat.add_zero, ite_self] at this
      exact h.queued u e (List.count_pos_iff.mp this)
  · intro j g' hg'
    rw [hheld] at hg'; split at hg'
    · cases hg'
    · rename_i hj
      rw [hdesc, if_neg]; exact h.held j g' hg'
      intro h2
      have := two_slots_le_live s i j g g' (fun e => hj e.symm) hg hg' h2
      rw [h.live_slot hg] at this; omega
  · intro hch
    refine h.lanes_of hlist hop ?_ (fun l e _ => hch e)
    intro l e he; rw [hdesc, if_neg]; intro h2; exact h.not_list_of_slot hg l (h2 ▸ he)

/-- A record at the head of a queue is held in an EMPTY slot (R104). -/
theorem hold (h : Books s) {u : StreamId} {d : DescId} {ds} {i : SlotId} (hq : (s.stream u).queue = d :: ds)
    (hi : (s.slot i).held = none) : Books (s.hold u d i) := by
  have hdm : d ∈ (s.stream u).queue := by rw [hq]; exact List.mem_cons_self ..
  obtain ⟨t, ht⟩ : ∃ t, s.hold u d i = t := ⟨_, rfl⟩
  have hqueue : ∀ v, (t.stream v).queue = if v = u then ds else (s.stream v).queue := by
    intro v; rw [← ht]; by_cases hv : v = u
    · subst hv; simp [State.hold, hq]
    · simp [State.hold, hv]
  have hdesc : ∀ e, t.desc e = if e = d then (s.desc d).taken else s.desc e := by
    intro e; rw [← ht]; by_cases he : e = d
    · subst he; simp [State.hold]
    · simp [State.hold, he]
  have hheld : ∀ j, (t.slot j).held = if j = i then some ⟨d, s.now⟩ else (s.slot j).held := by
    intro j; rw [← ht]; by_cases hj : j = i
    · subst hj; simp [State.hold]
    · simp [State.hold, hj]
  have hlist : ∀ l, (t.lane l).unit = (s.lane l).unit := by intro l; rw [← ht]; simp
  have hlive : ∀ e, live t e = live s e := by
    intro e
    have e1 := slotCount_one s t i e (by intro v hv; rw [hheld, if_neg hv])
    rw [hheld, if_pos rfl, hi] at e1
    have e2 := listCount_eq s t e (fun l => by rw [hlist])
    have e3 := queueCount_one s t u e (by intro v hv; rw [hqueue, if_neg hv])
    rw [hqueue, if_pos rfl, hq, List.count_cons] at e3
    unfold live
    by_cases he : e = d
    · subst he; simp at e1 e3 ⊢; omega
    · have : ¬ d = e := fun h2 => he h2.symm
      simp [this] at e1 e3; omega
  have hdnot : d ∉ ds := by
    intro hm
    have h1 := list_queue_le_live s 0 u d; have h2 := h.live_le d
    rw [hq, List.count_cons] at h1; have := List.count_pos_iff.mpr hm; simp at h1; omega
  rw [ht]
  refine h.moved (by rw [← ht]; simp) (by rw [← ht]; simp) (by rw [← ht]; simp) (by rw [← ht]; simp) ?_ hlive ?_ ?_ ?_ ?_ ?_
  · intro e; rw [hdesc]; split
    · subst_vars; exact ⟨rfl, rfl⟩
    · exact ⟨rfl, rfl⟩
  · intro l; rw [hlist]
  · intro e he; rw [hdesc, if_neg]; intro h2; rw [h2, h.live_queue hdm] at he; cases he
  · intro v e he
    rw [hqueue] at he
    have hne : e ≠ d := by
      intro h2; subst h2; split at he
      · exact hdnot he
      · rename_i hv
        have h1 := two_queues_le_live s v u e hv
        have := List.count_pos_iff.mpr he; have := List.count_pos_iff.mpr hdm; have := h.live_le e; omega
    rw [hdesc, if_neg hne]; split at he
    · exact h.queued u e (by rw [hq]; exact List.mem_cons_of_mem _ he)
    · exact h.queued v e he
  · intro j g' hg'
    rw [hheld] at hg'; split at hg'
    · cases hg'; rw [hdesc, if_pos rfl]; rfl
    · rw [hdesc, if_neg]; exact h.held j g' hg'
      intro h2
      have h1 := slot_le_live s j g' hg' 0 u
      rw [h2] at h1
      have := List.count_pos_iff.mpr hdm; have := h.live_le d; omega
  · intro hch
    refine h.lanes_of hlist (by rw [← ht]; simp) ?_ (fun l e _ => hch e)
    intro l e he; rw [hdesc, if_neg]; intro h2; exact h.not_list_of_queue hdm l (h2 ▸ he)

/-- A record leaves the head of its lane's list for the tail of its stream's queue (R36, R81), the staging cells of the lane
standing as the caller says. -/
theorem complete (l : LaneId) (d : DescId) (s0 : State) (h : Books s0)
    (hhead : (s0.lane l).unit.list.head? = some d) (hr : s.pool.ready = s0.pool.ready) (hfd : s.pool.freeDescs = s0.pool.freeDescs)
    (hfc : s.pool.freeCells = s0.pool.freeCells) (hlk : s.pool.links = s0.pool.links)
    (hd : ∀ e, (s.desc e).firstCell = (s0.desc e).firstCell ∧ (s.desc e).cellCount = (s0.desc e).cellCount)
    (hst : ∀ e, e ≠ d → (s.desc e).state = (s0.desc e).state)
    (hl : (s.lane l).unit.list = (s0.lane l).unit.list) (hret : (s.lane l).unit.retiring = (s0.lane l).unit.retiring)
    (hm : ∀ m, m ≠ l → (s.lane m).unit = (s0.lane m).unit) (hq : ∀ u, (s.stream u).queue = (s0.stream u).queue)
    (hs : ∀ i, (s.slot i).held = (s0.slot i).held) (hop : ∀ m, m ≠ l → s0.port.op = some (.write m) → s.port.op = some (.write m))
    (hsame : ∀ i : Fin 4, (s.lane l).unit.staging[i.val] = (s0.lane l).unit.staging[i.val]
      ∨ (s.lane l).unit.staging[i.val] = .free ∧ ∃ c, (s0.lane l).unit.staging[i.val] = .writing c ∧ c.owner = some d)
    (hown : ∀ (i : Fin 4) c, (s.lane l).unit.staging[i.val].staged = some c → c.owner ≠ some d)
    (ho : (s.lane l).unit.order = (s0.lane l).unit.order) (hcd : (s.lane l).unit.countdown = (s0.lane l).unit.countdown)
    (hw : s0.port.op = some (.write l) → (∃ i : Fin 4, (s.lane l).unit.staging[i.val].isWriting = true) → s.port.op = some (.write l)) :
    Books (s.complete l d) := by
  have hdm : d ∈ (s0.lane l).unit.list := List.mem_of_head? hhead
  obtain ⟨ds, hds⟩ : ∃ ds, (s0.lane l).unit.list = d :: ds := by
    cases hh : (s0.lane l).unit.list with
    | nil => simp [hh] at hhead
    | cons a as => simp [hh] at hhead; exact ⟨as, by rw [hhead]⟩
  obtain ⟨s3, hs3⟩ : ∃ x, ((s.setUnit l { (s.lane l).unit with list := (s.lane l).unit.list.tail }).number d).track d = x := ⟨_, rfl⟩
  obtain ⟨t, ht⟩ : ∃ x, (s3.enqueue d).bumpLane l .recordsStored = x := ⟨_, rfl⟩
  have hc : s.complete l d = t.settlePurge := by subst ht; subst hs3; rfl
  rw [hc]
  apply settlePurge
  have hunit : (t.lane l).unit = { (s.lane l).unit with list := ds } := by
    subst ht; subst hs3; simp [hl, hds]
  have hunits : ∀ m, m ≠ l → (t.lane m).unit = (s0.lane m).unit := by
    intro m hne; subst ht; subst hs3; simp [hne, hm m hne]
  have h3 : ∀ u, (s3.stream u).queue = (s0.stream u).queue := by intro u; subst hs3; simp [hq]
  have h4 : ∀ e, (s3.desc e).firstCell = (s0.desc e).firstCell ∧ (s3.desc e).cellCount = (s0.desc e).cellCount
      ∧ (e ≠ d → (s3.desc e).state = (s0.desc e).state) := by
    intro e
    obtain ⟨a1, _, _, _, a2, a3, _, _⟩ := State.desc_track ((s.setUnit l { (s.lane l).unit with list := (s.lane l).unit.list.tail }).number d) d e
    rw [hs3] at a1 a2 a3
    rw [a1, a2, a3, State.desc_number]
    by_cases he : e = d
    · subst he; simpa using hd e
    · simpa [he] using ⟨(hd e).1, (hd e).2, hst e he⟩
  have hdesc : ∀ e, (t.desc e).firstCell = (s0.desc e).firstCell ∧ (t.desc e).cellCount = (s0.desc e).cellCount
      ∧ (t.desc e).state = if e = d then .queued else (s0.desc e).state := by
    intro e; obtain ⟨a, b, c⟩ := h4 e
    have : t.desc e = (s3.enqueue d).desc e := by subst ht; simp
    rw [this, State.desc_enqueue]
    by_cases he : e = d
    · subst he; simp; exact ⟨a, b⟩
    · simp [he]; exact ⟨a, b, c he⟩
  have hcount : ∀ u e, (t.stream u).queue.count e
      = if u = (s3.desc d).stream then (s0.stream u).queue.count e + (if e = d then 1 else 0) else (s0.stream u).queue.count e := by
    intro u e
    have : t.stream u = (s3.enqueue d).stream u := by subst ht; simp
    rw [this, State.stream_enqueue]; split
    · subst_vars; dsimp only; rw [List.count_append, h3]
      by_cases he : e = d
      · subst he; simp
      · have : ¬ d = e := fun h2 => he h2.symm
        simp [he, this]
    · rw [h3]
  have hheld : ∀ i, (t.slot i).held = (s0.slot i).held := by intro i; subst ht; subst hs3; simp [hs]
  have hlive : ∀ e, live t e = live s0 e := by
    intro e
    have e1 := slotCount_eq s0 t e hheld
    have e2 := listCount_one s0 t l e (fun m hne => by rw [hunits m hne])
    rw [hunit, hds, List.count_cons] at e2
    have e3 := queueCount_one s0 t (s3.desc d).stream e (by intro v hv; rw [hcount, if_neg hv])
    rw [hcount, if_pos rfl] at e3
    unfold live
    by_cases he : e = d
    · subst he; simp at e2 e3; omega
    · have : ¬ d = e := fun h2 => he h2.symm
      simp [this, he] at e2 e3; omega
  refine h.moved (by subst ht; subst hs3; simpa using hr) (by subst ht; subst hs3; simpa using hfd) (by subst ht; subst hs3; simpa using hfc)
    (by subst ht; subst hs3; simpa using hlk) (fun e => ⟨(hdesc e).1, (hdesc e).2.1⟩) hlive ?_ ?_ ?_ ?_ ?_
  · intro m; by_cases hne : m = l
    · subst hne; rw [hunit]; exact hret
    · rw [hunits m hne]
  · intro e he; rw [(hdesc e).2.2, if_neg]; intro h2; rw [h2, h.live_list hdm] at he; cases he
  · intro v e he
    rw [(hdesc e).2.2]; split
    · rfl
    · rename_i hne
      have := List.count_pos_iff.mpr he
      rw [hcount, if_neg hne, Nat.add_zero, ite_self] at this
      exact h.queued v e (List.count_pos_iff.mp this)
  · intro j g' hg'
    rw [hheld] at hg'
    rw [(hdesc _).2.2, if_neg]; exact h.held j g' hg'
    intro h2; exact h.not_list_of_slot hg' l (h2 ▸ hdm)
  · intro hch m
    have htop : t.port.op = s.port.op := by subst ht; subst hs3; simp
    rw [htop]
    by_cases hne : m = l
    · subst hne
      refine (h.lanes m).removeHead (h.nodup m) hhead (by rw [hunit, hds]; rfl) (by rw [hunit]; exact ho) (by rw [hunit]; exact hret)
        (by rw [hunit]; exact hcd) (fun i => by rw [hunit]; exact hsame i) (fun i c => by rw [hunit]; exact hown i c) ?_ (fun e _ _ => hch e)
        (by rw [hunit]; exact hw)
      intro e _ he; rw [(hdesc e).2.2, if_neg he]
    · rw [hunits m hne]
      refine (h.lanes m).congr ?_ (fun e _ => hch e) (hop m hne)
      intro e he; rw [(hdesc e).2.2, if_neg]; intro h2
      exact h.not_list_of_list hdm hne (h2 ▸ he)

/-- An abort (R37). -/
theorem abort (h : Books s) {l : LaneId} {d : DescId} (hd : d ∈ (s.lane l).unit.list) : Books (s.abort l d) := by
  obtain ⟨t, ht⟩ : ∃ t, s.abort l d = t := ⟨_, rfl⟩
  have hu : (t.lane l).unit = (s.lane l).unit.abort d := by rw [← ht]; exact State.unit_abort ..
  have hunits : ∀ m, m ≠ l → (t.lane m).unit = (s.lane m).unit := by intro m hne; rw [← ht]; simp [hne]
  have hdesc : ∀ e, t.desc e = if e = d then { s.desc d with state := .free } else s.desc e := by
    intro e; rw [← ht]; exact State.desc_abort ..
  have hop : t.port.op = s.port.op := by rw [← ht]; simp
  have hqueue : ∀ u, (t.stream u).queue = (s.stream u).queue := by intro u; rw [← ht]; simp
  have hheld : ∀ i, (t.slot i).held = (s.slot i).held := by intro i; rw [← ht]; simp
  have hlive : ∀ e, live t e + (if e = d then 1 else 0) = live s e := by
    intro e
    have e1 := slotCount_eq s t e hheld
    have e2 := listCount_one s t l e (fun m hne => by rw [hunits m hne])
    rw [hu, show ((s.lane l).unit.abort d).list = (s.lane l).unit.list.erase d from rfl, List.count_erase] at e2
    have e3 := queueCount_eq s t e hqueue
    have e4 := List.count_pos_iff.mpr hd
    unfold live
    by_cases he : e = d
    · subst he; simp at e2 ⊢; omega
    · rw [if_neg (by simpa using fun h2 => he h2.symm)] at e2; rw [if_neg he]; omega
  rw [ht]
  refine h.freed d ((s.chain d).filter fun c => (s.lane l).unit.writingCell d != some c) (by rw [← ht]; simp) (by rw [← ht]; simp)
    (by rw [← ht]; rfl) (by rw [← ht]; rfl) ?_ ?_ ?_ hlive ?_ ?_ ?_ ?_ ?_
  · intro e; rw [hdesc]; split
    · subst_vars; exact ⟨rfl, rfl⟩
    · exact ⟨rfl, rfl⟩
  · intro e he; rw [hdesc, if_neg he]
  · rw [hdesc, if_pos rfl]
  · intro k
    have hds : live s d ≠ 0 := by rw [h.live_list hd]; exact Nat.one_ne_zero
    have e1 := retCount_one s t l k (fun m hne => by rw [hunits m hne])
    rw [hu, show ((s.lane l).unit.abort d).retiring = ((s.lane l).unit.writingCell d).or (s.lane l).unit.retiring from rfl] at e1
    have hfilter : ∀ (p : CellId → Bool), ((s.chain d).filter p).count k = if p k then (s.chain d).count k else 0 := by
      intro p; by_cases hp : p k = true
      · rw [if_pos hp, List.count_filter hp]
      · rw [if_neg hp, List.count_eq_zero]; intro hm; exact hp (List.mem_filter.mp hm).2
    rw [hfilter]
    rcases (h.lanes l).writing_cases d with ⟨hn, _⟩ | ⟨i, c, _, _, h3, h4, h5⟩
    · rw [hn] at e1 ⊢
      have : (none != some k) = true := rfl
      rw [if_pos this]; rw [Option.none_or] at e1; omega
    · rw [h3, h5] at e1; rw [h3]
      have hone := h.chain_once hds c.cell
      have hpos := List.count_pos_iff.mpr h4
      by_cases hk : k = c.cell
      · subst hk; simp at e1 ⊢; omega
      · have hk2 : ¬ c.cell = k := fun h2 => hk h2.symm
        simp [hk2] at e1 ⊢; omega
  · exact fun k hk => (List.mem_filter.mp hk).1
  · intro u e he; rwa [hqueue] at he
  · intro i g hg; rwa [hheld] at hg
  · intro h0 hch m
    rw [hop]
    have hchl : ∀ m', ∀ e ∈ (s.lane m').unit.list, e ≠ d → t.chain e = s.chain e := by
      intro m' e he hne; apply hch
      have := hlive e; rw [if_neg hne, h.live_list he] at this; omega
    by_cases hne : m = l
    · subst hne; rw [hu]
      refine (h.lanes m).abort d (h.nodup m) ?_ (hchl m) id
      intro e _ he; rw [hdesc, if_neg he]
    · rw [hunits m hne]
      have hnd : ∀ e ∈ (s.lane m).unit.list, e ≠ d := by
        intro e he h2; exact h.not_list_of_list hd hne (h2 ▸ he)
      refine (h.lanes m).congr ?_ (fun e he => hchl m e he (hnd e he)) id
      intro e he; rw [hdesc, if_neg (hnd e he)]

theorem cut (h : Books s) {l : LaneId} {d : DescId} (hd : d ∈ (s.lane l).unit.list) : Books (s.cut l d) :=
  (h.abort hd).bumpLane _ _

theorem cutAll (h : Books s) (l : LaneId) : Books (s.cutAll l) := by
  unfold State.cutAll
  have : ∀ ds (s : State), Books s → (s.lane l).unit.list = ds → Books (ds.foldl (fun s d => s.cut l d) s) := by
    intro ds; induction ds with
    | nil => intro s h _; exact h
    | cons d ds ih =>
      intro s h he
      exact ih _ (h.cut (by simp [he])) (by simp [State.cut, State.unit_abort, Reception.abort, he])
  exact this _ s h rfl

theorem pool_accept (s : State) (l) (x : Header) (u r) (d : DescId) (ds) (hd : s.pool.freeDescs = d :: ds) :
    (s.accept l x u r d).pool = { s.pool with
      freeDescs := ds
      freeCells := s.pool.freeCells.drop (cellsFor x.length)
      links := linkChain s.pool.links (s.pool.freeCells.take (cellsFor x.length))
      descs := Tab.set Desc.blank s.pool.descs d.val (acceptedDesc l x u r s.now (s.pool.freeCells.headD 0) (cellsFor x.length)) } := by
  simp [State.accept, State.takeFromPool, State.setDesc, hd]

theorem desc_accept (s : State) (l) (x : Header) (u r) (d : DescId) (ds) (hd : s.pool.freeDescs = d :: ds) (e : DescId) :
    (s.accept l x u r d).desc e
      = if e = d then acceptedDesc l x u r s.now (s.pool.freeCells.headD 0) (cellsFor x.length) else s.desc e := by
  have : (s.accept l x u r d).desc e = (s.setDesc d (acceptedDesc l x u r s.now (s.pool.freeCells.headD 0) (cellsFor x.length))).desc e := by
    show Tab.get _ (s.accept l x u r d).pool.descs _ = _
    rw [pool_accept s l x u r d ds hd]; rfl
  rw [this, State.desc_setDesc]

/-- An acceptance, with every record on the list COMPLETING (R27 to R29). -/
theorem accept (h : Books s) {l : LaneId} {x : Header} {u r} {d : DescId} {ds} (hd : s.pool.freeDescs = d :: ds)
    (hx : 2 ≤ x.length.toNat) (hroom : cellsFor x.length ≤ s.pool.freeCells.length)
    (hall : ∀ e ∈ (s.lane l).unit.list, (s.desc e).state = .completing) : Books (s.accept l x u r d) := by
  obtain ⟨t, ht⟩ : ∃ t, s.accept l x u r d = t := ⟨_, rfl⟩
  have hn : cellsFor x.length ≠ 0 := by
    unfold cellsFor; omega
  have hpool := pool_accept s l x u r d ds hd
  have hdesc := desc_accept s l x u r d ds hd
  rw [ht] at hpool hdesc
  have hu : (t.lane l).unit = { (s.lane l).unit with
      list := (s.lane l).unit.list ++ [d], countdown := x.length.toNat, chainCell := 0, chainByte := 0, check := 0xFFFF, trailer := [] } := by
    rw [← ht]; simp [State.accept]
  have hunits : ∀ m, m ≠ l → (t.lane m).unit = (s.lane m).unit := by intro m hne; rw [← ht]; simp [hne]
  have hqueue : ∀ v, (t.stream v).queue = (s.stream v).queue := by intro u; rw [← ht]; simp
  have hheld : ∀ i, (t.slot i).held = (s.slot i).held := by intro i; rw [← ht]; simp
  have hop : t.port.op = s.port.op := by rw [← ht]; simp
  rw [ht]
  refine h.accepted d ds (cellsFor x.length) hd hn hroom (by rw [hpool]) (by rw [hpool]) (by rw [hpool]) (by rw [hpool])
    (by rw [hdesc, if_pos rfl]; exact ⟨rfl, rfl⟩) (by rw [hdesc, if_pos rfl]; simp [acceptedDesc]) (fun e he => by rw [hdesc, if_neg he]) ?_ ?_ hqueue hheld ?_
  · intro e
    have e1 := slotCount_eq s t e hheld
    have e2 := listCount_one s t l e (fun m hne => by rw [hunits m hne])
    rw [hu, List.count_append, List.count_singleton] at e2
    have e3 := queueCount_eq s t e hqueue
    unfold live
    by_cases he : e = d
    · subst he; simp at e2 ⊢; omega
    · have : ¬ d = e := fun h2 => he h2.symm
      simp [this, he] at e2 ⊢; omega
  · intro m; by_cases hne : m = l
    · subst hne; rw [hu]
    · rw [hunits m hne]
  · intro h0 hch m
    rw [hop]
    have hnd : ∀ m, ∀ e ∈ (s.lane m).unit.list, e ≠ d := by
      intro m e he h2; rw [← h2, h.live_list he] at h0; cases h0
    have hchl : ∀ m, ∀ e ∈ (s.lane m).unit.list, t.chain e = s.chain e := by
      intro m e he; apply hch; rw [h.live_list he]; exact Nat.one_ne_zero
    by_cases hne : m = l
    · subst hne
      refine (h.lanes m).accept (d := d) (fun hm => hnd m d hm rfl) hall (by rw [hu]) (by rw [hu]) (by rw [hu]) (by rw [hu])
        (by rw [hu]; dsimp only; omega) (by rw [hdesc, if_pos rfl]; rfl) ?_ (hchl m) id
      intro e he; rw [hdesc, if_neg (hnd m e he)]
    · rw [hunits m hne]
      refine (h.lanes m).congr ?_ (hchl m) id
      intro e he; rw [hdesc, if_neg (hnd m e he)]

/-- One lane's unit changes and keeps what R29 says; its records and everything else stand as they did. -/
theorem unit (h : Books s) (l : LaneId) (hr : t.pool.ready = s.pool.ready := by simp) (hfd : t.pool.freeDescs = s.pool.freeDescs := by simp)
    (hfc : t.pool.freeCells = s.pool.freeCells := by simp) (hlk : t.pool.links = s.pool.links := by simp)
    (hd : ∀ d, (t.desc d).firstCell = (s.desc d).firstCell ∧ (t.desc d).cellCount = (s.desc d).cellCount := by simp)
    (hst : ∀ d, d ∉ (s.lane l).unit.list → (t.desc d).state = (s.desc d).state := by simp)
    (hlist : (t.lane l).unit.list = (s.lane l).unit.list := by simp) (hret : (t.lane l).unit.retiring = (s.lane l).unit.retiring := by simp)
    (hm : ∀ m, m ≠ l → (t.lane m).unit = (s.lane m).unit) (hq : ∀ u, (t.stream u).queue = (s.stream u).queue := by simp)
    (hs : ∀ i, (t.slot i).held = (s.slot i).held := by simp)
    (hop : ∀ m, m ≠ l → s.port.op = some (.write m) → t.port.op = some (.write m) := by simp)
    (hl : (∀ d, t.chain d = s.chain d) → ReceptionInv (t.lane l).unit (fun d => (t.desc d).state) t.chain (t.port.op = some (.write l))) :
    Books t := by
  have hun : ∀ m, (t.lane m).unit.list = (s.lane m).unit.list := by
    intro m; by_cases hne : m = l
    · subst hne; exact hlist
    · rw [hm m hne]
  have hlive : ∀ d, live t d = live s d := fun d => by
    unfold live; rw [listCount_eq s t d hun, queueCount_eq s t d hq, slotCount_eq s t d hs]
  refine h.moved hr hfd hfc hlk hd hlive ?_ ?_ ?_ ?_ ?_
  · intro m; by_cases hne : m = l
    · subst hne; exact hret
    · rw [hm m hne]
  · intro d hd0; apply hst; intro hm2; rw [h.live_list hm2] at hd0; cases hd0
  · intro u d hd2; rw [hq] at hd2; rw [hst d (h.not_list_of_queue hd2 l)]; exact h.queued u d hd2
  · intro i g hg; rw [hs] at hg; rw [hst _ (h.not_list_of_slot hg l)]; exact h.held i g hg
  · intro hch m
    by_cases hne : m = l
    · subst hne; exact hl hch
    · rw [hm m hne]
      refine (h.lanes m).congr ?_ (fun e _ => hch e) (hop m hne)
      intro e he; exact hst e (h.not_list_of_list he (fun h2 => hne h2.symm))

end Books

end Sys2Proof.Machine
end

