-- ==== Sys2Proof/Laws/Edges.lean ====
section
/-! SUPPORT. What a lane's clock edge and silence leave of the books of cells and descriptors (R29, R65, R66). -/

namespace Sys2Proof.Machine

/-- Every lane's RECEIVING record stands as `HandedOver` says. -/
def Handed (s : State) : Prop := ∀ l, HandedOver (s.lane l) fun d => (s.desc d).state

/-- A lane has no RECEIVING record. -/
def NoneReceiving (s : State) (l : LaneId) : Prop := ∀ d, (s.lane l).unit.list.getLast? = some d → (s.desc d).state ≠ .receiving

/-- What happens on one lane leaves the others and their records' states as they were. -/
structure OnLane (l : LaneId) (s t : State) : Prop where
  lane : ∀ m, m ≠ l → t.lane m = s.lane m
  state : ∀ m, m ≠ l → ∀ e ∈ (s.lane m).unit.list, (t.desc e).state = (s.desc e).state

theorem OnLane.trans {l} {s t u : State} (h : OnLane l s t) (h2 : OnLane l t u) : OnLane l s u where
  lane m hm := (h2.lane m hm).trans (h.lane m hm)
  state m hm e he := (h2.state m hm e (by rw [h.lane m hm]; exact he)).trans (h.state m hm e he)

theorem OnLane.refl (l) (s : State) : OnLane l s s := ⟨fun _ _ => rfl, fun _ _ _ _ => rfl⟩

theorem OnLane.of_same {l} {s t : State} (h : ∀ m, m ≠ l → t.lane m = s.lane m := by simp +contextual)
    (hd : ∀ d, (t.desc d).state = (s.desc d).state := by simp) : OnLane l s t := ⟨h, fun _ _ e _ => hd e⟩

theorem OnLane.handed {l} {s t : State} (h : OnLane l s t) (hs : Handed s) (hl : HandedOver (t.lane l) fun d => (t.desc d).state) : Handed t := by
  intro m; by_cases hm : m = l
  · subst hm; exact hl
  · rw [h.lane m hm]; intro d hd hr
    exact hs m d hd ((h.state m hm d (List.mem_of_getLast? hd)).symm.trans hr)

theorem NoneReceiving.handedOver {s : State} {l} (h : NoneReceiving s l) : HandedOver (s.lane l) fun d => (s.desc d).state :=
  fun d hd hr => absurd hr (h d hd)

theorem NoneReceiving.congr {s t : State} {l} (h : NoneReceiving s l) (hl : (t.lane l).unit.list = (s.lane l).unit.list := by simp)
    (hd : ∀ d, (t.desc d).state = (s.desc d).state := by simp) : NoneReceiving t l := by
  intro d hg; rw [hl] at hg; rw [hd]; exact h d hg

theorem Handed.none {s : State} (h : Handed s) {l} (hl : (s.lane l).rx.delin ≠ .locked ∨ (s.lane l).rx.sub ≠ .body ∧ (s.lane l).rx.sub ≠ .trailer) :
    NoneReceiving s l := by
  intro d hd hr
  obtain ⟨a, b⟩ := h l d hd hr
  rcases hl with hl | hl
  · exact hl a
  · rcases b with ⟨b, _⟩ | ⟨b, _⟩
    · exact hl.1 b
    · exact hl.2 b

theorem Handed.same {s t : State} (h : Handed s) (hl : ∀ l, t.lane l = s.lane l := by simp)
    (hd : ∀ l, ∀ d ∈ (s.lane l).unit.list, (t.desc d).state = (s.desc d).state := by simp) : Handed t := by
  intro l d hg hr
  rw [hl] at hg ⊢
  exact h l d hg ((hd l d (List.mem_of_getLast? hg)).symm.trans hr)

theorem State.receiving_iff {s : State} {l d} : s.receiving l = some d ↔ (s.lane l).unit.list.getLast? = some d ∧ (s.desc d).state = .receiving := by
  unfold State.receiving
  cases hg : (s.lane l).unit.list.getLast? with
  | none => simp
  | some e =>
    simp only
    constructor
    · intro h; split at h
      · cases h; exact ⟨rfl, by assumption⟩
      · cases h
    · rintro ⟨a, b⟩; cases a; rw [if_pos b]

theorem State.receiving_none {s : State} {l} (h : s.receiving l = none) : NoneReceiving s l := by
  intro d hd hr
  rw [State.receiving_iff.mpr ⟨hd, hr⟩] at h; cases h

namespace Books

variable {s t : State}

theorem completing_of_none (h : Books s) {l} (hn : NoneReceiving s l) : ∀ e ∈ (s.lane l).unit.list, (s.desc e).state = .completing := by
  intro e he
  rcases (h.lanes l).states e he with hr | hc
  · exact absurd hr (hn e ((h.lanes l).last he hr))
  · exact hc

/-- An eviction changes the state of queued records only (R86). -/
theorem state_evictUntil (u n) (e : DescId) (ds : List DescId) (hds : e ∉ ds) (s : State) : ((s.evictUntil u n ds).desc e).state = (s.desc e).state := by
  induction ds generalizing s with
  | nil => rfl
  | cons d ds ih =>
    unfold State.evictUntil; split
    · rfl
    · rw [ih (fun h => hds (List.mem_cons_of_mem _ h))]
      have hne : e ≠ d := fun h => hds (h ▸ List.mem_cons_self ..)
      have : (s.evict u d).desc e = ((s.dequeue u d).freeRecord d).desc e := by simp [State.evict]
      rw [this, State.desc_freeRecord, if_neg hne]; simp

theorem state_admission (_ : Books s) (u n) (e : DescId) (he : e ∉ (s.stream u).queue) : ((s.admission u n).1.desc e).state = (s.desc e).state := by
  unfold State.admission; split
  · rfl
  · split
    · simpa using state_evictUntil u n e _ he s
    · rfl

/-! ### Aborts -/

theorem onLane_abort (h : Books s) {l d} (hd : d ∈ (s.lane l).unit.list) : OnLane l s (s.abort l d) where
  lane m hm := by simp [hm]
  state m hm e he := by
    rw [State.desc_abort, if_neg]; intro h2; exact h.not_list_of_list hd hm (h2 ▸ he)

theorem none_abort (h : Books s) {l d} (hd : s.receiving l = some d) : NoneReceiving (s.abort l d) l := by
  obtain ⟨hlast, hr⟩ := State.receiving_iff.mp hd
  intro e he hre
  rw [State.unit_abort] at he
  have hm := List.mem_of_getLast? he
  have hm2 : e ∈ (s.lane l).unit.list.erase d := hm
  rw [(h.nodup l).mem_erase_iff] at hm2
  rw [State.desc_abort, if_neg hm2.1] at hre
  have := (h.lanes l).last hm2.2 hre
  rw [hlast] at this; cases this; exact hm2.1 rfl

/-! ### The trailer (R34, R35) -/

theorem desc_complete_ne (s : State) (l) {d x : DescId} (hx : x ≠ d) : (s.complete l d).desc x = s.desc x := by
  unfold State.complete; simp only
  generalize hg : s.setUnit l { (s.lane l).unit with list := (s.lane l).unit.list.tail } = s1
  have : (((((s1.number d).track d).enqueue d).bumpLane l .recordsStored).settlePurge).desc x = (((s1.number d).track d).enqueue d).desc x := by simp
  rw [this, State.desc_enqueue, if_neg hx, (State.desc_track _ d x).2.2.2.2.2.2.2 hx, State.desc_number, if_neg hx, ← hg]; simp

theorem toCompleting (h : Books s) {l d b} (hd : s.receiving l = some d) (h0 : (s.lane l).unit.countdown = 0) : Books (s.toCompleting l d b) := by
  obtain ⟨hlast, hr⟩ := State.receiving_iff.mp hd
  have hdm := List.mem_of_getLast? hlast
  obtain ⟨x, hx⟩ : ∃ x, x = { s.desc d with state := .completing, damaged := (s.desc d).damaged || b } := ⟨_, rfl⟩
  have hdesc : ∀ e, (s.setDesc d x).desc e = if e = d then x else s.desc e := fun e => State.desc_setDesc ..
  have hc : ∀ e, ((s.setDesc d x).desc e).firstCell = (s.desc e).firstCell ∧ ((s.setDesc d x).desc e).cellCount = (s.desc e).cellCount := by
    intro e; rw [hdesc]; split
    · subst_vars; exact ⟨rfl, rfl⟩
    · exact ⟨rfl, rfl⟩
  have hxc : x.state = .completing := by rw [hx]
  have hbusy : (∃ i : Fin 4, (s.lane l).unit.staging[i.val].busyFor d = true) → Books (s.setDesc d x) := by
    intro hb
    refine h.unit l (hd := hc) (hst := ?_) (hm := fun m _ => rfl) (hl := ?_)
    · intro e he; rw [hdesc, if_neg]; intro h2; exact he (h2 ▸ hdm)
    · intro hch
      refine (h.lanes l).completing hlast h0 hb (by rw [hdesc, if_pos rfl, hxc]) ?_ (fun e _ => hch e) (by simp)
      intro e _ he; rw [hdesc, if_neg he]
  unfold State.toCompleting
  simp only [← hx]
  split
  · rename_i hah
    have hhead : (s.lane l).unit.list.head? = some d := by simpa [State.atHead] using hah
    rw [State.tryComplete_eq _ l d (by simpa using hhead)]
    split
    · rename_i hcp
      have hcp2 : ∀ i : Fin 4, (s.lane l).unit.staging[i.val].busyFor d = false := by simpa using hcp.2
      refine Books.complete l d s h hhead (hd := hc) (hst := ?_) (hr := by simp) (hfd := by simp) (hfc := by simp) (hlk := by simp)
        (hl := by simp) (hret := by simp) (hm := by simp) (hq := by simp) (hs := by simp) (hop := by simp) (hsame := fun i => .inl rfl)
        (hown := ?_) (ho := by simp) (hcd := by simp) (hw := fun h _ => by simpa using h)
      · intro e he; rw [hdesc, if_neg he]
      · intro i c hi hco
        have hi' : (s.lane l).unit.staging[i.val].staged = some c := hi
        have hb := hcp2 i
        cases hst : (s.lane l).unit.staging[i.val] with
        | free => rw [hst] at hi'; cases hi'
        | filling c' =>
          rw [hst] at hi'; cases hi'
          exact ((h.lanes l).filling i c d hst hco).2 h0
        | pending c' => rw [hst] at hi' hb; cases hi'; simp [StagingCell.busyFor, hco] at hb
        | writing c' => rw [hst] at hi' hb; cases hi'; simp [StagingCell.busyFor, hco] at hb
    · rename_i hcp
      apply hbusy
      by_contra hn
      apply hcp
      refine ⟨by rw [hdesc, if_pos rfl, hxc], fun i => ?_⟩
      have := fun hb => hn ⟨i, hb⟩
      simpa using this
  · rename_i hah
    exact hbusy ((h.lanes l).endedBusy d hlast hr h0 (by simpa [State.atHead] using hah))

theorem onLane_toCompleting (h : Books s) {l d b} (hd : d ∈ (s.lane l).unit.list) : OnLane l s (s.toCompleting l d b) := by
  have h1 : OnLane l s (s.setDesc d { s.desc d with state := .completing, damaged := (s.desc d).damaged || b }) := by
    refine ⟨fun m _ => rfl, fun m hm e he => ?_⟩
    rw [State.desc_setDesc, if_neg]; intro h2; exact h.not_list_of_list hd hm (h2 ▸ he)
  unfold State.toCompleting; dsimp only
  split
  · rename_i hah
    refine h1.trans ?_
    generalize hg : s.setDesc d { s.desc d with state := .completing, damaged := (s.desc d).damaged || b } = s1
    rcases State.tryComplete_cases s1 l with h2 | ⟨e, h2, h3⟩ <;> rw [h2]
    · exact OnLane.refl ..
    · have he : e ∈ (s.lane l).unit.list := by rw [← hg] at h3; exact List.mem_of_head? h3
      refine ⟨fun m hm => by simp [hm], fun m hm x hx => ?_⟩
      have hxe : x ≠ e := by
        intro h4; rw [← hg] at hx; exact h.not_list_of_list he hm (h4 ▸ hx)
      rw [desc_complete_ne _ _ hxe]
  · exact h1

theorem none_toCompleting (h : Books s) {l d b} (hd : s.receiving l = some d) : NoneReceiving (s.toCompleting l d b) l := by
  obtain ⟨hlast, hr⟩ := State.receiving_iff.mp hd
  have h1 : ∀ e ∈ (s.lane l).unit.list, ((s.setDesc d { s.desc d with state := .completing, damaged := (s.desc d).damaged || b }).desc e).state = .completing := by
    intro e he; rw [State.desc_setDesc]; split
    · rfl
    · rename_i hne
      rcases (h.lanes l).states e he with h2 | h2
      · have := (h.lanes l).last he h2; rw [hlast] at this; cases this; exact absurd rfl hne
      · exact h2
  unfold State.toCompleting; dsimp only
  generalize hg : s.setDesc d { s.desc d with state := .completing, damaged := (s.desc d).damaged || b } = s1 at h1 ⊢
  have hl1 : (s1.lane l).unit.list = (s.lane l).unit.list := by rw [← hg]; simp
  split
  · rcases State.tryComplete_cases s1 l with h2 | ⟨e, h2, h3⟩ <;> rw [h2]
    · intro x hx hrx; rw [hl1] at hx; rw [h1 x (List.mem_of_getLast? hx)] at hrx; cases hrx
    · intro x hx hrx
      have hlt : ((s1.complete l e).lane l).unit.list = (s1.lane l).unit.list.tail := by
        unfold State.complete; simp
      rw [hlt] at hx
      have hxm : x ∈ (s1.lane l).unit.list := List.mem_of_mem_tail (List.mem_of_getLast? hx)
      rw [hl1] at hxm
      by_cases hxe : x = e
      · subst hxe
        have : x ∈ (s.lane l).unit.list.tail := by rw [← hl1]; exact List.mem_of_getLast? hx
        rw [hl1] at h3
        have hn := h.nodup l
        cases hq : (s.lane l).unit.list with
        | nil => rw [hq] at this; cases this
        | cons a as =>
          rw [hq] at this h3 hn; simp at h3; subst h3
          exact (List.nodup_cons.mp hn).1 this
      · rw [desc_complete_ne _ _ hxe, h1 x hxm] at hrx; cases hrx
  · intro x hx hrx; rw [hl1] at hx; rw [h1 x (List.mem_of_getLast? hx)] at hrx; cases hrx

/-- The trailer check, with the body at its end (R34, R35). -/
theorem checkTrailer (h : Books s) {l} (h0 : ∀ d, s.receiving l = some d → (s.lane l).unit.countdown = 0) :
    Books (s.checkTrailer l) ∧ OnLane l s (s.checkTrailer l) ∧ NoneReceiving (s.checkTrailer l) l := by
  unfold State.checkTrailer; dsimp only
  split
  · rename_i hn; exact ⟨h, OnLane.refl .., State.receiving_none hn⟩
  · rename_i d hd
    have hdm := State.mem_of_receiving hd
    split
    · exact ⟨h.toCompleting hd (h0 d hd), h.onLane_toCompleting hdm, h.none_toCompleting hd⟩
    · have hb := h.bumpLane l .recordsDamaged
      have hob : OnLane l s (s.bumpLane l .recordsDamaged) := OnLane.of_same
      have hd' : (s.bumpLane l .recordsDamaged).receiving l = some d := hd
      have hdm' : d ∈ ((s.bumpLane l .recordsDamaged).lane l).unit.list := hdm
      split
      · exact ⟨hb.toCompleting hd' (h0 d hd), hob.trans (hb.onLane_toCompleting hdm'), hb.none_toCompleting hd'⟩
      · exact ⟨hb.abort hdm', hob.trans (hb.onLane_abort hdm'), hb.none_abort hd'⟩

/-! ### The body (R30, R31, R33) -/

theorem chainCellAt_mem (h : Books s) {d} (hd : live s d ≠ 0) (p : Nat) : s.chainCellAt d p ∈ s.chain d := by
  obtain ⟨a, b, c⟩ := h.chains d hd
  unfold State.chainCellAt
  unfold State.chain at *
  cases hn : (s.desc d).cellCount with
  | zero => rw [hn] at b; exact absurd rfl b
  | succ n => rw [hn] at c; exact walkLinks_mem _ _ _ _ c

/-- The staging cell a body byte goes into is the record's FILLING one or a FREE one (R30). -/
theorem stagingFor_cases (h : Books s) {l d i c} (hd : d ∈ (s.lane l).unit.list) (hs : s.stagingFor l d = some (i, c)) :
    c.owner = some d ∧ c.cell ∈ s.chain d
      ∧ ((s.lane l).unit.staging[i.val] = .free ∧ (∀ (j : Fin 4) c, (s.lane l).unit.staging[j.val] = .filling c → c.owner ≠ some d)
        ∨ ∃ c0, (s.lane l).unit.staging[i.val] = .filling c0) := by
  unfold State.stagingFor at hs; simp only at hs
  cases hf : (s.lane l).unit.findStaging (StagingCell.fillingFor d) with
  | some j =>
    rw [hf] at hs; simp only [Option.map_eq_some_iff] at hs
    obtain ⟨c', h1, h2⟩ := hs
    cases h2
    have hp := List.find?_some hf
    cases hst : (s.lane l).unit.staging[i.val] with
    | filling x =>
      rw [hst] at h1 hp; cases h1
      have ho : c.owner = some d := by simpa [StagingCell.fillingFor] using hp
      exact ⟨ho, ((h.lanes l).owned i c d (by rw [hst]; rfl) ho).2, .inr ⟨c, rfl⟩⟩
    | free => rw [hst] at h1; cases h1
    | pending x => rw [hst] at hp; cases hp
    | writing x => rw [hst] at hp; cases hp
  | none =>
    rw [hf] at hs; simp only at hs
    rw [Reception.findStaging_eq_none] at hf
    cases hg : (s.lane l).unit.findStaging StagingCell.isFree with
    | none => rw [hg] at hs; cases hs
    | some j =>
      rw [hg] at hs; simp only [Option.some.injEq, Prod.mk.injEq] at hs
      obtain ⟨rfl, rfl⟩ := hs
      have hp := List.find?_some hg
      refine ⟨rfl, h.chainCellAt_mem (by rw [h.live_list hd]; exact Nat.one_ne_zero) _, .inl ⟨?_, ?_⟩⟩
      · cases hst : (s.lane l).unit.staging[j.val] <;> rw [hst] at hp <;> first | rfl | cases hp
      · intro k c hk ho; have := hf k; rw [hk] at this; simp [StagingCell.fillingFor, ho] at this

theorem unit_stageByte (s : State) (l d i c b) : ((s.stageByte l d i c b).lane l).unit =
    { (s.lane l).unit with
      check := recordCheckByte (s.lane l).unit.check b
      countdown := (s.lane l).unit.countdown - 1
      chainCell := if (s.lane l).unit.chainByte + 1 == Config.cellBytes then (s.lane l).unit.chainCell + 1 else (s.lane l).unit.chainCell
      chainByte := if (s.lane l).unit.chainByte + 1 == Config.cellBytes then 0 else (s.lane l).unit.chainByte + 1
      staging := (s.lane l).unit.staging.set i.val
        (if (c.bytes ++ [b]).length == Config.cellBytes || (s.lane l).unit.countdown - 1 == 0
          then .pending { c with bytes := padCell (c.bytes ++ [b]) } else .filling { c with bytes := c.bytes ++ [b] })
      order := if (c.bytes ++ [b]).length == Config.cellBytes || (s.lane l).unit.countdown - 1 == 0
        then (s.lane l).unit.order ++ [i] else (s.lane l).unit.order } := by
  unfold State.stageByte; simp only; split <;> simp

theorem desc_stageByte (s : State) (l d i c b e) : ((s.stageByte l d i c b).desc e).state = (s.desc e).state
    ∧ ((s.stageByte l d i c b).desc e).firstCell = (s.desc e).firstCell ∧ ((s.stageByte l d i c b).desc e).cellCount = (s.desc e).cellCount := by
  unfold State.stageByte; simp only; split
  · by_cases he : e = d
    · subst he; simp
    · simp [he]
  · simp

theorem stageByte (h : Books s) {l d i c b} (hd : s.receiving l = some d) (hs : s.stagingFor l d = some (i, c)) :
    Books (s.stageByte l d i c b) := by
  obtain ⟨hlast, hr⟩ := State.receiving_iff.mp hd
  obtain ⟨ho, hc, hi⟩ := h.stagingFor_cases (List.mem_of_getLast? hlast) hs
  have hu := unit_stageByte s l d i c b
  have hdesc := desc_stageByte s l d i c b
  have hop : (s.stageByte l d i c b).port.op = s.port.op := by simp
  refine h.unit l (hd := fun e => (hdesc e).2) (hst := fun e _ => (hdesc e).1) (hlist := by rw [hu]) (hret := by rw [hu])
    (hm := fun m hm => by simp [hm]) (hl := ?_)
  intro hch
  have hcongr : ReceptionInv ((s.stageByte l d i c b).lane l).unit (fun e => (s.desc e).state) s.chain (s.port.op = some (.write l)) := by
    by_cases hend : ((c.bytes ++ [b]).length == Config.cellBytes || (s.lane l).unit.countdown - 1 == 0) = true
    · simp only [hend, if_true] at hu
      refine (h.lanes l).stagePending (c := { c with bytes := padCell (c.bytes ++ [b]) }) (i := i) hlast hr hi ho hc ?_ ?_ ?_ ?_ <;> rw [hu]
    · have hend2 : ((c.bytes ++ [b]).length == Config.cellBytes || (s.lane l).unit.countdown - 1 == 0) = false := by simpa using hend
      have hcd : (s.lane l).unit.countdown - 1 ≠ 0 := by
        intro h0; rw [h0] at hend2; simp at hend2
      rw [hend2] at hu; simp only [Bool.false_eq_true, if_false] at hu
      refine (h.lanes l).stageFilling (c := { c with bytes := c.bytes ++ [b] }) (i := i) hlast hr hi ho hc ?_ ?_ ?_ ?_ ?_ <;> rw [hu]
      exact hcd
  exact hcongr.congr (fun e _ => (hdesc e).1) (fun e _ => hch e) (by rw [hop]; exact id)

theorem onLane_stageByte {l d i c b} : OnLane l s (s.stageByte l d i c b) :=
  OnLane.of_same (fun m hm => by simp [hm]) (fun e => (desc_stageByte s l d i c b e).1)

/-- A byte handed over to the reception unit (R30, R33). -/
theorem bodyByte (h : Books s) (hh : Handed s) {l b} (hloc : (s.lane l).rx.delin = .locked) (hsub : (s.lane l).rx.sub = .body) :
    Books (s.bodyByte l b) ∧ Handed (s.bodyByte l b) := by
  have hpass : ∀ {s : State}, Books s → Books (s.passBody l) := fun h => h.same (hu := by simp)
  unfold State.bodyByte
  split
  · rename_i hn
    refine ⟨hpass h, (OnLane.of_same (l := l) (s := s) (t := s.passBody l)).handed hh ?_⟩
    exact NoneReceiving.handedOver ((State.receiving_none hn).congr)
  · rename_i d hd
    have hdm := State.mem_of_receiving hd
    split
    · unfold State.overrun; simp only
      refine ⟨((h.abort hdm).bumpLane _ _).setRx _ _, OnLane.handed ((h.onLane_abort hdm).trans OnLane.of_same) hh ?_⟩
      exact NoneReceiving.handedOver ((h.none_abort hd).congr)
    · rename_i i c hs
      refine ⟨hpass (h.stageByte hd hs), OnLane.handed (onLane_stageByte.trans (OnLane.of_same (l := l) (s := s.stageByte l d i c b) (t := (s.stageByte l d i c b).passBody l))) hh ?_⟩
      intro e he hr
      obtain ⟨hlast, hrd⟩ := State.receiving_iff.mp hd
      obtain ⟨_, h2⟩ := hh l d hlast hrd
      have hb : (s.lane l).rx.byteCount = (s.lane l).unit.countdown ∧ 0 < (s.lane l).unit.countdown := by
        rcases h2 with ⟨_, b, c⟩ | ⟨a, _⟩
        · exact ⟨b, c⟩
        · rw [hsub] at a; cases a
      have hrx : ((s.stageByte l d i c b).lane l).rx = (s.lane l).rx := by simp
      have hu : (((s.stageByte l d i c b).passBody l).lane l).unit.countdown = (s.lane l).unit.countdown - 1 := by
        have : (((s.stageByte l d i c b).passBody l).lane l).unit = ((s.stageByte l d i c b).lane l).unit := by simp
        rw [this, unit_stageByte]
      rw [hu]
      unfold State.passBody; simp only [hrx]
      split
      · refine ⟨by simpa using hloc, .inr ⟨by simp, by omega⟩⟩
      · refine ⟨by simpa [Receiver.passByte] using hloc, .inl ⟨by simpa [Receiver.passByte] using hsub, ?_, by omega⟩⟩
        simp [Receiver.passByte]; omega

/-! ### An edge (R1) -/

theorem offer (h : Books s) (hh : Handed s) {l x} (hn : NoneReceiving s l) (hloc : (s.lane l).rx.delin = .locked) (hx : 2 ≤ x.length.toNat) :
    Books (s.offer l x) ∧ Handed (s.offer l x) := by
  have href : ∀ (s : State) c, Books s → Handed s → NoneReceiving s l → Books (s.refuse l x c) ∧ Handed (s.refuse l x c) := by
    intro s c h hh hn
    exact ⟨h.same, (OnLane.of_same (l := l) (s := s) (t := s.refuse l x c)).handed hh hn.congr.handedOver⟩
  unfold State.offer; split; exact href s _ h hh hn
  split; exact href s _ h hh hn
  split
  · rename_i u r _ _
    have ha := h.admission u (cellsFor x.length)
    obtain ⟨s1, hs1⟩ : ∃ y, (s.admission u (cellsFor x.length)).1 = y := ⟨_, rfl⟩
    have hroom : (s.admission u (cellsFor x.length)).2 = none → cellsFor x.length ≤ s1.pool.freeCells.length := by
      intro hnone
      have hrf : ∀ s : State, s.roomFailure u (cellsFor x.length) = none → cellsFor x.length ≤ s.pool.freeCells.length := by
        intro s hs; unfold State.roomFailure at hs; split at hs
        · cases hs
        · split at hs
          · cases hs
          · omega
      subst hs1
      unfold State.admission at hnone ⊢
      split
      · rename_i h1; exact hrf s h1
      · rename_i cause h1
        rw [h1] at hnone; simp only at hnone
        split
        · rename_i hp; rw [if_pos hp] at hnone; exact hrf _ hnone
        · rename_i hp; rw [if_neg hp] at hnone; cases hnone
    have hl1 : ∀ m, s1.lane m = s.lane m := by subst hs1; simp
    have hst1 : ∀ m, ∀ e ∈ (s.lane m).unit.list, (s1.desc e).state = (s.desc e).state := by
      intro m e he
      have hm2 := h.live_list he
      have := state_admission h u (cellsFor x.length) e (fun hq => h.not_list_of_queue hq m he)
      rw [hs1] at this; rw [this]
    rw [hs1] at ha
    have hh1 : Handed s1 := hh.same hl1 hst1
    have hn1 : NoneReceiving s1 l := by
      intro e he hr; rw [hl1] at he
      exact hn e he (by rw [← hst1 l e (List.mem_of_getLast? he)]; exact hr)
    simp only
    rw [hs1]
    split
    · rename_i d ds hc hd
      refine ⟨ha.accept hd hx (hroom hc) (ha.completing_of_none hn1), ?_⟩
      have hon : OnLane l s1 (s1.accept l x u r d) := by
        refine ⟨fun m hm => by simp [hm], fun m _ e he => ?_⟩
        have hne : e ≠ d := by
          intro h2; exact ha.not_free (by rw [ha.live_list he]; exact Nat.one_ne_zero) (by rw [hd, h2]; exact List.mem_cons_self ..)
        rw [desc_accept _ _ _ _ _ _ _ hd, if_neg hne]
      refine hon.handed hh1 ?_
      intro e _ _
      rw [State.rx_accept, hl1]
      refine ⟨hloc, .inl ⟨rfl, ?_, ?_⟩⟩ <;> simp [State.accept]
      omega
    · exact href s1 _ ha hh1 hn1
  · exact href s _ h hh hn

theorem actOnHeader (h : Books s) (hh : Handed s) {l x} (hn : NoneReceiving s l) (hloc : (s.lane l).rx.delin = .locked) :
    Books (s.actOnHeader l x) ∧ Handed (s.actOnHeader l x) := by
  unfold State.actOnHeader; simp only
  obtain ⟨rx, hrx⟩ : ∃ rx : Receiver, rx = { (s.lane l).rx with sub := .awaitHeader, missCount := 0, byteCount := 0, bits := [] } := ⟨_, rfl⟩
  rw [← hrx]
  have h1 : Books (s.setRx l rx) := h.setRx l rx
  have hn1 : NoneReceiving (s.setRx l rx) l := hn.congr
  have hh1 : Handed (s.setRx l rx) := (OnLane.of_same (l := l) (s := s)).handed hh hn1.handedOver
  split; exact ⟨h1, hh1⟩
  split
  · exact ⟨(h1.bumpLane l .runts).setRx _ _, (OnLane.of_same (l := l) (s := s)).handed hh (NoneReceiving.congr hn).handedOver⟩
  · rename_i h0 h2
    refine h1.offer hh1 hn1 (by simpa [hrx] using hloc) ?_
    have a0 : x.length.toNat ≠ 0 := fun e => h0 (BitVec.eq_of_toNat_eq (by simpa using e))
    have a1 : x.length.toNat ≠ 1 := fun e => h2 (BitVec.eq_of_toNat_eq (by simpa using e))
    omega

/-- An edge on a lane's clock (R1). -/
theorem takeEdge (h : Books s) (hh : Handed s) (l b) : Books (s.takeEdge l b) ∧ Handed (s.takeEdge l b) := by
  have hrx : ∀ {s : State} rx, Books s → Handed s → NoneReceiving s l → Books (s.setRx l rx) ∧ Handed (s.setRx l rx) := by
    intro s rx h hh hn; exact ⟨h.setRx l rx, (OnLane.of_same (l := l) (s := s)).handed hh (NoneReceiving.congr hn).handedOver⟩
  have hrx2 : ∀ {s : State} (rx : Receiver), Books s → Handed s → rx.delin = (s.lane l).rx.delin → rx.sub = (s.lane l).rx.sub →
      (rx.byteCount = (s.lane l).rx.byteCount ∨ rx.sub ≠ .body) → Books (s.setRx l rx) ∧ Handed (s.setRx l rx) := by
    intro s rx h hh h1 h2 h3
    refine ⟨h.setRx l rx, (OnLane.of_same (l := l) (s := s)).handed hh ?_⟩
    intro d hd hr
    have hd' : (s.lane l).unit.list.getLast? = some d := by simpa using hd
    have hr' : (s.desc d).state = .receiving := by simpa using hr
    obtain ⟨p1, p2⟩ := hh l d hd' hr'
    have e1 : ((s.setRx l rx).lane l).rx = rx := by simp
    have e2 : ((s.setRx l rx).lane l).unit = (s.lane l).unit := by simp
    rw [e1, e2, h1, h2]
    refine ⟨p1, ?_⟩
    rcases p2 with ⟨a, b, c⟩ | p2
    · rcases h3 with h3 | h3
      · exact .inl ⟨a, h3.trans b, c⟩
      · exact absurd (h2.trans a) h3
    · exact .inr p2
  unfold State.takeEdge
  have hnote : Books (s.noteEdge l) ∧ Handed (s.noteEdge l) := hrx2 _ h hh rfl rfl (.inl rfl)
  have hnrx : ((s.noteEdge l).lane l).rx = { (s.lane l).rx with silent := false, lastEdge := s.now } := by simp [State.noteEdge]
  split
  · exact ⟨h, hh⟩
  · rename_i hd
    have hn : NoneReceiving (s.noteEdge l) l := hnote.2.none (.inl (by rw [hnrx, hd]; simp))
    unfold State.huntEdge; simp only; split
    · exact hrx _ hnote.1 hnote.2 hn
    · exact hrx _ hnote.1 hnote.2 hn
  · rename_i hd
    have hn : NoneReceiving (s.noteEdge l) l := hnote.2.none (.inl (by rw [hnrx, hd]; simp))
    obtain ⟨h1, hh1⟩ := hnote
    generalize s.noteEdge l = s1 at h1 hh1 hn
    unfold State.provisionalEdge; simp only
    split
    · split
      · exact hrx _ h1 hh1 hn
      · exact hrx _ h1 hh1 hn
    · split
      · unfold State.confirmHeader; simp only; split
        · exact hrx _ h1 hh1 hn
        · split
          · exact hrx _ h1 hh1 hn
          · have hl : Books (s1.enterLocked l) ∧ Handed (s1.enterLocked l) := by
              unfold State.enterLocked
              obtain ⟨a, b⟩ := hrx { (s1.lane l).rx with delin := .locked, sub := .awaitHeader, remaining := 0, missCount := 0 } h1 hh1 hn
              exact ⟨a.latch _, b.same⟩
            exact hl.1.actOnHeader hl.2 (hn.congr) (by simp [State.enterLocked])
      · exact hrx _ h1 hh1 hn
  · rename_i hd
    obtain ⟨h1, hh1⟩ := hnote
    have hloc : ((s.noteEdge l).lane l).rx.delin = .locked := by rw [hnrx]; exact hd
    generalize s.noteEdge l = s1 at h1 hh1 hloc
    unfold State.lockedEdge; simp only; split
    · rename_i hsub
      have hn : NoneReceiving s1 l := hh1.none (.inr (by rw [hsub]; simp))
      split
      · unfold State.lockedHeader; split
        · exact h1.actOnHeader hh1 hn hloc
        · unfold State.missHeader; simp only; split
          · exact ⟨((h1.bumpLane _ _).bumpLane _ _).latch _ |>.setRx _ _, (OnLane.of_same (l := l) (s := s1)).handed hh1 (NoneReceiving.congr hn).handedOver⟩
          · split
            · exact ⟨(h1.bumpLane _ _).setRx _ _, (OnLane.of_same (l := l) (s := s1)).handed hh1 (NoneReceiving.congr hn).handedOver⟩
            · exact ⟨(h1.bumpLane _ _).setRx _ _, (OnLane.of_same (l := l) (s := s1)).handed hh1 (NoneReceiving.congr hn).handedOver⟩
      · exact hrx _ h1 hh1 hn
    · split
      · unfold State.lockedByte; split
        · rename_i hsub; exact h1.bodyByte hh1 hloc hsub
        · rename_i hsub
          unfold State.trailerByte; simp only
          have hu : Books (s1.setUnit l { (s1.lane l).unit with trailer := (s1.lane l).unit.trailer ++ [byteOfBits ((s1.lane l).rx.bits ++ [b])] }) := by
            refine h1.unit l (hm := fun m hm => by simp [hm]) (hl := ?_)
            intro hch
            have : (((s1.setUnit l { (s1.lane l).unit with trailer := (s1.lane l).unit.trailer ++ [byteOfBits ((s1.lane l).rx.bits ++ [b])] }).lane l).unit)
              = { (s1.lane l).unit with trailer := (s1.lane l).unit.trailer ++ [byteOfBits ((s1.lane l).rx.bits ++ [b])] } := by simp
            rw [this]
            exact ((h1.lanes l).congr (fun e _ => rfl) (fun e _ => hch e) id).fields rfl rfl rfl rfl rfl
          obtain ⟨s2, hs2⟩ : ∃ y, s1.setUnit l { (s1.lane l).unit with trailer := (s1.lane l).unit.trailer ++ [byteOfBits ((s1.lane l).rx.bits ++ [b])] } = y := ⟨_, rfl⟩
          have hon : OnLane l s1 s2 := by rw [← hs2]; exact OnLane.of_same
          have hrx3 : (s2.lane l).rx = (s1.lane l).rx := by rw [← hs2]; simp
          have hl3 : (s2.lane l).unit.list = (s1.lane l).unit.list ∧ (s2.lane l).unit.countdown = (s1.lane l).unit.countdown := by rw [← hs2]; simp
          have hd3 : ∀ e, s2.desc e = s1.desc e := by intro e; rw [← hs2]; simp
          rw [hs2] at hu ⊢
          have h0 : ∀ d, (s2.lane l).unit.list.getLast? = some d → (s2.desc d).state = .receiving → (s2.lane l).unit.countdown = 0 := by
            intro d hd hr
            rw [hl3.1] at hd; rw [hd3] at hr; rw [hl3.2]
            rcases (hh1 l d hd hr).2 with ⟨a, _⟩ | ⟨_, a⟩
            · rw [hsub] at a; cases a
            · exact a
          have hh2 : Handed s2 := by
            refine hon.handed hh1 ?_
            intro d hd hr
            have := h0 d hd hr
            rw [hrx3]; exact ⟨hloc, .inr ⟨hsub, this⟩⟩
          split
          · have hb := hu.setRx l { (s2.lane l).rx with sub := .awaitHeader, byteCount := 0, bits := [] }
            obtain ⟨a, b2, c⟩ := hb.checkTrailer (l := l) (fun d hd => by
              obtain ⟨p, q⟩ := State.receiving_iff.mp hd
              have := h0 d (by simpa using p) (by simpa using q)
              simpa using this)
            exact ⟨a, ((hon.trans OnLane.of_same).trans b2).handed hh1 c.handedOver⟩
          · exact hrx2 _ hu hh2 rfl rfl (.inr (by
              rw [hrx3]; simp [Receiver.passByte, hsub]))
        · rename_i hsub1 hsub2
          unfold State.skipByte; simp only
          have hn : NoneReceiving s1 l := hh1.none (.inr ⟨hsub1, hsub2⟩)
          split
          · exact hrx _ h1 hh1 hn
          · exact hrx _ h1 hh1 hn
      · exact hrx2 _ h1 hh1 rfl rfl (.inl rfl)

/-- Silence (R15). -/
theorem fallSilent (h : Books s) (hh : Handed s) (l) : Books (s.fallSilent l) ∧ Handed (s.fallSilent l) := by
  unfold State.fallSilent; simp only
  have h1 := h.latch .laneSilent
  have hh1 : Handed (s.latch .laneSilent) := hh.same
  generalize s.latch .laneSilent = s1 at h1 hh1
  have hc : Books (s1.cutReceiving l) ∧ OnLane l s1 (s1.cutReceiving l) ∧ NoneReceiving (s1.cutReceiving l) l := by
    unfold State.cutReceiving; simp only
    split
    · split
      · rename_i d hd
        have hdm := State.mem_of_receiving hd
        exact ⟨h1.cut hdm, (h1.onLane_abort hdm).trans (OnLane.of_same (s := s1.abort l d) (t := (s1.abort l d).bumpLane l .recordsCut)),
          (h1.none_abort hd).congr (s := s1.abort l d) (t := (s1.abort l d).bumpLane l .recordsCut)⟩
      · rename_i hn; exact ⟨h1, OnLane.refl .., State.receiving_none hn⟩
    · rename_i hn
      refine ⟨h1, OnLane.refl .., hh1.none ?_⟩
      by_cases hl : (s1.lane l).rx.delin = .locked
      · right
        constructor
        · intro hb; exact hn ⟨hl, .inl hb⟩
        · intro hb; exact hn ⟨hl, .inr hb⟩
      · exact .inl hl
  obtain ⟨a, b, c⟩ := hc
  have a2 : Books ((s1.cutReceiving l).noteSyncLoss l) := by
    unfold State.noteSyncLoss; split
    · exact (a.bumpLane _ _).latch _
    · exact a
  have hl2 : ∀ m, ((s1.cutReceiving l).noteSyncLoss l).lane m = (s1.cutReceiving l).lane m := by simp
  have hd2 : ∀ e, ((s1.cutReceiving l).noteSyncLoss l).desc e = (s1.cutReceiving l).desc e := by simp
  refine ⟨a2.setRx _ _, ((b.trans (OnLane.of_same (l := l) (fun m _ => hl2 m) (fun e => by rw [hd2]))).trans OnLane.of_same).handed hh1 ?_⟩
  exact NoneReceiving.handedOver ((c.congr (by rw [hl2]) (fun e => by rw [hd2])).congr)

end Books

end Sys2Proof.Machine
end

