-- ==== Sys2Proof/Laws/Folds.lean ====
section
/-! SUPPORT. What repeated evictions and cuts do: admission under Evict Oldest, lane disable and CLEAR's first step. -/

namespace Sys2Proof.Machine

/-- One eviction of the head record (R86). -/
theorem State.evict_head (s : State) (u : StreamId) (d : DescId) (ds) (hq : (s.stream u).queue = d :: ds) :
   ((s.evict u d).stream u).queue = ds ∧ (s.evict u d).pool.freeDescs = s.pool.freeDescs ++ [d] ∧ (s.evict u d).streamCount u .recordsEvicted = bump (s.streamCount u .recordsEvicted) ∧ (s.evict u d).latched .recordDrop = true ∧ (∀ v, v ≠ u → ((s.evict u d).stream v).queue = (s.stream v).queue) := by
  refine ⟨?_, ?_, ?_, ?_, ?_⟩
  · simp [State.evict, State.stream_dequeue, hq]
  · simp [State.evict]
  · simp [State.evict]
  · simp [State.evict]
  · intro v hv; simp [State.evict, State.stream_dequeue, hv]

/-- Evictions take some number of head records, oldest first (R86). -/
theorem State.evictUntil_prefix (ds : List DescId) (s : State) (u : StreamId) (n) (hq : (s.stream u).queue = ds) :
   ∃ k, k ≤ ds.length ∧ ((s.evictUntil u n ds).stream u).queue = ds.drop k ∧ (s.evictUntil u n ds).pool.freeDescs = s.pool.freeDescs ++ ds.take k
    ∧ (s.evictUntil u n ds).streamCount u .recordsEvicted = bump^[k] (s.streamCount u .recordsEvicted) ∧ (0 < k → (s.evictUntil u n ds).latched .recordDrop = true)
    ∧ (∀ v, v ≠ u → ((s.evictUntil u n ds).stream v).queue = (s.stream v).queue) := by
  induction ds generalizing s with
  | nil => exact ⟨0, by simp, by simp [State.evictUntil, hq], by simp [State.evictUntil], by simp [State.evictUntil], by simp, by simp [State.evictUntil]⟩
  | cons d ds ih =>
    unfold State.evictUntil; split
    · exact ⟨0, by simp, by simp [hq], by simp, by simp, by simp, by simp⟩
    · obtain ⟨e1, e2, e3, e4, e5⟩ := State.evict_head s u d ds hq
      obtain ⟨k, h1, h2, h3, h4, h5, h6⟩ := ih (s.evict u d) e1
      refine ⟨k+1, by simpa using h1, by simpa using h2, by simp [h3, e2], by rw [h4, e3]; rfl, fun _ => State.latched_evictUntil _ _ _ _ _ e4, fun v hv => by rw [h6 v hv, e5 v hv]⟩

/-- Cutting every record of a lane's list leaves it empty (R39). -/
theorem State.cuts_list (l : LaneId) (ds) (s : State) (h : (s.lane l).unit.list = ds) : ((ds.foldl (fun s d => s.cut l d) s).lane l).unit.list = [] := by
  induction ds generalizing s with
  | nil => exact h
  | cons d ds ih => rw [List.foldl_cons]; apply ih; simp [State.cut, State.unit_abort, Reception.abort, h]

/-- A lane's list after every record is cut (R39). -/
theorem State.cutAll_list (s : State) (l) : ((s.cutAll l).lane l).unit.list = [] := State.cuts_list l _ s rfl

/-- A cut latches RECORD_DROP (R37). -/
theorem State.cut_latched (s : State) (l d) : (s.cut l d).latched .recordDrop = true := by simp [State.cut]

/-- A cut clears no latch. -/
theorem State.latched_cut (s : State) (l d e) (h : s.latched e = true) : (s.cut l d).latched e = true := by
  by_cases he : e = .recordDrop
  · subst he; simp [State.cut]
  · simp [State.cut, he, h]

/-- Cuts clear no latch. -/
theorem State.latched_cuts (l : LaneId) (ds : List DescId) (s : State) (e) (h : s.latched e = true) : (ds.foldl (fun s d => s.cut l d) s).latched e = true := by
  induction ds generalizing s with
  | nil => exact h
  | cons d ds ih => rw [List.foldl_cons]; exact ih _ (State.latched_cut _ _ _ _ h)

/-- Cutting a lane's records latches RECORD_DROP where there is one (R37). -/
theorem State.cutAll_latched (s : State) (l) (h : (s.lane l).unit.list ≠ []) : (s.cutAll l).latched .recordDrop = true := by
  unfold State.cutAll
  cases hh : (s.lane l).unit.list with
  | nil => exact absurd hh h
  | cons d ds => rw [List.foldl_cons]; exact State.latched_cuts _ _ _ _ (State.cut_latched _ _ _)

/-- CLEAR's first step on its lane (R157, R20). -/
theorem State.clearLane_self (s : State) (l) : ((s.clearLane l).lane l).unit.list = [] ∧ ((s.clearLane l).lane l).rx = if (s.lane l).entry.enable then (s.lane l).rx.hunt else (s.lane l).rx := by
  unfold State.clearLane; dsimp only
  have : ((s.cutAll l).lane l).entry = (s.lane l).entry := by simp
  rw [this]
  split <;> simp [State.cutAll_list]

/-- CLEAR's first step on another lane. -/
theorem State.clearLane_ne (s : State) (l m) (h : m ≠ l) : (s.clearLane l).lane m = s.lane m := by simp [h]

/-- CLEAR's first step on a lane clears no latch. -/
theorem State.latched_clearLane (s : State) (l e) (h : s.latched e = true) : (s.clearLane l).latched e = true := by
  have : (s.cutAll l).latched e = true := State.latched_cuts _ _ _ _ h
  unfold State.clearLane; dsimp only; split <;> simp [this]

/-- CLEAR's first step on a lane with records latches RECORD_DROP. -/
theorem State.clearLane_recordDrop (s : State) (l) (h : (s.lane l).unit.list ≠ []) : (s.clearLane l).latched .recordDrop = true := by
  have := State.cutAll_latched s l h
  unfold State.clearLane; dsimp only; split <;> simp [this]

/-- CLEAR's first step over some lanes (R157, R20). -/
theorem State.clearLanes (ls : List LaneId) (s : State) (hn : ls.Nodup) :
   (∀ l ∈ ls, ((ls.foldl State.clearLane s).lane l).unit.list = [] ∧ ((ls.foldl State.clearLane s).lane l).rx = if (s.lane l).entry.enable then (s.lane l).rx.hunt else (s.lane l).rx)
   ∧ (∀ l ∉ ls, (ls.foldl State.clearLane s).lane l = s.lane l)
   ∧ (∀ l, ((ls.foldl State.clearLane s).lane l).entry = (s.lane l).entry)
   ∧ (∀ e, s.latched e = true → (ls.foldl State.clearLane s).latched e = true)
   ∧ (∀ l ∈ ls, (s.lane l).unit.list ≠ [] → (ls.foldl State.clearLane s).latched .recordDrop = true) := by
  induction ls generalizing s with
  | nil => simp
  | cons l ls ih =>
    obtain ⟨hl, hn⟩ := List.nodup_cons.mp hn
    obtain ⟨i1, i2, i3, i4, i5⟩ := ih (s.clearLane l) hn
    have e1 : ∀ m, ((s.clearLane l).lane m).entry = (s.lane m).entry := by intro m; simp
    simp only [List.foldl_cons]
    refine ⟨?_, ?_, ?_, ?_, ?_⟩
    · intro m hm
      by_cases h : m = l
      · subst h; rw [i2 _ hl]; exact State.clearLane_self s m
      · have := i1 m (by simpa [h] using hm)
        rw [State.clearLane_ne _ _ _ h] at this; exact this
    · intro m hm
      simp at hm; rw [i2 m hm.2, State.clearLane_ne _ _ _ hm.1]
    · intro m; rw [i3, e1]
    · intro e he; exact i4 e (State.latched_clearLane _ _ _ he)
    · intro m hm hne
      by_cases h : m = l
      · subst h; exact i4 _ (State.clearLane_recordDrop _ _ hne)
      · exact i5 m (by simpa [h] using hm) (by rw [State.clearLane_ne _ _ _ h]; exact hne)

/-! ### Counters and latches under cuts -/

theorem State.countsOnly_refl (s : State) (a b c) : s.countsOnly s a b c :=
  ⟨fun _ _ _ => rfl, fun _ _ _ => rfl, fun _ _ => rfl⟩

theorem State.countsOnly.trans {s t u : State} {a b c} (h1 : s.countsOnly t a b c) (h2 : t.countsOnly u a b c) :
    s.countsOnly u a b c :=
  ⟨fun l k h => (h2.1 l k h).trans (h1.1 l k h), fun v k h => (h2.2.1 v k h).trans (h1.2.1 v k h),
    fun k h => (h2.2.2 k h).trans (h1.2.2 k h)⟩

theorem State.latchesOnly.trans {s t u : State} {es} (h1 : s.latchesOnly t es) (h2 : t.latchesOnly u es) :
    s.latchesOnly u es := fun e h => (h2 e h).trans (h1 e h)

/-- One cut moves its lane's Records Cut and latches RECORD_DROP, and moves and latches nothing else (R37, R39). -/
theorem State.cut_counts (s : State) (l : LaneId) (d : DescId) (a : List (LaneId × LaneCounter))
    (h : (l, .recordsCut) ∈ a) : s.countsOnly (s.cut l d) a [] [] ∧ s.latchesOnly (s.cut l d) [.recordDrop] := by
  refine ⟨⟨fun m k hm => ?_, fun m k _ => ?_, fun k _ => ?_⟩, fun e he => ?_⟩
  · have : m ≠ l ∨ k ≠ .recordsCut := by
      by_contra hc; push Not at hc; rw [hc.1, hc.2] at hm; exact hm h
    simp [State.cut, this]
  · simp [State.cut]
  · simp [State.cut]
  · simp only [List.mem_singleton] at he
    simp [State.cut, he]

/-- The cuts of a lane's whole list (R39). -/
theorem State.cutAll_counts (s : State) (l : LaneId) (a : List (LaneId × LaneCounter)) (h : (l, .recordsCut) ∈ a) :
    s.countsOnly (s.cutAll l) a [] [] ∧ s.latchesOnly (s.cutAll l) [.recordDrop] := by
  unfold State.cutAll
  generalize (s.lane l).unit.list = ds
  induction ds generalizing s with
  | nil => exact ⟨State.countsOnly_refl _ _ _ _, fun _ _ => rfl⟩
  | cons d ds ih =>
    obtain ⟨c1, c2⟩ := State.cut_counts s l d a h
    obtain ⟨i1, i2⟩ := ih (s.cut l d)
    exact ⟨c1.trans i1, c2.trans i2⟩

/-- CLEAR's first step over some lanes moves only Records Cut and latches only RECORD_DROP (R157). -/
theorem State.clearLanes_counts (ls : List LaneId) (s : State) :
    s.countsOnly (ls.foldl State.clearLane s) ((List.finRange 8).map fun l => (l, .recordsCut)) [] []
      ∧ s.latchesOnly (ls.foldl State.clearLane s) [.recordDrop] := by
  induction ls generalizing s with
  | nil => exact ⟨State.countsOnly_refl _ _ _ _, fun _ _ => rfl⟩
  | cons l ls ih =>
    have hl : (l, LaneCounter.recordsCut) ∈ (List.finRange 8).map fun l : LaneId => (l, LaneCounter.recordsCut) :=
      List.mem_map.mpr ⟨l, List.mem_finRange l, rfl⟩
    obtain ⟨c1, c2⟩ := State.cutAll_counts s l _ hl
    have d1 : s.countsOnly (s.clearLane l) ((List.finRange 8).map fun l => (l, .recordsCut)) [] [] := by
      unfold State.clearLane; dsimp only; split
      · exact c1
      · exact c1
    have d2 : s.latchesOnly (s.clearLane l) [.recordDrop] := by
      unfold State.clearLane; dsimp only; split
      · exact c2
      · exact c2
    obtain ⟨i1, i2⟩ := ih (s.clearLane l)
    exact ⟨d1.trans i1, d2.trans i2⟩

end Sys2Proof.Machine
end

