-- ==== Sys2Proof/Laws/Cells.lean ====
section
/-! SUPPORT. Every act keeps every cell and every descriptor in its one place (R29, R65, R66: `PlacesInv`). -/

namespace Sys2Proof.Machine

/-- With no staging cell WRITING, the unit is as R29 says whatever the port does. -/
theorem ReceptionInv.idle {u : Reception} {st ch w w'} (h : ReceptionInv u st ch w) (hn : ∀ i : Fin 4, u.staging[i.val].isWriting = false) :
    ReceptionInv u st ch w' :=
  ⟨h.states, h.receivingLast, h.completingBusy, h.endedBusy, h.orderOnce, h.orderPending, h.orderByList, h.owned,
    h.ownerless, h.filling, h.oneFilling, fun i c hi => absurd (hn i) (by rw [hi]; simp [StagingCell.isWriting]), h.oneWriting, h.retiringWriting⟩

theorem count_finRange {n : ℕ} (i : Fin n) : (List.finRange n).count i = 1 :=
  List.count_eq_one_of_mem (List.nodup_finRange n) (List.mem_finRange i)

theorem count_allDescs (d : DescId) : allDescs.count d = 1 := count_finRange d

theorem count_allCells (k : CellId) : allCells.count k = 1 := count_finRange k

namespace Books

variable {s t : State}

/-- A cell write ends (R32, R36, R38). -/
theorem finishWrite (h : Books s) {l} (hop : s.port.op = some (.write l)) : Books (s.finishWrite l) := by
  have hother : ∀ m, m ≠ l → ¬ s.port.op = some (.write m) := by
    intro m hm h2; rw [hop] at h2; cases h2; exact hm rfl
  have hidle : (∀ i : Fin 4, (s.lane l).unit.staging[i.val].isWriting = false) → Books s.freePort := by
    intro hn
    refine h.unit l (hm := fun m _ => rfl) (hop := fun m hm h2 => absurd h2 (hother m hm)) (hl := ?_)
    intro hch
    exact ((h.lanes l).congr (fun e _ => rfl) (fun e _ => hch e) id).idle hn
  cases hf : (s.lane l).unit.findStaging StagingCell.isWriting with
  | none =>
    unfold State.finishWrite; simp only [hf]
    exact hidle (by rw [Reception.findStaging_eq_none] at hf; exact hf)
  | some i =>
    have hi := List.find?_some hf
    obtain ⟨c, hc⟩ : ∃ c, (s.lane l).unit.staging[i.val] = .writing c := by
      cases hst : (s.lane l).unit.staging[i.val] with
      | writing c => exact ⟨c, rfl⟩
      | free => rw [hst] at hi; cases hi
      | filling c => rw [hst] at hi; cases hi
      | pending c => rw [hst] at hi; cases hi
    have hnw : ∀ j : Fin 4, j ≠ i → (s.lane l).unit.staging[j.val].isWriting = false := by
      intro j hj
      by_contra hw
      exact hj ((h.lanes l).oneWriting j i (by simpa using hw) (by rw [hc]; rfl))
    obtain ⟨x, hx⟩ : ∃ x, x = (s.freePort.storeCell c.cell c.image).setUnit l { (s.lane l).unit with
      staging := (s.lane l).unit.staging.set i.val .free, retiring := none } := ⟨_, rfl⟩
    obtain ⟨e1, e2⟩ := State.finishWrite_eq s l i c hc hnw x hx
    have hxu : (x.lane l).unit = { (s.lane l).unit with staging := (s.lane l).unit.staging.set i.val .free, retiring := none } := by
      rw [hx]; simp
    have hxm : ∀ m, m ≠ l → (x.lane m).unit = (s.lane m).unit := by intro m hm; rw [hx]; simp [hm]
    have hxd : ∀ e, x.desc e = s.desc e := by intro e; rw [hx]; simp
    have hxp : x.pool = s.pool := by rw [hx]; simp
    have hxs : ∀ u, x.stream u = s.stream u := by intro u; rw [hx]; simp
    have hxh : ∀ u, x.slot u = s.slot u := by intro u; rw [hx]; simp
    have hfree : ∀ j : Fin 4, (x.lane l).unit.staging[j.val] = if j = i then .free else (s.lane l).unit.staging[j.val] := by
      intro j; rw [hxu]; exact staging_set_get ..
    obtain ⟨_, hw2, hw3⟩ := (h.lanes l).writing i c hc
    cases hret : (s.lane l).unit.retiring with
    | some k =>
      have hown : c.owner = none := by
        cases ho : c.owner with
        | none => rfl
        | some d => rw [(hw2 d ho).2] at hret; cases hret
      rw [e1 k hret]
      have hxu' : ((x.returnCells [k]).lane l).unit = (x.lane l).unit := by simp
      refine h.retired l k hret (by simp [hxp]) (by simp [hxp]) (by simp [hxp]) (by rw [← hxp]; rfl) (fun e => hxd e) ?_ ?_ ?_ (by simp [hxs]) (by simp [hxh]) ?_
      · intro e
        unfold live
        rw [listCount_eq s _ e (fun m => by
          by_cases hm : m = l
          · subst hm; simp [hxu]
          · simp [hxm m hm]), queueCount_eq s _ e (by simp [hxs]), slotCount_eq s _ e (by simp [hxh])]
      · rw [hxu', hxu]
      · intro m hm; simp [hxm m hm]
      · intro hch m
        by_cases hm : m = l
        · subst hm
          have hwr : ReceptionInv ((x.returnCells [k]).lane m).unit (fun d => (s.desc d).state) s.chain ((x.returnCells [k]).port.op = some (.write m)) := by
            rw [hxu', hxu]
            refine (h.lanes m).written hc rfl rfl rfl rfl rfl ?_
            intro d hd; rw [hown] at hd; cases hd
          refine hwr.congr (fun e _ => congrArg Desc.state (hxd e)) ?_ id
          intro e he; rw [hxu', hxu] at he
          exact hch e (by rw [h.live_list he]; exact Nat.one_ne_zero)
        · have hu : ((x.returnCells [k]).lane m).unit = (s.lane m).unit := by simp [hxm m hm]
          rw [hu]
          refine (h.lanes m).congr (fun e _ => congrArg Desc.state (hxd e)) ?_ (fun h2 => absurd h2 (hother m hm))
          intro e he; exact hch e (by rw [h.live_list he]; exact Nat.one_ne_zero)
    | none =>
      rw [e2 hret]
      obtain ⟨d, hd⟩ : ∃ d, c.owner = some d := by
        cases ho : c.owner with
        | none => rw [hw3 ho] at hret; cases hret
        | some d => exact ⟨d, rfl⟩
      have hhead := (hw2 d hd).1
      rw [State.tryComplete_eq x l d (by rw [hxu]; exact hhead)]
      split
      · rename_i hcp
        refine Books.complete l d s h hhead (hr := by rw [hxp]) (hfd := by rw [hxp]) (hfc := by rw [hxp]) (hlk := by rw [hxp])
          (hd := fun e => by rw [hxd]; exact ⟨rfl, rfl⟩) (hst := fun e _ => by rw [hxd]) (hl := by rw [hxu]) (hret := by rw [hxu]; exact hret.symm)
          (hm := hxm) (hq := fun u => by rw [hxs]) (hs := fun u => by rw [hxh]) (hop := fun m hm h2 => absurd h2 (hother m hm))
          (hsame := ?_) (hown := ?_) (ho := by rw [hxu]) (hcd := by rw [hxu]) (hw := ?_)
        · intro j; rw [hfree]; split
          · subst_vars; exact .inr ⟨rfl, c, hc, hd⟩
          · exact .inl rfl
        · intro j c' hj ho
          have hb := hcp.2 j
          rw [hfree] at hj hb; split at hj
          · cases hj
          · rename_i hji
            rw [if_neg hji] at hb
            cases hst : (s.lane l).unit.staging[j.val] with
            | free => rw [hst] at hj; cases hj
            | filling y =>
              rw [hst] at hj; cases hj
              have := ((h.lanes l).filling j c' d hst ho).1
              rw [hxd] at hcp; rw [hcp.1] at this; cases this
            | pending y => rw [hst] at hj hb; cases hj; simp [StagingCell.busyFor, ho] at hb
            | writing y => rw [hst] at hj hb; cases hj; simp [StagingCell.busyFor, ho] at hb
        · rintro _ ⟨j, hj⟩
          rw [hfree] at hj; split at hj
          · cases hj
          · rename_i hji; rw [hnw j hji] at hj; cases hj
      · rename_i hcp
        refine h.unit l (hr := by rw [hxp]) (hfd := by rw [hxp]) (hfc := by rw [hxp]) (hlk := by rw [hxp])
          (hd := fun e => by rw [hxd]; exact ⟨rfl, rfl⟩) (hst := fun e _ => by rw [hxd]) (hlist := by rw [hxu]) (hret := by rw [hxu]; exact hret.symm)
          (hm := hxm) (hq := fun u => by rw [hxs]) (hs := fun u => by rw [hxh]) (hop := fun m hm h2 => absurd h2 (hother m hm)) (hl := ?_)
        intro hch
        have hwr : ReceptionInv (x.lane l).unit (fun d => (s.desc d).state) s.chain (x.port.op = some (.write l)) := by
          refine (h.lanes l).written hc (by rw [hxu]) (by rw [hxu]) (by rw [hxu]) (by rw [hxu]) (by rw [hxu]) ?_
          intro d' hd' hcmp
          rw [hd] at hd'; cases hd'
          by_contra hn
          apply hcp
          refine ⟨by rw [hxd]; exact hcmp, fun j => ?_⟩
          by_contra hb; exact hn ⟨j, by simpa using hb⟩
        exact hwr.congr (fun e _ => congrArg Desc.state (hxd e)) (fun e _ => hch e) id

/-- A grant (R136). -/
theorem arbitrate (h : Books s) (hop : s.port.op = none) : Books s.arbitrate := by
  have hno : ∀ m, ¬ s.port.op = some (.write m) := by intro m h2; rw [hop] at h2; cases h2
  unfold State.arbitrate; split
  · exact h.same (hop := fun m h2 => absurd h2 (hno m))
  · split
    · unfold State.grantRequester
      have hpos : ∀ {s : State} r, Books s → Books (s.setPosition r) := fun r h => h.same
      apply hpos
      split
      · rename_i r _ hlt
        generalize (⟨r.val, hlt⟩ : LaneId) = l
        unfold State.grantWrite; simp only; split
        · exact h
        · rename_i i c hnw
          have hi : ∃ is, (s.lane l).unit.order = i :: is ∧ (s.lane l).unit.staging[i.val] = .pending c := by
            unfold Reception.nextWrite at hnw
            split at hnw
            · cases hnw
            · rename_i j js hord; split at hnw
              · cases hnw; exact ⟨js, hord, by assumption⟩
              · cases hnw
          obtain ⟨is, ho, hp⟩ := hi
          obtain ⟨x, hx⟩ : ∃ x, (s.setUnit l { (s.lane l).unit with order := (s.lane l).unit.order.tail, staging := (s.lane l).unit.staging.set i.val (.writing c) }).startOp (.write l) = x := ⟨_, rfl⟩
          rw [hx]
          have hxu : (x.lane l).unit = { (s.lane l).unit with order := (s.lane l).unit.order.tail, staging := (s.lane l).unit.staging.set i.val (.writing c) } := by
            rw [← hx]; simp
          refine h.unit l (hr := by rw [← hx]; simp) (hfd := by rw [← hx]; simp) (hfc := by rw [← hx]; simp) (hlk := by rw [← hx]; simp)
            (hd := by rw [← hx]; simp) (hst := by rw [← hx]; simp) (hlist := by rw [hxu]) (hret := by rw [hxu])
            (hm := fun m hm => by rw [← hx]; simp [hm]) (hq := by rw [← hx]; simp) (hs := by rw [← hx]; simp) (hop := fun m _ h2 => absurd h2 (hno m)) (hl := ?_)
          intro hch
          refine ((h.lanes l).grant (u' := (x.lane l).unit) (h.nodup l) ho hp ?_ (by rw [hxu]) (by rw [hxu]) (by rw [hxu, ho]; rfl) (by rw [hxu]) (by rw [hxu]) (w' := x.port.op = some (.write l)) (by rw [← hx]; rfl)).congr
            (fun e _ => by rw [← hx]; simp) (fun e _ => hch e) id
          intro j
          cases hst : (s.lane l).unit.staging[j.val] with
          | writing y => exact absurd ((h.lanes l).writing j y hst).1 (hno l)
          | free => rfl
          | filling y => rfl
          | pending y => rfl
      · have : ∀ m, s.port.op = some (.write m) → s.grantRead.port.op = some (.write m) := fun m h2 => absurd h2 (hno m)
        exact h.same (hop := this)
    · split
      · exact h.same (hop := fun m h2 => absurd h2 (hno m))
      · exact h

theorem count_sum {n} (l : List (Fin n)) : ∑ d, l.count d = l.length := by
  induction l with
  | nil => simp
  | cons a l ih => simp [List.count_cons, Finset.sum_add_distrib, ih]

theorem sum_live (s : State) : ∑ d, live s d = listsSum s + queuesSum s + slotsSum s := by
  have h1 : ∑ d, listCount s d = listsSum s := by
    unfold listCount listsSum; rw [Finset.sum_comm]
    exact Finset.sum_congr rfl fun l _ => count_sum _
  have h2 : ∑ d, queueCount s d = queuesSum s := by
    unfold queueCount queuesSum; rw [Finset.sum_comm]
    exact Finset.sum_congr rfl fun l _ => count_sum _
  have h3 : ∑ d, slotCount s d = slotsSum s := by
    unfold slotCount slotsSum; rw [Finset.sum_comm]
    refine Finset.sum_congr rfl fun i _ => ?_
    cases (s.slot i).held <;> simp
  unfold live
  rw [Finset.sum_add_distrib, Finset.sum_add_distrib, h1, h2, h3]

/-- The descriptors add up to 4096 (R66). -/
theorem places (h : Books s) (hr : s.pool.ready = true) : placesSum s = 4096 := by
  have h1 : ∑ d : DescId, (s.pool.freeDescs.count d + live s d) = 4096 := by
    rw [Finset.sum_congr rfl fun d _ => h.descs hr d]; simp
  rw [Finset.sum_add_distrib, count_sum, sum_live] at h1
  unfold placesSum; omega

theorem places_zero (h : Books s) (hr : s.pool.ready = false) : placesSum s = 0 := by
  obtain ⟨a, _, b, _⟩ := h.empty hr
  have h1 : ∑ d : DescId, live s d = 0 := Finset.sum_eq_zero fun d _ => b d
  rw [sum_live] at h1
  unfold placesSum; rw [a]; simp only [List.length_nil]; omega

/-- The cells add up to 16384 (R65). -/
theorem cellsSum (h : Books s) (hr : s.pool.ready = true) :
    s.pool.freeCells.length + (s.records.map fun d => (s.desc d).cellCount).sum + s.retiringCells.length = 16384 := by
  have h1 : ∑ k : CellId, (s.pool.freeCells.count k + chainCount s k + retCount s k) = 16384 := by
    rw [Finset.sum_congr rfl fun k _ => h.cells hr k]; simp
  rw [Finset.sum_add_distrib, Finset.sum_add_distrib, count_sum] at h1
  have h2 : ∑ k, retCount s k = s.retiringCells.length := by
    rw [← count_sum]; exact Finset.sum_congr rfl fun k _ => (count_retiring s k).symm
  have h3 : ∑ k, chainCount s k = (s.records.map fun d => (s.desc d).cellCount).sum := by
    rw [sum_records]; unfold chainCount; rw [Finset.sum_comm]
    refine Finset.sum_congr rfl fun d _ => ?_
    rw [← Finset.mul_sum, count_sum]
    by_cases h0 : live s d = 0
    · rw [h0, Nat.zero_mul, Nat.zero_mul]
    · rw [(h.chains d h0).1]
  rw [h2, h3] at h1; exact h1

/-- Empty places (R72). -/
theorem blank (hr : s.pool.ready = false) (hfd : s.pool.freeDescs = []) (hfc : s.pool.freeCells = [])
    (hu : ∀ l, (s.lane l).unit.list = [] ∧ (s.lane l).unit.order = [] ∧ (s.lane l).unit.retiring = none ∧ ∀ i : Fin 4, (s.lane l).unit.staging[i.val] = .free)
    (hq : ∀ u, (s.stream u).queue = []) (hs : ∀ i, (s.slot i).held = none) : Books s := by
  have hl : ∀ d, live s d = 0 := by
    intro d; unfold live listCount queueCount slotCount; simp [(hu _).1, hq, hs]
  refine ⟨?_, ?_, ?_, ?_, ?_, ?_, ?_, ?_⟩
  · intro h; rw [hr] at h; cases h
  · intro d hd; rw [hfd] at hd; cases hd
  · intro u d hd; rw [hq] at hd; cases hd
  · intro i g hg; rw [hs] at hg; cases hg
  · intro h; rw [hr] at h; cases h
  · intro d hd; exact absurd (hl d) hd
  · intro _; refine ⟨hfd, hfc, hl, ?_⟩; intro k; unfold retCount; simp [(hu _).2.2.1]
  · intro l; obtain ⟨a, b, c, d⟩ := hu l; exact ReceptionInv.of_empty a b c d

/-- With no record on the list and no write in flight, no staging cell is in use (R42, R158). -/
theorem unit_empty (h : Books s) {l} (hl : (s.lane l).unit.list = []) (hop : ¬ s.port.op = some (.write l)) :
    (s.lane l).unit.order = [] ∧ (s.lane l).unit.retiring = none ∧ ∀ i : Fin 4, (s.lane l).unit.staging[i.val] = .free := by
  have hs : ∀ i : Fin 4, (s.lane l).unit.staging[i.val] = .free := by
    intro i
    cases hst : (s.lane l).unit.staging[i.val].staged with
    | none => cases hx : (s.lane l).unit.staging[i.val] <;> rw [hx] at hst <;> first | rfl | cases hst
    | some c =>
      cases ho : c.owner with
      | some d => have := ((h.lanes l).owned i c d hst ho).1; rw [hl] at this; cases this
      | none => exact absurd ((h.lanes l).writing i c ((h.lanes l).ownerless i c hst ho)).1 hop
  refine ⟨?_, ?_, hs⟩
  · rw [List.eq_nil_iff_forall_not_mem]; intro i hi
    rw [(h.lanes l).orderPending, hs] at hi; cases hi
  · by_contra hn
    obtain ⟨i, c, h1, _⟩ := (h.lanes l).retiringWriting hn
    rw [hs] at h1; cases h1

theorem clearSecond (h : Books s) (hl : s.listsEmpty) (hop : s.noWriteInFlight = true) : Books s.clearSecond := by
  have hno : ∀ m, ¬ s.port.op = some (.write m) := by
    intro m h2; unfold State.noWriteInFlight at hop; rw [h2] at hop; cases hop
  have hun : ∀ m, (s.clearSecond.lane m).unit = (s.lane m).unit := by intro m; simp
  refine blank rfl rfl rfl ?_ ?_ ?_
  · intro m; rw [hun]; exact ⟨hl m, h.unit_empty (hl m) (hno m)⟩
  · intro u; simp [State.clearSecond, State.emptyQueues, State.stream, State.startBuild, State.setPhase, Stream.emptied]
  · intro i
    simp [State.clearSecond, State.emptyQueues, State.slot, State.startBuild, State.setPhase, HoldSlot.emptied]
    split <;> simp_all

theorem finishBuild (h : Books s) (hr : s.pool.ready = false) : Books s.finishBuild := by
  obtain ⟨_, _, h0, hr0⟩ := h.empty hr
  have hl : ∀ d, live s.finishBuild d = 0 := h0
  have hlist : ∀ l d, d ∉ (s.lane l).unit.list := by
    intro l d hd; have := list_le_live s l d; have := List.count_pos_iff.mpr hd; have := h0 d; omega
  refine ⟨fun _ d => ?_, ?_, ?_, ?_, fun _ k => ?_, ?_, ?_, ?_⟩
  · rw [hl, show s.finishBuild.pool.freeDescs = allDescs by simp only [State.finishBuild], count_allDescs]
  · intro d _
    have hf : ∀ d, (s.finishBuild.desc d) = { s.desc d with state := .free } := by
      intro d; unfold State.finishBuild State.desc; dsimp only
      exact Tab.get_mapValues _ _ rfl _ _
    rw [hf]
  · intro u d hd
    have h1 := list_queue_le_live s 0 u d
    have h2 := List.count_pos_iff.mpr (show d ∈ (s.stream u).queue from hd)
    have := h0 d; omega
  · intro i g hg
    have := slot_le_live s i g hg 0 0; have := h0 g.desc; omega
  · have h1 := count_allCells k
    have h2 : chainCount s.finishBuild k = 0 := by unfold chainCount; simp [hl]
    have h3 : retCount s.finishBuild k = 0 := hr0 k
    rw [h2, h3, show s.finishBuild.pool.freeCells = allCells by simp only [State.finishBuild], h1]
  · intro d hd; exact absurd (hl d) hd
  · intro h; cases h
  · intro l
    exact (h.lanes l).congr (fun e he => absurd he (hlist l e)) (fun e he => absurd he (hlist l e)) id

end Books

/-! ### Acts that leave the lanes and their records -/

/-- The books and the lanes' RECEIVING records. -/
structure Good (s : State) : Prop where
  books : Books s
  handed : Handed s

theorem Good.same {s t : State} (h : Good s) (hr : t.pool.ready = s.pool.ready := by simp) (hfd : t.pool.freeDescs = s.pool.freeDescs := by simp)
    (hfc : t.pool.freeCells = s.pool.freeCells := by simp) (hlk : t.pool.links = s.pool.links := by simp)
    (hd : ∀ d, (t.desc d).state = (s.desc d).state ∧ (t.desc d).firstCell = (s.desc d).firstCell ∧ (t.desc d).cellCount = (s.desc d).cellCount := by simp)
    (hu : ∀ l, t.lane l = s.lane l := by simp) (hq : ∀ u, (t.stream u).queue = (s.stream u).queue := by simp)
    (hs : ∀ i, (t.slot i).held = (s.slot i).held := by simp)
    (hop : ∀ l, s.port.op = some (.write l) → t.port.op = some (.write l) := by simp) : Good t :=
  ⟨h.books.same hr hfd hfc hlk hd (fun l => by rw [hu]) hq hs hop, h.handed.same hu fun l d _ => (hd d).1⟩

theorem Good.settlePurge {s : State} (h : Good s) : Good s.settlePurge := h.same
theorem Good.endCommand {s : State} (h : Good s) (r) : Good (s.endCommand r) := h.same

/-- A queued record is freed. -/
theorem Good.dequeue_freeRecord {s : State} (h : Good s) {u d} (hd : d ∈ (s.stream u).queue) : Good ((s.dequeue u d).freeRecord d) := by
  refine ⟨h.books.dequeue_freeRecord hd, h.handed.same (by simp) ?_⟩
  intro l e he
  rw [State.desc_freeRecord, if_neg]; rfl
  intro h2; exact h.books.not_list_of_queue hd l (h2 ▸ he)

theorem Good.release {s : State} (h : Good s) {i g} (hg : (s.slot i).held = some g) :
    Good (((s.freeRecord g.desc).lowerHeld (s.desc g.desc).stream).emptySlot i) := by
  refine ⟨h.books.release hg, h.handed.same (by simp) ?_⟩
  intro l e he
  have : e ≠ g.desc := fun h2 => h.books.not_list_of_slot hg l (h2 ▸ he)
  simp [State.desc_freeRecord, this]

theorem Good.requeue {s : State} (h : Good s) {i g} (hg : (s.slot i).held = some g) : Good ((s.requeue g.desc).emptySlot i) := by
  refine ⟨h.books.requeue hg, h.handed.same (by simp) ?_⟩
  intro l e he
  have : e ≠ g.desc := fun h2 => h.books.not_list_of_slot hg l (h2 ▸ he)
  simp [State.desc_requeue, this]

theorem Good.hold {s : State} (h : Good s) {u d ds i} (hq : (s.stream u).queue = d :: ds) (hi : (s.slot i).held = none) : Good (s.hold u d i) := by
  refine ⟨h.books.hold hq hi, h.handed.same (by simp) ?_⟩
  intro l e he
  have : e ≠ d := fun h2 => h.books.not_list_of_queue (u := u) (d := d) (by rw [hq]; exact List.mem_cons_self ..) l (h2 ▸ he)
  simp [State.hold, this]

theorem Good.cutAll {s : State} (h : Good s) (l) : Good (s.cutAll l) := by
  have hon : ∀ ds (s : State), Books s → (s.lane l).unit.list = ds → OnLane l s (ds.foldl (fun s d => s.cut l d) s) := by
    intro ds; induction ds with
    | nil => intro s _ _; exact OnLane.refl ..
    | cons d ds ih =>
      intro s hb he
      have hd : d ∈ (s.lane l).unit.list := by rw [he]; exact List.mem_cons_self ..
      refine ((hb.onLane_abort hd).trans (OnLane.of_same (s := s.abort l d) (t := (s.abort l d).bumpLane l .recordsCut))).trans (ih _ (hb.cut hd) ?_)
      simp [State.unit_abort, Reception.abort, he]
  refine ⟨h.books.cutAll l, (hon _ s h.books rfl).handed h.handed ?_⟩
  intro d hd
  have := State.cutAll_list s l
  unfold State.cutAll at this
  rw [this] at hd; cases hd

theorem Good.setRx_of_empty {s : State} (h : Good s) (l rx) (hl : (s.lane l).unit.list = []) : Good (s.setRx l rx) := by
  refine ⟨h.books.setRx l rx, (OnLane.of_same (l := l) (s := s)).handed h.handed ?_⟩
  intro d hd; simp [hl] at hd

theorem Good.clearFirst {s : State} (h : Good s) : Good s.clearFirst := by
  have hone : ∀ {s : State} l, Good s → Good (s.clearLane l) := by
    intro s l h; unfold State.clearLane; dsimp only; split
    · exact (h.cutAll l).setRx_of_empty l _ (State.cutAll_list s l)
    · exact h.cutAll l
  have : ∀ (ls : List LaneId) (s : State), Good s → Good (ls.foldl State.clearLane s) := by
    intro ls; induction ls with
    | nil => intro s h; exact h
    | cons a as ih => intro s h; exact ih _ (hone a h)
  have h1 := this (List.finRange 8) s h
  unfold State.clearFirst
  generalize (List.finRange 8).foldl State.clearLane s = x at h1
  exact h1.same

theorem Good.writeCmd {s : State} (h : Good s) (c) : Good (s.writeCmd c) := by
  have ht : ∀ c p, Good (s.takeCommand c p) := fun c p => h.same
  unfold State.writeCmd; split
  · exact h.same (t := s.collide)
  · unfold State.acceptCommand; split
    · exact ht _ _
    · rename_i c _ _
      cases c <;> simp only [State.beginCommand]
      case purge => split <;> exact ht _ _
      case clear => exact (ht _ _).clearFirst
      all_goals exact ht _ _
    · exact ht _ _

theorem Good.setEntry {s : State} (h : Good s) (l : LaneId) (x : Lane) (hu : x.unit = (s.lane l).unit)
    (hrx : (x.rx = (s.lane l).rx) ∨ NoneReceiving s l) : Good (s.setLane l x) := by
  have hun : ∀ m, ((s.setLane l x).lane m).unit = (s.lane m).unit := by
    intro m; by_cases hm : m = l
    · subst hm; simp [hu]
    · simp [hm]
  refine ⟨h.books.same (hu := hun), (OnLane.of_same (l := l) (s := s)).handed h.handed ?_⟩
  rcases hrx with hrx | hn
  · intro d hd hr
    have e1 : (s.setLane l x).lane l = x := by simp
    rw [e1] at hd ⊢; rw [hu] at hd ⊢; rw [hrx]
    exact h.handed l d hd hr
  · exact NoneReceiving.handedOver (hn.congr (by rw [hun]) (fun _ => rfl))

theorem Good.tableWrite {s : State} (h : Good s) (e) : Good (s.doTableWrite e) := by
  unfold State.doTableWrite
  cases hc : s.commit e with
  | none => exact h.endCommand _
  | some s' =>
    apply Good.endCommand
    cases e with
    | route i => simp only [State.commit, State.commitRoute, Option.map_eq_some_iff] at hc; obtain ⟨r, hr, rfl⟩ := hc; exact h.same
    | stream u =>
      simp only [State.commit, State.commitStream] at hc
      split at hc
      · split at hc
        · cases hc
        · cases hc; exact h.same (hq := fun v => by by_cases hv : v = u <;> simp [hv])
      · cases hc
    | lane l =>
      simp only [State.commit, State.commitLane, Option.map_eq_some_iff] at hc; obtain ⟨r, hr, rfl⟩ := hc
      unfold State.commitLaneEntry; split
      · rename_i hd _
        have hn : NoneReceiving s l := h.handed.none (.inl (by rw [hd]; simp))
        have h1 : Good (s.setRx l ((s.lane l).rx.enabled s.now)) :=
          ⟨h.books.setRx _ _, (OnLane.of_same (l := l) (s := s)).handed h.handed (NoneReceiving.congr hn).handedOver⟩
        exact h1.setEntry l _ rfl (.inl rfl)
      · exact h.setEntry l _ rfl (.inl rfl)
      · exact h.setEntry l _ rfl (.inl rfl)
      · exact ((h.cutAll l).setRx_of_empty l _ (State.cutAll_list s l)).setEntry l _ rfl (.inl rfl)

theorem Good.expireHold {s : State} (h : Good s) {i x} (hx : s.expiredHold = some (i, x)) : Good (s.expireHold i x) := by
  have h1 := h.requeue (State.held_of_expiredHold hx)
  unfold State.expireHold
  generalize (s.requeue x.desc).emptySlot i = t at h1
  exact h1.same

theorem Good.ageOut {s : State} (h : Good s) {u d} (hd : s.expiredRecord u = some d) : Good (s.ageOut u d) := by
  have h1 := h.dequeue_freeRecord (List.mem_of_find?_eq_some hd)
  unfold State.ageOut
  generalize (s.dequeue u d).freeRecord d = t at h1
  exact h1.same

theorem Good.purgeStep {s : State} (h : Good s) (u b) : Good (s.purgeStep u b) := by
  unfold State.purgeStep; split
  · rename_i d hd
    have h1 := h.dequeue_freeRecord (State.mem_of_purgeHead hd)
    unfold State.purgeRecord
    generalize (s.dequeue u d).freeRecord d = t at h1
    exact h1.same
  · exact h.settlePurge

theorem Good.take {s : State} (h : Good s) (u) : Good (s.doTake u) := by
  unfold State.doTake; split
  · exact h.endCommand _
  · rename_i d ds hq
    split
    · exact h.endCommand _
    · rename_i i hi
      exact (h.hold hq (by have := List.find?_some hi; simpa using this)).endCommand _

/-- A completion leaves what `HandedOver` says of every lane. -/
theorem Good.handed_tryComplete {s x : State} (h : Good s) (l) (hx : ∀ m, (x.lane m).unit.list = (s.lane m).unit.list
    ∧ (x.lane m).unit.countdown = (s.lane m).unit.countdown ∧ (x.lane m).rx = (s.lane m).rx) (hd : ∀ e, x.desc e = s.desc e) :
    Handed (x.tryComplete l) := by
  have hxh : Handed x := by
    intro m d hg hr
    rw [(hx m).1] at hg; rw [(hx m).2.1, (hx m).2.2]
    exact h.handed m d hg ((congrArg Desc.state (hd d)).symm.trans hr)
  rcases State.tryComplete_cases x l with h2 | ⟨d, h2, h3⟩ <;> rw [h2]
  · exact hxh
  · rw [(hx l).1] at h3
    have hdm : d ∈ (s.lane l).unit.list := List.mem_of_head? h3
    intro m e he hr
    have hrx : ((x.complete l d).lane m).rx = (s.lane m).rx := by rw [← (hx m).2.2]; simp
    have hcd : ((x.complete l d).lane m).unit.countdown = (s.lane m).unit.countdown := by
      rw [← (hx m).2.1]; by_cases hm : m = l
      · subst hm; unfold State.complete; simp
      · simp [hm]
    have hem : e ∈ (s.lane m).unit.list ∧ e ≠ d := by
      have := List.mem_of_getLast? he
      by_cases hm : m = l
      · subst hm
        have hlt : ((x.complete m d).lane m).unit.list = (s.lane m).unit.list.tail := by
          rw [← (hx m).1]; unfold State.complete; simp
        rw [hlt] at this
        refine ⟨List.mem_of_mem_tail this, fun h4 => ?_⟩
        have hn := h.books.nodup m
        cases hq : (s.lane m).unit.list with
        | nil => rw [hq] at this; cases this
        | cons a as =>
          rw [hq] at this h3 hn; simp at h3; subst h3; subst h4
          exact (List.nodup_cons.mp hn).1 this
      · have hlt : ((x.complete l d).lane m).unit.list = (s.lane m).unit.list := by rw [← (hx m).1]; simp [hm]
        rw [hlt] at this
        exact ⟨this, fun h4 => h.books.not_list_of_list hdm hm (h4 ▸ this)⟩
    have hst : (s.desc e).state = .receiving := by
      rw [← hd, ← Books.desc_complete_ne x l hem.2]; exact hr
    rw [hrx, hcd]
    exact h.handed m e ((h.books.lanes m).last hem.1 hst) hst

theorem Good.finishWrite {s : State} (h : Good s) {l} (hop : s.port.op = some (.write l)) : Good (s.finishWrite l) := by
  refine ⟨h.books.finishWrite hop, ?_⟩
  have hset : ∀ (t : State) (u : Reception), t.lanes = s.lanes → u.list = (s.lane l).unit.list → u.countdown = (s.lane l).unit.countdown → ∀ m,
      ((t.setUnit l u).lane m).unit.list = (s.lane m).unit.list ∧ ((t.setUnit l u).lane m).unit.countdown = (s.lane m).unit.countdown
        ∧ ((t.setUnit l u).lane m).rx = (s.lane m).rx := by
    intro t u ht h1 h2 m
    have hlt : ∀ m, t.lane m = s.lane m := fun m => by unfold State.lane; rw [ht]
    by_cases hm : m = l
    · subst hm; simp [h1, h2, hlt]
    · simp [hm, hlt]
  unfold State.finishWrite; simp only
  split
  · exact h.handed.same
  · split
    · exact h.handed.same
    · rename_i i _ _ c _
      split
      · obtain ⟨x, hx⟩ : ∃ x, (s.freePort.storeCell c.cell c.image).setUnit l { (s.lane l).unit with
            staging := (s.lane l).unit.staging.set i.val .free, retiring := none } = x := ⟨_, rfl⟩
        have h2 := hset (s.freePort.storeCell c.cell c.image) { (s.lane l).unit with staging := (s.lane l).unit.staging.set i.val .free, retiring := none } rfl rfl rfl
        rw [hx] at h2 ⊢
        have hd : ∀ e, x.desc e = s.desc e := by intro e; rw [← hx]; rfl
        intro m d hg hr
        have hg' : (s.lane m).unit.list.getLast? = some d := by rw [← (h2 m).1]; simpa using hg
        have hr' : (s.desc d).state = .receiving := by rw [← hd]; exact hr
        have := h.handed m d hg' hr'
        have e1 : ∀ k, (x.returnCells [k]).lane m = x.lane m := fun _ => rfl
        rw [e1, (h2 m).2.1, (h2 m).2.2]; exact this
      · exact h.handed_tryComplete l (hset _ _ rfl rfl rfl) (fun e => rfl)

theorem Good.arbitrate {s : State} (h : Good s) (hop : s.port.op = none) : Good s.arbitrate := by
  refine ⟨h.books.arbitrate hop, ?_⟩
  have hsame : ∀ {s t : State}, Handed s → (∀ m, (t.lane m).unit.list = (s.lane m).unit.list ∧ (t.lane m).unit.countdown = (s.lane m).unit.countdown ∧ (t.lane m).rx = (s.lane m).rx) →
      (∀ e, t.desc e = s.desc e) → Handed t := by
    intro s t hh hx hd m d hg hr
    rw [(hx m).1] at hg; rw [(hx m).2.1, (hx m).2.2]
    exact hh m d hg ((congrArg Desc.state (hd d)).symm.trans hr)
  refine hsame h.handed ?_ ?_
  · intro m
    unfold State.arbitrate; split
    · exact ⟨rfl, rfl, rfl⟩
    · split
      · unfold State.grantRequester
        split
        · rename_i r _ hlt
          generalize (⟨r.val, hlt⟩ : LaneId) = l
          unfold State.grantWrite; simp only; split
          · simp
          · by_cases hm : m = l
            · subst hm; simp
            · simp [hm]
        · simp
      · split
        · exact ⟨rfl, rfl, rfl⟩
        · exact ⟨rfl, rfl, rfl⟩
  · intro e; simp

theorem Good.hardReset (s : State) : Good s.hardReset := by
  have hu : ∀ l, (s.hardReset.lane l).unit = Reception.reset := by
    intro l; simp [State.hardReset, State.lane, State.reset, Lane.reset]
  refine ⟨Books.blank rfl rfl rfl ?_ ?_ ?_, ?_⟩
  · intro l; rw [hu]; refine ⟨rfl, rfl, rfl, ?_⟩; intro i; simp [Reception.reset]
  · intro u; simp [State.hardReset, State.stream, State.reset, Stream.reset]
  · intro i; simp [State.hardReset, State.slot, State.reset, HoldSlot.reset]
  · intro l d hd; rw [hu] at hd; cases hd

/-- A late refresh marks records, and moves none (R141). -/
theorem State.desc_intervalExpiry (s : State) (d : DescId) : (s.intervalExpiry.desc d).state = (s.desc d).state
    ∧ (s.intervalExpiry.desc d).firstCell = (s.desc d).firstCell ∧ (s.intervalExpiry.desc d).cellCount = (s.desc d).cellCount := by
  have hm : ∀ x : Desc, x.markSuspect.state = x.state ∧ x.markSuspect.firstCell = x.firstCell ∧ x.markSuspect.cellCount = x.cellCount := by
    intro x; unfold Desc.markSuspect; split <;> exact ⟨rfl, rfl, rfl⟩
  unfold State.intervalExpiry; split
  · exact ⟨rfl, rfl, rfl⟩
  · have : ((s.lateRefresh.startInterval).desc d) = ((s.latch .refreshLate).bumpDevice .refreshLate).markSuspects.desc d := rfl
    rw [this]
    generalize hs : (s.latch .refreshLate).bumpDevice .refreshLate = x
    have hx : x.desc d = s.desc d := by rw [← hs]; rfl
    rw [← hx]
    by_cases hr : x.pool.ready = true
    · rw [State.desc_markSuspects x hr]; exact hm _
    · unfold State.markSuspects; rw [if_neg hr]; exact ⟨rfl, rfl, rfl⟩

/-- Every act keeps every cell and every descriptor in its one place (R65, R66), and the reception units as R29 says, where
the reception lists are empty in CLEAR's second step (R42). -/
theorem Good.act {s t : State} (h : Good s) (hcl : s.cmd.phase = .clearing .second → s.listsEmpty) (ha : State.Act s t) : Good t := by
  cases ha
  case same => exact h
  case hardReset => exact Good.hardReset s
  case takeEdge l b => exact ⟨(h.books.takeEdge h.handed l b).1, (h.books.takeEdge h.handed l b).2⟩
  case silence l _ => exact ⟨(h.books.fallSilent h.handed l).1, (h.books.fallSilent h.handed l).2⟩
  case arbitrate hop => exact h.arbitrate hop
  case finishWrite l hop _ => exact h.finishWrite hop
  case finishRead hr _ =>
    have hno : ∀ m, ¬ s.port.op = some (.write m) := by
      intro m h2; unfold State.readInFlight at hr; rw [h2] at hr; cases hr
    exact h.same (hop := fun m h2 => absurd h2 (hno m))
  case finishRefresh hr _ => exact h.same (hop := fun m h2 => by rw [hr] at h2; cases h2)
  case intervalExpiry _ => exact h.same (hd := State.desc_intervalExpiry s)
  case readsZero _ => exact h.same (hd := fun _ => ⟨rfl, rfl, rfl⟩) (hu := fun _ => rfl) (hq := fun _ => rfl) (hs := fun _ => rfl)
  case countMicrosecond => exact h.same (hq := State.queue_countMicrosecond s)
  case examination u => exact h.same (hq := fun v => by unfold State.examination; by_cases hv : v = u <;> simp [hv])
  case ageOut u d hd => exact h.ageOut hd
  case expireHold i x hx => exact h.expireHold hx
  case finishBuild hb =>
    have hr : s.pool.ready = false := by unfold State.buildDue at hb; simp at hb; exact hb.1.1
    refine ⟨h.books.finishBuild hr, h.handed.same (fun _ => rfl) ?_⟩
    intro l d hd; have := (h.books.empty hr).2.2.1 d
    rw [h.books.live_list hd] at this; cases this
  case take u _ => exact h.take u
  case peek u _ =>
    unfold State.doPeek; split
    · exact h.endCommand _
    · exact (h.same (t := s.setView _)).endCommand _
  case release x _ =>
    unfold State.doRelease; split
    · exact h.endCommand _
    · rename_i g hg; exact (h.release (State.held_of_currentHandle hg)).endCommand _
  case returnRecord x _ =>
    unfold State.doReturn; split
    · exact h.endCommand _
    · rename_i g hg; exact (h.requeue (State.held_of_currentHandle hg)).endCommand _
  case purgeStep u b _ => exact h.purgeStep u b
  case clearSecond hp hno =>
    have hl := hcl hp
    refine ⟨h.books.clearSecond hl hno, ?_⟩
    intro l d hd
    have : (s.clearSecond.lane l).unit.list = (s.lane l).unit.list := by simp
    rw [this, hl l] at hd; cases hd
  case clearThird => exact h.same
  case clearFourth =>
    have hop : ∀ l, s.port.op = some (.write l) → s.clearFourth.port.op = some (.write l) := by
      intro l hl; unfold State.clearFourth
      split <;> simp [State.endCommand, State.latch, State.idleWindow, discardRead, hl, State.answerError, State.bumpDevice]
    exact h.same (hop := hop)
  case tableWrite e _ => exact h.tableWrite e
  case writeCmd c _ => exact h.writeCmd c
  case writeWord a v _ =>
    unfold State.writeWord; split
    case h_4 => exact h.writeCmd _
    case h_15 =>
      have hp : ∀ s : State, ∀ l o, s.port.op = some (.write l) → (s.point o).port.op = some (.write l) := by
        intro s l o hl; simp [State.point, discardRead, hl]
      refine h.same (hop := fun l hl => ?_)
      unfold State.writeWinOffset; split
      · simpa using hl
      · split
        · exact hp _ l _ (by simpa using hl)
        · exact hp _ l _ hl
    all_goals exact h.same
  all_goals exact h.same

/-- Every act keeps `PlacesInv`. -/
theorem PlacesInv.act {s t : State} (h : PlacesInv s) (ha : State.Act s t) : PlacesInv t := by
  obtain ⟨hb, hh, hc⟩ := (PlacesInv.iff s).mp h
  have hd : DescInv s := by
    refine ⟨fun hr => ?_, fun hr => ?_, hc⟩
    · rw [State.descPlaces_eq]; exact hb.places hr
    · rw [← placesSum_eq_zero]; exact hb.places_zero hr
  have hg := Good.act ⟨hb, hh⟩ hc ha
  exact (PlacesInv.iff t).mpr ⟨hg.books, hg.handed, (hd.act ha).2.2⟩

end Sys2Proof.Machine
end

