-- ==== Sys2Proof/Laws/Outcomes.lean ====
section
/-! SUPPORT. What an abort, a freeing and a completion leave, said once in the words the statements use (Safety):
`State.cellsReturned`, `State.aborted`, `Reception.abortedTo`, `State.completed`. -/

namespace Sys2Proof.Machine

/-! ### Cells given back (R60, R61) -/

theorem State.cellsReturned_nil (s : State) : s.cellsReturned s [] := ⟨by simp, fun k => by simp⟩

theorem State.cellsReturned_returnCells (s : State) (cs : List CellId) : s.cellsReturned (s.returnCells cs) cs :=
  ⟨rfl, fun k => linkOf_endLinks _ _ k⟩

theorem State.cellsReturned.congr {s t s' t' : State} {cs : List CellId} (h : s.cellsReturned t cs)
    (hs1 : s'.pool.freeCells = s.pool.freeCells := by simp) (hs2 : s'.pool.links = s.pool.links := by simp)
    (ht1 : t'.pool.freeCells = t.pool.freeCells := by simp) (ht2 : t'.pool.links = t.pool.links := by simp) :
    s'.cellsReturned t' cs :=
  ⟨by rw [ht1, hs1]; exact h.1, fun k => by rw [ht2, hs2]; exact h.2 k⟩

theorem State.cellsReturned.trans {s t u : State} {cs ds : List CellId} (h : s.cellsReturned t cs)
    (h' : t.cellsReturned u ds) : s.cellsReturned u (cs ++ ds) := by
  refine ⟨by rw [h'.1, h.1, List.append_assoc], fun k => ?_⟩
  rw [h'.2, h.2]
  by_cases h1 : k ∈ ds <;> by_cases h2 : k ∈ cs <;> simp [h1, h2]

theorem State.cellsReturned_freeRecord (s : State) (d : DescId) : s.cellsReturned (s.freeRecord d) (s.chain d) :=
  (State.cellsReturned_returnCells s _).congr rfl rfl rfl rfl

theorem State.cellsReturned_abort (s : State) (l : LaneId) (d : DescId) :
    s.cellsReturned (s.abort l d) (s.abortedCells l d) := by
  have hf : (s.chain d).filter (fun c => (s.lane l).unit.writingCell d != some c) = s.abortedCells l d := by
    unfold State.abortedCells
    congr 1; funext c; rw [Bool.eq_iff_iff]; simp
  rw [← hf]
  exact (State.cellsReturned_returnCells s _).congr rfl rfl rfl rfl

/-! ### One abort (R37) -/

theorem StagingCell.abortedTo_one (x : StagingCell) (d : DescId) : x.abortedTo [d] = x.abort d := by
  cases x <;> simp [StagingCell.abortedTo, StagingCell.abort]

theorem StagingCell.abortedTo_nil (x : StagingCell) : x.abortedTo [] = x := by
  cases x <;> simp [StagingCell.abortedTo]

/-- Aborts followed by others are the aborts of them all. -/
theorem StagingCell.abortedTo_append (x : StagingCell) (ds es : List DescId) :
    x.abortedTo (ds ++ es) = (x.abortedTo ds).abortedTo es := by
  cases x with
  | free => rfl
  | filling c => by_cases h : (ds.any fun d => c.owner = some d) = true <;> simp [StagingCell.abortedTo, List.any_append, h]
  | pending c => by_cases h : (ds.any fun d => c.owner = some d) = true <;> simp [StagingCell.abortedTo, List.any_append, h]
  | writing c => by_cases h : (ds.any fun d => c.owner = some d) = true <;> simp [StagingCell.abortedTo, List.any_append, h]

theorem Reception.abortedTo_nil (u : Reception) : u.abortedTo u [] :=
  ⟨fun i => (StagingCell.abortedTo_nil _).symm, by simp, by simp, rfl⟩

theorem Reception.abortedTo_abort (u : Reception) (d : DescId) : u.abortedTo (u.abort d) [d] := by
  refine ⟨fun i => ?_, ?_, ?_, rfl⟩
  · rw [ReceptionInv.abort_staging, StagingCell.abortedTo_one]
  · simp [Reception.abort]
  · simp only [Reception.abort, List.reverse_singleton, List.findSome?_singleton]

/-- One abort (R37). -/
theorem State.aborted_abort (s : State) (l : LaneId) (d : DescId) : s.aborted (s.abort l d) l d := by
  refine ⟨?_, ?_, State.cellsReturned_abort s l d, rfl, ?_, fun e he => ?_, ?_, fun u hu => ?_⟩
  · rw [State.unit_abort]; exact Reception.abortedTo_abort _ d
  · rw [State.unit_abort]; rfl
  · rw [State.desc_abort, if_pos rfl]
  · rw [State.desc_abort, if_neg he]
  · rw [State.stream_abort, if_pos rfl]
  · rw [State.stream_abort, if_neg hu]

/-- What an abort leaves is in these fields alone. -/
theorem State.aborted.congr {s t s' t' : State} {l : LaneId} {d : DescId} (h : s.aborted t l d)
    (su : (s'.lane l).unit = (s.lane l).unit := by simp) (tu : (t'.lane l).unit = (t.lane l).unit := by simp)
    (sc : s'.pool.freeCells = s.pool.freeCells := by simp) (tc : t'.pool.freeCells = t.pool.freeCells := by simp)
    (sl : s'.pool.links = s.pool.links := by simp) (tl : t'.pool.links = t.pool.links := by simp)
    (sf : s'.pool.freeDescs = s.pool.freeDescs := by simp) (tf : t'.pool.freeDescs = t.pool.freeDescs := by simp)
    (sd : s'.pool.descs = s.pool.descs := by simp) (td : t'.pool.descs = t.pool.descs := by simp)
    (ss : s'.streams = s.streams := by simp) (ts : t'.streams = t.streams := by simp) : s'.aborted t' l d := by
  have hs : ∀ e, s'.desc e = s.desc e := fun e => by unfold State.desc; rw [sd]
  have ht : ∀ e, t'.desc e = t.desc e := fun e => by unfold State.desc; rw [td]
  have hs' : ∀ u, s'.stream u = s.stream u := fun u => by simp only [State.stream, ss]
  have ht' : ∀ u, t'.stream u = t.stream u := fun u => by simp only [State.stream, ts]
  have hc : s'.abortedCells l d = s.abortedCells l d := by
    unfold State.abortedCells State.chain; rw [su, sl, hs]
  obtain ⟨h1, h2, h3, h4, h5, h6, h7, h8⟩ := h
  refine ⟨by rw [su, tu]; exact h1, by rw [su, tu]; exact h2, by rw [hc]; exact h3.congr sc sl tc tl,
    by rw [tf, sf]; exact h4, by rw [ht, hs]; exact h5, fun e he => by rw [ht, hs]; exact h6 e he,
    by rw [hs, ht', hs']; exact h7, fun u hu => by rw [ht', hs']; exact h8 u (by rwa [hs] at hu)⟩

/-! ### Completion (R36) -/

/-- Sequence tracking reads a record's descriptor less its state and Completion Number, its entry and the stream counters,
and what it changes it changes alike where these are alike (R51, Table 3-4). -/
theorem State.track_congr (s t : State) (d : DescId) (state : DescState) (completion : Option (BitVec 32))
    (hd : t.desc d = { s.desc d with state := state, completion := completion }) (hr : t.routes = s.routes)
    (hc : t.counts.streams = s.counts.streams) :
    (t.track d).desc d = { (s.track d).desc d with state := state, completion := completion }
      ∧ (t.track d).routes = (s.track d).routes ∧ (t.track d).counts.streams = (s.track d).counts.streams := by
  have hr' : ∀ i, t.route i = s.route i := fun i => by simp only [State.route, hr]
  unfold State.track
  dsimp only
  rw [hd]
  dsimp only
  cases hx : (s.desc d).damaged with
  | true => exact ⟨hd, hr, hc⟩
  | false =>
    cases hroute : (s.desc d).route with
    | none => exact ⟨hd, hr, hc⟩
    | some ie =>
      obtain ⟨i, edition⟩ := ie
      simp only [hr']
      split
      · split
        · split
          · exact ⟨by simpa using hd, by simp [State.setRoute, hr], by simpa using hc⟩
          · split
            · exact ⟨by simp, by simp [State.setRoute, hr], by simp [State.bumpStream, State.streamCount, hc]⟩
            · exact ⟨by simp, by simp [hr], by simp [State.bumpStream, State.streamCount, hc]⟩
        · exact ⟨by simp, by simp [hr], by simp [hc]⟩
      · exact ⟨hd, hr, hc⟩

/-- Sequence tracking moves Gap Events and Sequence Errors of the record's stream, and no other counter (R51). -/
theorem State.streamCount_track_ne (s : State) (d : DescId) {u : StreamId} {k : StreamCounter}
    (h : u ≠ (s.desc d).stream ∨ k ≠ .gapEvents ∧ k ≠ .sequenceErrors) : (s.track d).streamCount u k = s.streamCount u k := by
  have h1 : u ≠ (s.desc d).stream ∨ k ≠ .gapEvents := h.imp_right And.left
  have h2 : u ≠ (s.desc d).stream ∨ k ≠ .sequenceErrors := h.imp_right And.right
  unfold State.track; dsimp only; (repeat' split) <;> simp [h1, h2]

/-- A completion, before a purge whose head is no target after it ends (R36, R81). -/
def State.completedRaw (s : State) (l : LaneId) (d : DescId) : State :=
  ((((s.setUnit l { (s.lane l).unit with list := (s.lane l).unit.list.tail }).number d).track d).enqueue d).bumpLane l
    .recordsStored

theorem State.complete_eq (s : State) (l : LaneId) (d : DescId) : s.complete l d = (s.completedRaw l d).settlePurge := rfl

/-- A completion of a record whose descriptor, less its state, read x, in the words of `State.completed`: the state t in
which it completes may differ from s in that state and in the units of the lane. -/
theorem State.completed_completedRaw {s t : State} {l : LaneId} {d : DescId} {x : Desc} {state : DescState}
    (hd : t.desc d = { x with state := state }) (hn : ∀ e, e ≠ d → t.desc e = s.desc e)
    (hr : t.routes = s.routes := by simp) (hs : t.streams = s.streams := by simp)
    (hc : t.counts = s.counts := by simp) (he : (t.lane l).entry = (s.lane l).entry := by simp)
    (hm : ∀ m, m ≠ l → t.lane m = s.lane m := by simp +contextual) : s.completed (t.completedRaw l d) l d x := by
  have hst : ∀ u, t.stream u = s.stream u := fun u => by simp only [State.stream, hs]
  generalize hv : (t.setUnit l { (t.lane l).unit with list := (t.lane l).unit.list.tail }).number d = v
  have hvd : v.desc d = { ((s.setDesc d x).desc d) with state := state, completion := some s.counts.completions } := by
    rw [← hv, State.desc_number, if_pos rfl, State.desc_setDesc_self]
    simp [hd, hc]
  have hvn : ∀ e, e ≠ d → v.desc e = s.desc e := fun e h => by
    rw [← hv, State.desc_number, if_neg h]; simp [hn e h]
  obtain ⟨c1, c2, c3⟩ := State.track_congr (s.setDesc d x) v d state _ hvd (by rw [← hv]; simp [hr])
    (by rw [← hv]; simp [hc])
  have hraw : t.completedRaw l d = ((v.track d).enqueue d).bumpLane l .recordsStored := by
    unfold State.completedRaw; rw [hv]
  have hvt : ∀ e, e ≠ d → (v.track d).desc e = v.desc e := fun e h => (State.desc_track v d e).2.2.2.2.2.2.2 h
  have hstream : ((v.track d).desc d).stream = x.stream := by
    rw [(State.desc_track v d d).2.1, hvd, State.desc_setDesc_self]
  have hvs : ∀ u, v.stream u = s.stream u := fun u => by rw [← hv]; simp [hst]
  have hcount : ∀ u k, (v.track d).streamCount u k = ((s.setDesc d x).track d).streamCount u k := fun u k => by
    simp only [State.streamCount, c3]
  rw [hraw]
  refine ⟨?_, fun e h => ?_, ?_, ?_, fun u h => ?_, ?_, ?_, ?_, fun k h => ?_, ⟨fun m k h => ?_, fun u k h => ?_, fun k _ => ?_⟩,
    ?_, fun m h => ?_⟩
  · simp [State.desc_enqueue, c1]
  · simp [State.desc_enqueue, h, hvt e h, hvn e h]
  · simpa using c2
  · rw [(State.bumpLane_frame _ _ _).2.2.2.2.2.2.2.1, State.stream_enqueue, hstream, if_pos rfl]
    simp [hvs, Stream.unexamined]
  · rw [(State.bumpLane_frame _ _ _).2.2.2.2.2.2.2.1, State.stream_enqueue, hstream, if_neg h]
    simp [hvs]
  · simp; rw [← hv]; simp [State.number, hc]
  · simp; rw [← hv]; simp [State.laneCount, hc]
  · simp [State.enqueue, hstream]; rw [← hv]; simp [State.streamCount, hc]
  · simp [State.enqueue, hstream, h, hcount]
  · simp only [List.mem_cons, Prod.mk.injEq, List.not_mem_nil, or_false, not_and_or] at h
    simp [h]; rw [← hv]; simp [State.laneCount, hc]
  · simp only [List.mem_cons, Prod.mk.injEq, List.not_mem_nil, or_false, not_or, not_and_or] at h
    have hk : ((s.setDesc d x).track d).streamCount u k = s.streamCount u k := by
      rw [State.streamCount_track_ne _ _ (by rcases h with ⟨_, h1, h2⟩; simp; tauto)]; simp
    rw [(State.bumpLane_frame _ _ _).2.2.2.2.2.2.2.2.2.2.2.2.2.2.2.2.2.2.2.2.1, State.enqueue]
    dsimp only
    rw [hstream, State.streamCount_bumpStream_ne _ h.1]
    simpa [hk] using hcount u k
  · simp; rw [← hv]; simp [State.deviceCount, hc]
  · simp; rw [← hv]; simp [he]
  · simp; rw [← hv]; simp [h, hm]

/-! ### Chains that stay (R60) -/

/-- A record none of whose cells is given back keeps its chain. -/
theorem State.chain_of_cellsReturned {s t : State} {cs : List CellId} {e : DescId} (h : s.cellsReturned t cs)
    (hf : (t.desc e).firstCell = (s.desc e).firstCell) (hn : (t.desc e).cellCount = (s.desc e).cellCount)
    (ha : ∀ k ∈ cs, k ∉ s.chain e) : t.chain e = s.chain e := by
  unfold State.chain; rw [hf, hn]
  refine chainFrom_congr _ _ fun k hk => ?_
  rw [h.2, if_neg fun hkc => ha k hkc hk]

theorem State.apart.tail {s : State} {d : DescId} {ds : List DescId} (h : s.apart (d :: ds)) : s.apart ds :=
  ⟨h.1.tail, (List.nodup_append.mp (by simpa [State.apart] using h.2 : (s.chain d ++ ds.flatMap s.chain).Nodup)).2.1⟩

theorem State.apart.disjoint {s : State} {d e : DescId} {ds : List DescId} (h : s.apart (d :: ds)) (he : e ∈ ds) :
    ∀ k ∈ s.chain d, k ∉ s.chain e := fun k hk hk' =>
  (List.nodup_append.mp (by simpa [State.apart] using h.2 : (s.chain d ++ ds.flatMap s.chain).Nodup)).2.2 k hk k
    (List.mem_flatMap.mpr ⟨e, he, hk'⟩) rfl

/-! ### Evictions (R86, R67) -/

/-- What one or more evictions of these head records leave (R86, R67). -/
structure State.Evicted (s : State) (u : StreamId) (gone : List DescId) (t : State) : Prop where
  stream : t.stream u = { s.stream u with
    queue := (s.stream u).queue.drop gone.length
    charge := (s.stream u).charge - (gone.map fun d => (s.desc d).cellCount).sum }
  others : ∀ v, v ≠ u → t.stream v = s.stream v
  cells : s.cellsReturned t (gone.flatMap s.chain)
  descs : t.pool.freeDescs = s.pool.freeDescs ++ gone
  freed : ∀ d ∈ gone, t.desc d = { s.desc d with state := .free }
  kept : ∀ d, d ∉ gone → t.desc d = s.desc d
  count : t.streamCount u .recordsEvicted = bump^[gone.length] (s.streamCount u .recordsEvicted)
  counts : s.countsOnly t [] [(u, .recordsEvicted)] []
  mono : ∀ e, s.latched e = true → t.latched e = true
  drop : gone ≠ [] → t.latched .recordDrop = true
  latches : s.latchesOnly t [.recordDrop]
  frame : t = { s with
    streams := t.streams
    pool := { s.pool with
      freeCells := t.pool.freeCells, freeDescs := t.pool.freeDescs, links := t.pool.links, descs := t.pool.descs }
    counts := { s.counts with streams := t.counts.streams }
    events := { s.events with latches := t.events.latches } }

/-- Head records evicted one after another (R86). -/
def State.evicts (s : State) (u : StreamId) (gone : List DescId) : State := gone.foldl (fun s d => s.evict u d) s

/-- Evictions leave what R86 and R67 say, where the records are different ones of the stream and share no cell. -/
theorem State.evicted_evicts (gone : List DescId) (s : State) (u : StreamId) (rest : List DescId)
    (hq : (s.stream u).queue = gone ++ rest) (ha : s.apart gone) (hs : ∀ d ∈ gone, (s.desc d).stream = u) :
    s.Evicted u gone (s.evicts u gone) := by
  induction gone generalizing s with
  | nil =>
    exact ⟨by simp [State.evicts], fun _ _ => rfl, by simpa [State.evicts] using s.cellsReturned_nil, by simp [State.evicts],
      by simp, fun _ _ => rfl, rfl, State.countsOnly_refl _ _ _ _, fun _ h => h, fun h => absurd rfl h, fun _ _ => rfl, rfl⟩
  | cons d gone ih =>
    generalize hx : s.evict u d = x
    have hd : (s.desc d).stream = u := hs d (by simp)
    have hdn : d ∉ gone := (List.nodup_cons.mp ha.1).1
    have xdesc : ∀ e, x.desc e = if e = d then { s.desc d with state := .free } else s.desc e := fun e => by
      rw [← hx]; unfold State.evict; simp [State.desc_freeRecord]
    have xcells : s.cellsReturned x (s.chain d) := by
      have hc : (s.dequeue u d).chain d = s.chain d := by unfold State.chain; simp
      have := State.cellsReturned_freeRecord (s.dequeue u d) d
      rw [hc] at this
      rw [← hx]; exact this.congr (by simp) (by simp) (by simp [State.evict]) (by simp [State.evict])
    have xstream : x.stream u = { s.stream u with
        queue := gone ++ rest, charge := (s.stream u).charge - (s.desc d).cellCount } := by
      rw [← hx]; unfold State.evict
      simp [State.stream_freeRecord, State.stream_dequeue, hd, hq]
    have xothers : ∀ v, v ≠ u → x.stream v = s.stream v := fun v hv => by
      rw [← hx]; unfold State.evict
      simp [State.stream_freeRecord, State.stream_dequeue, hd, hv]
    have xchain : ∀ e ∈ gone, x.chain e = s.chain e := fun e he => by
      have hne : e ≠ d := fun h => hdn (h ▸ he)
      refine State.chain_of_cellsReturned xcells ?_ ?_ (ha.disjoint he) <;> rw [xdesc, if_neg hne]
    have xflat : gone.flatMap x.chain = gone.flatMap s.chain := List.flatMap_congr xchain
    have xapart : x.apart gone := ⟨ha.tail.1, by rw [xflat]; exact ha.tail.2⟩
    have h := ih x (by rw [xstream]) xapart fun e he => by
      rw [xdesc, if_neg fun h : e = d => hdn (h ▸ he)]; exact hs e (by simp [he])
    have hsum : (gone.map fun e => (x.desc e).cellCount).sum = (gone.map fun e => (s.desc e).cellCount).sum := by
      congr 1; refine List.map_congr_left fun e he => ?_
      rw [xdesc, if_neg fun h : e = d => hdn (h ▸ he)]
    have hev : s.evicts u (d :: gone) = x.evicts u gone := by rw [← hx]; rfl
    rw [hev]
    generalize x.evicts u gone = t at h
    refine ⟨?_, fun v hv => (h.others v hv).trans (xothers v hv), ?_, ?_, ?_, ?_, ?_, ?_, ?_, ?_, ?_, ?_⟩
    · rw [h.stream, xstream, hsum]
      simp only [List.drop_left', List.length_cons, hq, List.cons_append, List.drop_succ_cons, List.map_cons, List.sum_cons]
      rw [Nat.sub_sub]
    · rw [List.flatMap_cons, ← xflat]; exact xcells.trans h.cells
    · rw [h.descs, ← hx]; simp [State.evict]
    · intro e he
      by_cases hed : e = d
      · subst hed; rw [h.kept e hdn, xdesc, if_pos rfl]
      · rw [h.freed e (by simpa [hed] using he), xdesc, if_neg hed]
    · intro e he
      simp only [List.mem_cons, not_or] at he
      rw [h.kept e he.2, xdesc, if_neg he.1]
    · rw [h.count, ← hx]; simp [State.evict]
    · refine State.countsOnly.trans ⟨fun m k _ => ?_, fun v k hk => ?_, fun k _ => ?_⟩ h.counts
      · rw [← hx]; simp
      · simp only [List.mem_cons, Prod.mk.injEq, List.not_mem_nil, or_false, not_and_or] at hk
        rw [← hx]; simp [State.evict, hk]
      · rw [← hx]; simp
    · intro e he; refine h.mono e ?_; rw [← hx]; exact State.latched_evict s u d e he
    · intro _; refine h.mono _ ?_; rw [← hx]; simp [State.evict]
    · refine State.latchesOnly.trans (fun e he => ?_) h.latches
      simp only [List.mem_singleton] at he
      rw [← hx]; simp [State.evict, he]
    · rw [h.frame]
      have hxf : x = { s with
          streams := x.streams
          pool := { s.pool with
            freeCells := x.pool.freeCells, freeDescs := x.pool.freeDescs, links := x.pool.links, descs := x.pool.descs }
          counts := { s.counts with streams := x.counts.streams }
          events := { s.events with latches := x.events.latches } } := by rw [← hx]; rfl
      conv_lhs => rw [hxf]

/-- Eviction stops at the least number of head records that makes room, or has taken them all (R86). -/
theorem State.evictUntil_eq (ds : List DescId) (s : State) (u : StreamId) (n : Nat) :
    ∃ k, k ≤ ds.length ∧ s.evictUntil u n ds = s.evicts u (ds.take k)
      ∧ ((s.evicts u (ds.take k)).roomFailure u n = none ∨ k = ds.length)
      ∧ ∀ j, j < k → (s.evicts u (ds.take j)).roomFailure u n ≠ none := by
  induction ds generalizing s with
  | nil => exact ⟨0, by simp, rfl, .inr rfl, fun j hj => absurd hj (Nat.not_lt_zero j)⟩
  | cons d ds ih =>
    by_cases hr : s.roomFailure u n = none
    · exact ⟨0, by simp, by simp [State.evictUntil, hr, State.evicts], .inl (by simpa [State.evicts] using hr),
        fun j hj => absurd hj (Nat.not_lt_zero j)⟩
    · obtain ⟨k, h1, h2, h3, h4⟩ := ih (s.evict u d)
      refine ⟨k + 1, by simpa using h1, ?_, ?_, fun j hj => ?_⟩
      · rw [State.evictUntil, if_neg (by simpa using hr), h2]; rfl
      · simpa [State.evicts] using h3
      · cases j with
        | zero => simpa [State.evicts] using hr
        | succ j => exact h4 j (Nat.lt_of_succ_lt_succ hj)

/-- Evictions read and change nothing of a receiver. -/
theorem State.evicts_setRx (gone : List DescId) (s : State) (u : StreamId) (l : LaneId) (rx : Receiver) :
    (s.setRx l rx).evicts u gone = (s.evicts u gone).setRx l rx := by
  induction gone generalizing s with
  | nil => rfl
  | cons d gone ih => exact ih (s.evict u d)

theorem State.settlePurge_setRx (s : State) (l : LaneId) (rx : Receiver) :
    (s.setRx l rx).settlePurge = s.settlePurge.setRx l rx := by
  unfold State.settlePurge
  have h1 : (s.setRx l rx).cmd = s.cmd := rfl
  have h2 : ∀ t b, (s.setRx l rx).purgeHead t b = s.purgeHead t b := fun _ _ => rfl
  rw [h1]
  split
  · rw [h2]; split <;> rfl
  · rfl

/-- Admission reads and changes nothing of a receiver. -/
theorem State.admission_setRx (s : State) (u : StreamId) (n : Nat) (l : LaneId) (rx : Receiver) :
    (s.setRx l rx).admission u n = ((s.admission u n).1.setRx l rx, (s.admission u n).2) := by
  have h1 : ∀ x : State, (x.setRx l rx).roomFailure u n = x.roomFailure u n := fun _ => rfl
  have h2 : (s.setRx l rx).evictionEnough u n = s.evictionEnough u n := rfl
  have h3 : (s.setRx l rx).stream u = s.stream u := rfl
  have h4 : ∀ ds (x : State), (x.setRx l rx).evictUntil u n ds = (x.evictUntil u n ds).setRx l rx := by
    intro ds; induction ds with
    | nil => exact fun _ => rfl
    | cons d ds ih =>
      intro x; unfold State.evictUntil
      rw [h1]; split
      · rfl
      · exact ih (x.evict u d)
  unfold State.admission
  rw [h1, h2, h3]
  cases s.roomFailure u n with
  | none => rfl
  | some c =>
    simp only
    split
    · rw [h4, State.settlePurge_setRx, h1]
    · rfl

/-! ### The end of the build (R71) -/

theorem State.freeCells_finishBuild (s : State) : s.finishBuild.pool.freeCells = allCells := by
  simp only [State.finishBuild]

theorem State.freeDescs_finishBuild (s : State) : s.finishBuild.pool.freeDescs = allDescs := by
  simp only [State.finishBuild]

theorem finRange_val (n : Nat) : (List.finRange n).map Fin.val = List.range n := List.map_coe_finRange_eq_range

theorem allCells_val : allCells.map Fin.val = List.range Config.cellCount := by
  unfold allCells; exact finRange_val Config.cellCount

theorem allDescs_val : allDescs.map Fin.val = List.range Config.descCount := by
  unfold allDescs; exact finRange_val Config.descCount

end Sys2Proof.Machine
end

