-- ==== Sys2Proof/Laws/Cuts.lean ====
section
/-! SUPPORT. What any number of aborts with cause Cut leave, on one lane or on several (R39): a lane that is disabled, lost or
silent, and CLEAR's first step. -/

namespace Sys2Proof.Machine

/-- The records of this lane among the cut ones, in their order. -/
def recordsOn (l : LaneId) (xs : List (LaneId × DescId)) : List DescId := (xs.filter fun x => x.1 = l).map fun x => x.2

theorem recordsOn_append (l : LaneId) (xs ys : List (LaneId × DescId)) :
    recordsOn l (xs ++ ys) = recordsOn l xs ++ recordsOn l ys := by simp [recordsOn]

theorem recordsOn_sub {l : LaneId} {xs : List (LaneId × DescId)} {d : DescId} (h : d ∈ recordsOn l xs) :
    d ∈ xs.map fun x => x.2 := by
  simp only [recordsOn, List.mem_map, List.mem_filter] at h ⊢
  obtain ⟨x, hx, rfl⟩ := h
  exact ⟨x, hx.1, rfl⟩

/-- What cutting these records one after another leaves (R37, R39, Table 2-4). -/
structure State.Cuts (s : State) (xs : List (LaneId × DescId)) (t : State) : Prop where
  entry : ∀ l, (t.lane l).entry = (s.lane l).entry
  list : ∀ l, (t.lane l).unit.list = (s.lane l).unit.list.diff (recordsOn l xs)
  unit : ∀ l, (s.lane l).unit.abortedTo (t.lane l).unit (recordsOn l xs)
  cells : s.cellsReturned t (xs.flatMap fun x => s.abortedCells x.1 x.2)
  free : t.pool.freeDescs = s.pool.freeDescs ++ xs.map fun x => x.2
  descs : ∀ d, t.desc d = if d ∈ xs.map (fun x => x.2) then { s.desc d with state := .free } else s.desc d
  streams : ∀ u, t.stream u = { s.stream u with
    charge := (s.stream u).charge - ((xs.filter fun x => (s.desc x.2).stream = u).map fun x => (s.desc x.2).cellCount).sum }
  count : ∀ l, t.laneCount l .recordsCut = bump^[(recordsOn l xs).length] (s.laneCount l .recordsCut)
  counts : s.countsOnly t ((List.finRange 8).map fun l => (l, .recordsCut)) [] []
  drop : t.latched .recordDrop = (s.latched .recordDrop || !xs.isEmpty)
  latches : s.latchesOnly t [.recordDrop]
  frame : t = { s with
    lanes := t.lanes, streams := t.streams
    pool := { s.pool with
      freeCells := t.pool.freeCells, freeDescs := t.pool.freeDescs, links := t.pool.links, descs := t.pool.descs }
    counts := { s.counts with lanes := t.counts.lanes }, events := { s.events with latches := t.events.latches } }

theorem State.Cuts.nil (s : State) : s.Cuts [] s where
  entry _ := rfl
  list l := by simp [recordsOn]
  unit l := Reception.abortedTo_nil _
  cells := s.cellsReturned_nil
  free := by simp
  descs d := by simp
  streams u := by simp
  count l := rfl
  counts := State.countsOnly_refl _ _ _ _
  drop := by simp
  latches _ _ := rfl
  frame := rfl

/-- A record's WRITING cell stands as it did once other records are aborted. -/
theorem Reception.writingCell_abortedTo {u u' : Reception} {ds : List DescId} (h : u.abortedTo u' ds) {e : DescId}
    (he : e ∉ ds) : u'.writingCell e = u.writingCell e := by
  have hs : u'.staging.toList = u.staging.toList.map (StagingCell.abortedTo ds) := by
    apply List.ext_getElem
    · simp
    · intro i h1 h2
      have := h.1 ⟨i, by simpa using h1⟩
      simpa using this
  unfold Reception.writingCell
  rw [hs, List.findSome?_map]
  congr 1; funext x
  cases x with
  | free => rfl
  | filling c =>
    simp only [Function.comp, StagingCell.abortedTo]
    by_cases h : (ds.any fun d => c.owner = some d) = true <;> simp [h]
  | pending c =>
    simp only [Function.comp, StagingCell.abortedTo]
    by_cases h : (ds.any fun d => c.owner = some d) = true <;> simp [h]
  | writing c =>
    simp only [Function.comp, StagingCell.abortedTo]
    by_cases h : (ds.any fun d => c.owner = some d) = true
    · have hne : ¬c.owner = some e := fun hc => by
        obtain ⟨d, hd, hcd⟩ := List.any_eq_true.mp h
        exact he (Option.some.inj ((of_decide_eq_true hcd).symm.trans hc) ▸ hd)
      simp [h, hne]
    · simp [h]

theorem StagingCell.busyFor_abortedTo (x : StagingCell) (ds : List DescId) {e : DescId} (he : e ∉ ds) :
    (x.abortedTo ds).busyFor e = x.busyFor e := by
  have hne : ∀ c : Staged, (ds.any fun d => c.owner = some d) = true → ¬c.owner = some e := fun c h hc => by
    obtain ⟨d, hd, hcd⟩ := List.any_eq_true.mp h
    exact he (Option.some.inj ((of_decide_eq_true hcd).symm.trans hc) ▸ hd)
  cases x with
  | free => rfl
  | filling c =>
    by_cases h : (ds.any fun d => c.owner = some d) = true <;> simp [StagingCell.abortedTo, StagingCell.busyFor, h]
  | pending c =>
    by_cases h : (ds.any fun d => c.owner = some d) = true
    · simp [StagingCell.abortedTo, StagingCell.busyFor, h, hne c h]
    · simp [StagingCell.abortedTo, h]
  | writing c =>
    by_cases h : (ds.any fun d => c.owner = some d) = true
    · simp [StagingCell.abortedTo, StagingCell.busyFor, h, hne c h]
    · simp [StagingCell.abortedTo, h]

/-- Aborts followed by those of other records are the aborts of them all. -/
theorem Reception.abortedTo.trans {u v w : Reception} {ds es : List DescId} (h : u.abortedTo v ds) (h' : v.abortedTo w es)
    (hd : ∀ d ∈ ds, d ∉ es) : u.abortedTo w (ds ++ es) := by
  have hw : es.reverse.findSome? v.writingCell = es.reverse.findSome? u.writingCell := by
    have : ∀ e ∈ es.reverse, e ∉ ds := fun e he hh => hd e hh (List.mem_reverse.mp he)
    revert this
    generalize es.reverse = fs
    intro hf
    induction fs with
    | nil => rfl
    | cons f fs ih =>
      rw [List.findSome?_cons, List.findSome?_cons, Reception.writingCell_abortedTo h (hf f (by simp)),
        ih fun g hg => hf g (by simp [hg])]
  refine ⟨fun i => ?_, ?_, ?_, ?_⟩
  · rw [h'.1, h.1, StagingCell.abortedTo_append]
  · rw [h'.2.1, h.2.1, List.filter_filter]
    refine List.filter_congr fun i _ => ?_
    rw [List.all_append, Bool.and_comm]
    congr 1
    rw [Bool.eq_iff_iff, List.all_eq_true, List.all_eq_true]
    refine forall₂_congr fun e he => ?_
    rw [h.1, StagingCell.busyFor_abortedTo _ _ fun hh => hd e hh he]
  · rw [h'.2.2.1, h.2.2.1, hw, List.reverse_append, List.findSome?_append, Option.or_assoc]
  · rw [h'.2.2.2, h.2.2.2]

/-- Cuts of records whose cells are apart leave the cells another record's abort would give back as they are. -/
theorem State.Cuts.abortedCells {s t : State} {xs : List (LaneId × DescId)} (h : s.Cuts xs t) {l : LaneId} {e : DescId}
    (he : e ∉ xs.map fun x => x.2) (ha : ∀ x ∈ xs, ∀ k ∈ s.chain x.2, k ∉ s.chain e) :
    t.abortedCells l e = s.abortedCells l e ∧ t.chain e = s.chain e := by
  have hd : t.desc e = s.desc e := by rw [h.descs, if_neg he]
  have hc : t.chain e = s.chain e := by
    refine State.chain_of_cellsReturned h.cells (by rw [hd]) (by rw [hd]) fun k hk => ?_
    obtain ⟨x, hx, hkx⟩ := List.mem_flatMap.mp hk
    exact ha x hx k (List.mem_filter.mp hkx).1
  refine ⟨?_, hc⟩
  unfold State.abortedCells
  rw [hc, Reception.writingCell_abortedTo (h.unit l) fun hh => he (recordsOn_sub hh)]

/-- Cuts followed by cuts of other records, with cells of their own. -/
theorem State.Cuts.trans {s t u : State} {xs ys : List (LaneId × DescId)} (h : s.Cuts xs t) (h' : t.Cuts ys u)
    (ha : s.apart ((xs ++ ys).map fun x => x.2)) : s.Cuts (xs ++ ys) u := by
  obtain ⟨hn, hk⟩ := ha
  rw [List.map_append] at hn hk
  have hne : ∀ x ∈ xs, ∀ y ∈ ys, x.2 ≠ y.2 := fun x hx y hy hh =>
    (List.nodup_append.mp hn).2.2 x.2 (List.mem_map_of_mem hx) y.2 (List.mem_map_of_mem hy) hh
  have hne' : ∀ y ∈ ys, y.2 ∉ xs.map fun x => x.2 := fun y hy hh => by
    obtain ⟨x, hx, hxy⟩ := List.mem_map.mp hh
    exact hne x hx y hy hxy
  have hcell : ∀ y ∈ ys, ∀ x ∈ xs, ∀ k ∈ s.chain x.2, k ∉ s.chain y.2 := fun y hy x hx k h1 h2 => by
    rw [List.flatMap_append] at hk
    exact (List.nodup_append.mp hk).2.2 k (List.mem_flatMap.mpr ⟨x.2, List.mem_map_of_mem hx, h1⟩) k
      (List.mem_flatMap.mpr ⟨y.2, List.mem_map_of_mem hy, h2⟩) rfl
  have hcells : ∀ y ∈ ys, t.abortedCells y.1 y.2 = s.abortedCells y.1 y.2 := fun y hy =>
    (h.abortedCells (hne' y hy) (hcell y hy)).1
  have hdesc : ∀ y ∈ ys, t.desc y.2 = s.desc y.2 := fun y hy => by rw [h.descs, if_neg (hne' y hy)]
  refine ⟨fun l => (h'.entry l).trans (h.entry l), fun l => ?_, fun l => ?_, ?_, ?_, fun d => ?_, fun v => ?_, fun l => ?_,
    h.counts.trans h'.counts, ?_, h.latches.trans h'.latches, ?_⟩
  · rw [h'.list, h.list, recordsOn_append, List.diff_append]
  · rw [recordsOn_append]
    refine (h.unit l).trans (h'.unit l) fun d h1 h2 => ?_
    obtain ⟨x, hx, rfl⟩ := List.mem_map.mp (recordsOn_sub h1)
    obtain ⟨y, hy, hyx⟩ := List.mem_map.mp (recordsOn_sub h2)
    exact hne x hx y hy hyx.symm
  · rw [List.flatMap_append, ← List.flatMap_congr hcells]
    exact h.cells.trans h'.cells
  · rw [h'.free, h.free, List.map_append, List.append_assoc]
  · rw [h'.descs, h.descs, List.map_append]
    by_cases h1 : d ∈ ys.map (fun x => x.2) <;> by_cases h2 : d ∈ xs.map (fun x => x.2) <;> simp only [List.mem_append, h1, h2,
      or_true, or_false, if_true, if_false]
  · have hsum : (ys.filter fun x => (t.desc x.2).stream = v).map (fun x => (t.desc x.2).cellCount)
        = (ys.filter fun x => (s.desc x.2).stream = v).map fun x => (s.desc x.2).cellCount := by
      rw [List.filter_congr fun y hy => by rw [hdesc y hy]]
      exact List.map_congr_left fun y hy => by rw [hdesc y (List.mem_filter.mp hy).1]
    rw [h'.streams, h.streams, hsum, List.filter_append, List.map_append, List.sum_append, Nat.sub_sub]
  · rw [h'.count, h.count, recordsOn_append, List.length_append, Nat.add_comm, Function.iterate_add_apply]
  · rw [h'.drop, h.drop]
    cases xs <;> cases ys <;> simp
  · rw [h'.frame]
    conv_lhs => rw [h.frame]

/-- One cut (R37, R39). -/
theorem State.Cuts.cut (s : State) (l : LaneId) (d : DescId) : s.Cuts [(l, d)] (s.cut l d) := by
  obtain ⟨a1, a2, a3, a4, a5, a6, a7, a8⟩ := State.aborted_abort s l d
  have on : recordsOn l [(l, d)] = [d] := by simp [recordsOn]
  have off : ∀ m, m ≠ l → recordsOn m [(l, d)] = [] := fun m hm => by simp [recordsOn, hm.symm]
  have lane : ∀ m, m ≠ l → (s.cut l d).lane m = s.lane m := fun m hm => by simp [State.cut, hm]
  have unit : ((s.cut l d).lane l).unit = ((s.abort l d).lane l).unit := by simp [State.cut]
  obtain ⟨c1, c2⟩ := State.cut_counts s l d ((List.finRange 8).map fun l => (l, .recordsCut))
    (List.mem_map.mpr ⟨l, List.mem_finRange l, rfl⟩)
  refine ⟨fun m => by simp [State.cut], fun m => ?_, fun m => ?_, ?_, ?_, fun e => ?_, fun u => ?_, fun m => ?_, c1, ?_, c2, ?_⟩
  · by_cases hm : m = l
    · subst hm; rw [on, unit, a2]; simp
    · rw [off m hm, lane m hm]; simp
  · by_cases hm : m = l
    · subst hm; rw [on, unit]; exact a1
    · rw [off m hm, lane m hm]; exact Reception.abortedTo_nil _
  · simp only [List.flatMap_cons, List.flatMap_nil, List.append_nil]; exact a3.congr rfl rfl rfl rfl
  · simpa [State.cut] using a4
  · by_cases he : e = d
    · subst he; simpa [State.cut] using a5
    · simpa [State.cut, he] using a6 e he
  · by_cases hu : u = (s.desc d).stream
    · subst hu; simpa [State.cut] using a7
    · have : ¬(s.desc d).stream = u := fun h => hu h.symm
      simpa [State.cut, this] using a8 u hu
  · by_cases hm : m = l
    · subst hm; rw [on]; simp [State.cut]
    · rw [off m hm]; simp [State.cut, hm]
  · simp [State.cut]
  · rfl

/-- A receiver is nothing cuts are about. -/
theorem State.Cuts.setRx {s t : State} {xs : List (LaneId × DescId)} (h : s.Cuts xs t) (l : LaneId) (rx : Receiver) :
    s.Cuts xs (t.setRx l rx) := by
  refine ⟨fun m => ?_, fun m => ?_, fun m => ?_, h.cells.congr rfl rfl rfl rfl, h.free, h.descs, h.streams, h.count, h.counts,
    h.drop, h.latches, ?_⟩
  · rw [← h.entry]; simp
  · rw [← h.list]; simp
  · have : ((t.setRx l rx).lane m).unit = (t.lane m).unit := by simp
    rw [this]; exact h.unit m
  · conv_lhs => unfold State.setRx State.setLane; rw [h.frame]
    rfl

/-- The cuts of some records of a lane (R39). -/
theorem State.Cuts.fold (l : LaneId) (ds : List DescId) (s : State) (ha : s.apart ds) :
    s.Cuts (ds.map fun d => (l, d)) (ds.foldl (fun s d => s.cut l d) s) := by
  induction ds generalizing s with
  | nil => exact State.Cuts.nil s
  | cons d ds ih =>
    have h1 := State.Cuts.cut s l d
    have hd : d ∉ ds := (List.nodup_cons.mp ha.1).1
    have hchain : ∀ e ∈ ds, (s.cut l d).chain e = s.chain e := fun e he =>
      (h1.abortedCells (l := l) (by simp; exact fun hh => hd (hh ▸ he))
        fun x hx => by simp only [List.mem_singleton] at hx; subst hx; exact ha.disjoint he).2
    have h2 := ih (s.cut l d) ⟨ha.tail.1, by rw [List.flatMap_congr hchain]; exact ha.tail.2⟩
    have hm : (List.map (fun x : LaneId × DescId => x.2) ([(l, d)] ++ ds.map fun d => (l, d))) = d :: ds := by
      simp [List.map_map, Function.comp_def]
    exact h1.trans h2 (by rw [hm]; exact ha)

/-- The cuts of a lane's whole list (R39). -/
theorem State.Cuts.cutAll (s : State) (l : LaneId) (ha : s.apart (s.lane l).unit.list) :
    s.Cuts ((s.lane l).unit.list.map fun d => (l, d)) (s.cutAll l) := State.Cuts.fold l _ s ha

/-- CLEAR's first step on a lane (R157). -/
theorem State.Cuts.clearLane (s : State) (l : LaneId) (ha : s.apart (s.lane l).unit.list) :
    s.Cuts ((s.lane l).unit.list.map fun d => (l, d)) (s.clearLane l) := by
  unfold State.clearLane; dsimp only
  split
  · exact (State.Cuts.cutAll s l ha).setRx l _
  · exact State.Cuts.cutAll s l ha

/-- Every record on these lanes' lists, the lanes in order and each list oldest first (R157). -/
def State.listed (s : State) (ls : List LaneId) : List (LaneId × DescId) :=
  ls.flatMap fun l => (s.lane l).unit.list.map fun d => (l, d)

theorem State.listed_snd (s : State) (ls : List LaneId) :
    (s.listed ls).map (fun x => x.2) = ls.flatMap fun l => (s.lane l).unit.list := by
  simp [State.listed, List.map_flatMap, List.map_map, Function.comp_def]

/-- CLEAR's first step over some lanes (R157). -/
theorem State.Cuts.clearLanes (ls : List LaneId) (s : State) (hn : ls.Nodup) (ha : s.apart ((s.listed ls).map fun x => x.2)) :
    s.Cuts (s.listed ls) (ls.foldl State.clearLane s) := by
  induction ls generalizing s with
  | nil => exact State.Cuts.nil s
  | cons l ls ih =>
    obtain ⟨hl, hn⟩ := List.nodup_cons.mp hn
    have hal := ha
    rw [State.listed_snd, List.flatMap_cons] at hal
    have h1 : s.Cuts ((s.lane l).unit.list.map fun d => (l, d)) (s.clearLane l) := State.Cuts.clearLane s l
      ⟨(List.nodup_append.mp hal.1).1, by
        have := hal.2; rw [List.flatMap_append] at this; exact (List.nodup_append.mp this).1⟩
    have hlist : (s.clearLane l).listed ls = s.listed ls := by
      refine List.flatMap_congr fun m hm => ?_
      rw [State.clearLane_ne s l m fun h => hl (h ▸ hm)]
    have hrest : ∀ e ∈ ls.flatMap (fun l => (s.lane l).unit.list), (s.clearLane l).chain e = s.chain e := fun e he => by
      refine (h1.abortedCells (l := l) (e := e) ?_ ?_).2
      · simp only [List.map_map, Function.comp_def, List.map_id']
        exact fun hh => (List.nodup_append.mp hal.1).2.2 e hh e he rfl
      · intro x hx k hk hke
        obtain ⟨d, hd, rfl⟩ := List.mem_map.mp hx
        have := hal.2
        rw [List.flatMap_append] at this
        exact (List.nodup_append.mp this).2.2 k (List.mem_flatMap.mpr ⟨d, hd, hk⟩) k
          (List.mem_flatMap.mpr ⟨e, he, hke⟩) rfl
    have h2 := ih (s.clearLane l) hn (by
      rw [hlist, State.listed_snd]
      refine ⟨(List.nodup_append.mp hal.1).2.1, ?_⟩
      rw [List.flatMap_congr hrest]
      have := hal.2; rw [List.flatMap_append] at this; exact (List.nodup_append.mp this).2.1)
    rw [hlist] at h2
    have : s.listed (l :: ls) = (s.lane l).unit.list.map (fun d => (l, d)) ++ s.listed ls := by simp [State.listed]
    rw [this]
    rw [this] at ha
    exact h1.trans h2 ha

end Sys2Proof.Machine
end

