-- ==== Sys2Proof/Laws/Lines.lean ====
section
/-! SUPPORT. A write reads nothing of the lines D15 to D0 as the last read left them: with the lines released first its effect
is the same (R173). -/

namespace Sys2Proof.Machine

/-- A write of REFRESH_CFG reads nothing of the lines the last read drove (R173). -/
theorem State.released_writeRefreshCfg (s : State) (v) :
    (s.released.writeRefreshCfg v).released = (s.writeRefreshCfg v).released := by
  unfold State.writeRefreshCfg; split <;> rfl

/-- A write of POOL_LOW reads nothing of the lines the last read drove (R173). -/
theorem State.released_writePoolLow (s : State) (v) :
    (s.released.writePoolLow v).released = (s.writePoolLow v).released := by
  unfold State.writePoolLow; split <;> rfl

/-- A write of WIN_OFFSET reads nothing of the lines the last read drove (R173). -/
theorem State.released_writeWinOffset (s : State) (v) :
    (s.released.writeWinOffset v).released = (s.writeWinOffset v).released := by
  unfold State.writeWinOffset; split
  · rfl
  · split <;> rfl

/-- Nor does CLEAR's first step on a lane. -/
theorem State.clearLane_released (s : State) (l) : (s.released.clearLane l) = (s.clearLane l).released := by
  have cut : ∀ (s : State) d, s.released.cut l d = (s.cut l d).released := fun _ _ => rfl
  have cuts : ∀ (ds : List DescId) (s : State),
      ds.foldl (fun s d => s.cut l d) s.released = (ds.foldl (fun s d => s.cut l d) s).released := by
    intro ds; induction ds with
    | nil => intro s; rfl
    | cons d ds ih => intro s; rw [List.foldl_cons, cut, ih]; rfl
  have all : s.released.cutAll l = (s.cutAll l).released := cuts _ s
  unfold State.clearLane
  simp only [all]
  generalize s.cutAll l = x
  have : x.released.lane l = x.lane l := rfl
  rw [this]; split <;> rfl

/-- Nor does CLEAR's first step. -/
theorem State.clearFirst_released (s : State) : s.released.clearFirst = s.clearFirst.released := by
  unfold State.clearFirst
  generalize List.finRange 8 = ls
  have : ∀ (ls : List LaneId) (s : State),
      ls.foldl State.clearLane s.released = (ls.foldl State.clearLane s).released := by
    intro ls; induction ls with
    | nil => intro s; rfl
    | cons l ls ih => intro s; rw [List.foldl_cons, State.clearLane_released, ih]; rw [List.foldl_cons]
  rw [this]; rfl

/-- A write of CMD reads nothing of the lines the last read drove (R173). -/
theorem State.released_writeCmd (s : State) (v) :
    (s.released.writeCmd v).released = (s.writeCmd v).released := by
  unfold State.writeCmd
  have : s.released.busy = s.busy := rfl
  rw [this]; split
  · rfl
  · unfold State.acceptCommand
    have : s.released.failedTest v s.released.cmd.argReg = s.failedTest v s.cmd.argReg := rfl
    rw [this]
    split
    · rfl
    · rename_i c h1 h2
      cases c
      case purge =>
        simp only [State.beginCommand]
        have : s.released.cmd.argReg = s.cmd.argReg := rfl
        rw [this]; split <;> rfl
      case clear =>
        simp only [State.beginCommand]
        have : s.released.takeCommand v (.clearing .second) = (s.takeCommand v (.clearing .second)).released := rfl
        rw [this, State.clearFirst_released]; generalize (s.takeCommand v (.clearing .second)).clearFirst = x; rfl
      all_goals rfl
    · rfl

/-- Nor does a write at any address. -/
theorem State.released_writeWord (s : State) (a v) : (s.released.writeWord a v).released = (s.writeWord a v).released := by
  unfold State.writeWord
  split <;> first
    | rfl
    | exact State.released_writeRefreshCfg s v
    | exact State.released_writePoolLow s v
    | exact State.released_writeWinOffset s v
    | exact State.released_writeCmd s v

end Sys2Proof.Machine
end

