-- ==== Sys2Proof/Laws/PerInstr.lean ====
section
/-! SUPPORT. One lemma for each command: which kind of event it is. -/

namespace Sys2Proof.Laws.Kinds

/-- Every command is at most one of a lane edge, a host write and a host read; only REGISTER_WRITE can be ill formed, and
then names a word whose write has a row of its own (R174). -/
def Statement (c : Instr) : Prop :=
  (c.edgeOf.isSome = true → c.isHostWrite = false ∧ c.isHostRead = false)
    ∧ (c.isHostWrite = true → c.isHostRead = false)
    ∧ (c.wellFormed = false → ∃ a v, c = .registerWrite a v ∧ a ∈ ownRowAddresses)

/-- The case analysis behind every lemma below. -/
theorem holds (c : Instr) : Statement c := by
  refine ⟨?_, ?_, ?_⟩
  · cases c <;> simp [Instr.edgeOf, Instr.isHostWrite, Instr.isHostRead]
  · cases c <;> simp [Instr.isHostWrite, Instr.isHostRead]
  · intro h
    cases c
    case registerWrite a v => exact ⟨a, v, rfl, by simpa [Instr.wellFormed] using h⟩
    all_goals simp [Instr.wellFormed] at h

theorem hardReset : Statement .hardReset := holds _

theorem resetRelease : Statement .resetRelease := holds _

theorem candidate (lane : LaneId) (bit : Bool) : Statement (.candidate lane bit) := holds _

theorem provisionalHeader (lane : LaneId) (bit : Bool) : Statement (.provisionalHeader lane bit) := holds _

theorem header (lane : LaneId) (bit : Bool) : Statement (.header lane bit) := holds _

theorem bodyByte (lane : LaneId) (bit : Bool) : Statement (.bodyByte lane bit) := holds _

theorem trailerCheck (lane : LaneId) (bit : Bool) : Statement (.trailerCheck lane bit) := holds _

theorem silence (lane : LaneId) : Statement (.silence lane) := holds _

theorem portGrant : Statement .portGrant := holds _

theorem cellWriteComplete : Statement .cellWriteComplete := holds _

theorem cellReadComplete : Statement .cellReadComplete := holds _

theorem refreshComplete : Statement .refreshComplete := holds _

theorem intervalExpiry : Statement .intervalExpiry := holds _

theorem millisecondTick : Statement .millisecondTick := holds _

theorem ageExpiry (stream : StreamId) : Statement (.ageExpiry stream) := holds _

theorem holdExpiry : Statement .holdExpiry := holds _

theorem poolBuildEnd : Statement .poolBuildEnd := holds _

theorem take : Statement .take := holds _

theorem peek : Statement .peek := holds _

theorem release : Statement .release := holds _

theorem returnRecord : Statement .returnRecord := holds _

theorem purge : Statement .purge := holds _

theorem purgeRemoval : Statement .purgeRemoval := holds _

theorem clear : Statement .clear := holds _

theorem clearSecondStep : Statement .clearSecondStep := holds _

theorem clearThirdStep : Statement .clearThirdStep := holds _

theorem clearFourthStep : Statement .clearFourthStep := holds _

theorem capture : Statement .capture := holds _

theorem tableRead : Statement .tableRead := holds _

theorem tableWrite : Statement .tableWrite := holds _

theorem collision (code : Word) : Statement (.collision code) := holds _

theorem pointing (value : Word) : Statement (.pointing value) := holds _

theorem winHandleWrite (value : Word) : Statement (.winHandleWrite value) := holds _

theorem winDataRead : Statement .winDataRead := holds _

theorem heldReadAbandon : Statement .heldReadAbandon := holds _

theorem timeLoRead : Statement .timeLoRead := holds _

theorem eventLatchWrite (value : Word) : Statement (.eventLatchWrite value) := holds _

theorem eventEnableWrite (value : Word) : Statement (.eventEnableWrite value) := holds _

theorem wmarkWrite (half : Half) (value : Word) : Statement (.wmarkWrite half value) := holds _

theorem wmarkEnWrite (half : Half) (value : Word) : Statement (.wmarkEnWrite half value) := holds _

theorem readyEnWrite (half : Half) (value : Word) : Statement (.readyEnWrite half value) := holds _

theorem refreshCfgWrite (value : Word) : Statement (.refreshCfgWrite value) := holds _

theorem poolLowWrite (value : Word) : Statement (.poolLowWrite value) := holds _

theorem holdLimitWrite (value : Word) : Statement (.holdLimitWrite value) := holds _

theorem registerWrite (address : BitVec 7) (value : Word) : Statement (.registerWrite address value) := holds _

theorem laneClockEdge (lane : LaneId) (bit : Bool) : Statement (.laneClockEdge lane bit) := holds _

theorem commandAcceptance (code : Word) : Statement (.commandAcceptance code) := holds _

theorem failedTestEndAct : Statement .failedTestEndAct := holds _

theorem timebaseCount : Statement .timebaseCount := holds _

end Sys2Proof.Laws.Kinds
end

