-- ==== Sys2Proof/Laws/PortTimes.lean ====
section
/-! SUPPORT. The times of the memory port (R134, R139; entry 23): what each operation does to the port, in the words of the
statements, when an operation may end, and what keeps a starved port starved (R144). -/

namespace Sys2Proof.Machine

@[simp] theorem State.op_startOp (s : State) (op : PortOp) : (s.startOp op).port.op = some op := rfl

@[simp] theorem State.ends_startOp (s : State) (op : PortOp) :
    (s.startOp op).port.times.ends = s.port.times.reached + op.duration := rfl

@[simp] theorem State.op_freePort (s : State) : s.freePort.port.op = none := rfl

@[simp] theorem State.reached_freePort (s : State) :
    s.freePort.port.times.reached = max s.port.times.reached s.port.times.ends := rfl

@[simp] theorem State.op_grantRefresh (s : State) : s.grantRefresh.port.op = some .refresh := rfl

@[simp] theorem State.balance_grantRefresh (s : State) : s.grantRefresh.port.balance = s.port.balance - 1 := rfl

@[simp] theorem State.op_finishRefresh (s : State) : s.finishRefresh.port.op = none := rfl

@[simp] theorem State.reached_startInterval (s : State) :
    s.startInterval.port.times.reached = max s.port.times.reached s.port.expiryTime := rfl

theorem State.startOp_eq (s : State) (op : PortOp) : s.startOp op = { s with port := s.port.started op op.duration } := rfl

theorem State.freePort_eq (s : State) : s.freePort = { s with port := s.port.freed } := rfl

theorem State.finishRefresh_eq (s : State) :
    s.finishRefresh = { s with port := { s.port.freed with nextSlice := s.port.nextSlice + 1 } } := rfl

theorem State.startInterval_eq (s : State) : s.startInterval = { s with port := s.port.nextInterval } := rfl

theorem State.advance_port (s : State) : s.advance.port = s.port.nextMicrosecond := rfl

theorem State.portEnds_iff (s : State) : s.portEnds = true ↔ s.opMayEnd := by
  unfold State.portEnds State.opMayEnd
  rw [Bool.and_eq_true, decide_eq_true_iff, decide_eq_true_iff, and_comm]
  rfl

/-- Before its operation may end, no completion of the port is taken (R134). -/
theorem State.portEnds_eq_false {s : State} (h : ¬ s.opMayEnd) : s.portEnds = false := by
  rw [← Bool.not_eq_true, State.portEnds_iff]; exact h

/-- An expiry starves a port of +5 or more at a Refresh Interval of 1 or 2 units (R144). -/
theorem StarvedInv.ofExpiry {s : State} (hr : s.host.resetHigh = true) (hi : s.port.interval = 1 ∨ s.port.interval = 2)
    (hl : s.port.left ≤ 4) (ht : s.port.times.reached ≤ 100) (hb : 5 ≤ s.port.balance) : StarvedInv s.intervalExpiry := by
  have hn : s.port.interval.toNat ≤ 2 := by rcases hi with h | h <;> rw [h] <;> decide
  unfold State.intervalExpiry
  split <;> simp [StarvedInv, State.startInterval, State.lateRefresh, State.oweRefresh, Port.expiryTime, portTimePerUnit] <;>
    refine ⟨hr, hi, ?_, ?_, ?_, ?_⟩ <;> omega

/-- A starved port is starved after its next expiry too. -/
theorem StarvedInv.intervalExpiry {s : State} (h : StarvedInv s) (hl : s.port.left ≤ 4) : StarvedInv s.intervalExpiry := by
  obtain ⟨hr, hi, ht, _, h1, h2⟩ := h
  refine StarvedInv.ofExpiry hr hi hl ht ?_
  by_cases hop : s.port.op = some .refresh
  · exact (h2 hop).1
  · have := h1 hop; omega

theorem StarvedInv.takeIntervals (n : Nat) {s : State} (h : StarvedInv s) : StarvedInv (s.takeIntervals n) := by
  induction n generalizing s with
  | zero => exact h
  | succ n ih =>
    unfold State.takeIntervals; split
    · rename_i hl; unfold unitsPerMicrosecond at hl; exact ih (h.intervalExpiry (by omega))
    · exact h

/-- A count keeps a port starved, with every expiry before it taken. -/
theorem StarvedInv.countMicrosecond {s : State} (h : StarvedInv s) (hl : 4 ≤ s.port.left) :
    StarvedInv s.countMicrosecond := by
  have e : s.countMicrosecond.port = s.port.nextMicrosecond := by
    unfold State.countMicrosecond; split <;> simp [State.advance_port]
  obtain ⟨hr, hi, ht, hq, h1, h2⟩ := h
  refine ⟨by simpa using hr, by rw [e]; exact hi, ?_, ?_, ?_, ?_⟩ <;> rw [e] <;> simp only [Port.nextMicrosecond]
  · omega
  · omega
  · exact h1
  · intro hop
    obtain ⟨a, b⟩ := h2 hop
    exact ⟨a, fun hb => by have := b hb; omega⟩

/-- An operation that ends when it may leaves a starved port starved: a refresh at +5 has met an expiry before. -/
theorem StarvedInv.freed {s t : State} (h : StarvedInv s) (hme : s.opMayEnd)
    (hr : t.host.resetHigh = s.host.resetHigh) (hb : t.port.balance = s.port.balance)
    (hi : t.port.interval = s.port.interval) (hl : t.port.left = s.port.left) (ho : t.port.op = none)
    (ht : t.port.times = s.port.freed.times) : StarvedInv t := by
  obtain ⟨h0, h1, h2, h3, h4, h5⟩ := h
  obtain ⟨m1, m2⟩ := hme
  unfold StarvedInv
  rw [hb, hi, hl, ho, ht, hr]
  refine ⟨h0, h1, ?_, ?_, ?_, nofun⟩
  · simp only [Port.freed]; omega
  · simp only [Port.freed]; omega
  · intro _
    by_cases hop : s.port.op = some .refresh
    · obtain ⟨a, b⟩ := h5 hop
      by_contra hb
      have := b (by omega)
      omega
    · exact h4 hop

/-! ### What leaves the port's account alone -/

/-- The account of refresh and the port's times stand as they did, and so does whether a refresh is in flight. -/
structure AccountKept (s t : State) : Prop where
  reset : t.host.resetHigh = s.host.resetHigh := by simp
  balance : t.port.balance = s.port.balance := by simp
  interval : t.port.interval = s.port.interval := by simp
  left : t.port.left = s.port.left := by simp
  times : t.port.times = s.port.times := by simp
  refreshing : t.port.op = some PortOp.refresh ↔ s.port.op = some PortOp.refresh := by simp

theorem AccountKept.refl (s : State) : AccountKept s s := ⟨rfl, rfl, rfl, rfl, rfl, Iff.rfl⟩

theorem AccountKept.trans {s t u : State} (h : AccountKept s t) (k : AccountKept t u) : AccountKept s u :=
  ⟨k.reset.trans h.reset, k.balance.trans h.balance, k.interval.trans h.interval, k.left.trans h.left,
    k.times.trans h.times, k.refreshing.trans h.refreshing⟩

theorem AccountKept.of_port {s t : State} (hp : t.port = s.port := by simp)
    (hr : t.host.resetHigh = s.host.resetHigh := by simp) : AccountKept s t := by
  refine ⟨hr, ?_, ?_, ?_, ?_, ?_⟩ <;> rw [hp]

/-- A write of REFRESH_CFG aside, what keeps the account keeps a port starved (R144). -/
theorem StarvedInv.kept {s t : State} (h : StarvedInv s) (k : AccountKept s t) : StarvedInv t := by
  unfold StarvedInv at *
  rw [k.reset, k.balance, k.interval, k.left, k.times, Ne, k.refreshing]; exact h

theorem discardRead_refresh (o : Option PortOp) : discardRead o = some .refresh ↔ o = some .refresh := by
  unfold discardRead; split <;> simp

theorem AccountKept.discard (s : State) (w : Window) :
    AccountKept s { s with window := w, port := { s.port with op := discardRead s.port.op } } :=
  ⟨rfl, rfl, rfl, rfl, rfl, discardRead_refresh _⟩

theorem AccountKept.staleWindow (s : State) : AccountKept s s.staleWindow := by
  unfold State.staleWindow; dsimp only; split
  · exact (AccountKept.discard s { s.window with mode := .stale, buffer := none, request := none }).trans .of_port
  · exact .discard s _

theorem AccountKept.emptySlot (s : State) (i : SlotId) : AccountKept s (s.emptySlot i) := by
  unfold State.emptySlot; dsimp only; split
  · exact (AccountKept.of_port (t := s.setSlot i _)).trans (.staleWindow _)
  · exact .of_port

theorem AccountKept.expireHold (s : State) (i : SlotId) (h : Holding) : AccountKept s (s.expireHold i h) := by
  unfold State.expireHold
  exact ((AccountKept.of_port (t := s.requeue h.desc)).trans (.emptySlot _ i)).trans .of_port

theorem AccountKept.holdSteps (s : State) (n : Nat) : AccountKept s (s.holdSteps n) := by
  induction n generalizing s with
  | zero => exact .refl _
  | succ n ih =>
    refine AccountKept.trans ?_ (ih _)
    unfold State.holdStep; split
    · exact .expireHold ..
    · exact .refl _

theorem AccountKept.finishAges (us : List StreamId) (s : State) : AccountKept s (us.foldl State.finishAges s) := by
  induction us generalizing s with
  | nil => exact .refl _
  | cons u us ih => exact (AccountKept.of_port (t := s.finishAges u)).trans (ih _)

/-- Neither silence nor the end of the build touches the port. -/
theorem AccountKept.silencesAndBuild (s : State) : AccountKept s s.finishSilences.buildStep :=
  (AccountKept.of_port (t := s.finishSilences)).trans .of_port

/-- A count and what comes before it keep a port starved (R144). -/
theorem StarvedInv.nextMicrosecond {s : State} (h : StarvedInv s) : StarvedInv s.nextMicrosecond := by
  have hi : s.port.interval ≠ 0 := by rcases h.2.1 with h | h <;> rw [h] <;> decide
  refine StarvedInv.countMicrosecond ?_ (State.left_finishMicrosecond s hi)
  unfold State.finishMicrosecond
  exact (((h.kept (.finishAges _ s)).kept (.holdSteps _ 16)).kept (.silencesAndBuild _)).takeIntervals _

theorem AccountKept.writeWinOffset (s : State) (v : Word) : AccountKept s (s.writeWinOffset v) := by
  have h : ∀ (s : State) v, AccountKept s (s.point v) := fun s v =>
    ⟨by simp, by simp, by simp, by simp, by simp, by simp [State.point, discardRead_refresh]⟩
  unfold State.writeWinOffset; split
  · exact .of_port
  · split
    · exact (AccountKept.of_port (t := s.configError)).trans (h _ _)
    · exact h _ _

theorem State.writeWord_refreshing (s : State) (a : BitVec 7) (v : Word) :
    (s.writeWord a v).port.op = some .refresh ↔ s.port.op = some .refresh := by
  unfold State.writeWord; split <;> first | exact (AccountKept.writeWinOffset s v).refreshing | simp

/-- A write that leaves the Refresh Interval at 1 or 2 units leaves a starved port starved (R140, R144). -/
theorem StarvedInv.hostWrite {s t : State} {a : BitVec 7} {v : Word} (h : StarvedInv s)
    (ht : hostAccess s (s.writeWord a v) = .next t) (hi : t.port.interval = 1 ∨ t.port.interval = 2) : StarvedInv t := by
  rcases hostAccess_next ht with ⟨_, rfl⟩ | ⟨_, _, rfl⟩ | ⟨_, _, rfl⟩
  · exact h
  · unfold StarvedInv at *
    simp only [State.released_frame, State.writeWord_frame, Ne, State.writeWord_refreshing] at hi ⊢
    exact ⟨h.1, hi, h.2.2⟩
  · exact h.kept (.of_port (t := s.released))

/-- A starved port grants a refresh and nothing else (R144, R136). -/
theorem StarvedInv.arbitrate {s : State} (h : StarvedInv s) (hop : s.port.op = none) : s.arbitrate = s.grantRefresh := by
  have hb : 6 ≤ s.port.balance := h.2.2.2.2.1 (by rw [hop]; exact nofun)
  simp [State.arbitrate, hb]

end Sys2Proof.Machine
end

