-- ==== Sys2Proof/Laws/Ticks.lean ====
section
/-! SUPPORT. The microsecond: what its acts leave to come, and that what is left comes before the next count whether a command
takes it or the count does (R92, R114, R15, R71, R139; entries 7, 22 and 24). -/

namespace Sys2Proof.Machine

/-- Where no record is to be removed, removals change nothing (R92). -/
theorem State.ageSteps_of_none (s : State) (u n) (h : s.expiredRecord u = none) : s.ageSteps u n = s := by
  induction n with
  | zero => rfl
  | succ n ih => unfold State.ageSteps; have : s.ageStep u = s := by unfold State.ageStep; rw [h]
                 rw [this]; exact ih

/-- Nothing due at a stream: its examination is taken and no record it found is left (R92). -/
theorem State.not_ageDue {s : State} {u} (h : s.ageDue u = false) : (s.stream u).examine = 0 ∧ s.expiredRecord u = none := by
  simpa [State.ageDue, Option.isSome_eq_false_iff] using h

/-- A stream at which nothing is due is left as it is. -/
theorem State.finishAges_of_not_due {s : State} {u} (h : s.ageDue u = false) : s.finishAges u = s := by
  obtain ⟨h1, h2⟩ := State.not_ageDue h
  unfold State.finishAges State.examined; rw [if_pos h1]; exact State.ageSteps_of_none _ _ _ h2

/-- So are several. -/
theorem State.finishAges_all (us : List StreamId) (s : State) (h : ∀ u ∈ us, s.ageDue u = false) : us.foldl State.finishAges s = s := by
  induction us with
  | nil => rfl
  | cons u us ih => rw [List.foldl_cons, State.finishAges_of_not_due (h u (by simp))]; exact ih fun v hv => h v (by simp [hv])

/-- Where no hold is to end, nothing changes (R114). -/
theorem State.holdSteps_of_none (s : State) (n) (h : s.expiredHold = none) : s.holdSteps n = s := by
  induction n with
  | zero => rfl
  | succ n ih => unfold State.holdSteps; have : s.holdStep = s := by unfold State.holdStep; rw [h]
                 rw [this]; exact ih

/-- With the next expiry a microsecond off or more, none is taken (R139). -/
theorem State.takeIntervals_of_far (s : State) (n) (h : 4 ≤ s.port.left) : s.takeIntervals n = s := by
  cases n with
  | zero => rfl
  | succ n => unfold State.takeIntervals; rw [if_neg (by simpa [unitsPerMicrosecond] using h)]

/-- No hold ends where none has lasted the limit (R114). -/
theorem State.expiredHold_eq_none {s : State} (h : ∀ i g, (s.slot i).held = some g → s.holdExpired g = false) : s.expiredHold = none := by
  unfold State.expiredHold
  rw [List.findSome?_eq_none_iff]
  intro i _
  cases hh : (s.slot i).held with
  | none => rfl
  | some g => simp [h i g hh]

/-- What is due at a stream is read in its queue and its examination alone. -/
theorem State.ageDue_congr {s t : State} {v} (h1 : (t.stream v).examine = (s.stream v).examine) (h2 : (t.stream v).queue = (s.stream v).queue) (h3 : (t.stream v).expired = (s.stream v).expired) : t.ageDue v = s.ageDue v := by
  unfold State.ageDue State.expiredRecord; rw [h1, h2, h3]

/-- A removal changes no examination, and no other stream's queue (R92). -/
theorem State.stream_ageOut_tick (s : State) (u d) (v) : ((s.ageOut u d).stream v).examine = (s.stream v).examine ∧ ((s.ageOut u d).stream v).expired = (s.stream v).expired ∧ (v ≠ u → ((s.ageOut u d).stream v).queue = (s.stream v).queue) ∧ ((s.ageOut u d).stream u).queue = (s.stream u).queue.erase d := by
  refine ⟨by simp [State.ageOut], by simp [State.ageOut], ?_, ?_⟩
  · intro hv; simp [State.ageOut, State.stream_freeRecord, State.stream_dequeue, hv]; split <;> simp
  · simp [State.ageOut, State.stream_freeRecord, State.stream_dequeue]; split <;> simp

/-- Nor does a step that may find nothing to remove. -/
theorem State.stream_ageStep_tick (s : State) (u) (v) : ((s.ageStep u).stream v).examine = (s.stream v).examine ∧ ((s.ageStep u).stream v).expired = (s.stream v).expired ∧ (v ≠ u → ((s.ageStep u).stream v).queue = (s.stream v).queue) := by
  unfold State.ageStep; split
  · exact ⟨(State.stream_ageOut_tick ..).1, (State.stream_ageOut_tick ..).2.1, (State.stream_ageOut_tick ..).2.2.1⟩
  · simp

/-- The streams before one in stream order, and the lanes before one in lane order. -/
theorem finRange_before {n : Nat} (u : Fin n) : ∃ a b, List.finRange n = a ++ u :: b ∧ ∀ v ∈ a, v < u := by
  obtain ⟨a, b, hab⟩ := List.append_of_mem (List.mem_finRange u)
  refine ⟨a, b, hab, ?_⟩
  intro x hx
  have := List.pairwise_lt_finRange n
  rw [hab, List.pairwise_append] at this
  exact this.2.2 x hx u (by simp)

/-- The next count reads a state through what its streams still have to bring. -/
theorem State.nextMicrosecond_of_fold {s t : State} (us : List StreamId) (hus : List.finRange 32 = us) (h : us.foldl State.finishAges t = us.foldl State.finishAges s) : t.nextMicrosecond = s.nextMicrosecond := by
  unfold State.nextMicrosecond State.finishMicrosecond; rw [hus, h]

/-- With nothing due at any stream, through what its holds and the rest still have to bring. -/
theorem State.nextMicrosecond_of_hold {s t : State} (hs : ∀ v, s.ageDue v = false) (ht : ∀ v, t.ageDue v = false) (h : (t.holdSteps 16).finishSilences.buildStep.takeIntervals unitsPerMicrosecond = (s.holdSteps 16).finishSilences.buildStep.takeIntervals unitsPerMicrosecond) : t.nextMicrosecond = s.nextMicrosecond := by
  unfold State.nextMicrosecond State.finishMicrosecond
  generalize List.finRange 32 = us
  rw [State.finishAges_all us s fun v _ => hs v, State.finishAges_all us t fun v _ => ht v, h]

/-- An age expiry of the first stream that has one due comes before the count anyway (entry 7). -/
theorem State.nextMicrosecond_ageStep (s : State) (u) (h : ∀ v, v < u → s.ageDue v = false) : ((s.examined u).ageStep u).nextMicrosecond = s.nextMicrosecond := by
  obtain ⟨a, b, hab, ha⟩ := finRange_before u
  refine State.nextMicrosecond_of_fold _ hab ?_
  rw [List.foldl_append, List.foldl_append, List.foldl_cons, List.foldl_cons]
  rw [State.finishAges_all a s fun v hv => h v (ha v hv)]
  generalize hx : s.examined u = x
  have hx0 : (x.stream u).examine = 0 ∧ (x.stream u).queue = (s.stream u).queue := by
    subst hx; unfold State.examined; split
    · exact ⟨by assumption, rfl⟩
    · simp [State.examination]
  have hxv : ∀ v, v ≠ u → x.stream v = s.stream v := by
    subst hx; unfold State.examined; intro v hv; split
    · rfl
    · simp [State.examination, hv]
  rw [State.finishAges_all a (x.ageStep u) fun v hv => ?_]
  · congr 1
    unfold State.finishAges
    rw [hx]
    have : (x.ageStep u).examined u = x.ageStep u := by unfold State.examined; rw [(State.stream_ageStep_tick x u u).1, hx0.1]; simp
    rw [this]
    cases hr : x.expiredRecord u with
    | none =>
      have e : x.ageStep u = x := by unfold State.ageStep; rw [hr]
      rw [e, State.ageSteps_of_none _ _ _ hr, State.ageSteps_of_none _ _ _ hr]
    | some d =>
      have e : x.ageStep u = x.ageOut u d := by unfold State.ageStep; rw [hr]
      have hd : d ∈ (x.stream u).queue := List.mem_of_find?_eq_some hr
      have hl : ((x.ageStep u).stream u).queue.length + 1 = (s.stream u).queue.length := by
        rw [e, (State.stream_ageOut_tick x u d u).2.2.2, List.length_erase_of_mem hd, ← hx0.2]
        have := List.length_pos_of_mem hd; omega
      rw [← hl]; rfl
  · have hne : v ≠ u := fun hh => absurd (ha v hv) (by rw [hh]; exact lt_irrefl _)
    rw [← h v (ha v hv)]
    apply State.ageDue_congr
    · rw [(State.stream_ageStep_tick x u v).1, hxv v hne]
    · rw [(State.stream_ageStep_tick x u v).2.2 hne, hxv v hne]
    · rw [(State.stream_ageStep_tick x u v).2.1, hxv v hne]

/-- A record put back that is not looked for is not found. -/
theorem find?_insertByAge_none (f : DescId → Nat) (d : DescId) (xs : List DescId) (p : DescId → Bool) (h : xs.find? p = none) (hd : p d = false) : (insertByAge f d xs).find? p = none := by
  rw [List.find?_eq_none] at *
  intro e he
  obtain ⟨a, b, h1, h2, -⟩ := insertByAge_split f d xs
  rw [h2] at he
  simp only [List.mem_append, List.mem_cons] at he
  rcases he with he | rfl | he
  · exact h e (by rw [h1]; simp [he])
  · simp [hd]
  · exact h e (by rw [h1]; simp [he])
/-- Hold slots in use. -/
def State.slotsInUse (s : State) : Nat := ((List.finRange 16).filter fun i => (s.slot i).held.isSome).length

/-- The slots after a hold expiry (R114). -/
theorem State.slot_expireHold (s : State) (i h j) : (s.expireHold i h).slot j = if j = i then ⟨(s.slot i).generation + 1, none⟩ else s.slot j := by
  simp only [State.expireHold, State.settlePurge_frame, State.bumpDevice_frame, State.latch_frame]
  rw [State.slot_emptySlot]; simp

/-- A hold expiry makes nothing due at a stream (R94, R116). -/
theorem State.ageDue_expireHold (s : State) (i h) (ha : ∀ v, s.ageDue v = false) (v) : (s.expireHold i h).ageDue v = false := by
  obtain ⟨h1, h2⟩ := State.not_ageDue (ha v)
  have hs : (s.expireHold i h).stream v = (s.requeue h.desc).stream v := by simp [State.expireHold]
  unfold State.ageDue State.expiredRecord
  rw [hs, State.stream_requeue]
  by_cases hv : v = (s.desc h.desc).stream
  · rw [if_pos hv]; simp only [h1, bne_self_eq_false, Bool.false_or]
    rw [Option.isSome_eq_false_iff, Option.isNone_iff_eq_none]
    apply find?_insertByAge_none
    · rw [List.find?_eq_none]
      unfold State.expiredRecord at h2
      rw [List.find?_eq_none] at h2
      intro e he
      have := h2 e he
      simp only [decide_eq_true_eq, Stream.unexamined, List.mem_filter] at this ⊢
      exact fun hh => this hh.1
    · simp [Stream.unexamined]
  · rw [if_neg hv]
    have := ha v; unfold State.ageDue State.expiredRecord at this; exact this

/-- The hold that ends is that of its slot. -/
theorem State.held_expiredHold {s : State} {i g} (h : s.expiredHold = some (i, g)) : (s.slot i).held = some g := by
  unfold State.expiredHold at h
  obtain ⟨j, hj, hh⟩ := List.exists_of_findSome?_eq_some h
  split at hh
  · rename_i x hx
    split at hh
    · simp at hh; obtain ⟨rfl, rfl⟩ := hh; exact hx
    · cases hh
  · cases hh

/-- A hold expiry takes one slot out of use. -/
theorem State.heldCount_holdStep {s : State} {i g} (h : s.expiredHold = some (i, g)) : State.slotsInUse s.holdStep + 1 = State.slotsInUse s := by
  have hi := State.held_expiredHold h
  have e : s.holdStep = s.expireHold i g := by unfold State.holdStep; rw [h]
  rw [e]
  unfold State.slotsInUse
  have : (List.finRange 16).filter (fun j => ((s.expireHold i g).slot j).held.isSome) = ((List.finRange 16).filter fun j => (s.slot j).held.isSome).erase i := by
    rw [List.Nodup.erase_eq_filter ((List.nodup_finRange 16).filter _), List.filter_filter]
    refine List.filter_congr fun j _ => ?_
    rw [State.slot_expireHold]
    by_cases hj : j = i <;> simp [hj]
  rw [this, List.length_erase_of_mem (by simp [hi])]
  have : 0 < ((List.finRange 16).filter fun j => (s.slot j).held.isSome).length := List.length_pos_of_mem (a := i) (by simp [hi])
  omega

/-- As many steps as slots in use are enough. -/
theorem State.holdSteps_succ (n) (s : State) (h : State.slotsInUse s ≤ n) : s.holdSteps (n+1) = s.holdSteps n := by
  induction n generalizing s with
  | zero =>
    have : s.expiredHold = none := by
      cases hh : s.expiredHold with
      | none => rfl
      | some p => have := State.heldCount_holdStep (i := p.1) (g := p.2) hh; omega
    rw [State.holdSteps_of_none _ _ this, State.holdSteps_of_none _ _ this]
  | succ n ih =>
    cases hh : s.expiredHold with
    | none => rw [State.holdSteps_of_none _ _ hh, State.holdSteps_of_none _ _ hh]
    | some p =>
      have := State.heldCount_holdStep (i := p.1) (g := p.2) hh
      exact ih s.holdStep (by omega)

/-- There are sixteen slots. -/
theorem State.heldCount_le (s) : State.slotsInUse s ≤ 16 := by
  unfold State.slotsInUse; exact le_trans (List.length_filter_le ..) (by simp)

/-- A hold expiry comes before the count anyway (entry 7). -/
theorem State.nextMicrosecond_holdStep (s : State) (i g) (ha : ∀ v, s.ageDue v = false) (h : s.expiredHold = some (i, g)) : s.holdStep.nextMicrosecond = s.nextMicrosecond := by
  have e : s.holdStep = s.expireHold i g := by unfold State.holdStep; rw [h]
  refine State.nextMicrosecond_of_hold ha (fun v => by rw [e]; exact State.ageDue_expireHold s i g ha v) ?_
  have h1 := State.heldCount_holdStep h
  have h2 := State.heldCount_le s
  have : s.holdStep.holdSteps (15 + 1) = s.holdStep.holdSteps 15 := State.holdSteps_succ 15 _ (by omega)
  have h16 : s.holdSteps (15 + 1) = s.holdStep.holdSteps 15 := by rw [State.holdSteps]
  rw [show (16 : Nat) = 15 + 1 from rfl, this, h16]

/-! ### Silence and the pool's build before a count (entry 24) -/

/-- Where no silence is due, none is detected (R15). -/
theorem State.foldl_silenceStep_of_none (ls : List LaneId) (s : State) (h : ∀ l ∈ ls, s.silenceDue l = false) :
    ls.foldl State.silenceStep s = s := by
  induction ls with
  | nil => rfl
  | cons l ls ih =>
    have : s.silenceStep l = s := by simp [State.silenceStep, h l (by simp)]
    rw [List.foldl_cons, this]; exact ih fun m hm => h m (by simp [hm])

theorem State.finishSilences_of_none {s : State} (h : ∀ l, s.silenceDue l = false) : s.finishSilences = s :=
  State.foldl_silenceStep_of_none _ s fun l _ => h l

theorem State.buildDue_eq_false_iff (s : State) : s.buildDue = false ↔ s.buildNotDue := by
  have hc : s.cmd.phase.isClearing = true ↔ ∃ n, s.cmd.phase = .clearing n := by
    unfold Phase.isClearing; split <;> simp_all
  simp only [State.buildDue, State.buildNotDue, State.since, Config.buildMicros, ← hc, Bool.and_eq_false_iff,
    Bool.not_eq_eq_eq_not, Bool.not_false, or_assoc]
  exact or_congr Iff.rfl (or_congr (decide_eq_false_iff_not.trans not_le) Iff.rfl)

theorem State.buildStep_of_not_due {s : State} (h : s.buildDue = false) : s.buildStep = s := by
  simp [State.buildStep, h]

/-- A hold's end is judged by the slots and the time. -/
theorem State.expiredHold_congr {s t : State} (h1 : ∀ i, t.slot i = s.slot i) (h2 : t.time = s.time) :
    t.expiredHold = s.expiredHold := by
  unfold State.expiredHold State.holdExpired State.since; simp only [h1, h2]

/-- Silence is judged by the lane's receiver and the time, the end of the build by the pool, the time and the Command Unit. -/
theorem State.silenceDue_congr {s t : State} {l : LaneId} (h1 : t.lane l = s.lane l) (h2 : t.time = s.time) :
    t.silenceDue l = s.silenceDue l := by
  unfold State.silenceDue State.since; rw [h1, h2]

theorem State.buildDue_congr {s t : State} (h1 : t.pool.ready = s.pool.ready)
    (h2 : t.pool.buildStart = s.pool.buildStart) (h3 : t.time = s.time) (h4 : t.cmd = s.cmd) :
    t.buildDue = s.buildDue := by
  unfold State.buildDue State.since; rw [h1, h2, h3, h4]

theorem State.ready_finishBuild (s : State) : s.finishBuild.pool.ready = true := by simp only [State.finishBuild]

/-- With the tick's expiries taken, the next count reads a state through its silences and the rest. -/
theorem State.nextMicrosecond_of_silences {s t : State} (hs : ∀ v, s.ageDue v = false) (h : s.expiredHold = none)
    (ht : ∀ v, t.ageDue v = false) (h' : t.expiredHold = none)
    (e : t.finishSilences.buildStep.takeIntervals unitsPerMicrosecond
      = s.finishSilences.buildStep.takeIntervals unitsPerMicrosecond) : t.nextMicrosecond = s.nextMicrosecond := by
  refine State.nextMicrosecond_of_hold hs ht ?_
  rw [State.holdSteps_of_none _ _ h, State.holdSteps_of_none _ _ h', e]

/-- A silence comes before the count anyway (entry 24). -/
theorem State.nextMicrosecond_fallSilent (s : State) (l : LaneId) (ha : ∀ v, s.ageDue v = false)
    (hh : s.expiredHold = none) (hm : ∀ m, m < l → s.silenceDue m = false) (hl : s.silenceDue l = true) :
    (s.fallSilent l).nextMicrosecond = s.nextMicrosecond := by
  refine State.nextMicrosecond_of_silences ha hh (fun v => ?_) ?_ ?_
  · rw [← ha v]; apply State.ageDue_congr <;> simp
  · rw [← hh]; exact State.expiredHold_congr (by simp) (by simp)
  · obtain ⟨a, b, hab, hb⟩ := finRange_before l
    have e1 : s.silenceStep l = s.fallSilent l := by rw [State.silenceStep, if_pos hl]
    have e2 : (s.fallSilent l).silenceStep l = s.fallSilent l := by
      rw [State.silenceStep, State.silenceDue_fallSilent, if_pos rfl, if_neg Bool.false_ne_true]
    have e : (s.fallSilent l).finishSilences = s.finishSilences := by
      unfold State.finishSilences
      rw [hab, List.foldl_append, List.foldl_append, List.foldl_cons, List.foldl_cons,
        State.foldl_silenceStep_of_none a s fun v hv => hm v (hb v hv),
        State.foldl_silenceStep_of_none a (s.fallSilent l) fun v hv => ?_, e1, e2]
      rw [State.silenceDue_fallSilent]; split
      · rfl
      · exact hm v (hb v hv)
    rw [e]

/-- The end of the pool's build comes before the count anyway (entry 24). -/
theorem State.nextMicrosecond_finishBuild (s : State) (ha : ∀ v, s.ageDue v = false) (hh : s.expiredHold = none)
    (hl : ∀ l, s.silenceDue l = false) (hb : s.buildDue = true) : s.finishBuild.nextMicrosecond = s.nextMicrosecond := by
  have hs : ∀ v, s.finishBuild.stream v = s.stream v := by simp
  refine State.nextMicrosecond_of_silences ha hh (fun v => ?_) ?_ ?_
  · rw [← ha v]; apply State.ageDue_congr <;> rw [hs]
  · rw [← hh]; exact State.expiredHold_congr (by simp) (by simp)
  have hl' : ∀ l, s.finishBuild.silenceDue l = false := fun l => by
    rw [← hl l]; exact State.silenceDue_congr (by simp) (by simp)
  have e : s.finishBuild.buildDue = false := by unfold State.buildDue; rw [State.ready_finishBuild]; rfl
  rw [State.finishSilences_of_none hl, State.finishSilences_of_none hl']
  rw [State.buildStep_of_not_due e, State.buildStep, if_pos hb]

/-- An interval expiry starts the next interval (R139). -/
theorem State.left_intervalExpiry (s : State) : s.intervalExpiry.port.left = s.port.left + s.port.interval.toNat ∧ s.intervalExpiry.port.interval = s.port.interval := by
  unfold State.intervalExpiry; split <;> simp [State.startInterval, State.lateRefresh, State.oweRefresh]

/-- Four steps are enough: each interval is a unit or more (R139). -/
theorem State.takeIntervals_succ (n) (s : State) (hi : s.port.interval ≠ 0) (h : 4 ≤ s.port.left + n) : s.takeIntervals (n+1) = s.takeIntervals n := by
  induction n generalizing s with
  | zero => rw [State.takeIntervals_of_far _ _ (by omega), State.takeIntervals_of_far _ _ (by omega)]
  | succ n ih =>
    rw [State.takeIntervals]
    conv_rhs => rw [State.takeIntervals]
    split
    · have := State.left_intervalExpiry s
      apply ih
      · rw [this.2]; exact hi
      · rw [this.1]
        have : s.port.interval.toNat ≠ 0 := fun hh => hi (by apply BitVec.eq_of_toNat_eq; simpa using hh)
        omega
    · rfl

/-- An interval expiry comes before the count anyway (entry 22). -/
theorem State.nextMicrosecond_intervalExpiry (s : State) (ha : ∀ v, s.ageDue v = false) (h : s.expiredHold = none) (hq : ∀ l, s.silenceDue l = false) (hb : s.buildDue = false) (hi : s.port.interval ≠ 0) (hl : s.port.left < 4) : s.intervalExpiry.nextMicrosecond = s.nextMicrosecond := by
  have hs : ∀ v, s.intervalExpiry.stream v = s.stream v := by
    intro v; unfold State.intervalExpiry; split <;> simp
  have hs' : ∀ v, s.intervalExpiry.slot v = s.slot v := by
    intro v; unfold State.intervalExpiry; split <;> simp
  have ht : s.intervalExpiry.time = s.time := by
    unfold State.intervalExpiry; split <;> simp
  have hh : s.intervalExpiry.expiredHold = none := by rw [← h]; exact State.expiredHold_congr hs' ht
  have hq' : ∀ l, s.intervalExpiry.silenceDue l = false := fun l => by
    rw [← hq l]; refine State.silenceDue_congr ?_ ht; unfold State.intervalExpiry; split <;> simp
  have hb' : s.intervalExpiry.buildDue = false := by
    rw [← hb]; refine State.buildDue_congr ?_ ?_ ht ?_ <;> (unfold State.intervalExpiry; split <;> simp)
  refine State.nextMicrosecond_of_silences ha h (fun v => by rw [← ha v]; apply State.ageDue_congr <;> rw [hs]) hh ?_
  rw [State.finishSilences_of_none hq, State.finishSilences_of_none hq', State.buildStep_of_not_due hb,
    State.buildStep_of_not_due hb']
  have e : s.takeIntervals unitsPerMicrosecond = s.intervalExpiry.takeIntervals 3 := by
    show (if s.port.left < unitsPerMicrosecond then _ else _) = _
    rw [if_pos (by simpa [unitsPerMicrosecond] using hl)]
  rw [e]
  have := State.left_intervalExpiry s
  have h0 : s.port.interval.toNat ≠ 0 := fun hh => hi (by apply BitVec.eq_of_toNat_eq; simpa using hh)
  exact State.takeIntervals_succ 3 _ (by rw [this.2]; exact hi) (by rw [this.1]; omega)

/-- With nothing left to come, nothing comes before the count. -/
theorem State.finishMicrosecond_of_settled {s : State} (h : s.settledMicrosecond) : s.finishMicrosecond = s := by
  obtain ⟨h1, h2, hq, hb, h3⟩ := h
  unfold State.finishMicrosecond
  generalize List.finRange 32 = us
  have e1 : us.foldl State.finishAges s = s := by
    refine State.finishAges_all us s fun u _ => ?_
    have := h1 u
    unfold State.ageDue State.expiredRecord
    rw [this.1]
    simp only [bne_self_eq_false, Bool.false_or, Option.isSome_eq_false_iff, Option.isNone_iff_eq_none, List.find?_eq_none]
    intro d hd; simp [this.2 d hd]
  have e2 : s.expiredHold = none := by
    apply State.expiredHold_eq_none
    intro i g hg
    rcases h2 i g hg with h | h
    · simp [State.holdExpired, h]
    · simp only [State.holdExpired, Bool.and_eq_false_iff, decide_eq_false_iff_not]; right
      unfold State.since; omega
  rw [e1, State.holdSteps_of_none s 16 e2,
    State.finishSilences_of_none fun l => (State.silenceDue_eq_false_iff s l).mpr (hq l),
    State.buildStep_of_not_due ((State.buildDue_eq_false_iff s).mpr hb)]
  exact State.takeIntervals_of_far s _ h3

end Sys2Proof.Machine
end

