-- ==== Sys2Proof/Tests/Slice0.lean ====
section
/-! SUPPORT. Tests: well-formedness, the manual's worked values, single steps on small states, and for every statement with
hypotheses a state and operands that meet them. -/

namespace Sys2Proof.Tests

-- Each test is checked before the next begins: many at once take more threads than the memory limit has stacks for.
set_option Elab.async false

open Sys2Proof Sys2Proof.Machine

/-! ### Building small states -/

/-- The bits of a byte, most significant first (R1). -/
def bitsOf (b : Byte) : List Bool := (List.range 8).map fun i => b.getLsbD (7 - i)

/-- The 32 bits of a header of this Length, Kind 0 and Source Tag 41h with this Header Check (R2). -/
def headerBits (len : BitVec 12) (check : Byte) : List Bool :=
  bitsOf (len.extractLsb' 4 8) ++ bitsOf (len.extractLsb' 0 4 ++ (0 : BitVec 4)) ++ bitsOf 0x41 ++ bitsOf check

/-- Change lane 0. -/
def onLane (s : State) (f : Lane → Lane) : State := s.setLane 0 (f (s.lane 0))

/-- Change lane 0's receiver. -/
def onRx (s : State) (f : Receiver → Receiver) : State := onLane s fun x => { x with rx := f x.rx }

/-- Change lane 0's reception unit. -/
def onUnit (s : State) (f : Reception → Reception) : State := onLane s fun x => { x with unit := f x.unit }

/-- A part whose pool is READY with three free cells and two free descriptors, and whose clock reads 1,000,000 µs. -/
def ready : State :=
  { State.reset with
    pool := { Pool.reset with ready := true, freeCells := [5, 6, 7], freeDescs := [8, 9] }
    time := ⟨1000000, 0, 0, 0⟩ }

/-- A stored record of stream 0 in two cells, with this completion number. -/
def record (state : DescState) (completion : Option (BitVec 32)) : Desc :=
  { Desc.blank with state := state, length := 100, firstCell := 1, cellCount := 2, completion := completion, arrival := 10 }

/-- Stream 0 enabled with this quota and policy. -/
def stream0 (quota : Nat) (policy : Policy) : Stream := ⟨⟨true, quota, policy, 2, 1⟩, [], 0, 0, 0, []⟩

/-- `ready` with an enabled stream 0, a route to it for tag 41h on lane 0, and lane 0 enabled, its last edge 49 µs ago. -/
def routed : State :=
  onLane
    ((ready.setStream 0 (stream0 10 .refuseNewest)).setRoute 0 ⟨true, some 0, 0x41, 0xFF, .store, 0, true, 7, true, 3⟩)
    fun x => { x with entry := { x.entry with enable := true }, rx := { x.rx with lastEdge := 999951 } }

/-- Lane 0 LOCKED, one bit short of the end of a header. -/
def atHeader (s : State) (len : BitVec 12) (check : Byte) : State :=
  onRx s fun rx => { rx with delin := .locked, sub := .awaitHeader, bits := (headerBits len check).take 31 }

/-- The last bit of that header. -/
def lastBit (len : BitVec 12) (check : Byte) : Bool := (headerBits len check).getD 31 false

/-- Lane 0 LOCKED in a sub-state, one bit short of the end of a byte of ones, with this many bytes to pass. -/
def atByte (s : State) (sub : SubState) (count : Nat) : State :=
  onRx s fun rx => { rx with delin := .locked, sub := sub, byteCount := count, bits := List.replicate 7 true }

/-- Lane 0 with descriptor 2 as its one record in this state. -/
def withRecord (s : State) (state : DescState) : State :=
  onUnit (s.setDesc 2 (record state none)) fun u => { u with list := [2] }

/-- Stream 0 with descriptor 2 queued, five completions made. -/
def queued (s : State) : State :=
  { (s.setDesc 2 (record .queued (some 4))).setStream 0 { stream0 10 .evictOldest with queue := [2], charge := 2 } with
    counts := { s.counts with completions := 5 } }

/-- Descriptor 2 HELD in slot 3 at generation 9 since 10 µs. -/
def holding (s : State) : State :=
  ((s.setDesc 2 (record .held (some 4))).setSlot 3 ⟨9, some ⟨2, 10⟩⟩).setStream 0
    { stream0 10 .evictOldest with heldCount := 1, charge := 2 }

/-- The window pointed at that holding, in a state. -/
def pointed (s : State) (mode : WindowMode) (offset : Word) : State :=
  { holding s with window := { s.window with pointed := 0x93, mode := mode, offset := offset } }

/-- A command accepted with an argument, before its end act. -/
def running (s : State) (code arg : Word) : State := { s with cmd := { s.cmd with phase := .running, code := code, arg := arg } }

/-- RESET_n low. -/
def low : State := State.reset.hardReset

/-! ### Well-formedness and worked values -/

theorem test_illFormed_registerWrite : ∀ a ∈ ownRowAddresses, (Instr.registerWrite a 0).wellFormed = false := by decide

theorem test_wellFormed_registerWrite : (Instr.registerWrite 0x0D 0xFFFF).wellFormed = true := by decide

/-- R3's two examples. -/
theorem test_headerCheck : headerCheck 0x00 0x00 0x01 = 0x07 ∧ headerCheck 0 0 0 = 0 := by decide +kernel

/-- R6's example. -/
theorem test_recordCheck :
    [0x31, 0x32, 0x33, 0x34, 0x35, 0x36, 0x37, 0x38, 0x39].foldl recordCheckByte 0xFFFF = 0x29B1 := by decide +kernel

/-- R2: Length 64 is 04h and the high half of the second byte. -/
theorem test_header : headerOfBytes 0x06 0x4A 0x41 0x00 = ⟨100, 0xA, 0x41, headerCheck 0x06 0x4A 0x41 == 0⟩ := by decide +kernel

/-- R101's example. -/
theorem test_handle : handleOf 3 5 = 0x35 ∧ handleSlot 0x35 = 5 ∧ handleGeneration 0x35 = 3 := by decide

/-- Record sizes (00_scope, "Sizes"). -/
theorem test_cellsFor : cellsFor 100 = 2 ∧ cellsFor 64 = 1 ∧ cellsFor 4095 = 64 := by decide

/-- Table 8-2: with the position at L5, L6 goes before L1; with the position at the window, L0 goes first. -/
theorem test_roundRobin : roundRobin 5 = [6, 7, 8, 0, 1, 2, 3, 4, 5] ∧ (roundRobin 8).head? = some 0 := by decide

/-! ### Witnesses: the queue, reset and the host port -/

theorem witness_StepRunsFrontCommand : ({ State.reset with pending := [.take, .peek] } : State).pending = .take :: [.peek] := rfl

theorem witness_ExecKeepsQueue : (∃ t, exec .timebaseCount State.reset = .next t) ∧ State.reset.pending = [] :=
  ⟨⟨_, rfl⟩, rfl⟩

theorem witness_HardResetAndRelease :
    (∃ t u, exec .hardReset State.reset = .next t ∧ exec .resetRelease t = .next u) ∧ low.host.resetHigh = false :=
  ⟨⟨_, _, rfl, rfl⟩, rfl⟩

/-- State right after reset takes accesses (the premise of the statements about direct writes). -/
theorem witness_takesAccess : State.reset.takesAccess := ⟨rfl, rfl, rfl⟩

theorem witness_InputsThatAreIgnored :
    (low.host.resetHigh = false ∧ Instr.purge.isHostWrite = true ∧ Instr.timeLoRead.isHostRead = true)
      ∧ ({ State.reset with host := ⟨true, true, none⟩ } : State).host.heldRead = true
      ∧ (Instr.header 0 true).edgeOf = some (0, true) ∧ (State.reset.lane 0).rx.delin = .disabled := by decide

/-! ### Witnesses: lanes -/

/-- Lane 0 in HUNT with 31 bits of 0. -/
def hunting : State := onRx routed fun rx => { rx with delin := .hunt, bits := List.replicate 31 false }

theorem witness_LaneClockEdges_hunt :
    hunting.host.resetHigh = true ∧ hunting.heardInTime 0 ∧ (hunting.lane 0).rx.delin = .hunt ∧ (hunting.lane 0).rx.bits.length + 1 - 32 = 0
      ∧ (headerOfBits ((hunting.lane 0).rx.bits ++ [true])).passes = false
      ∧ (headerOfBits ((hunting.lane 0).rx.bits ++ [false])).passes = true := by decide +kernel

/-- Lane 0 in a delineation state and a sub-state, with bytes to pass and bits of ones assembled. -/
def assembling (delin : Delineation) (sub : SubState) (count bits : Nat) : State :=
  onRx routed fun rx => { rx with delin := delin, sub := sub, byteCount := count, bits := List.replicate bits true }

/-- Every clause of the edges that add one bit or pass one byte over, at the ends of its range. -/
theorem witness_LaneClockEdges_bytes :
    ∀ e ∈ [(Delineation.provisional, SubState.awaitHeader, 3, 0), (.provisional, .awaitHeader, 1, 6),
        (.provisional, .awaitHeader, 0, 30), (.provisional, .awaitHeader, 1, 7), (.locked, .awaitHeader, 0, 0),
        (.locked, .awaitHeader, 0, 30), (.locked, .body, 5, 6), (.locked, .skip, 1, 7), (.locked, .skip, 2, 7),
        (.locked, .trailer, 2, 7)],
      let s := assembling e.1 e.2.1 e.2.2.1 e.2.2.2
      s.host.resetHigh = true ∧ s.heardInTime 0 ∧ (s.lane 0).rx.delin = e.1 ∧ (s.lane 0).rx.sub = e.2.1 ∧ (s.lane 0).rx.byteCount = e.2.2.1
        ∧ (s.lane 0).rx.bits.length = e.2.2.2 := by decide +kernel

/-- Lane 0 PROVISIONAL, one bit short of the end of a header. -/
def provisional (remaining : Nat) (len : BitVec 12) (check : Byte) : State :=
  onRx routed fun rx => { rx with
    delin := .provisional, remaining := remaining, bits := (headerBits len check).take 31 }

theorem witness_ProvisionalHeader :
    (∀ e ∈ [((2 : Nat), (100 : BitVec 12), (0xE7 : Byte), false), (2, 100, 0xE6, true), (1, 0, 0xC0, true), (1, 1, 0x97, true),
        (1, 2, 0x6E, true), (0, 4095, 0xFF, true)],
      let s := provisional e.1 e.2.1 e.2.2.1
      s.host.resetHigh = true ∧ (s.lane 0).rx.delin = .provisional ∧ (s.lane 0).rx.byteCount = 0
        ∧ (s.lane 0).rx.bits.length = 31
        ∧ headerOfBits ((s.lane 0).rx.bits ++ [lastBit e.2.1 e.2.2.1]) = ⟨e.2.1, 0, 0x41, e.2.2.2⟩
        ∧ (s.lane 0).rx.remaining = e.1 ∧ s.heardInTime 0) := by decide +kernel

/-- The header statements' premise, for a header of this length and check. -/
theorem witness_endsHeader :
    ∀ e ∈ [((0 : BitVec 12), (0xC0 : Byte), true), (1, 0x97, true), (2, 0x6E, true), (100, 0xE6, true), (4095, 0xFF, true),
        (0, 0xC1, false), (1, 0x96, false), (300, 0x58, false)],
      let s := atHeader routed e.1 e.2.1
      s.host.resetHigh = true ∧ (s.lane 0).rx.delin = .locked ∧ (s.lane 0).rx.sub = .awaitHeader
        ∧ (s.lane 0).rx.bits.length = 31
        ∧ headerOfBits ((s.lane 0).rx.bits ++ [lastBit e.1 e.2.1]) = ⟨e.1, 0, 0x41, e.2.2⟩ ∧ s.heardInTime 0 := by
  intro e he
  simp only [List.mem_cons, List.not_mem_nil, or_false] at he
  rcases he with rfl | rfl | rfl | rfl | rfl | rfl | rfl | rfl <;> decide +kernel

/-- Both sides of the Miss Tolerance (here 1). -/
theorem witness_HeaderWithoutRecord :
    (let s := onRx (atHeader routed 300 0x58) fun rx => { rx with missCount := 1 };
      (s.lane 0).entry.missTolerance.toNat < (s.lane 0).rx.missCount + 1)
    ∧ (let s := atHeader routed 300 0x58;
      (s.lane 0).rx.missCount + 1 ≤ (s.lane 0).entry.missTolerance.toNat) := by decide +kernel

/-- A lane 0 whose silence is due: its last edge was 50 µs ago. -/
def quiet (delin : Delineation) (sub : SubState) : State :=
  onRx (withRecord routed .receiving) fun rx => { rx with delin := delin, sub := sub, lastEdge := 999950 }

theorem witness_Silence :
    (∀ e ∈ [(Delineation.hunt, SubState.awaitHeader), (.provisional, .awaitHeader), (.locked, .awaitHeader), (.locked, .skip),
        (.locked, .body), (.locked, .trailer)],
      let s := quiet e.1 e.2
      s.host.resetHigh = true ∧ (s.lane 0).rx.delin = e.1 ∧ (s.lane 0).rx.sub = e.2 ∧ (s.lane 0).rx.silent = false
        ∧ 50 ≤ (s.time.count - (s.lane 0).rx.lastEdge).toNat ∧ s.receiving 0 = some 2) := by decide +kernel

/-! ### Witnesses: reception -/

theorem witness_Classification :
    (let e := routed.route 0;
      e.valid = true ∧ (e.laneMatch = none ∨ e.laneMatch = some 0)
        ∧ ∀ k < 8, e.tagMask.getLsbD k = true → (0x41 : Byte).getLsbD k = e.tag.getLsbD k)
    ∧ (∀ j : RouteId, ¬j < 0) ∧ (∀ j : RouteId, (State.reset.route j).valid = false) := by decide +kernel

/-- Stream 0 under a policy at a quota of 1, one cell short for a header of 100 bytes. -/
def tight (policy : Policy) : State := atHeader (routed.setStream 0 (stream0 1 policy)) 100 0xE6

theorem witness_HeaderRefused :
    (({ routed with pool := Pool.reset } : State).pool.ready = false
      ∧ (routed.setPhase (.clearing .second)).cmd.phase = .clearing .second ∧ routed.classify 0 0x42 = none)
    ∧ (let s := routed.setStream 0 Stream.reset;
      s.pool.ready = true ∧ s.classify 0 0x41 = some (0, some (0, 3)) ∧ (s.stream 0).entry.enable = false)
    ∧ (∀ p ∈ [Policy.refuseNewest, .evictOldest],
      (tight p).classify 0 0x41 = some (0, some (0, 3)) ∧ ((tight p).stream 0).entry.quota < 0 + 2
        ∧ ((tight p).stream 0).entry.policy = p ∧ (tight p).evictionEnough 0 2 = false) := by decide +kernel

theorem witness_HeaderAccepted :
    let s := atHeader routed 100 0xE6
    s.pool.ready = true ∧ s.cmd.phase ≠ .clearing .second ∧ s.classify 0 0x41 = some (0, some (0, 3))
      ∧ (s.stream 0).entry.enable = true ∧ (s.stream 0).charge + 2 ≤ (s.stream 0).entry.quota
      ∧ 2 ≤ s.pool.freeCells.length ∧ s.pool.freeDescs = 8 :: [9] ∧ s.pool.freeCells.Nodup := by decide +kernel

/-- A header of 100 bytes about to end, for a stream whose quota of 3 holds one queued record in the cells 1 and 2. -/
def evicting : State :=
  let s := atHeader (queued routed) 100 0xE6
  { s.setStream 0 { s.stream 0 with entry := { (s.stream 0).entry with quota := 3 } } with
    pool := { s.pool with links := [(1, some 2)] } }

theorem witness_EvictionOldestFirst :
    (evicting.stream 0).entry.policy = .evictOldest
      ∧ ¬((evicting.stream 0).charge + 2 ≤ (evicting.stream 0).entry.quota)
      ∧ evicting.evictionEnough 0 2 = true ∧ evicting.evictionEnough 0 4 = false
      ∧ (evicting.stream 0).queue = [2] ∧ evicting.chain 2 = [1, 2]
      ∧ (evicting.desc 2).stream = 0 ∧ (evicting.chain 2).length = (evicting.desc 2).cellCount
      ∧ ((evicting.stream 0).queue.map fun d => (evicting.desc d).cellCount).sum ≤ (evicting.stream 0).charge := by decide +kernel

theorem witness_EvictionOldestFirst_header :
    evicting.host.resetHigh = true ∧ (evicting.lane 0).rx.delin = .locked ∧ (evicting.lane 0).rx.sub = .awaitHeader
      ∧ (evicting.lane 0).rx.bits.length = 31
      ∧ headerOfBits ((evicting.lane 0).rx.bits ++ [lastBit 100 0xE6]) = ⟨100, 0, 0x41, true⟩
      ∧ evicting.pool.ready = true ∧ evicting.cmd.phase ≠ .clearing .second
      ∧ evicting.classify 0 0x41 = some (0, some (0, 3)) ∧ (evicting.stream 0).entry.enable = true := by decide +kernel

theorem witness_BodyByte :
    (let s := atByte (withRecord routed .receiving) .body 5;
      s.host.resetHigh = true ∧ (s.lane 0).rx.sub = .body ∧ (s.lane 0).rx.bits.length = 7
        ∧ byteOfBits ((s.lane 0).rx.bits ++ [true]) = 0xFF ∧ s.receiving 0 = some 2
        ∧ s.stagingFor 0 2 = some (0, ⟨some 2, 0, 1, []⟩))
    ∧ (let s := onUnit (atByte (withRecord routed .receiving) .body 5) fun u => { u with
        staging := Vector.replicate 4 (.pending ⟨some 1, 0, 0, []⟩) }
      s.receiving 0 = some 2 ∧ ∀ i : Fin 4, (s.lane 0).unit.staging[i.val].isFree = false
        ∧ (s.lane 0).unit.staging[i.val].fillingFor 2 = false) := by decide +kernel

/-- Lane 0 about to take the second trailer byte FFh of a record whose check register is this. -/
def atTrailer (check : Word) : State :=
  onUnit (atByte (withRecord routed .receiving) .trailer 1) fun u => { u with trailer := [0x12], check := check }

theorem witness_TrailerMatches :
    (∀ s ∈ [atTrailer 0x12FF, onUnit (atTrailer 0x12FF) fun u => { u with
        staging := u.staging.set 0 (.writing ⟨some 2, 0, 1, []⟩) }, onUnit (atTrailer 0x12FF) fun u => { u with list := [3, 2] }],
      s.host.resetHigh = true ∧ (s.lane 0).rx.delin = .locked ∧ (s.lane 0).rx.sub = .trailer
        ∧ (s.lane 0).rx.bits.length = 7 ∧ (s.lane 0).rx.byteCount = 1 ∧ s.receiving 0 = some 2
        ∧ (s.lane 0).unit.check = (0x12 : Byte) ++ (0xFF : Byte))
    ∧ (((atTrailer 0x12FF).lane 0).unit.list.head? = some 2
      ∧ (∀ i : Fin 4, ((atTrailer 0x12FF).lane 0).unit.staging[i.val].busyFor 2 = false)
      ∧ ((atTrailer 0x12FF).desc 2).route = none) := by decide +kernel

/-- Lane 0 with Keep Damaged 1. -/
def keeping (s : State) : State := onLane s fun x => { x with entry := { x.entry with keepDamaged := true } }

theorem witness_TrailerDamaged :
    (∀ e ∈ [(atTrailer 0, false, [(2 : DescId)]), (keeping (atTrailer 0), true, [2]),
        (onUnit (keeping (atTrailer 0)) fun u => { u with list := [3, 2] }, true, [3, 2])],
      e.1.receiving 0 = some 2 ∧ (e.1.lane 0).unit.check ≠ (0x12 : Byte) ++ (0xFF : Byte)
        ∧ (e.1.lane 0).unit.trailer = [0x12] ∧ (e.1.lane 0).rx.byteCount = 1 ∧ (e.1.lane 0).entry.keepDamaged = e.2.1
        ∧ (e.1.lane 0).unit.list = e.2.2 ∧ ∀ i : Fin 4, (e.1.lane 0).unit.staging[i.val].busyFor 2 = false) := by
  decide +kernel

/-- A record of route entry 0 (Expected 7, Edition 3) with this Sequence. -/
def tracked (q : Word) (edition : Byte) : State :=
  routed.setDesc 2 { record .completing none with sequence := some q, route := some (0, edition) }

/-- The three ways a record is neither checked nor tracked. -/
theorem witness_SequenceCheck_untracked :
    let s := tracked 7 3
    ((s.setDesc 2 { s.desc 2 with damaged := true }).desc 2).damaged = true
      ∧ ((s.setDesc 2 { s.desc 2 with route := none }).desc 2).route = none
      ∧ (((s.setRoute 0 { s.route 0 with seqCheck := false }).desc 2).route = some (0, 3)
        ∧ ((s.setRoute 0 { s.route 0 with seqCheck := false }).route 0).seqCheck = false) := by decide +kernel

/-- Every clause of the check, at the ends of its range (Table 3-4). -/
theorem witness_SequenceCheck :
    (tracked 7 2).track 2 = (tracked 7 2).setDesc 2 { (tracked 7 2).desc 2 with unchecked := true }
    ∧ ((tracked 7 3).track 2).route 0 = { routed.route 0 with expected := 8 }
    ∧ (((tracked 8 3).track 2).desc 2).gapSize = some 1
    ∧ (((tracked 32774 3).track 2).desc 2).gapSize = some 32767
    ∧ (((tracked 32775 3).track 2).desc 2).outOfOrder = true
    ∧ (((tracked 6 3).track 2).desc 2).outOfOrder = true
    ∧ (((tracked 6 3).track 2).route 0) = routed.route 0 := by decide +kernel

/-! ### Witnesses: the memory port -/

/-- A port with this balance. -/
def balanced (b : Int) : State := { ready with port := { ready.port with balance := b } }

/-- Lane 0 with one PENDING staging cell. -/
def pendingCell : State :=
  onUnit (balanced 5) fun u => { u with order := [1], staging := u.staging.set 1 (.pending ⟨some 2, 0, 1, List.replicate 64 7⟩) }

theorem witness_PortGrant :
    (∀ b ∈ [(8 : Int), 6, 5, -7, -8], (balanced b).port.op = none ∧ (balanced b).port.balance = b
      ∧ ∀ r, (balanced b).requesterWaiting r = false)
    ∧ (pendingCell.port.balance < 6 ∧ (0 : Requester) = pendingCell.port.position + 1 + 0
      ∧ pendingCell.requesterWaiting 0 = true ∧ (pendingCell.lane 0).unit.order.head? = some 1
      ∧ (pendingCell.lane 0).unit.staging[1] = .pending ⟨some 2, 0, 1, List.replicate 64 7⟩)
    ∧ (let s := { pointed ready .fetching 64 with window := { (pointed ready .fetching 64).window with request := some 1 } };
      (8 : Requester) = s.port.position + 1 + 8 ∧ s.requesterWaiting 8 = true ∧ s.pointedHolding = some ⟨2, 10⟩
        ∧ ∀ j : Fin 9, j < 8 → s.requesterWaiting (s.port.position + 1 + j) = false) := by decide +kernel

/-- The last cell of lane 0's COMPLETING record being written. -/
def writing (owner : Option DescId) (retiring : Option CellId) : State :=
  (onUnit (withRecord routed .completing) fun u => { u with
    staging := u.staging.set 1 (.writing ⟨owner, 0, 1, List.replicate 64 7⟩), retiring := retiring }).setOp (some (.write 0))

theorem witness_CellWriteStores :
    ∀ s ∈ [writing (some 2) none, writing none (some 1)], s.host.resetHigh = true ∧ s.port.op = some (.write 0)
      ∧ s.opMayEnd
      ∧ (∀ j : Fin 4, j ≠ 1 → (s.lane 0).unit.staging[j.val].isWriting = false ∧ (s.lane 0).unit.staging[j.val].busyFor 2 = false)
      ∧ (s.lane 0).unit.list.head? = some 2 ∧ (s.desc 2).state = .completing := by decide +kernel

/-- The clauses of a write that completes no record: a record still RECEIVING, one with another write to come, and a cell
that retires. -/
theorem witness_CellWriteStores_clauses :
    (let s := (writing (some 2) none).setDesc 2 (record .receiving none);
      (s.lane 0).unit.staging[1] = .writing ⟨some 2, 0, 1, List.replicate 64 7⟩ ∧ (s.lane 0).unit.retiring = none
        ∧ (s.lane 0).unit.list.head? = some 2 ∧ (s.desc 2).state ≠ .completing)
    ∧ (let s := onUnit (writing (some 2) none) fun u => { u with
          staging := u.staging.set 0 (.pending ⟨some 2, 1, 2, List.replicate 64 7⟩) }
      (0 : Fin 4) ≠ 1 ∧ (s.lane 0).unit.staging[0].busyFor 2 = true ∧ (s.lane 0).unit.retiring = none)
    ∧ (((writing none (some 1)).lane 0).unit.retiring = some 1
      ∧ ((writing none (some 1)).lane 0).unit.staging[1] = .writing ⟨none, 0, 1, List.replicate 64 7⟩) := by decide +kernel

theorem witness_LastWriteCompletesTheRecord :
    ((writing (some 2) none).lane 0).unit.staging[1] = .writing ⟨some 2, 0, 1, List.replicate 64 7⟩
      ∧ ((writing (some 2) none).lane 0).unit.retiring = none := by decide +kernel

/-- A cell read of the held record in flight. -/
def reading (discard held : Bool) : State :=
  { (pointed ready .fetching 0).setOp (some (.read 1 0 2 discard)) with host := ⟨true, held, none⟩ }

/-- A read discarded, one that no host read waits for, one that answers a held read, the last byte of an odd Length, and the
read of a Suspect record. -/
theorem witness_CellReadFillsTheBuffer :
    (∀ e ∈ [(true, false), (false, false), (false, true)],
      let s := reading e.1 e.2
      s.host.resetHigh = true ∧ s.opMayEnd ∧ s.port.op = some (.read 1 0 2 e.1) ∧ s.host.heldRead = e.2
        ∧ (s.desc 2).suspect = false ∧ s.window.offset.toNat + 1 < s.windowLength)
    ∧ (let s := (reading false true).setDesc 2 { record .held (some 4) with length := 1 }
      s.window.offset.toNat < s.windowLength ∧ s.window.offset.toNat + 1 = s.windowLength ∧ s.host.heldRead = true)
    ∧ (let s := (reading false false).setDesc 2 { record .held (some 4) with suspect := true }
      (s.desc 2).suspect = true ∧ s.opMayEnd ∧ s.port.op = some (.read 1 0 2 false)) := by decide +kernel

/-- A port with this balance whose interval expires with the next count. -/
def due (b : Int) : State := { ready with port := { ready.port with balance := b, left := 4 } }

/-- A port whose operation can end at this time, in units of 0.01 µs, with the next expiry this many units away. -/
def ending (ends left : Nat) : State :=
  { ready with port := { ready.port with op := some .refresh, left := left, times := ⟨0, ends⟩ } }

theorem witness_RefreshCompletionAndIntervalExpiry :
    ((ending 100 4).port.op = some .refresh ∧ (ending 100 4).opMayEnd ∧ ¬(ending 101 5).opMayEnd ∧ ¬(ending 76 3).opMayEnd
      ∧ (ending 75 3).opMayEnd)
    ∧ (due 7).port.left ≤ 4 ∧ (due 7).port.balance < 8
      ∧ 8 ≤ (due 8).port.balance ∧ (due 8).pool.ready = true ∧ State.reset.pool.ready = false ∧ 4 < State.reset.port.left := by
  decide

/-- A port at a Refresh Interval of 1 unit with this balance, the next expiry this many units away. -/
def starved (balance : Int) (left : Nat) (op : Option PortOp) : State :=
  { State.reset with
    port := { State.reset.port with op := op, balance := balance, interval := 1, left := left, times := ⟨0, 64⟩ }
    pending := [.portGrant] }

/-- A port that an expiry starves, a starved one that is free, and one whose refresh is in flight at +5. -/
theorem witness_StepKeepsRefreshBalance :
    (RefreshInv (starved 5 1 none) ∧ (starved 5 1 none).port.interval = 1 ∧ (starved 5 1 none).port.left ≤ 4)
    ∧ (StarvedInv (starved 6 1 none) ∧ ∃ t, step (starved 6 1 none) = .next t ∧ t.port.interval = 1)
    ∧ StarvedInv (starved 5 2 (some .refresh)) := by
  refine ⟨?_, ⟨?_, _, rfl, rfl⟩, ?_⟩
  · unfold RefreshInv; decide
  · unfold StarvedInv; decide
  · unfold StarvedInv; decide

/-! ### Witnesses: time -/

/-- A state from which the next count simply counts. -/
theorem settled_of (time : Timebase) (h : time.judging = 0) : ({ ready with time := time } : State).settledMicrosecond := by
  refine ⟨?_, fun _ _ _ => Or.inl h, fun l => Or.inl ?_, Or.inl rfl, show 4 ≤ ready.port.left by decide⟩
  · intro u
    have hu : ({ ready with time := time } : State).stream u = Stream.reset := by simp [State.stream, ready, State.reset]
    rw [hu]
    exact ⟨rfl, fun d hd => nomatch hd⟩
  · show (ready.lane l).rx.delin = .disabled
    simp [State.lane, ready, State.reset, Lane.reset, Receiver.reset]

/-- A stream 0 that has still to examine its queue by this Age Limit, in ms. -/
def examining (limit : Nat) : State :=
  (queued ready).setStream 0 { (queued ready).stream 0 with examine := limit }

/-- A tick whose Hold Limit this is, with descriptor 2 held in slot 3. -/
def judging (limit : Word) : State := { holding ready with time := { ready.time with judging := limit } }

/-- No age expiry and no hold expiry is outstanding. -/
def ticked (s : State) : Prop := (∀ v, s.ageDue v = false) ∧ s.expiredHold = none

theorem noHoldExpiry {s : State} (h : s.expiredHold = none) : ∀ u, exec .holdExpiry s ≠ .next u := by
  intro u hu
  have := (act_next_iff.mp hu).2.1
  rw [h] at this; cases this

/-- 200 µs after the build of the pool began. -/
def built : State := { State.reset with time := ⟨200, 200, 0, 0⟩ }

/-- An interval expires before the next count. -/
def expiring : State := { State.reset with port := { State.reset.port with left := 3 } }

theorem witness_TimebaseCountsAndTicks :
    (State.reset.host.resetHigh = true ∧ low.host.resetHigh = false)
    ∧ (∀ sub ∈ [0, 998, 999], ({ ready with time := ⟨0xFFFFFFFF, sub, 0, 0⟩ } : State).settledMicrosecond)
    ∧ (∃ t, exec (.ageExpiry 0) (examining 999) = .next t) ∧ (∃ t, exec .holdExpiry (judging 999) = .next t)
    ∧ (ticked (quiet .locked .body) ∧ ∃ t, exec (.silence 0) (quiet .locked .body) = .next t)
    ∧ (ticked built ∧ (∀ l, built.heardInTime l) ∧ ∃ t, exec .poolBuildEnd built = .next t)
    ∧ (ticked expiring ∧ (∀ l, expiring.heardInTime l) ∧ expiring.buildNotDue ∧ expiring.port.interval ≠ 0
      ∧ ∃ t, exec .intervalExpiry expiring = .next t) := by
  refine ⟨⟨rfl, rfl⟩, fun _ _ => settled_of _ rfl, ⟨_, rfl⟩, ⟨_, rfl⟩, ⟨?_, _, rfl⟩, ⟨?_, ?_, _, rfl⟩,
    ⟨?_, ?_, Or.inr (Or.inl ?_), ?_, _, rfl⟩⟩ <;> (try unfold ticked) <;> decide +kernel

/-- A record found by the examination still to come, one that it does not find, and one found earlier at this tick. -/
theorem witness_AgeExpiry :
    (∀ s ∈ [examining 999, (queued ready).setStream 0 { (queued ready).stream 0 with expired := [2] }],
      s.host.resetHigh = true ∧ (s.stream 0).queue = [] ++ 2 :: [] ∧ (s.desc 2).stream = 0)
    ∧ ((examining 999).stream 0).examine * 1000
        ≤ ((examining 999).time.count - ((examining 999).desc 2).arrival).toNat
    ∧ ((examining 1000).stream 0).examine ≠ 0
    ∧ ((examining 1000).time.count - ((examining 1000).desc 2).arrival).toNat
        < ((examining 1000).stream 0).examine * 1000 := by decide +kernel

theorem witness_HoldExpiry :
    let s := judging 999
    s.host.resetHigh = true ∧ s.time.judging ≠ 0 ∧ (s.slot 3).held = some ⟨2, 10⟩
      ∧ s.time.judging.toNat * 1000 ≤ (s.time.count - 10).toNat ∧ (∀ j : SlotId, j < 3 → (s.slot j).held = none)
      ∧ (s.desc 2).stream = 0 := by decide +kernel

theorem witness_PoolBuildEnd :
    let s := { State.reset with time := ⟨200, 200, 0, 0⟩ }
    s.host.resetHigh = true ∧ s.pool.ready = false ∧ 200 ≤ (s.time.count - s.pool.buildStart).toNat
      ∧ ∀ n, s.cmd.phase ≠ .clearing n :=
  ⟨rfl, rfl, by decide, fun _ => nofun⟩

/-! ### Witnesses: the Command Unit -/

/-- `ready` with this value in CMD_ARG. -/
def withArg (v : Word) : State := { ready with cmd := { ready.cmd with argReg := v } }

/-- Each test of R149, at the ends of the ranges (Table 9-2). -/
theorem witness_CommandAcceptance :
    ready.cmd.phase = .idle ∧ commandOf 0 = none ∧ commandOf 10 = none ∧ commandOf 0x0101 = none
      ∧ argLegal .take 31 = true ∧ argLegal .take 32 = false ∧ argLegal .capture 40 = true ∧ argLegal .capture 41 = false
      ∧ argLegal .tableRead 0x003F = true ∧ argLegal .tableRead 0x0040 = false ∧ argLegal .tableWrite 0x0207 = true
      ∧ argLegal .tableWrite 0x0208 = false ∧ argLegal .tableWrite 0x0300 = false
      ∧ needsReady .take = true ∧ State.reset.pool.ready = false ∧ needsReady .capture = false := by decide +kernel

theorem witness_FailedTestEndActAndCollision :
    (ready.setPhase (.failed .badArgument)).cmd.phase = .failed .badArgument
      ∧ (running ready 1 0).takesAccess ∧ (running ready 1 0).cmd.phase ≠ .idle :=
  ⟨rfl, ⟨rfl, rfl, rfl⟩, by decide⟩

theorem witness_TakeDelivers :
    (let s := running (queued ready) 1 0xAB00;
    s.host.resetHigh = true ∧ s.cmd.phase = .running ∧ commandOf s.cmd.code = some .take ∧ s.cmd.arg.toNat % 256 = 0
      ∧ (s.stream 0).queue = 2 :: [] ∧ (s.slot 0).held = none) := by decide +kernel

/-- Sixteen HELD slots. -/
def fullSlots : State := { running (queued ready) 1 0 with slots := Vector.replicate 16 ⟨0, some ⟨3, 0⟩⟩ }

theorem witness_TakeAndPeekWithoutHolding :
    (running ready 1 31).cmd.arg.toNat % 256 = 31 ∧ ((running ready 1 31).stream 31).queue = []
      ∧ (fullSlots.stream 0).queue ≠ [] ∧ (∀ i, (fullSlots.slot i).held ≠ none)
      ∧ commandOf (running (queued ready) 2 0).cmd.code = some .peek := by decide +kernel

theorem witness_ReleaseAndReturn :
    ∀ e ∈ [((3 : Word), Command.release), (4, .returnRecord)],
      let s := running (holding ready) e.1 0x0093
      s.host.resetHigh = true ∧ s.cmd.phase = .running ∧ commandOf s.cmd.code = some e.2
        ∧ (3 : SlotId).val = s.cmd.arg.toNat % 16 ∧ (s.slot 3).generation.toNat = s.cmd.arg.toNat / 16 % 16
        ∧ (s.slot 3).held = some ⟨2, 10⟩ ∧ (s.desc 2).stream = 0 := by decide +kernel

theorem witness_StaleHandleChangesNothing :
    (let s := running (holding ready) 3 0x0083;
      (3 : SlotId).val = s.cmd.arg.toNat % 16 ∧ (s.slot 3).generation.toNat ≠ s.cmd.arg.toNat / 16 % 16)
    ∧ (let s := running (holding ready) 4 0x0004;
      (4 : SlotId).val = s.cmd.arg.toNat % 16 ∧ (s.slot 4).held = none) := by decide +kernel

theorem witness_PurgeTakesItsBoundary :
    (let s := queued ready;
      s.cmd.phase = .idle ∧ s.cmd.argReg.toNat % 256 = 0 ∧ s.pool.ready = true ∧ (s.stream 0).queue = 2 :: [] ∧ 0 < s.age 2)
    ∧ (let s := withArg 31;
      s.cmd.argReg.toNat % 256 = 31 ∧ (s.stream 31).queue.head? = none)
    ∧ (ready.setPhase .purged).cmd.phase = .purged := by decide +kernel

/-- A purge of stream 0 running since its fifth completion. -/
def purging : State := (queued ready).setPhase (.purging 0 5)

theorem witness_PurgeRemovesTheHead :
    purging.host.resetHigh = true ∧ purging.cmd.phase = .purging 0 5 ∧ (purging.stream 0).queue = 2 :: []
      ∧ (purging.desc 2).stream = 0 ∧ (purging.counts.completions - 5).toNat < purging.age 2
      ∧ purging.age 2 ≤ (purging.counts.completions - 4).toNat ∧ ready.cmd.phase = .idle := by decide +kernel

theorem witness_ClearFirstStep :
    let s := atTrailer 0
    s.host.resetHigh = true ∧ s.host.heldRead = false ∧ s.cmd.phase = .idle ∧ s.pool.ready = true
      ∧ s.host.driven = none ∧ (s.lane 0).entry.enable = true ∧ (s.lane 1).entry.enable = false
      ∧ (∀ l, (s.lane l).unit.list = if l = 0 then [2] else []) ∧ (s.chain 2).Nodup := by decide +kernel

theorem witness_ClearSecondStep :
    ∀ s ∈ [(reading false true).setPhase (.clearing .second), (pointed ready .ready 0).setPhase (.clearing .second)],
      s.host.resetHigh = true ∧ s.cmd.phase = .clearing .second ∧ (∀ l, s.port.op ≠ some (.write l))
        ∧ (s.host.heldRead = true → s.window.mode = .fetching) ∧ (s.slot 3).held ≠ none := by decide +kernel

theorem witness_ClearThirdAndFourthStep :
    (ready.setPhase (.clearing .third)).cmd.phase = .clearing .third
      ∧ (ready.setPhase (.clearing .fourth)).cmd.phase = .clearing .fourth ∧ ready.host.heldRead = false := by decide

/-- The ends of the group ranges (R154). -/
theorem witness_CaptureCopiesAndZeroes :
    ∀ g ∈ [(0 : Nat), 7, 8, 39, 40],
      let s := running ready 7 (BitVec.ofNat 16 g)
      commandOf s.cmd.code = some .capture ∧ g = s.cmd.arg.toNat % 256
        ∧ (g < 8 ∨ (8 ≤ g ∧ g - 8 < 32) ∨ g = 40) := by decide +kernel

theorem witness_TableReadAndImages :
    (∀ a ∈ [((0 : Word), TableEntry.route 0), (63, .route 63), (0x0100, .stream 0), (0x011F, .stream 31), (0x0200, .lane 0),
        (0x0207, .lane 7)], argTable (running ready 8 a.1).cmd.arg = some a.2)
    ∧ ((routed.route 0).seqCheck = true ∧ (routed.route 0).laneMatch ≠ none ∧ (routed.route 0).tagMask = 0xFF)
    ∧ (routed.stream 0).entry.quota ≤ 16384 ∧ (routed.lane 0).entry.confirmCount ≠ 0 := by decide +kernel

/-- A TABLE_WRITE of an image, accepted. -/
def tableWriting (s : State) (arg : Word) (img : Vector Word 8) : State :=
  { running s 9 arg with cmd := { (running s 9 arg).cmd with taken := img } }

/-- Images at the ends of the ranges that are refused: Lane Match codes 8, 9 and 15, a check with Any and with a partial
mask, a Quota and a Watermark of 16385, and a Quota 1 below the charge. -/
theorem witness_TableWriteRouteAndStream_fields :
    (∀ v ∈ [((0x0800 : Word), 8), (0x0900, 9), (0x0F00, 15), (0x2700, 7)], v.1.toNat / 256 % 16 = v.2)
    ∧ ((0x2800 : Word).getLsbD 13 = true ∧ (0x0800 : Word).getLsbD 13 = false ∧ (0x00FE : Word).toNat % 256 ≠ 0xFF
      ∧ (0x41FF : Word).toNat % 256 = 0xFF)
    ∧ ((16384 : Word).toNat ≤ 16384 ∧ 16384 < (16385 : Word).toNat ∧ (1 : Word).toNat < ((queued ready).stream 0).charge)
    ∧ argTable (running ready 9 63).cmd.arg = some (.route 63) ∧ commandOf 9 = some .tableWrite := by decide +kernel

theorem witness_TableWriteRouteAndStream :
    routeOfImage (tableWriting routed 0 (routed.route 0).image).cmd.taken 3
        = some { routed.route 0 with expected := 0, expectedKnown := false, edition := 4 }
      ∧ routeOfImage #v[0x0900, 0, 0, 0, 0, 0, 0, 0] 3 = none ∧ routeOfImage #v[0x2800, 0x00FF, 0, 0, 0, 0, 0, 0] 3 = none
      ∧ streamOfImage #v[0x8000, 16384, 16384, 65535, 0, 0, 0, 0] = some ⟨true, 16384, .refuseNewest, 16384, 65535⟩
      ∧ streamOfImage #v[0, 16385, 0, 0, 0, 0, 0, 0] = none
      ∧ streamOfImage #v[0xC000, 1, 0, 0, 0, 0, 0, 0] = some ⟨true, 1, .evictOldest, 0, 0⟩
      ∧ ((queued ready).stream 0).charge = 2 := by decide +kernel

theorem witness_TableWriteLane :
    ((0x8000 : Word).toNat / 4096 % 4 = 0 ∧ (0xB3DF : Word).toNat / 4096 % 4 = 3 ∧ (0xB3DF : Word).toNat / 256 % 4 = 3
        ∧ (0xB3DF : Word).toNat % 32 = 31)
      ∧ laneOfImage #v[0x8000, 0, 0, 0, 0, 0, 0, 0] = none
      ∧ laneOfImage #v[0xB3DF, 0, 0, 0, 0, 0, 0, 0] = some ⟨true, 3, 3, true, .store, 31⟩
      ∧ (laneOfImage #v[0x1000, 0, 0, 0, 0, 0, 0, 0]).map LaneEntry.enable = some false
      ∧ (State.reset.lane 0).rx.delin = .disabled ∧ (hunting.lane 0).rx.delin ≠ .disabled
      ∧ ((atTrailer 0).lane 0).unit.list = [2] ∧ ((atTrailer 0).chain 2).Nodup := by decide +kernel

/-! ### Witnesses: the window and the direct registers -/

/-- `holding` with the handle 93h in WIN_HANDLE. -/
def handled : State := { holding ready with window := { ready.window with handleReg := 0x93 } }

/-- Every clause of a pointing, at the values where they meet. -/
theorem witness_PointingTheWindow :
    handled.takesAccess ∧ (4096 ≤ (4096 : Word).toNat ∧ (4095 : Word).toNat < 4096)
      ∧ (handled.writeWinOffset 98).window.mode = .fetching ∧ (handled.writeWinOffset 100).window.mode = .ready
      ∧ (handled.writeWinOffset 99).window.offset = 98 ∧ (handled.writeWinOffset 4096) = handled.configError
      ∧ (ready.writeWinOffset 4095).window.mode = .stale ∧ (ready.writeWinOffset 4095).window.offset = 4094 := by
  refine ⟨⟨rfl, rfl, rfl⟩, ?_⟩
  decide +kernel

/-- The window in READY with its buffer filled. -/
def readable (offset : Word) : State :=
  { pointed ready .ready offset with
    window := { (pointed ready .ready offset).window with buffer := some (0, List.replicate 64 0xA5) } }

theorem witness_WinDataRead :
    ((readable 0).window.mode = .ready ∧ (readable 0).window.offset = 0 ∧ (readable 62).window.offset = 62
        ∧ (readable 100).window.offset = 100 ∧ (readable 0).windowLength = 100 ∧ (readable 62).windowLength = 100
        ∧ (readable 100).windowLength = 100)
      ∧ (pointed ready .idle 0).window.mode = .idle ∧ (pointed ready .stale 0).window.mode = .stale
      ∧ (pointed ready .fetching 0).window.mode = .fetching ∧ (reading false true).host.heldRead = true := by decide +kernel

theorem witness_InterruptOutput : State.reset.events.latches &&& 0xFC08 = 0 := by decide

/-- A hold of exactly the tick's Hold Limit ends at it, one of 1 µs less does not, and none does at a limit of 0. -/
theorem witness_HoldLimitWrite :
    let at_ := fun (limit : Word) (count : Micros) => { judging limit with time := ⟨count, 0, 0, limit⟩ }
    (at_ 5 5010).host.resetHigh = true ∧ (at_ 5 5010).expiredHold = some (3, ⟨2, 10⟩) ∧ (at_ 5 5009).expiredHold = none
      ∧ (at_ 0 5010).expiredHold = none
      ∧ ({ State.reset with time := ⟨0xFFFFFFFF, 999, 0, 0⟩ } : State).tickDue = true := by
  decide +kernel

theorem witness_TimeLoRead :
    ∃ t, exec .timebaseCount State.reset = .next t ∧ Instr.timebaseCount ≠ .timeLoRead ∧ Instr.timebaseCount ≠ .hardReset :=
  ⟨_, rfl, by decide, by decide⟩

/-- The addresses where the groups of R174 meet assigned words. -/
theorem witness_RegisterWrite :
    ∀ a ∈ [(0x0F : BitVec 7), 0x2C, 0x2F, 0x38, 0x3B, 0x3E, 0x3F, 0x48, 0x7F], State.reset.busWord a = 0 := by decide +kernel

/-! ### Witnesses: the whole part -/

theorem witness_OwnersOfViewMemoryPositionAndTime :
    ∃ t, exec .timeLoRead State.reset = .next t ∧ Instr.timeLoRead ≠ .take ∧ Instr.timeLoRead ≠ .hardReset :=
  ⟨_, rfl, by decide, by decide⟩

/-- The part in reset, with a count to come. -/
def lowCounting : State := { low with pending := [.timebaseCount] }

theorem witness_invariants :
    (∃ t, step lowCounting = .next t) ∧ RefreshInv lowCounting ∧ SettingsInv lowCounting ∧ MemoryInv lowCounting
      ∧ LanesInv lowCounting ∧ WindowInv lowCounting ∧ ChargeInv lowCounting ∧ DescInv lowCounting
      ∧ PlacesInv lowCounting := by
  have h := Good.hardReset { State.reset with pending := [.timebaseCount] }
  refine ⟨⟨_, rfl⟩, ?_, ?_, ?_, ?_, ?_, ?_, ?_, (PlacesInv.iff _).mpr ⟨h.1, h.2, nofun⟩⟩
  · unfold RefreshInv; decide
  · unfold SettingsInv; decide +kernel
  · unfold MemoryInv; decide
  · unfold LanesInv LaneInv; decide +kernel
  · exact ⟨nofun, by decide, by decide, nofun⟩
  · unfold ChargeInv; decide +kernel
  · exact ⟨nofun, fun _ => ⟨rfl, by unfold State.listsEmpty; decide +kernel, by decide +kernel, by decide +kernel⟩, nofun⟩

/-! ### Single steps -/

/-- What an act answers, as a state. -/
def after (c : Instr) (s : State) : State :=
  match exec c s with
  | .next t => t
  | _ => s

theorem test_candidate :
    ((after (.candidate 0 false) hunting).lane 0).rx.delin = .provisional
      ∧ ((after (.candidate 0 false) hunting).lane 0).rx.remaining = 2 := by decide +kernel

theorem test_lock : ((after (.provisionalHeader 0 (lastBit 0 0xC0)) (provisional 1 0 0xC0)).lane 0).rx.delin = .locked := by
  decide +kernel

theorem test_accept :
    let t := after (.header 0 (lastBit 100 0xE6)) (atHeader routed 100 0xE6)
    t.chain 8 = [5, 6] ∧ t.pool.freeCells = [7] ∧ (t.stream 0).charge = 2 ∧ t.events.watermarks = 1
      ∧ (t.lane 0).rx.sub = .body := by decide +kernel

theorem test_refuse_quota :
    let t := after (.header 0 (lastBit 100 0xE6)) (tight .refuseNewest)
    t.laneCount 0 .recordsRefused = 1 ∧ t.streamCount 0 .recordsRefused = 1 ∧ t.latched .recordDrop = true
      ∧ (t.lane 0).rx.byteCount = 102 := by decide +kernel

/-- R15: an edge after 50 µs without one finds the lane silent and is the first bit of the new search window. -/
theorem test_edge_after_silence :
    let t := after (.laneClockEdge 0 true) (quiet .locked .body)
    (t.lane 0).rx.delin = .hunt ∧ (t.lane 0).rx.bits = [true] ∧ (t.lane 0).rx.silent = false
      ∧ t.laneCount 0 .recordsCut = 1 ∧ t.laneCount 0 .syncLosses = 1 ∧ t.latched .laneSilent = true := by decide +kernel

/-- R15: the count after the fiftieth microsecond finds the lane silent, and the one before does not. -/
theorem test_count_after_silence :
    ((after .timebaseCount (quiet .locked .skip)).lane 0).rx.silent = true
      ∧ ((after .timebaseCount (atByte routed .skip 1)).lane 0).rx.silent = false := by decide +kernel

theorem test_trailer_completes :
    let t := after (.trailerCheck 0 true) (atTrailer 0x12FF)
    (t.desc 2).state = .queued ∧ (t.desc 2).completion = some 0 ∧ (t.stream 0).queue = [2] ∧ t.counts.completions = 1 := by
  decide +kernel

theorem test_cell_write : (after .cellWriteComplete (writing (some 2) none)).byteAt 127 = 7 := by decide +kernel

/-- A refresh of 0.64 µs at a setting of 1 unit does not end before the expiry at 0.50 µs, and ends before the one at 0.75 µs
(R144). -/
theorem test_refresh_takes_its_time :
    exec .refreshComplete (starved 5 2 (some .refresh)) = .refused (.notEnabled "REFRESH_COMPLETE")
      ∧ (after .refreshComplete (starved 7 3 (some .refresh))).port.op = none :=
  ⟨rfl, by decide +kernel⟩

theorem test_take :
    let t := after .take (running (queued ready) 1 0)
    (t.slot 0).held = some ⟨2, 1000000⟩ ∧ t.view.words[0] = 0x8100 ∧ t.cmdStatus = 1 := by decide +kernel

theorem test_release :
    let t := after .release (running (holding ready) 3 0x0093)
    t.slot 3 = ⟨10, none⟩ ∧ t.pool.freeDescs = [8, 9, 2] ∧ (t.stream 0).charge = 0 := by decide +kernel

theorem test_purge :
    let t := after .purgeRemoval purging
    (t.stream 0).queue = [] ∧ t.cmd.phase = .idle ∧ t.cmd.result = .ok ∧ t.latched .recordDrop = false := by decide +kernel

theorem test_window_read :
    (after .winDataRead (readable 62)).window.request = some 1 ∧ (after .winDataRead (readable 62)).host.driven = some 0xA5A5 := by
  decide +kernel

theorem test_lane_enable :
    ((after .tableWrite (tableWriting ready 0x0200 #v[0xA100, 0, 0, 0, 0, 0, 0, 0])).lane 0).rx.delin = .hunt := by
  decide +kernel

theorem test_notEnabled : exec .take State.reset = .refused (.notEnabled "TAKE") := by rfl

end Sys2Proof.Tests
end

section
/-! The lane invariant (R7, R10, R11, R14, R16 to R18): what `LaneInv` says in each delineation state, and that every act of
the part keeps it. -/

namespace Sys2Proof.Machine

/-! ### `LaneInv` in each delineation state -/

theorem LaneInv.enabled {x : Lane} (h : LaneInv x) (hd : x.rx.delin ≠ .disabled) : x.entry.enable = true := h.1.mpr hd

theorem LaneInv.confirmCount_ne {x : Lane} (h : LaneInv x) : x.entry.confirmCount ≠ 0 := h.2.1

theorem laneInv_disabled_iff {x : Lane} (hd : x.rx.delin = .disabled) : LaneInv x ↔
    x.entry.enable = false ∧ x.entry.confirmCount ≠ 0 ∧ x.rx.sub = .awaitHeader ∧ x.rx.missCount = 0 ∧ x.rx.remaining = 0
      ∧ x.rx.silent = false ∧ x.rx.byteCount = 0 ∧ x.rx.bits = [] := by
  simp +contextual [LaneInv, hd, and_assoc]

theorem laneInv_hunt_iff {x : Lane} (hd : x.rx.delin = .hunt) : LaneInv x ↔
    x.entry.enable = true ∧ x.entry.confirmCount ≠ 0 ∧ x.rx.sub = .awaitHeader ∧ x.rx.missCount = 0
      ∧ x.rx.remaining = 0 := by
  simp +contextual [LaneInv, hd, and_assoc]

theorem laneInv_provisional_iff {x : Lane} (hd : x.rx.delin = .provisional) : LaneInv x ↔
    x.entry.enable = true ∧ x.entry.confirmCount ≠ 0 ∧ x.rx.sub = .awaitHeader ∧ x.rx.missCount = 0
      ∧ x.rx.remaining ≤ 3 := by
  simp +contextual [LaneInv, hd, and_assoc]

theorem laneInv_locked_iff {x : Lane} (hd : x.rx.delin = .locked) : LaneInv x ↔
    x.entry.enable = true ∧ x.entry.confirmCount ≠ 0 ∧ x.rx.remaining = 0 ∧ x.rx.missCount ≤ 3 := by
  simp +contextual [LaneInv, hd]

/-- The reception unit is nothing `LaneInv` speaks of. -/
theorem LaneInv.congr {x y : Lane} (h : LaneInv x) (he : y.entry = x.entry) (hr : y.rx = x.rx) : LaneInv y := by
  unfold LaneInv at h ⊢
  rwa [he, hr]

/-- Bits gathered, bytes passed over and the time of the last edge are free on a lane that is not DISABLED. -/
theorem LaneInv.progress {x : Lane} (h : LaneInv x) (hd : x.rx.delin ≠ .disabled) (bits : List Bool) (n : Nat)
    (silent : Bool) (edge : Micros) :
    LaneInv { x with rx := { x.rx with bits := bits, byteCount := n, silent := silent, lastEdge := edge } } := by
  obtain ⟨enable, confirm, idle, remaining, _, miss, left⟩ := h
  exact ⟨enable, confirm, idle, remaining, fun hh => absurd hh hd, miss, left⟩

/-! ### What a LOCKED lane's bytes leave: delineation, confirmations remaining and Miss Count -/

/-- What `LaneInv` speaks of in the receiver of a LOCKED lane. -/
def Receiver.lock (rx : Receiver) : Delineation × Nat × Nat := (rx.delin, rx.remaining, rx.missCount)

theorem laneInv_of_lock {x : Lane} {n : Nat} (hl : x.rx.lock = (.locked, 0, n)) (hn : n ≤ 3)
    (he : x.entry.enable = true) (hc : x.entry.confirmCount ≠ 0) : LaneInv x := by
  simp only [Receiver.lock, Prod.mk.injEq] at hl
  obtain ⟨hd, hr, hm⟩ := hl
  exact (laneInv_locked_iff hd).mpr ⟨he, hc, hr, hm ▸ hn⟩

theorem LaneInv.of_lock {x y : Lane} (h : LaneInv x) (hd : x.rx.delin = .locked) (he : y.entry = x.entry)
    (hl : y.rx.lock = x.rx.lock) : LaneInv y := by
  obtain ⟨enable, confirm, remaining, miss⟩ := (laneInv_locked_iff hd).mp h
  exact laneInv_of_lock (by rw [hl, Receiver.lock, hd, remaining]) miss (he ▸ enable) (he ▸ confirm)

theorem State.lock_passBody (s : State) (l : LaneId) : ((s.passBody l).lane l).rx.lock = (s.lane l).rx.lock := by
  unfold State.passBody
  dsimp only
  split <;> simp [Receiver.lock, Receiver.passByte]

theorem State.lock_overrun (s : State) (l : LaneId) (d : DescId) :
    ((s.overrun l d).lane l).rx.lock = (s.lane l).rx.lock := by
  simp [State.overrun, Receiver.lock]

theorem State.lock_bodyByte (s : State) (l : LaneId) (b : Byte) :
    ((s.bodyByte l b).lane l).rx.lock = (s.lane l).rx.lock := by
  unfold State.bodyByte
  split
  · exact s.lock_passBody l
  · split
    · exact s.lock_overrun l _
    · rw [State.lock_passBody]; simp

theorem State.lock_trailerByte (s : State) (l : LaneId) (b : Byte) :
    ((s.trailerByte l b).lane l).rx.lock = (s.lane l).rx.lock := by
  unfold State.trailerByte
  dsimp only
  split <;> simp [Receiver.lock, Receiver.passByte]

theorem State.lock_skipByte (s : State) (l : LaneId) : ((s.skipByte l).lane l).rx.lock = (s.lane l).rx.lock := by
  unfold State.skipByte
  dsimp only
  split <;> simp [Receiver.lock, Receiver.passByte]

theorem State.lock_lockedByte (s : State) (l : LaneId) (b : Byte) :
    ((s.lockedByte l b).lane l).rx.lock = (s.lane l).rx.lock := by
  unfold State.lockedByte
  split
  · exact s.lock_bodyByte l b
  · exact s.lock_trailerByte l b
  · exact s.lock_skipByte l

/-- A passing header sets the Miss Count to 0 and leaves the lock (R12). -/
theorem State.lock_actOnHeader (s : State) (l : LaneId) (h : Header) :
    ((s.actOnHeader l h).lane l).rx.lock = ((s.lane l).rx.delin, (s.lane l).rx.remaining, 0) := by
  unfold State.actOnHeader
  dsimp only
  split
  · simp [Receiver.lock]
  · split
    · simp [Receiver.lock]
    · generalize hs : s.setRx l _ = s1
      have hrx : (s1.lane l).rx.lock = ((s.lane l).rx.delin, (s.lane l).rx.remaining, 0) := by
        rw [← hs]; simp [Receiver.lock]
      rcases State.rx_offer s1 l h with ho | ho <;> rw [ho] <;> exact hrx

/-! ### An edge keeps the lane's invariant -/

section Edge

variable {s : State} {l : LaneId}

theorem LaneInv.noteEdge (h : LaneInv (s.lane l)) (hd : (s.lane l).rx.delin ≠ .disabled) :
    LaneInv ((s.noteEdge l).lane l) := by
  rw [State.noteEdge, State.lane_setRx_self]
  exact h.progress hd _ _ _ _

theorem LaneInv.huntEdge (h : LaneInv (s.lane l)) (hd : (s.lane l).rx.delin = .hunt) (b : Bool) :
    LaneInv ((s.huntEdge l b).lane l) := by
  obtain ⟨enable, confirm, sub, miss, _⟩ := (laneInv_hunt_iff hd).mp h
  unfold State.huntEdge
  dsimp only
  split
  · rw [State.enterProvisional, State.lane_setRx_self]
    refine (laneInv_provisional_iff rfl).mpr ⟨enable, confirm, rfl, miss, ?_⟩
    have := (s.lane l).entry.confirmCount.isLt
    dsimp only
    omega
  · rw [State.lane_setRx_self]
    exact h.progress (by simp [hd]) _ _ _ _

/-- A header in PROVISIONAL: back to HUNT, one confirmation fewer, or LOCKED with Miss Count 0 (R10, R11). -/
theorem LaneInv.confirmHeader (h : LaneInv (s.lane l)) (hd : (s.lane l).rx.delin = .provisional) (x : Header) :
    LaneInv ((s.confirmHeader l x).lane l) := by
  obtain ⟨enable, confirm, sub, miss, left⟩ := (laneInv_provisional_iff hd).mp h
  unfold State.confirmHeader
  dsimp only
  split
  · rw [State.lane_setRx_self]
    exact (laneInv_hunt_iff rfl).mpr ⟨enable, confirm, rfl, rfl, rfl⟩
  · split
    · rw [State.lane_setRx_self]
      exact (laneInv_provisional_iff (by exact hd)).mpr ⟨enable, confirm, sub, miss, (Nat.sub_le ..).trans left⟩
    · refine laneInv_of_lock (n := 0) ?_ (Nat.zero_le _) (by simpa using enable) (by simpa using confirm)
      rw [State.lock_actOnHeader]
      simp [State.enterLocked]

theorem LaneInv.provisionalEdge (h : LaneInv (s.lane l)) (hd : (s.lane l).rx.delin = .provisional) (b : Bool) :
    LaneInv ((s.provisionalEdge l b).lane l) := by
  have gathers : ∀ bits n, LaneInv ((s.setRx l { (s.lane l).rx with bits := bits, byteCount := n }).lane l) := by
    intro bits n
    rw [State.lane_setRx_self]
    exact h.progress (by simp [hd]) _ _ _ _
  unfold State.provisionalEdge
  dsimp only
  split
  · split
    · exact gathers [] _
    · exact gathers _ _
  · split
    · exact h.confirmHeader hd _
    · exact gathers _ _

/-- A miss: HUNT past the Miss Tolerance, and at most the tolerance, 3 at most, otherwise (R14). -/
theorem LaneInv.missHeader (h : LaneInv (s.lane l)) (hd : (s.lane l).rx.delin = .locked) (x : Header) :
    LaneInv ((s.missHeader l x).lane l) := by
  obtain ⟨enable, confirm, remaining, _⟩ := (laneInv_locked_iff hd).mp h
  have tolerance := (s.lane l).entry.missTolerance.isLt
  unfold State.missHeader
  dsimp only
  split
  · rw [State.lane_setRx_self]
    exact (laneInv_hunt_iff rfl).mpr ⟨enable, confirm, rfl, rfl, rfl⟩
  · have missed : (s.lane l).rx.missCount + 1 ≤ 3 := by omega
    split
    · rw [State.lane_setRx_self]
      exact (laneInv_locked_iff (by exact hd)).mpr ⟨enable, confirm, remaining, missed⟩
    · rw [State.lane_setRx_self]
      exact (laneInv_locked_iff (by exact hd)).mpr ⟨enable, confirm, remaining, missed⟩

theorem LaneInv.lockedEdge (h : LaneInv (s.lane l)) (hd : (s.lane l).rx.delin = .locked) (b : Bool) :
    LaneInv ((s.lockedEdge l b).lane l) := by
  obtain ⟨enable, confirm, remaining, _⟩ := (laneInv_locked_iff hd).mp h
  have gathers : ∀ bits, LaneInv ((s.setRx l { (s.lane l).rx with bits := bits }).lane l) := by
    intro bits
    rw [State.lane_setRx_self]
    exact h.progress (by simp [hd]) _ _ _ _
  unfold State.lockedEdge
  dsimp only
  split
  · split
    · unfold State.lockedHeader
      split
      · refine laneInv_of_lock (n := 0) ?_ (Nat.zero_le _) (by simpa using enable) (by simpa using confirm)
        rw [State.lock_actOnHeader, hd, remaining]
      · exact h.missHeader hd _
    · exact gathers _
  · split
    · exact h.of_lock hd (by simp) (s.lock_lockedByte l _)
    · exact gathers _

theorem LaneInv.takeEdge (h : LaneInv (s.lane l)) (b : Bool) : LaneInv ((s.takeEdge l b).lane l) := by
  have heard : ∀ d, (s.lane l).rx.delin = d → ((s.noteEdge l).lane l).rx.delin = d := by simp [State.noteEdge]
  unfold State.takeEdge
  split
  next => exact h
  next hd => exact (h.noteEdge (by simp [hd])).huntEdge (heard _ hd) b
  next hd => exact (h.noteEdge (by simp [hd])).provisionalEdge (heard _ hd) b
  next hd => exact (h.noteEdge (by simp [hd])).lockedEdge (heard _ hd) b

/-! ### Silence, CLEAR's first step and a commit keep it -/

/-- A silent lane is in HUNT with an empty window (R15). -/
theorem State.rx_fallSilent (s : State) (l : LaneId) :
    ((s.fallSilent l).lane l).rx = { (s.lane l).rx.hunt with silent := true } := by
  simp [State.fallSilent]

theorem LaneInv.fallSilent (h : LaneInv (s.lane l)) (hd : (s.lane l).rx.delin ≠ .disabled) :
    LaneInv ((s.fallSilent l).lane l) := by
  have hrx := s.rx_fallSilent l
  exact (laneInv_hunt_iff (by rw [hrx]; rfl)).mpr
    ⟨by simpa using h.enabled hd, by simpa using h.confirmCount_ne, by rw [hrx]; rfl, by rw [hrx]; rfl, by rw [hrx]; rfl⟩

/-- CLEAR's first step leaves an enabled lane in HUNT and a DISABLED one as it was (R157, R20). -/
theorem LaneInv.clearLane (h : LaneInv (s.lane l)) : LaneInv ((s.clearLane l).lane l) := by
  obtain ⟨-, hrx⟩ := State.clearLane_self s l
  by_cases he : (s.lane l).entry.enable = true
  · rw [if_pos he] at hrx
    exact (laneInv_hunt_iff (by rw [hrx]; rfl)).mpr
      ⟨by simpa using he, by simpa using h.confirmCount_ne, by rw [hrx]; rfl, by rw [hrx]; rfl, by rw [hrx]; rfl⟩
  · rw [if_neg he] at hrx
    exact h.congr (by simp) hrx

/-- A lane entry's commit keeps delineation in step with Enable (R17, R7, R16). -/
theorem LaneInv.commitLaneEntry (h : LaneInv (s.lane l)) {e : LaneEntry} (hc : e.confirmCount ≠ 0) :
    LaneInv ((s.commitLaneEntry l e).lane l) := by
  have keeps : (s.lane l).rx.delin ≠ .disabled → e.enable = true → LaneInv ((s.setEntry l e).lane l) := by
    intro hd he
    obtain ⟨-, -, idle, remaining, disabled, miss, left⟩ := h
    rw [State.setEntry, State.lane_setLane_self]
    exact ⟨⟨fun _ => hd, fun _ => he⟩, hc, idle, remaining, disabled, miss, left⟩
  unfold State.commitLaneEntry
  split
  next hd he =>
    rw [State.setEntry, State.lane_setLane_self, State.lane_setRx_self]
    exact (laneInv_hunt_iff rfl).mpr ⟨he, hc, rfl, rfl, rfl⟩
  next hd he =>
    rw [State.setEntry, State.lane_setLane_self]
    obtain ⟨-, -, rest⟩ := (laneInv_disabled_iff hd).mp h
    exact (laneInv_disabled_iff (by exact hd)).mpr ⟨he, hc, rest⟩
  next he hd => exact keeps hd he
  next he hd =>
    rw [State.setEntry, State.lane_setLane_self, State.lane_setRx_self]
    exact (laneInv_disabled_iff rfl).mpr ⟨he, hc, rfl, rfl, rfl, rfl, rfl, rfl⟩

end Edge

/-- A legal lane image has a Confirm Count of 1 to 3 (R17). -/
theorem confirmCount_of_laneOfImage {img : Vector Word 8} {e : LaneEntry} (h : laneOfImage img = some e) :
    e.confirmCount ≠ 0 := by
  unfold laneOfImage at h
  split at h
  · cases h
  · cases h; assumption

/-! ### Every act keeps every lane's invariant -/

/-- Acts that leave every lane's entry and receiver. -/
theorem LanesInv.same {s t : State} (h : LanesInv s) (he : ∀ l, (t.lane l).entry = (s.lane l).entry := by simp)
    (hr : ∀ l, (t.lane l).rx = (s.lane l).rx := by simp) : LanesInv t :=
  fun l => (h l).congr (he l) (hr l)

/-- Acts on one lane. -/
theorem LanesInv.onLane {s t : State} (h : LanesInv s) (l : LaneId) (hl : LaneInv (t.lane l))
    (hm : ∀ m, m ≠ l → t.lane m = s.lane m := by simp +contextual) : LanesInv t := by
  intro m
  by_cases hml : m = l
  · subst hml; exact hl
  · rw [hm m hml]; exact h m

theorem State.lane_reset (l : LaneId) : State.reset.lane l = Lane.reset := by simp [State.lane, State.reset]

theorem lanesInv_reset : LanesInv State.reset := by
  intro l
  rw [State.lane_reset]
  exact (laneInv_disabled_iff rfl).mpr (by decide)

theorem LanesInv.clearFirst {s : State} (h : LanesInv s) : LanesInv s.clearFirst := by
  have lanes : ∀ (ls : List LaneId) (s : State), LanesInv s → LanesInv (ls.foldl State.clearLane s) := by
    intro ls
    induction ls with
    | nil => exact fun _ h => h
    | cons l ls ih => exact fun s h => ih _ (h.onLane l (h l).clearLane)
  unfold State.clearFirst
  exact (lanes (List.finRange 8) s h).same

theorem LanesInv.writeCmd {s : State} (h : LanesInv s) (code : Word) : LanesInv (s.writeCmd code) := by
  have takes : ∀ p, LanesInv (s.takeCommand code p) := fun p => h.same
  unfold State.writeCmd
  split
  · exact h.same
  · unfold State.acceptCommand
    split
    · exact takes _
    · rename_i c _ _
      cases c
      case clear => exact (takes _).clearFirst
      case purge =>
        simp only [State.beginCommand]
        split <;> exact takes _
      all_goals exact takes _
    · exact takes _

theorem LanesInv.writeWord {s : State} (h : LanesInv s) (a : BitVec 7) (v : Word) : LanesInv (s.writeWord a v) := by
  unfold State.writeWord
  split
  case h_4 => exact h.writeCmd v
  all_goals exact h.same

theorem LanesInv.tableWrite {s : State} (h : LanesInv s) (e : TableEntry) : LanesInv (s.doTableWrite e) := by
  unfold State.doTableWrite
  split
  · rename_i t ht
    suffices LanesInv t from this.same
    cases e with
    | route i =>
      simp only [State.commit, State.commitRoute, Option.map_eq_some_iff] at ht
      obtain ⟨_, _, rfl⟩ := ht
      exact h.same
    | stream u =>
      simp only [State.commit, State.commitStream] at ht
      split at ht
      · split at ht
        · cases ht
        · cases ht; exact h.same
      · cases ht
    | lane l =>
      simp only [State.commit, State.commitLane, Option.map_eq_some_iff] at ht
      obtain ⟨_, hx, rfl⟩ := ht
      exact h.onLane l ((h l).commitLaneEntry (confirmCount_of_laneOfImage hx))
  · exact h.same

theorem LanesInv.act {s t : State} (h : LanesInv s) (ha : State.Act s t) : LanesInv t := by
  cases ha
  case readsZero _ => exact h
  case hardReset => exact lanesInv_reset
  case takeEdge l b => exact h.onLane l ((h l).takeEdge b)
  case silence l hd =>
    refine h.onLane l ((h l).fallSilent ?_)
    simp only [State.silenceDue, Bool.and_eq_true, bne_iff_ne] at hd
    exact hd.1.1
  case tableWrite e _ => exact h.tableWrite e
  case writeCmd code _ => exact h.writeCmd code
  case writeWord a v _ => exact h.writeWord a v
  all_goals exact h.same

/-- Settles O57: every act of the part keeps every lane as `LaneInv` says, so every step does. -/
theorem stepKeepsLanes : Obligations.StepKeepsLanes :=
  State.Act.invariant (fun _ _ h => h) fun _ _ h ha => h.act ha

end Sys2Proof.Machine
end

section
/-! Every invariant of the part at reset (R19, R42, R57, R76, R98, R118, R132, R146, R172). -/

namespace Sys2Proof.Machine

/-! ### The blocks at reset -/

theorem State.stream_reset (t : StreamId) : State.reset.stream t = Stream.reset := by
  simp [State.stream, State.reset]

theorem State.slot_reset (i : SlotId) : State.reset.slot i = HoldSlot.reset := by simp [State.slot, State.reset]

theorem State.route_reset (i : RouteId) : State.reset.route i = RouteEntry.reset := by
  simp [State.route, State.reset]

theorem State.listsEmpty_reset : State.reset.listsEmpty := fun l => by rw [State.lane_reset]; rfl

/-! ### The invariants at reset -/

theorem refreshInv_reset : RefreshInv State.reset := ⟨by decide, by decide, Nat.zero_le _⟩

theorem settingsInv_reset : SettingsInv State.reset := by
  refine ⟨by decide, Nat.zero_le _, fun t => ?_, fun i h => ?_, by decide, by decide, Nat.zero_le _⟩
  · rw [State.stream_reset]
    exact ⟨Nat.zero_le _, Nat.zero_le _, Nat.zero_le _⟩
  · rw [State.route_reset] at h
    cases h

theorem memoryInv_reset : MemoryInv State.reset := ⟨rfl, rfl, rfl⟩

theorem windowInv_reset : WindowInv State.reset := by
  refine ⟨fun h => ?_, fun h => ?_, fun h => absurd rfl h, fun c p d h => ?_⟩
  · cases h
  · rcases h with h | h <;> cases h
  · cases h

theorem chargeInv_reset : ChargeInv State.reset := fun t => by rw [State.stream_reset]; exact Nat.zero_le _

/-- At reset the pool is INITIALIZING and every place is empty (R69, R72). -/
theorem descInv_reset : DescInv State.reset := by
  refine ⟨fun h => ?_, fun _ => ⟨rfl, State.listsEmpty_reset, fun t => ?_, fun i => ?_⟩, fun _ => State.listsEmpty_reset⟩
  · cases h
  · rw [State.stream_reset]; rfl
  · rw [State.slot_reset]; rfl

theorem books_reset : Books State.reset := by
  refine Books.blank rfl rfl rfl (fun l => ?_) (fun t => ?_) (fun i => ?_)
  · rw [State.lane_reset]
    exact ⟨rfl, rfl, rfl, fun i => by simp [Lane.reset, Reception.reset]⟩
  · rw [State.stream_reset]; rfl
  · rw [State.slot_reset]; rfl

theorem placesInv_reset : PlacesInv State.reset := by
  refine (PlacesInv.iff _).mpr ⟨books_reset, fun l d hd => ?_, fun _ => State.listsEmpty_reset⟩
  rw [State.listsEmpty_reset l] at hd
  cases hd

/-- Settles O54, invariant by invariant. -/
theorem invariantsHoldAfterReset : Obligations.InvariantsHoldAfterReset :=
  ⟨refreshInv_reset, settingsInv_reset, memoryInv_reset, lanesInv_reset, windowInv_reset, chargeInv_reset, descInv_reset,
    placesInv_reset⟩

end Sys2Proof.Machine
end

section
/-! What an edge does to a lane, case by case, as equations (R8 to R14), and the statements about edges that hand over no body
byte and complete no trailer. -/

namespace Sys2Proof.Machine

/-! ### An edge is an edge, whichever row it is given as (entry 5) -/

theorem exec_edge {c : Instr} {l : LaneId} {b : Bool} (h : c.edgeOf = some (l, b)) (s : State) :
    exec c s = .next (s.clockEdge l b) := by
  cases c <;> cases h <;> rfl

/-! ### The receiver once the edge is noted (R15) -/

@[simp] theorem State.rx_noteEdge (s : State) (l : LaneId) :
    ((s.noteEdge l).lane l).rx = (s.lane l).rx.heard s.now := by
  simp [State.noteEdge_eq]

@[simp] theorem Receiver.heard_frame (rx : Receiver) (now : Micros) :
    (rx.heard now).delin = rx.delin ∧ (rx.heard now).sub = rx.sub ∧ (rx.heard now).remaining = rx.remaining
    ∧ (rx.heard now).missCount = rx.missCount ∧ (rx.heard now).byteCount = rx.byteCount
    ∧ (rx.heard now).bits = rx.bits := ⟨rfl, rfl, rfl, rfl, rfl, rfl⟩

@[simp] theorem State.setRx_noteEdge (s : State) (l : LaneId) (rx : Receiver) :
    (s.noteEdge l).setRx l rx = s.setRx l rx := by
  simp [State.noteEdge_eq]

theorem State.setUnit_noteEdge (s : State) (l : LaneId) (u : Reception) (rx : Receiver) :
    ((s.noteEdge l).setUnit l u).setRx l rx = (s.setUnit l u).setRx l rx := by
  simp [State.noteEdge_eq, State.setRx, State.setUnit]

section Edge

variable {s : State} {l : LaneId} (b : Bool)

/-! ### HUNT (R8, R9) -/

theorem State.clockEdge_hunt (hr : s.host.resetHigh = true) (hq : s.heardInTime l)
    (hd : (s.lane l).rx.delin = .hunt) : s.clockEdge l b = (s.noteEdge l).huntEdge l b := by
  rw [State.clockEdge_of_heard b hr hq, State.takeEdge, hd]

/-- A window that is not yet full, or fails, slides (R8). -/
theorem State.huntEdge_slide {w : List Bool} (hw : slideWindow (s.lane l).rx.bits b = w)
    (hp : ¬(w.length = 32 ∧ (headerOfBits w).passes = true)) :
    s.huntEdge l b = s.setRx l { (s.lane l).rx with bits := w } := by
  rw [State.huntEdge, hw, if_neg hp]

/-- A window that passes is a candidate (R9). -/
theorem State.huntEdge_candidate {w : List Bool} (hw : slideWindow (s.lane l).rx.bits b = w) (h32 : w.length = 32)
    (hp : (headerOfBits w).passes = true) : s.huntEdge l b = s.enterProvisional l (headerOfBits w) := by
  rw [State.huntEdge, hw, if_pos ⟨h32, hp⟩]

/-! ### PROVISIONAL (R9) -/

theorem State.clockEdge_provisional (hr : s.host.resetHigh = true) (hq : s.heardInTime l)
    (hd : (s.lane l).rx.delin = .provisional) : s.clockEdge l b = (s.noteEdge l).provisionalEdge l b := by
  rw [State.clockEdge_of_heard b hr hq, State.takeEdge, hd]

/-- A bit that completes neither a byte that is passed over nor a header joins the others. -/
theorem State.provisionalEdge_gathers
    (h : 0 < (s.lane l).rx.byteCount ∧ (s.lane l).rx.bits.length + 1 ≠ 8
      ∨ (s.lane l).rx.byteCount = 0 ∧ (s.lane l).rx.bits.length + 1 ≠ 32) :
    s.provisionalEdge l b = s.setRx l { (s.lane l).rx with bits := (s.lane l).rx.bits ++ [b] } := by
  unfold State.provisionalEdge
  rcases h with ⟨hn, h8⟩ | ⟨hn, h32⟩
  · simp [hn, h8]
  · simp [hn, h32]

theorem State.provisionalEdge_passes (hn : 0 < (s.lane l).rx.byteCount) (h8 : (s.lane l).rx.bits.length + 1 = 8) :
    s.provisionalEdge l b = s.setRx l (s.lane l).rx.passByte := by
  simp [State.provisionalEdge, hn, h8]

/-! ### LOCKED (R12, R13) -/

theorem State.clockEdge_locked (hr : s.host.resetHigh = true) (hq : s.heardInTime l)
    (hd : (s.lane l).rx.delin = .locked) : s.clockEdge l b = (s.noteEdge l).lockedEdge l b := by
  rw [State.clockEdge_of_heard b hr hq, State.takeEdge, hd]

/-- A bit that completes neither a header nor a byte joins the others. -/
theorem State.lockedEdge_gathers
    (h : (s.lane l).rx.sub = .awaitHeader ∧ (s.lane l).rx.bits.length + 1 ≠ 32
      ∨ (s.lane l).rx.sub ≠ .awaitHeader ∧ (s.lane l).rx.bits.length + 1 ≠ 8) :
    s.lockedEdge l b = s.setRx l { (s.lane l).rx with bits := (s.lane l).rx.bits ++ [b] } := by
  unfold State.lockedEdge
  rcases h with ⟨hs, h32⟩ | ⟨hs, h8⟩
  · simp [hs, h32]
  · simp [hs, h8]

theorem State.lockedEdge_byte (hs : (s.lane l).rx.sub ≠ .awaitHeader) (h8 : (s.lane l).rx.bits.length + 1 = 8) :
    s.lockedEdge l b = s.lockedByte l (byteOfBits ((s.lane l).rx.bits ++ [b])) := by
  simp [State.lockedEdge, hs, h8]

end Edge

theorem State.lockedByte_skip {s : State} {l : LaneId} (hs : (s.lane l).rx.sub = .skip) (x : Byte) :
    s.lockedByte l x = s.setRx l (if (s.lane l).rx.byteCount ≤ 1
      then { (s.lane l).rx with sub := .awaitHeader, byteCount := 0, bits := [] } else (s.lane l).rx.passByte) := by
  rw [State.lockedByte, hs]
  dsimp only
  rw [State.skipByte]
  split <;> rfl

/-- The first trailer byte is handed over (R13, R34). -/
theorem State.lockedByte_trailer {s : State} {l : LaneId} (hs : (s.lane l).rx.sub = .trailer)
    (hn : 1 < (s.lane l).rx.byteCount) (x : Byte) :
    s.lockedByte l x = (s.setUnit l { (s.lane l).unit with trailer := (s.lane l).unit.trailer ++ [x] }).setRx l
      (s.lane l).rx.passByte := by
  rw [State.lockedByte, hs]
  dsimp only
  rw [State.trailerByte]
  simp [Nat.not_le.mpr hn]

/-! ### LaneClockEdges -/

section LaneClockEdges

variable {s : State} {l : LaneId} (b : Bool)

theorem exec_candidate (hr : s.host.resetHigh = true) (hq : s.heardInTime l) (hd : (s.lane l).rx.delin = .hunt)
    {w : List Bool} (hw : slideWindow (s.lane l).rx.bits b = w) (h32 : w.length = 32)
    (hp : (headerOfBits w).passes = true) :
    exec (.candidate l b) s = .next (s.setRx l { (s.lane l).rx.heard s.now with
      delin := .provisional, sub := .awaitHeader, remaining := (s.lane l).entry.confirmCount.toNat
      byteCount := frameBytes (headerOfBits w).length, bits := [] }) := by
  rw [exec_edge rfl, State.clockEdge_hunt b hr hq hd, State.huntEdge_candidate b (w := w) (by simpa using hw) h32 hp]
  simp [State.enterProvisional]

theorem exec_laneClockEdge_hunt (hr : s.host.resetHigh = true) (hq : s.heardInTime l) (hd : (s.lane l).rx.delin = .hunt)
    {w : List Bool} (hw : slideWindow (s.lane l).rx.bits b = w)
    (hp : ¬(w.length = 32 ∧ (headerOfBits w).passes = true)) :
    exec (.laneClockEdge l b) s = .next (s.setRx l { (s.lane l).rx.heard s.now with bits := w }) := by
  rw [exec_edge rfl, State.clockEdge_hunt b hr hq hd, State.huntEdge_slide b (w := w) (by simpa using hw) hp]
  simp

end LaneClockEdges

/-- Settles O6: each case is the equation of the edge in that delineation state. -/
theorem laneClockEdges : Obligations.LaneClockEdges := by
  refine ⟨⟨fun c s l b hc => ?_, fun s l b w hr hq hd hw => ⟨fun hp => ?_, fun h32 hp => ?_⟩⟩,
    fun s l b rx hrx hr hq => ⟨fun hd => ⟨fun h => ?_, fun hn h8 => ?_⟩,
      fun hd => ⟨fun h => ?_, fun hs h8 => ?_, fun hs h8 hn => ?_⟩⟩⟩
  · rw [exec_edge hc, exec_edge rfl]
  · exact exec_laneClockEdge_hunt b hr hq hd hw.symm hp
  · exact exec_candidate b hr hq hd hw.symm h32 hp
  all_goals subst hrx; rw [exec_edge rfl]
  · rw [State.clockEdge_provisional b hr hq hd, State.provisionalEdge_gathers b (by simpa using h)]
    simp [Receiver.heard]
  · rw [State.clockEdge_provisional b hr hq hd, State.provisionalEdge_passes b (by simpa using hn)
      (by simpa using h8)]
    simp [Receiver.heard, Receiver.passByte]
  · rw [State.clockEdge_locked b hr hq hd, State.lockedEdge_gathers b (by simpa using h)]
    simp [Receiver.heard]
  · rw [State.clockEdge_locked b hr hq hd, State.lockedEdge_byte b (by simp [hs])
      (by simpa using h8), State.lockedByte_skip (by simpa using hs)]
    simp [Receiver.heard, Receiver.passByte]
  · rw [State.clockEdge_locked b hr hq hd, State.lockedEdge_byte b (by simp [hs])
      (by simpa using h8), State.lockedByte_trailer (by simpa using hs)
        (by simpa using hn)]
    simp [Receiver.heard, Receiver.passByte, State.setUnit_noteEdge]

/-! ### Headers on a LOCKED lane (R12, R14) -/

section Header

variable {s : State} {l : LaneId} {h : Header}

theorem State.actOnHeader_idle (h0 : h.length = 0) : s.actOnHeader l h =
    s.setRx l { (s.lane l).rx with sub := .awaitHeader, missCount := 0, byteCount := 0, bits := [] } := by
  simp [State.actOnHeader, h0]

theorem State.actOnHeader_runt (h1 : h.length = 1) : s.actOnHeader l h =
    (s.setRx l { (s.lane l).rx with sub := .skip, missCount := 0, byteCount := 3, bits := [] }).bumpLane l .runts := by
  simp [State.actOnHeader, h1, State.setRx_bumpLane, frameBytes]

/-- A miss past the Miss Tolerance: HUNT with Sync Losses and LANE_SYNC (R14). -/
theorem State.missHeader_lost (hm : (s.lane l).entry.missTolerance.toNat < (s.lane l).rx.missCount + 1) :
    s.missHeader l h = (((s.setRx l (s.lane l).rx.hunt).bumpLane l .headersMissed).bumpLane l .syncLosses).latch
      .laneSync := by
  rw [State.missHeader, if_pos hm, State.setRx_latch, State.setRx_bumpLane, State.setRx_bumpLane]

/-- A miss within the Miss Tolerance: the failed header's Length is trusted (R14). -/
theorem State.missHeader_trusted (hm : (s.lane l).rx.missCount + 1 ≤ (s.lane l).entry.missTolerance.toNat) :
    s.missHeader l h = (s.setRx l (if h.length = 0
      then { (s.lane l).rx with missCount := (s.lane l).rx.missCount + 1, bits := [] }
      else { (s.lane l).rx with
        missCount := (s.lane l).rx.missCount + 1, sub := .skip, byteCount := frameBytes h.length, bits := [] })).bumpLane l
          .headersMissed := by
  rw [State.missHeader, if_neg (Nat.not_lt.mpr hm)]
  dsimp only
  split <;> rw [State.setRx_bumpLane]

theorem exec_header_passes {b : Bool} (he : s.endsHeader l b h) (hp : h.passes = true) :
    exec (.header l b) s = .next ((s.noteEdge l).actOnHeader l h) := by
  rw [exec_edge rfl, State.clockEdge_of_endsHeader he, State.lockedHeader, if_pos hp]

theorem exec_header_fails {b : Bool} (he : s.endsHeader l b h) (hp : h.passes = false) :
    exec (.header l b) s = .next ((s.noteEdge l).missHeader l h) := by
  rw [exec_edge rfl, State.clockEdge_of_endsHeader he, State.lockedHeader, if_neg (by simp [hp])]

end Header

/-- Settles O8: a passing header is acted on by its kind, a failing one is a miss on either side of the Miss Tolerance. -/
theorem headerWithoutRecord : Obligations.HeaderWithoutRecord := by
  refine ⟨fun s l b h he hp => ⟨fun h0 => ?_, fun h1 => ?_⟩, fun s l b h he hp => ⟨fun hm => ?_, fun hm => ?_⟩⟩
  · have ⟨_, _, await, _⟩ := he
    rw [exec_header_passes he hp, State.actOnHeader_idle h0]
    simp [Receiver.heard, await]
  · rw [exec_header_passes he hp, State.actOnHeader_runt h1]
    simp
  · rw [exec_header_fails he hp, State.missHeader_lost (by simpa using hm)]
    simp [Receiver.hunt]
  · rw [exec_header_fails he hp, State.missHeader_trusted (by simpa using hm)]
    by_cases h0 : h.length = 0
    · simp [h0, Receiver.heard]
    · rw [if_neg h0, if_neg h0, frameBytes, if_neg h0]
      simp [Receiver.heard]

/-! ### Headers on a PROVISIONAL lane (R10, R11) -/

section Provisional

variable {s : State} {l : LaneId} {h : Header}

theorem State.confirmHeader_fails (hp : h.passes = false) : s.confirmHeader l h = s.setRx l (s.lane l).rx.hunt := by
  rw [State.confirmHeader, if_pos hp]

theorem State.confirmHeader_confirms (hp : h.passes = true) (hn : 1 < (s.lane l).rx.remaining) :
    s.confirmHeader l h = s.setRx l { (s.lane l).rx with
      remaining := (s.lane l).rx.remaining - 1, byteCount := frameBytes h.length, bits := [] } := by
  simp [State.confirmHeader, hp, hn]

theorem State.confirmHeader_locks (hp : h.passes = true) (hn : (s.lane l).rx.remaining ≤ 1) :
    s.confirmHeader l h = (s.enterLocked l).actOnHeader l h := by
  simp [State.confirmHeader, hp, Nat.not_lt.mpr hn]

theorem exec_provisionalHeader {b : Bool} (he : s.endsProvisionalHeader l b h) :
    exec (.provisionalHeader l b) s = .next ((s.noteEdge l).confirmHeader l h) := by
  rw [exec_edge rfl, State.clockEdge_of_endsProvisionalHeader he]

/-- Locking a lane and noting an edge on it commute (R11, R15). -/
theorem State.noteEdge_enterLocked (s : State) (l : LaneId) :
    (s.enterLocked l).noteEdge l = (s.noteEdge l).enterLocked l := by
  simp [State.noteEdge_eq, State.enterLocked, State.setRx_latch, Receiver.heard]

/-- The lane that locks has then completed a header in AWAIT_HEADER (R11, R12). -/
theorem State.endsHeader_enterLocked {b : Bool} (he : s.endsProvisionalHeader l b h) :
    (s.enterLocked l).endsHeader l b h := by
  obtain ⟨hr, hd, _, hbits, hh, hq⟩ := he
  have hq' : (s.lane l).rx.silent = true ∨ (s.time.count - (s.lane l).rx.lastEdge).toNat < 50 :=
    hq.resolve_left (by simp [hd])
  exact ⟨by simpa using hr, by simp [State.enterLocked], by simp [State.enterLocked],
    by simpa [State.enterLocked] using hbits, by simpa [State.enterLocked] using hh,
    .inr (by simpa [State.enterLocked] using hq')⟩

end Provisional

/-- Settles O7: the header that locks a lane is the header of the lane once it is LOCKED. -/
theorem provisionalHeader : Obligations.ProvisionalHeader := by
  refine ⟨fun s l b h he => ⟨fun hp => ?_, fun hp hn => ?_⟩, fun s locked l b h he hp hn hl => ?_⟩
  · rw [exec_provisionalHeader he, State.confirmHeader_fails hp]
    simp [Receiver.hunt]
  · rw [exec_provisionalHeader he, State.confirmHeader_confirms hp (by simpa using hn)]
    simp [Receiver.heard, frameBytes]
  · have hl' : locked = s.enterLocked l := hl
    have hx : exec (.provisionalHeader l b) s = .next (((s.noteEdge l).enterLocked l).actOnHeader l h) := by
      rw [exec_provisionalHeader he, State.confirmHeader_locks hp (by simpa using hn)]
    subst hl'
    have hlocked := State.endsHeader_enterLocked he
    refine ⟨hlocked, ?_, ⟨_, hx⟩, fun h0 => ?_, fun h1 => ?_⟩
    · rw [hx, exec_header_passes hlocked hp, State.noteEdge_enterLocked]
    · rw [hx, State.actOnHeader_idle h0]
      simp [State.enterLocked, State.setRx_latch, Receiver.heard]
    · rw [hx, State.actOnHeader_runt h1]
      simp [State.enterLocked, State.setRx_latch, Receiver.heard]

end Sys2Proof.Machine
end

section
/-! Silence (R15) and the body bytes (R13, R30, R31, R33): what each leaves of the lane, its reception unit and the record. -/

namespace Sys2Proof.Machine

/-! ### The aborts that silence and an overrun bring (R37) -/

theorem State.aborted_cut (s : State) (l : LaneId) (d : DescId) : s.aborted (s.cut l d) l d := by
  unfold State.cut
  exact (State.aborted_abort s l d).congr

theorem State.aborted_overrun (s : State) (l : LaneId) (d : DescId) : s.aborted (s.overrun l d) l d := by
  unfold State.overrun
  exact (State.aborted_abort s l d).congr

/-! ### Silence -/

section Silence

variable {s : State} {l : LaneId} {d : DescId}

theorem State.silenceDue_of_quiet (hd : (s.lane l).rx.delin ≠ .disabled) (hs : (s.lane l).rx.silent = false)
    (hq : 50 ≤ (s.time.count - (s.lane l).rx.lastEdge).toNat) : s.silenceDue l = true := by
  rw [← Bool.not_eq_false, State.silenceDue_eq_false_iff]
  rintro (h | h | h)
  · exact hd h
  · simp [hs] at h
  · omega

theorem State.cutReceiving_of_idle (h : (s.lane l).rx.delin ≠ .locked ∨ (s.lane l).rx.sub = .awaitHeader
    ∨ (s.lane l).rx.sub = .skip) : s.cutReceiving l = s := by
  rw [State.cutReceiving, if_neg]
  rintro ⟨hl, hs⟩
  rcases h with h | h | h
  · exact h hl
  · simp [h] at hs
  · simp [h] at hs

theorem State.cutReceiving_of_receiving (hl : (s.lane l).rx.delin = .locked)
    (hs : (s.lane l).rx.sub = .body ∨ (s.lane l).rx.sub = .trailer) (hd : s.receiving l = some d) :
    s.cutReceiving l = s.cut l d := by
  rw [State.cutReceiving, if_pos ⟨hl, hs⟩, hd]

/-- Silence on a lane that is not LOCKED (R15). -/
theorem State.fallSilent_unlocked (hl : (s.lane l).rx.delin ≠ .locked) :
    s.fallSilent l = (s.setRx l { (s.lane l).rx.hunt with silent := true }).latch .laneSilent := by
  rw [State.fallSilent, State.cutReceiving_of_idle (by simp [hl])]
  simp [State.noteSyncLoss, hl, State.setRx_latch]

/-- Silence on a LOCKED lane with no record in BODY or TRAILER (R15). -/
theorem State.fallSilent_idle (hl : (s.lane l).rx.delin = .locked)
    (hs : (s.lane l).rx.sub = .awaitHeader ∨ (s.lane l).rx.sub = .skip) :
    s.fallSilent l = (((s.setRx l { (s.lane l).rx.hunt with silent := true }).latch .laneSilent).bumpLane l
      .syncLosses).latch .laneSync := by
  rw [State.fallSilent, State.cutReceiving_of_idle (by simp [hs])]
  simp [State.noteSyncLoss, hl, State.setRx_latch, State.setRx_bumpLane]

/-- Silence in BODY or TRAILER cuts the RECEIVING record (R15, R39). -/
theorem State.fallSilent_cut (hl : (s.lane l).rx.delin = .locked)
    (hs : (s.lane l).rx.sub = .body ∨ (s.lane l).rx.sub = .trailer) (hd : s.receiving l = some d) :
    s.fallSilent l = ((((s.latch .laneSilent).cut l d).bumpLane l .syncLosses).latch .laneSync).setRx l
      { (s.lane l).rx.hunt with silent := true } := by
  have hd' : (s.latch .laneSilent).receiving l = some d := hd
  rw [State.fallSilent, State.cutReceiving_of_receiving (by simpa using hl) (by simpa using hs) hd']
  simp [State.noteSyncLoss, hl]

/-- The first edge after a silence is the first bit of the new search window (R15). -/
theorem State.clockEdge_of_silent (b : Bool) (hr : s.host.resetHigh = true) :
    (s.fallSilent l).clockEdge l b
      = (s.fallSilent l).setRx l { ((s.fallSilent l).lane l).rx.heard (s.fallSilent l).now with bits := [b] } := by
  have hrx := s.rx_fallSilent l
  rw [State.clockEdge_hunt b (by simpa using hr) (.inr (.inl (by rw [hrx]))) (by rw [hrx]; rfl),
    State.huntEdge_slide b (w := [b]) (by rw [State.rx_noteEdge, hrx]; rfl) (by simp)]
  simp

end Silence

/-- Settles O9: the equations of `State.fallSilent`, with `State.aborted_cut` for the record that is cut. -/
theorem silence : Obligations.Silence := by
  refine ⟨fun s l rx hrx hr hd hs hq => ⟨fun hl => ?_, fun hl hsub => ?_⟩,
    fun s l rx d hrx hr hl hsub hs hq hrec => ?_, fun s t l b ht => ?_, fun s l hq => ?_⟩
  · subst hrx
    exact (act_of_enabled hr (State.silenceDue_of_quiet hd hs hq)).trans (by rw [State.fallSilent_unlocked hl]; rfl)
  · subst hrx
    exact (act_of_enabled hr (State.silenceDue_of_quiet hd hs hq)).trans (by rw [State.fallSilent_idle hl hsub]; rfl)
  · subst hrx
    have hdue := State.silenceDue_of_quiet (by simp [hl]) hs hq
    refine ⟨_, act_of_enabled hr hdue, ?_⟩
    rw [State.fallSilent_cut hl hsub hrec]
    refine ⟨by simp [Receiver.hunt], (State.aborted_cut (s.latch .laneSilent) l d).congr, by simp [State.cut],
      by simp [State.cut], ⟨fun m k hk => ?_, by simp, by simp⟩, by simp [State.cut], by simp [State.cut], by simp,
      fun e he => ?_, by simp, fun m hm => by simp [hm], rfl⟩
    · simp only [List.mem_cons, Prod.mk.injEq, List.not_mem_nil, or_false, not_or, not_and_or] at hk
      simp [State.cut, hk]
    · simp only [List.mem_cons, List.not_mem_nil, or_false, not_or] at he
      simp [State.cut, he]
  · obtain ⟨hr, hdue, rfl⟩ := act_next_iff.mp ht
    rw [exec_edge rfl, exec_edge rfl, ← State.clockEdge_fallSilent b hr hdue]
    exact ⟨rfl, by rw [State.clockEdge_of_silent b hr]⟩
  · have hdue := (State.silenceDue_eq_false_iff s l).mpr hq
    simp [exec, execSilence, act, hdue]

/-! ### Body bytes -/

theorem State.passBody_eq_setRx (s : State) (l : LaneId) : s.passBody l = s.setRx l (if (s.lane l).rx.byteCount ≤ 1
    then { (s.lane l).rx with sub := .trailer, byteCount := 2, bits := [] } else (s.lane l).rx.passByte) := by
  unfold State.passBody
  dsimp only
  split <;> rfl

@[simp] theorem State.receiving_noteEdge (s : State) (l m : LaneId) : (s.noteEdge l).receiving m = s.receiving m := by
  simp [State.noteEdge_eq, State.receiving]

@[simp] theorem State.stagingFor_noteEdge (s : State) (l m : LaneId) (d : DescId) :
    (s.noteEdge l).stagingFor m d = s.stagingFor m d := by
  simp [State.noteEdge_eq, State.stagingFor, State.chainCellAt]

theorem exec_bodyByte {s : State} {l : LaneId} {b : Bool} {x : Byte} (he : s.endsByte l b .body x) :
    exec (.bodyByte l b) s = .next ((s.noteEdge l).bodyByte l x) := by
  have ⟨_, _, hsub, _⟩ := he
  rw [exec_edge rfl, State.clockEdge_of_endsByte he (by simp), State.lockedByte]
  simp [hsub]

section Body

variable {s : State} {l : LaneId} {d : DescId}

theorem State.bodyByte_stages {i : Fin 4} {c : Staged} (hd : s.receiving l = some d)
    (hs : s.stagingFor l d = some (i, c)) (x : Byte) : s.bodyByte l x = (s.stageByte l d i c x).passBody l := by
  simp [State.bodyByte, hd, hs]

/-- No staging cell FREE or FILLING for the record is a staging overrun (R33). -/
theorem State.bodyByte_overruns (hd : s.receiving l = some d)
    (hs : ∀ i : Fin 4, (s.lane l).unit.staging[i.val].isFree = false ∧ (s.lane l).unit.staging[i.val].fillingFor d = false)
    (x : Byte) : s.bodyByte l x = s.overrun l d := by
  have hfree := ((s.lane l).unit.findStaging_eq_none StagingCell.isFree).mpr fun i => (hs i).1
  have hfill := ((s.lane l).unit.findStaging_eq_none (StagingCell.fillingFor d)).mpr fun i => (hs i).2
  simp [State.bodyByte, hd, State.stagingFor, hfree, hfill]

/-- A byte that has a staging cell: it is staged, and the lane counts it (R13, R30). -/
theorem exec_bodyByte_stages {b : Bool} {x : Byte} {i : Fin 4} {c : Staged} (he : s.endsByte l b .body x)
    (hd : s.receiving l = some d) (hs : s.stagingFor l d = some (i, c)) :
    exec (.bodyByte l b) s = .next (((s.noteEdge l).stageByte l d i c x).setRx l (if (s.lane l).rx.byteCount ≤ 1
      then { (s.lane l).rx.heard s.now with sub := .trailer, byteCount := 2, bits := [] }
      else { (s.lane l).rx.heard s.now with byteCount := (s.lane l).rx.byteCount - 1, bits := [] })) := by
  rw [exec_bodyByte he, State.bodyByte_stages (by simpa using hd) (by simpa using hs), State.passBody_eq_setRx]
  simp [Receiver.passByte]

variable (s l d) (i : Fin 4) (c : Staged) (x : Byte)

/-- The second body byte gives the record its Sequence (R30). -/
theorem State.desc_stageByte_self : (s.stageByte l d i c x).desc d
    = if (s.lane l).unit.chainCell = 0 ∧ (s.lane l).unit.chainByte = 1
      then { s.desc d with sequence := some (sequenceOf (c.bytes ++ [x])) } else s.desc d := by
  unfold State.stageByte
  dsimp only
  split <;> simp

theorem State.desc_stageByte_ne {e : DescId} (he : e ≠ d) : (s.stageByte l d i c x).desc e = s.desc e := by
  unfold State.stageByte
  dsimp only
  split <;> simp [he]

/-- A body byte changes the lane's reception unit and the record's descriptor, and nothing else (R30). -/
theorem State.stageByte_only : s.stageByte l d i c x = { s with
    lanes := (s.stageByte l d i c x).lanes
    pool := { s.pool with descs := (s.stageByte l d i c x).pool.descs } } := by
  unfold State.stageByte
  dsimp only
  split <;> rfl

/-- The byte that fills its cell, or is the body's last, leaves the cell PENDING, padded and last in the write order (R31). -/
theorem State.staging_of_ends (h : c.bytes.length + 1 = 64 ∨ (s.lane l).unit.countdown ≤ 1) :
    ((s.stageByte l d i c x).lane l).unit.staging[i.val] = .pending { c with
        bytes := c.bytes ++ [x] ++ List.replicate (64 - (c.bytes.length + 1)) 0 }
      ∧ ((s.stageByte l d i c x).lane l).unit.order = (s.lane l).unit.order ++ [i] := by
  have hend : ((c.bytes ++ [x]).length == Config.cellBytes || (s.lane l).unit.countdown - 1 == 0) = true := by
    simp [Config.cellBytes]; omega
  rw [Books.unit_stageByte, hend]
  exact ⟨by simp [padCell, Config.cellBytes], rfl⟩

/-- Any other byte leaves its cell FILLING (R30). -/
theorem State.staging_of_fills (h : ¬(c.bytes.length + 1 = 64 ∨ (s.lane l).unit.countdown ≤ 1)) :
    ((s.stageByte l d i c x).lane l).unit.staging[i.val] = .filling { c with bytes := c.bytes ++ [x] }
      ∧ ((s.stageByte l d i c x).lane l).unit.order = (s.lane l).unit.order := by
  have hend : ((c.bytes ++ [x]).length == Config.cellBytes || (s.lane l).unit.countdown - 1 == 0) = false := by
    simp [Config.cellBytes]; omega
  rw [Books.unit_stageByte, hend]
  exact ⟨by simp, rfl⟩

/-- The other staging cells stand as they did. -/
theorem State.staging_stageByte_ne {j : Fin 4} (hj : j ≠ i) :
    ((s.stageByte l d i c x).lane l).unit.staging[j.val] = (s.lane l).unit.staging[j.val] := by
  rw [Books.unit_stageByte]
  dsimp only
  rw [staging_set_get, if_neg hj]

end Body

/-- Settles O14: `State.stageByte` on the lane once the edge is noted, or the abort of the overrun. -/
theorem bodyByte : Obligations.BodyByte := by
  refine ⟨fun s l b x d i c u he hd hs hu => ?_, fun s l b x d he hd hs => ?_⟩
  · subst hu
    refine ⟨_, exec_bodyByte_stages he hd hs, ?_⟩
    generalize hn : s.noteEdge l = n
    have hunit : (n.lane l).unit = (s.lane l).unit := by rw [← hn]; simp
    have hdesc : ∀ e, n.desc e = s.desc e := by rw [← hn]; simp
    simp only [State.lane_setRx_unit]
    refine ⟨?_, ?_, ?_, ?_, ?_, fun j hj => ?_, ?_, ?_, ?_, by simp, ?_, fun e he' => ?_, by rw [← hn]; simp,
      fun m hm => by rw [← hn]; simp [hm], ?_⟩
    · rw [Books.unit_stageByte, hunit]
    · rw [Books.unit_stageByte, hunit]
    · rw [Books.unit_stageByte, hunit]; simp [Config.cellBytes]
    · rw [Books.unit_stageByte, hunit]; simp [Config.cellBytes]
    · split
      next hend =>
        obtain ⟨hst, ho⟩ := State.staging_of_ends n l d i c x (by rwa [hunit])
        exact ⟨hst, by rw [ho, hunit]⟩
      next hfill =>
        obtain ⟨hst, ho⟩ := State.staging_of_fills n l d i c x (by rwa [hunit])
        exact ⟨hst, by rw [ho, hunit]⟩
    · exact (State.staging_stageByte_ne n l d i c x hj).trans (by simp only [hunit])
    · rw [Books.unit_stageByte, hunit]
    · rw [Books.unit_stageByte, hunit]
    · rw [Books.unit_stageByte, hunit]
    · have := State.desc_stageByte_self n l d i c x
      rw [hunit, hdesc] at this
      simpa using this
    · simpa [hdesc] using State.desc_stageByte_ne n l d i c x he'
    · have only := State.stageByte_only n l d i c x
      generalize n.stageByte l d i c x = t at only ⊢
      rw [only, ← hn]
      rfl
  · refine ⟨_, exec_bodyByte he, ?_⟩
    rw [State.bodyByte_overruns (d := d) (by simpa using hd) (by simpa using hs)]
    refine ⟨by simp [State.overrun, Receiver.heard], (State.aborted_overrun (s.noteEdge l) l d).congr,
      by simp [State.overrun], ⟨fun m k hk => ?_, by simp, by simp⟩, by simp [State.overrun], fun e he' => ?_, by simp,
      fun m hm => by simp [hm], rfl⟩
    · simp only [List.mem_cons, Prod.mk.injEq, List.not_mem_nil, or_false, not_and_or] at hk
      simp [State.overrun, hk]
    · simp only [List.mem_singleton] at he'
      simp [State.overrun, he']

end Sys2Proof.Machine
end

section
/-! The places of every cell and every descriptor (R29, R65, R66): every act keeps them (`DescInv.act`, `PlacesInv.act`), and
what they say in sums. -/

namespace Sys2Proof.Machine

/-- The commands that wait are in no place. -/
theorem PlacesInv.pending {s : State} (h : PlacesInv s) (rest : List Instr) : PlacesInv { s with pending := rest } where
  descs := h.descs
  free := h.free
  queued := h.queued
  held := h.held
  cells := h.cells
  chains := h.chains
  empty := h.empty
  lanes := h.lanes
  handed := h.handed
  clearing := h.clearing

theorem PlacesInv.books {s : State} (h : PlacesInv s) : Books s := ((PlacesInv.iff s).mp h).1

/-- The descriptors add up to 4096 (R66). -/
theorem PlacesInv.descsSum {s : State} (h : PlacesInv s) (hr : s.pool.ready = true) :
    s.pool.freeDescs.length + s.records.length = 4096 := by
  have once : ∑ d, (s.pool.freeDescs ++ s.records).count d = 4096 := by
    rw [Finset.sum_congr rfl fun d _ => h.descs hr d]; simp
  rwa [Books.count_sum, List.length_append] at once

/-- Settles O60: every act keeps both invariants, so every step does; the sums count each cell and each descriptor once. -/
theorem stepKeepsDescriptors : Obligations.StepKeepsDescriptors := by
  refine ⟨State.Act.invariant (fun _ _ h => h) fun _ _ h ha => h.act ha,
    State.Act.invariant (fun _ rest h => h.pending rest) fun _ _ h ha => h.act ha,
    fun s h => ⟨fun hr => ⟨h.books.cellsSum hr, h.descsSum hr⟩, fun l => ⟨?_, fun d hd hr => ?_⟩⟩⟩
  · exact (h.lanes l).length_le (h.books.nodup l)
  · exact (h.lanes l).last hd hr

end Sys2Proof.Machine
end

section
/-! A record header on a LOCKED lane in AWAIT_HEADER (R21 to R28): refused or accepted. -/

namespace Sys2Proof.Machine

/-! ### What an offer does, case by case (R22 to R26) -/

theorem State.notReady_eq_false {s : State} (hr : s.pool.ready = true) (hp : s.cmd.phase ≠ .clearing .second) :
    s.notReady = false := by
  simp [State.notReady, hr, hp]

theorem State.offer_notReady {s : State} {l : LaneId} {h : Header}
    (hn : s.pool.ready = false ∨ s.cmd.phase = .clearing .second) : s.offer l h = s.refuse l h none := by
  rw [State.offer, if_pos]
  rcases hn with hn | hn <;> simp [State.notReady, hn]

theorem State.offer_discarded {s : State} {l : LaneId} {h : Header} (hc : s.classify l h.tag = none) :
    s.offer l h = s.refuse l h none := by
  simp [State.offer, hc]

/-- The conditions of R84, as the statements say them. -/
theorem State.roomFailure_eq_none_iff (s : State) (u : StreamId) (n : Nat) : s.roomFailure u n = none ↔
    (s.stream u).charge + n ≤ (s.stream u).entry.quota ∧ n ≤ s.pool.freeCells.length ∧ 1 ≤ s.pool.freeDescs.length := by
  unfold State.roomFailure
  repeat' split
  all_goals simp only [reduceCtorEq, false_iff, true_iff]; omega

theorem State.admission_granted {s : State} {u : StreamId} {n : Nat} (hr : s.roomFailure u n = none) :
    s.admission u n = (s, none) := by
  rw [State.admission, hr]

/-- A room cause with Refuse Newest, or with evictions that would not be enough (R85, R86). -/
theorem State.admission_refused {s : State} {u : StreamId} {n : Nat} (hr : s.roomFailure u n ≠ none)
    (he : (s.stream u).entry.policy = .refuseNewest ∨ s.evictionEnough u n = false) :
    ∃ cause, s.admission u n = (s, some cause) := by
  obtain ⟨cause, hcause⟩ := Option.ne_none_iff_exists'.mp hr
  refine ⟨cause, ?_⟩
  rw [State.admission, hcause]
  dsimp only
  rw [if_neg]
  rintro ⟨hp, hn⟩
  rcases he with he | he
  · simp [he] at hp
  · simp [he] at hn

section Offer

variable {s : State} {l : LaneId} {h : Header} {u : StreamId} {r : Option (RouteId × Byte)}

theorem State.offer_disabled (hn : s.notReady = false) (hc : s.classify l h.tag = some (u, r))
    (he : (s.stream u).entry.enable = false) : s.offer l h = s.refuse l h (some u) := by
  simp [State.offer, hn, hc, he]

theorem State.offer_noRoom {cause : RefusalCause} (hn : s.notReady = false) (hc : s.classify l h.tag = some (u, r))
    (he : (s.stream u).entry.enable = true) (ha : s.admission u (cellsFor h.length) = (s, some cause)) :
    s.offer l h = s.refuse l h (some u) := by
  simp [State.offer, hn, hc, he, ha]

theorem State.offer_accepted {d : DescId} {ds : List DescId} (hn : s.notReady = false)
    (hc : s.classify l h.tag = some (u, r)) (he : (s.stream u).entry.enable = true)
    (ha : s.admission u (cellsFor h.length) = (s, none)) (hd : s.pool.freeDescs = d :: ds) :
    s.offer l h = s.accept l h u r d := by
  simp [State.offer, hn, hc, he, ha, hd]

end Offer

/-- A refusal before a stream is chosen: what it counts, latches and skips (R26). -/
theorem State.refuse_unchosen (s : State) (l : LaneId) (h : Header) : s.refuse l h none =
    ((s.setRx l { (s.lane l).rx with sub := .skip, byteCount := h.length.toNat + 2, bits := [] }).bumpLane l
      .recordsRefused).latch .recordDrop := rfl

/-- A refusal with a stream chosen (R26). -/
theorem State.refuse_chosen (s : State) (l : LaneId) (h : Header) (u : StreamId) : s.refuse l h (some u) =
    (((s.setRx l { (s.lane l).rx with sub := .skip, byteCount := h.length.toNat + 2, bits := [] }).bumpLane l
      .recordsRefused).bumpStream u .recordsRefused).latch .recordDrop := rfl

/-! ### The header that is offered (R12, R21) -/

/-- The state a record header is offered in: the edge noted, the Miss Count 0 (R12, R15). -/
def State.offered (s : State) (l : LaneId) : State :=
  s.setRx l { (s.lane l).rx.heard s.now with sub := .awaitHeader, missCount := 0, byteCount := 0, bits := [] }

theorem State.actOnHeader_record {s : State} {l : LaneId} {h : Header} (hl : 2 ≤ h.length.toNat) : s.actOnHeader l h =
    (s.setRx l { (s.lane l).rx with sub := .awaitHeader, missCount := 0, byteCount := 0, bits := [] }).offer l h := by
  have h0 : h.length ≠ 0 := fun e => absurd hl (by rw [e]; decide)
  have h1 : h.length ≠ 1 := fun e => absurd hl (by rw [e]; decide)
  rw [State.actOnHeader, if_neg h0, if_neg h1]

theorem exec_header_record {s : State} {l : LaneId} {b : Bool} {h : Header} (he : s.endsHeader l b h)
    (hp : h.passes = true) (hl : 2 ≤ h.length.toNat) : exec (.header l b) s = .next ((s.offered l).offer l h) := by
  rw [exec_header_passes he hp, State.actOnHeader_record hl]
  simp [State.offered]

/-- The lane's receiver is nothing classification reads. -/
@[simp] theorem State.classify_offered (s : State) (l m : LaneId) (tag : Byte) :
    (s.offered l).classify m tag = s.classify m tag := by
  simp [State.offered, State.classify, State.decidingRoute]

/-- Settles O11: each cause is a case of `State.offer`, and the refusals leave what `State.refuse_unchosen` and `State.refuse_chosen` say. -/
theorem headerRefused : Obligations.HeaderRefused := by
  intro s l b h skip he hp hl hskip
  subst hskip
  refine ⟨fun hn => ?_, fun hr hq u r n hc hn hcause => ?_⟩
  · have ho : (s.offered l).offer l h = (s.offered l).refuse l h none := by
      rcases hn with hn | hn | hn
      · exact State.offer_notReady (.inl hn)
      · exact State.offer_notReady (.inr hn)
      · exact State.offer_discarded (by simpa using hn)
    rw [exec_header_record he hp hl, ho, State.refuse_unchosen]
    simp [State.offered]
  · have ready : (s.offered l).notReady = false := State.notReady_eq_false hr hq
    have chosen : (s.offered l).classify l h.tag = some (u, r) := by simpa using hc
    have ho : (s.offered l).offer l h = (s.offered l).refuse l h (some u) := by
      cases hen : (s.stream u).entry.enable with
      | false => exact State.offer_disabled ready chosen hen
      | true =>
        obtain ⟨hroom, hevict⟩ := hcause.resolve_left (by simp [hen])
        rw [← State.roomFailure_eq_none_iff, hn] at hroom
        rw [hn] at hevict
        obtain ⟨cause, ha⟩ := State.admission_refused (s := s.offered l) hroom hevict
        exact State.offer_noRoom ready chosen hen ha
    rw [exec_header_record he hp hl, ho, State.refuse_chosen]
    simp [State.offered]

end Sys2Proof.Machine
end

section
/-! An accepted record header (R27, R28): what `State.accept` gives the record, takes from the pool and charges, and what it
leaves. -/

namespace Sys2Proof.Machine

/-! ### The charge and Pool Low (R28, R74, R91) -/

theorem State.stream_raiseCharge (s : State) (u v : StreamId) (n : Nat) : (s.raiseCharge u n).stream v
    = if v = u then { s.stream u with charge := (s.stream u).charge + n } else s.stream v := by
  have h : (s.raiseCharge u n).stream v
      = (s.setStream u { s.stream u with charge := (s.stream u).charge + n }).stream v := by
    unfold State.raiseCharge
    dsimp only
    split <;> rfl
  rw [h, State.stream_setStream]

/-- A stream's watermark bit is latched when the charge rises from below its Watermark to it or above (R91). -/
theorem State.watermarks_raiseCharge (s : State) (u : StreamId) (n : Nat) : (s.raiseCharge u n).events.watermarks
    = if (s.stream u).charge < (s.stream u).entry.watermark ∧ (s.stream u).entry.watermark ≤ (s.stream u).charge + n
      then s.events.watermarks ||| ((1 : BitVec 32) <<< u.val) else s.events.watermarks := by
  unfold State.raiseCharge
  dsimp only
  split <;> rfl

theorem State.raiseCharge_counts (s : State) (u : StreamId) (n : Nat) :
    (s.raiseCharge u n).counts = s.counts ∧ (s.raiseCharge u n).events.latches = s.events.latches := by
  unfold State.raiseCharge
  dsimp only
  split <;> exact ⟨rfl, rfl⟩

/-! ### Acceptance -/

section Accept

variable (s : State) (l : LaneId) (h : Header) (u : StreamId) (r : Option (RouteId × Byte)) (d : DescId)

theorem State.stream_accept (v : StreamId) : (s.accept l h u r d).stream v
    = if v = u then { s.stream u with charge := (s.stream u).charge + cellsFor h.length } else s.stream v := by
  simp [State.accept, State.stream_raiseCharge]

/-- The reception unit is set afresh, with the record last on its list (R27). -/
theorem State.unit_accept : ((s.accept l h u r d).lane l).unit = { (s.lane l).unit with
    list := (s.lane l).unit.list ++ [d], countdown := h.length.toNat, chainCell := 0, chainByte := 0, check := 0xFFFF
    trailer := [] } := by
  simp [State.accept]

theorem State.watermarks_accept : (s.accept l h u r d).events.watermarks
    = if (s.stream u).charge < (s.stream u).entry.watermark
        ∧ (s.stream u).entry.watermark ≤ (s.stream u).charge + cellsFor h.length
      then s.events.watermarks ||| ((1 : BitVec 32) <<< u.val) else s.events.watermarks := by
  simp [State.accept, State.watermarks_raiseCharge]

/-- What an acceptance takes from the pool, with the Pool Low event (R27, R28, R74). -/
def State.reserve : State :=
  (s.takeFromPool d (cellsFor h.length) (acceptedDesc l h u r s.now (s.pool.freeCells.headD 0)
    (cellsFor h.length))).notePoolLow s.pool.freeCells.length (s.pool.freeCells.length - cellsFor h.length)

/-- Pool Low is all that an acceptance counts and latches (R74). -/
theorem State.accept_counts : (s.accept l h u r d).counts = (s.reserve l h u r d).counts
    ∧ (s.accept l h u r d).events.latches = (s.reserve l h u r d).events.latches :=
  State.raiseCharge_counts _ _ _

/-- The acceptance takes the free cell count from at or above the threshold to below it (R74). -/
def State.getsLow : Prop := s.pool.lowThreshold ≤ s.pool.freeCells.length
  ∧ s.pool.freeCells.length - cellsFor h.length < s.pool.lowThreshold

theorem State.accept_low (low : s.getsLow h) : (s.accept l h u r d).counts = (s.bumpDevice .poolLowEvents).counts
    ∧ (s.accept l h u r d).events.latches = (s.latch .poolLow).events.latches := by
  obtain ⟨counts, latches⟩ := s.accept_counts l h u r d
  rw [counts, latches, State.reserve, State.notePoolLow, if_pos (by exact low)]
  exact ⟨rfl, rfl⟩

theorem State.accept_notLow (high : ¬s.getsLow h) : (s.accept l h u r d).counts = s.counts
    ∧ (s.accept l h u r d).events.latches = s.events.latches := by
  obtain ⟨counts, latches⟩ := s.accept_counts l h u r d
  rw [counts, latches, State.reserve, State.notePoolLow, if_neg (by exact high)]
  exact ⟨rfl, rfl⟩

theorem State.deviceCount_accept_ne {k : DeviceCounter} (hk : k ≠ .poolLowEvents) :
    (s.accept l h u r d).deviceCount k = s.deviceCount k := by
  by_cases low : s.getsLow h
  · rw [State.deviceCount, (s.accept_low l h u r d low).1]
    exact s.deviceCount_bumpDevice_ne hk
  · rw [State.deviceCount, (s.accept_notLow l h u r d low).1]; rfl

theorem State.latched_accept_ne {e : Event} (he : e ≠ .poolLow) : (s.accept l h u r d).latched e = s.latched e := by
  by_cases low : s.getsLow h
  · rw [State.latched_congr (s.accept_low l h u r d low).2, State.latched_latch_ne s he]
  · exact State.latched_congr (s.accept_notLow l h u r d low).2 e

/-- Nothing but what the record is given, taken from and counted by changes (R27, R28). -/
theorem State.accept_only : s.accept l h u r d = { s with
    lanes := (s.accept l h u r d).lanes, streams := (s.accept l h u r d).streams
    pool := { s.pool with
      freeDescs := (s.accept l h u r d).pool.freeDescs, freeCells := (s.accept l h u r d).pool.freeCells
      links := (s.accept l h u r d).pool.links, descs := (s.accept l h u r d).pool.descs }
    counts := { s.counts with device := (s.accept l h u r d).counts.device }
    events := { s.events with
      latches := (s.accept l h u r d).events.latches, watermarks := (s.accept l h u r d).events.watermarks } } := by
  unfold State.accept State.raiseCharge State.notePoolLow
  dsimp only
  split <;> split <;> rfl

end Accept

/-- The cells taken form the record's chain, in the order taken (R28, R60). -/
theorem State.chain_accept {s : State} {l : LaneId} {h : Header} {u : StreamId} {r : Option (RouteId × Byte)} {d : DescId}
    {ds : List DescId} (hd : s.pool.freeDescs = d :: ds) (hl : h.length.toNat ≠ 0)
    (hn : cellsFor h.length ≤ s.pool.freeCells.length) (hk : s.pool.freeCells.Nodup) :
    (s.accept l h u r d).chain d = s.pool.freeCells.take (cellsFor h.length) := by
  have chain := chainFrom_linkChain (s.pool.freeCells.take (cellsFor h.length)) s.pool.links 0
    (hk.sublist (List.take_sublist _ _))
  have pos : cellsFor h.length ≠ 0 := by unfold cellsFor; omega
  have first : (s.pool.freeCells.take (cellsFor h.length)).headD 0 = s.pool.freeCells.headD 0 := by
    rw [List.headD_eq_head?_getD, List.headD_eq_head?_getD, List.head?_take, if_neg pos]
  rw [List.length_take_of_le hn, first] at chain
  rw [State.chain, Books.desc_accept s l h u r d ds hd, if_pos rfl, Books.pool_accept s l h u r d ds hd]
  exact chain

/-- Settles O12: the edge is noted, the header offered and accepted, and `State.accept` leaves what its laws say. -/
theorem headerAccepted : Obligations.HeaderAccepted := by
  intro s l b h u r n d ds he hp hl hr hq hc hen hn hquota hcells hd hk
  subst hn
  have ho : (s.offered l).offer l h = (s.offered l).accept l h u r d :=
    State.offer_accepted (State.notReady_eq_false hr hq) (by simpa using hc) hen
      (State.admission_granted ((State.roomFailure_eq_none_iff _ _ _).mpr ⟨hquota, hcells, by simp [State.offered, hd]⟩)) hd
  have taken := Books.pool_accept (s.offered l) l h u r d ds hd
  have desc := Books.desc_accept (s.offered l) l h u r d ds hd
  refine ⟨_, by rw [exec_header_record he hp hl, ho], ?_, fun e hne => ?_, ?_, ?_, ?_, fun k hlast => ?_, fun k hout => ?_,
    ?_, fun v hv => ?_, ?_, ?_, ?_, fun m hm => ?_, ?_, ?_, ⟨?_, ?_, fun k hk' => ?_⟩, fun e he' => ?_, ?_⟩
  · rw [desc, if_pos rfl]; rfl
  · rw [desc, if_neg hne]; rfl
  · rw [taken]
  · rw [taken]; rfl
  · exact State.chain_accept hd (by omega) hcells hk
  · rw [taken]; exact Books.linkOf_linkChain_last _ _ k (hk.sublist (List.take_sublist _ _)) hlast
  · rw [taken]; exact linkOf_linkChain _ _ k hout
  · rw [State.stream_accept, if_pos rfl]; rfl
  · rw [State.stream_accept, if_neg hv]; rfl
  · rw [State.unit_accept]; simp [State.offered]
  · rw [State.rx_accept]; simp [State.offered]
  · simp [State.offered]
  · simp [State.offered, hm]
  · rw [State.watermarks_accept]; rfl
  · split
    next low =>
      obtain ⟨counts, latches⟩ := (s.offered l).accept_low l h u r d low
      rw [State.latched_congr latches, State.deviceCount, counts]
      exact ⟨State.latched_latch_self _ _, State.deviceCount_bumpDevice_self _ _⟩
    next high => exact ((s.offered l).accept_notLow l h u r d high).symm
  · simp [State.offered]
  · simp [State.offered]
  · rw [State.deviceCount_accept_ne _ _ _ _ _ _ (by simpa using hk')]; simp [State.offered]
  · rw [State.latched_accept_ne _ _ _ _ _ _ (by simpa using he')]; simp [State.offered]
  · exact ((s.offered l).accept_only l h u r d).trans rfl

end Sys2Proof.Machine
end

section
/-! The trailer check (R34, R35): the second trailer byte is the record's end, and the record then completes, waits for its
writes, or is aborted. -/

namespace Sys2Proof.Machine

/-! ### The second trailer byte (R13, R34) -/

/-- The state the trailer is checked in: both its bytes in the reception unit, the lane awaiting the next header (R13). -/
def State.trailed (s : State) (l : LaneId) (y x : Byte) : State :=
  (s.setUnit l { (s.lane l).unit with trailer := [y, x] }).setRx l
    { (s.lane l).rx.heard s.now with sub := .awaitHeader, byteCount := 0, bits := [] }

section Trailed

variable (s : State) (l : LaneId) (y x : Byte)

@[simp] theorem State.lane_trailed_self : (s.trailed l y x).lane l = { s.lane l with
    rx := { (s.lane l).rx.heard s.now with sub := .awaitHeader, byteCount := 0, bits := [] }
    unit := { (s.lane l).unit with trailer := [y, x] } } := by
  simp [State.trailed]

@[simp] theorem State.lane_trailed_ne {m : LaneId} (hm : m ≠ l) : (s.trailed l y x).lane m = s.lane m := by
  simp [State.trailed, hm]

@[simp] theorem State.trailed_frame : (s.trailed l y x).routes = s.routes ∧ (s.trailed l y x).pool = s.pool
    ∧ (∀ e, (s.trailed l y x).desc e = s.desc e) ∧ (s.trailed l y x).streams = s.streams
    ∧ (∀ u, (s.trailed l y x).stream u = s.stream u) ∧ (s.trailed l y x).counts = s.counts
    ∧ (∀ m k, (s.trailed l y x).laneCount m k = s.laneCount m k)
    ∧ (∀ u k, (s.trailed l y x).streamCount u k = s.streamCount u k)
    ∧ (∀ k, (s.trailed l y x).deviceCount k = s.deviceCount k) ∧ (∀ e, (s.trailed l y x).latched e = s.latched e) := by
  and_intros <;> intros <;> rfl

theorem State.receiving_trailed : (s.trailed l y x).receiving l = s.receiving l :=
  Option.ext fun e => by simp [State.receiving_iff]

end Trailed

theorem exec_trailerCheck {s : State} {l : LaneId} {b : Bool} {y x : Byte} (he : s.endsByte l b .trailer x)
    (hn : (s.lane l).rx.byteCount = 1) (hy : (s.lane l).unit.trailer = [y]) :
    exec (.trailerCheck l b) s = .next ((s.trailed l y x).checkTrailer l) := by
  have ⟨_, _, hsub, _⟩ := he
  rw [exec_edge rfl, State.clockEdge_of_endsByte he (by simp), State.lockedByte]
  simp only [State.rx_noteEdge, Receiver.heard_frame, hsub, State.trailerByte, State.lane_setUnit_rx, hn, le_refl, if_true]
  rw [State.setUnit_noteEdge]
  simp [State.trailed, State.noteEdge_eq, hy]

/-! ### The check (R34, R35) -/

section Check

variable {s : State} {l : LaneId} {d : DescId}

theorem State.checkTrailer_matches (hd : s.receiving l = some d)
    (hc : (s.lane l).unit.check = sequenceOf (s.lane l).unit.trailer) : s.checkTrailer l = s.toCompleting l d false := by
  simp [State.checkTrailer, hd, hc]

theorem State.checkTrailer_kept (hd : s.receiving l = some d)
    (hc : (s.lane l).unit.check ≠ sequenceOf (s.lane l).unit.trailer) (hk : (s.lane l).entry.keepDamaged = true) :
    s.checkTrailer l = (s.bumpLane l .recordsDamaged).toCompleting l d true := by
  simp [State.checkTrailer, hd, hc, hk]

theorem State.checkTrailer_aborted (hd : s.receiving l = some d)
    (hc : (s.lane l).unit.check ≠ sequenceOf (s.lane l).unit.trailer) (hk : (s.lane l).entry.keepDamaged = false) :
    s.checkTrailer l = (s.bumpLane l .recordsDamaged).abort l d := by
  simp [State.checkTrailer, hd, hc, hk]

/-! ### COMPLETING, or complete at once (R34, R36) -/

/-- The descriptor of a record whose trailer has been taken (R34, R35). -/
def Desc.ended (x : Desc) (damaged : Bool) : Desc := { x with state := .completing, damaged := x.damaged || damaged }

theorem State.toCompleting_eq (s : State) (l : LaneId) (d : DescId) (damaged : Bool) : s.toCompleting l d damaged
    = if (s.lane l).unit.list.head? = some d then (s.setDesc d ((s.desc d).ended damaged)).tryComplete l
      else s.setDesc d ((s.desc d).ended damaged) := by
  simp only [State.toCompleting, State.atHead, beq_iff_eq, Desc.ended]

/-- A record behind others, or with a write outstanding, waits (R34). -/
theorem State.toCompleting_waits (damaged : Bool) (hw : (s.lane l).unit.list.head? ≠ some d
      ∨ ∃ i : Fin 4, (s.lane l).unit.staging[i.val].busyFor d = true) :
    s.toCompleting l d damaged = s.setDesc d ((s.desc d).ended damaged) := by
  rw [State.toCompleting_eq]
  split
  next hh =>
    obtain ⟨i, hi⟩ := hw.resolve_left (not_not_intro hh)
    rw [State.tryComplete_eq (s.setDesc d _) l d hh, if_neg]
    rintro ⟨-, idle⟩
    exact Bool.false_ne_true ((idle i).symm.trans hi)
  next => rfl

/-- The head record with no write outstanding completes at once (R36). -/
theorem State.toCompleting_completes (damaged : Bool) (hh : (s.lane l).unit.list.head? = some d)
    (idle : ∀ i : Fin 4, (s.lane l).unit.staging[i.val].busyFor d = false) : s.toCompleting l d damaged
      = ((s.setDesc d ((s.desc d).ended damaged)).completedRaw l d).settlePurge := by
  rw [State.toCompleting_eq, if_pos hh, State.tryComplete_eq (s.setDesc d _) l d hh,
    if_pos ⟨by rw [State.desc_setDesc_self]; rfl, idle⟩, State.complete_eq]

end Check

/-! ### What a completion leaves of the lane, and all that it changes (R36) -/

section Completed

variable (s : State) (l : LaneId) (d : DescId)

theorem State.lane_completedRaw : (s.completedRaw l d).lane l
    = { s.lane l with unit := { (s.lane l).unit with list := (s.lane l).unit.list.tail } } := by
  simp [State.completedRaw]

/-- Sequence tracking changes the record's descriptor, its route entry and its stream's counters, and nothing else (R51). -/
theorem State.track_only : s.track d = { s with
    routes := (s.track d).routes, pool := { s.pool with descs := (s.track d).pool.descs }
    counts := { s.counts with streams := (s.track d).counts.streams } } := by
  unfold State.track
  dsimp only
  (repeat' split) <;> rfl

theorem State.completedRaw_only : s.completedRaw l d = { s with
    lanes := (s.completedRaw l d).lanes, routes := (s.completedRaw l d).routes, streams := (s.completedRaw l d).streams
    pool := { s.pool with descs := (s.completedRaw l d).pool.descs }, counts := (s.completedRaw l d).counts } := by
  unfold State.completedRaw
  generalize hx : (s.setUnit l { (s.lane l).unit with list := (s.lane l).unit.list.tail }).number d = x
  have only := x.track_only d
  rw [only, ← hx]
  rfl

end Completed


/-- The check register against the two trailer bytes, as the statements write them (R34). -/
theorem exec_trailerCheck_matches {s : State} {l : LaneId} {b : Bool} {y x : Byte} {d : DescId}
    (he : s.endsByte l b .trailer x) (hn : (s.lane l).rx.byteCount = 1) (hy : (s.lane l).unit.trailer = [y])
    (hd : s.receiving l = some d) (hc : (s.lane l).unit.check = y ++ x) :
    exec (.trailerCheck l b) s = .next ((s.trailed l y x).toCompleting l d false) := by
  rw [exec_trailerCheck he hn hy, State.checkTrailer_matches (d := d) (by rw [State.receiving_trailed, hd])]
  simpa [sequenceOf, wordOf] using hc

/-- Settles O15: the record waits (`State.toCompleting_waits`) or completes (`State.completed_completedRaw`). -/
theorem trailerMatches : Obligations.TrailerMatches := by
  refine ⟨fun s l b y x d he hn hy hd hc hw => ?_, fun s l b y x d he hn hy hd hc hh idle => ?_⟩
  · refine ⟨_, by rw [exec_trailerCheck_matches he hn hy hd hc, State.toCompleting_waits (d := d) false (by simpa using hw)],
      by simp, by simp, by simp [Desc.ended], fun e hne => by simp [hne], by simp, fun m hm => by simp [hm], rfl⟩
  · refine ⟨_, by rw [exec_trailerCheck_matches he hn hy hd hc,
      State.toCompleting_completes (d := d) false (by simpa using hh) (by simpa using idle)], ?_, ?_, ?_, ?_⟩
    · simp [State.lane_completedRaw]
    · simp [State.lane_completedRaw]
    · exact State.completed_completedRaw (state := .completing) (by simp [Desc.ended]) (fun e hne => by simp [hne]) (he := by simp)
        (hm := fun m hm => by simp [hm])
    · exact (State.completedRaw_only _ l d).trans rfl

theorem exec_trailerCheck_damaged {s : State} {l : LaneId} {b : Bool} {y x : Byte} {d : DescId}
    (he : s.endsByte l b .trailer x) (hn : (s.lane l).rx.byteCount = 1) (hy : (s.lane l).unit.trailer = [y])
    (hd : s.receiving l = some d) (hc : (s.lane l).unit.check ≠ y ++ x) :
    ((s.lane l).entry.keepDamaged = true → exec (.trailerCheck l b) s
        = .next (((s.trailed l y x).bumpLane l .recordsDamaged).toCompleting l d true))
      ∧ ((s.lane l).entry.keepDamaged = false → exec (.trailerCheck l b) s
        = .next (((s.trailed l y x).bumpLane l .recordsDamaged).abort l d)) := by
  have receiving : (s.trailed l y x).receiving l = some d := by rw [State.receiving_trailed, hd]
  have differs : ((s.trailed l y x).lane l).unit.check ≠ sequenceOf ((s.trailed l y x).lane l).unit.trailer := by
    simpa [sequenceOf, wordOf] using hc
  rw [exec_trailerCheck he hn hy]
  exact ⟨fun hk => by rw [State.checkTrailer_kept receiving differs (by simpa using hk)],
    fun hk => by rw [State.checkTrailer_aborted receiving differs (by simpa using hk)]⟩

/-- A Damaged record that completes is neither checked nor tracked (R51). -/
theorem State.completed.untracked {s t : State} {l : LaneId} {d : DescId} {x : Desc} (h : s.completed t l d x)
    (hx : x.damaged = true) : t.routes = s.routes
      ∧ ∀ k, k ≠ .recordsQueued → t.streamCount x.stream k = s.streamCount x.stream k := by
  obtain ⟨_, _, routes, _, _, _, _, _, counts, _⟩ := h
  have untracked : (s.setDesc d x).track d = s.setDesc d x := State.track_of_untracked _ _ (.inl (by simpa using hx))
  rw [untracked] at routes counts
  exact ⟨routes, counts⟩

/-- Settles O16: the record is aborted, waits, or completes untracked. -/
theorem trailerDamaged : Obligations.TrailerDamaged := by
  intro s l b y x d rx he hn hy hd hc hrx
  subst hrx
  obtain ⟨kept, aborted⟩ := exec_trailerCheck_damaged he hn hy hd hc
  refine ⟨fun hk => ⟨_, aborted hk, by simp, ?_, by simp, ⟨fun m k hmk => ?_, by simp, by simp⟩, by simp, fun e hne => ?_,
    by simp, fun m hm => by simp [hm], rfl⟩, fun hk => ⟨fun hw => ?_, fun hh idle => ?_⟩⟩
  · exact (State.aborted_abort ((s.trailed l y x).bumpLane l .recordsDamaged) l d).congr
  · simp only [List.mem_cons, Prod.mk.injEq, List.not_mem_nil, or_false, not_and_or] at hmk
    simp [hmk]
  · simp only [List.mem_singleton] at hne
    simp [hne]
  · refine ⟨_, by rw [kept hk, State.toCompleting_waits (d := d) true (by simpa using hw)],
      by simp, by simp, by simp [Desc.ended], fun e hne => by simp [hne], by simp, fun m hm => by simp [hm], rfl⟩
  · generalize hv : ((s.trailed l y x).bumpLane l .recordsDamaged).setDesc d ((s.desc d).ended true) = v
    have completed : (s.bumpLane l .recordsDamaged).completed (v.completedRaw l d) l d { s.desc d with damaged := true } := by
      subst hv
      exact State.completed_completedRaw (state := .completing) (by simp [Desc.ended]) (fun e hne => by simp [hne])
        (hc := rfl) (he := by simp) (hm := fun m hm => by simp [hm])
    have exec_eq : exec (.trailerCheck l b) s = .next (v.completedRaw l d).settlePurge := by
      rw [kept hk, State.toCompleting_completes (d := d) true (by simpa using hh) (by simpa using idle), ← hv]
      rfl
    obtain ⟨routes, counts⟩ := completed.untracked rfl
    have only := v.completedRaw_only l d
    refine ⟨_, exec_eq, ?_, ?_, completed, routes, counts _ (by simp), counts _ (by simp), ?_⟩
    · simp [State.lane_completedRaw, ← hv]
    · simp [State.lane_completedRaw, ← hv]
    · generalize v.completedRaw l d = t at only routes
      rw [only, routes, ← hv]
      rfl

end Sys2Proof.Machine
end

section
/-! CLEAR's first step (R157): what it does to the state in which the command has been taken. -/

namespace Sys2Proof.Machine

/-- The records of a lane among those of every list are its own. -/
theorem State.recordsOn_listed (s : State) (l : LaneId) : recordsOn l (s.listed (List.finRange 8)) = (s.lane l).unit.list := by
  have own : ∀ m : LaneId, recordsOn l ((s.lane m).unit.list.map fun d => (m, d)) = if m = l then (s.lane m).unit.list else [] :=
    fun m => by
      by_cases h : m = l <;> simp [recordsOn, List.filter_map, List.map_map, Function.comp_def, h]
  have split : ∀ ls : List LaneId, ls.Nodup →
      recordsOn l (s.listed ls) = if l ∈ ls then (s.lane l).unit.list else [] := fun ls => by
    induction ls with
    | nil => exact fun _ => rfl
    | cons m ls ih =>
      intro hn
      obtain ⟨hm, hn⟩ := List.nodup_cons.mp hn
      rw [show s.listed (m :: ls) = ((s.lane m).unit.list.map fun d => (m, d)) ++ s.listed ls from List.flatMap_cons,
        recordsOn_append, own, ih hn]
      by_cases h : m = l
      · subst h; simp [hm]
      · simp [h, Ne.symm h]
  rw [split _ (List.nodup_finRange 8), if_pos (List.mem_finRange l)]

/-- Expected Known is 0 in every route entry, whose other fields stay (R58). -/
theorem State.route_restartWatches (s : State) (i : RouteId) :
    s.restartWatches.route i = { s.route i with expectedKnown := false } := by
  simp [State.restartWatches, State.route]

theorem exec_clear_accepted {s : State} (ha : s.takesAccess) (hi : s.cmd.phase = .idle) (hp : s.pool.ready = true) :
    exec .clear s = .next (s.takeCommand clearCode (.clearing .second)).clearFirst := by
  have accepted : s.writeCmd clearCode = (s.takeCommand clearCode (.clearing .second)).clearFirst := by
    have passes : s.failedTest clearCode s.cmd.argReg = none := by
      rw [State.failedTest, show commandOf clearCode = some .clear from rfl]
      simp [argLegal, hp]
    rw [State.writeCmd, if_neg (by simp [State.busy, hi]), State.acceptCommand, passes]
    rfl
  exact (hostAccess_of_takes ha).trans (congrArg _ accepted)

/-- Settles O37: the cuts of every list (`State.Cuts.clearLanes`) from the state in which CLEAR has been taken. -/
theorem clearFirstStep : Obligations.ClearFirstStep := by
  intro s lists ha hi hp hl apart
  subst hl
  generalize ht : (List.finRange 8).foldl State.clearLane (s.takeCommand clearCode (.clearing .second)) = t
  have cuts : (s.takeCommand clearCode (.clearing .second)).Cuts (s.listed (List.finRange 8)) t :=
    ht ▸ State.Cuts.clearLanes _ _ (List.nodup_finRange 8) apart
  obtain ⟨lanes, -⟩ := ht ▸ State.clearLanes (List.finRange 8) (s.takeCommand clearCode (.clearing .second))
    (List.nodup_finRange 8)
  have unit : ∀ l, (s.lane l).unit.abortedTo (t.lane l).unit (s.lane l).unit.list := fun l => by
    have := cuts.unit l
    rwa [s.recordsOn_listed] at this
  have count : ∀ l, t.laneCount l .recordsCut = bump^[(s.lane l).unit.list.length] (s.laneCount l .recordsCut) := fun l => by
    have := cuts.count l
    rwa [s.recordsOn_listed] at this
  have rx : ∀ l, (t.lane l).rx = if (s.lane l).entry.enable then (s.lane l).rx.hunt else (s.lane l).rx :=
    fun l => (lanes l (List.mem_finRange l)).2
  refine ⟨t.restartWatches, ?_, ?_, fun l => (lanes l (List.mem_finRange l)).1, cuts.entry, fun l he => ?_, fun l he => ?_, unit,
    cuts.cells, cuts.free, cuts.descs, cuts.streams, fun i => ?_, count, cuts.counts, cuts.drop, cuts.latches, ?_⟩
  · rw [exec_clear_accepted ha hi hp, State.clearFirst, ht]
  · exact congrArg State.cmd cuts.frame
  · exact (rx l).trans (if_pos he)
  · exact (rx l).trans (if_neg (by simp [he]))
  · rw [State.route_restartWatches]
    exact congrArg (fun r => { State.route r i with expectedKnown := false }) cuts.frame
  · have cmd : t.cmd = _ := congrArg State.cmd cuts.frame
    rw [show t.restartWatches.cmd = (s.takeCommand clearCode (.clearing .second)).cmd from cmd]
    exact congrArg (fun x : State => { x with routes := t.restartWatches.routes }) cuts.frame

end Sys2Proof.Machine
end

section
/-! TABLE_WRITE of a lane entry (R17, R7, R16): the image's verdict, the three ways a commit touches the receiver, and the cuts
of a lane that is disabled. -/

namespace Sys2Proof.Machine

section TableWrite

variable {s : State} {l : LaneId} {e : LaneEntry}

theorem exec_tableWrite_lane (hr : s.running .tableWrite) (ha : argTable s.cmd.arg = some (.lane l)) :
    exec .tableWrite s = .next (s.doTableWrite (.lane l)) := by
  have work : s.onTable s.doTableWrite = s.doTableWrite (.lane l) := by rw [State.onTable, ha]
  exact (act_of_enabled hr.1 (State.awaits_of_running hr)).trans (congrArg _ work)

theorem State.doTableWrite_lane_refused (h : laneOfImage s.cmd.taken = none) :
    s.doTableWrite (.lane l) = s.endCommand .refused := by
  rw [State.doTableWrite, State.commit, State.commitLane, h]; rfl

theorem State.doTableWrite_lane_legal (h : laneOfImage s.cmd.taken = some e) :
    s.doTableWrite (.lane l) = (s.commitLaneEntry l e).endCommand .ok := by
  rw [State.doTableWrite, State.commit, State.commitLane, h]; rfl

/-! ### The commit by the lane's state and its new Enable (R17) -/

theorem State.setEntry_setRx (s : State) (l : LaneId) (rx : Receiver) (e : LaneEntry) :
    (s.setRx l rx).setEntry l e = s.setLane l { s.lane l with entry := e, rx := rx } := by
  simp [State.setEntry, State.setRx, State.setLane, State.lane]

/-- A lane with its receiver and its entry replaced. -/
theorem State.lane_setEntry_setRx (s : State) (l m : LaneId) (rx : Receiver) (e : LaneEntry) :
    ((s.setRx l rx).setEntry l e).lane m = if m = l then { s.lane l with entry := e, rx := rx } else s.lane m := by
  rw [State.setEntry_setRx, State.lane_setLane]

theorem State.commitLaneEntry_enabled (hd : (s.lane l).rx.delin = .disabled) (he : e.enable = true) :
    s.commitLaneEntry l e = s.setLane l { s.lane l with entry := e, rx := (s.lane l).rx.enabled s.now } := by
  rw [State.commitLaneEntry, hd, he]
  exact State.setEntry_setRx s l _ e

theorem State.commitLaneEntry_kept (h : (s.lane l).rx.delin = .disabled ∧ e.enable = false
      ∨ (s.lane l).rx.delin ≠ .disabled ∧ e.enable = true) : s.commitLaneEntry l e = s.setEntry l e := by
  rw [State.commitLaneEntry]
  split
  next hd he => simp [hd, he] at h
  next => rfl
  next => rfl
  next he hd =>
    obtain ⟨h, -⟩ | ⟨-, h⟩ := h
    · exact (hd h).elim
    · simp [he] at h

theorem State.commitLaneEntry_disabled (hd : (s.lane l).rx.delin ≠ .disabled) (he : e.enable = false) :
    s.commitLaneEntry l e = ((s.cutAll l).setRx l (s.lane l).rx.disabled).setEntry l e := by
  have rx : ((s.cutAll l).lane l).rx = (s.lane l).rx := by simp
  rw [State.commitLaneEntry]
  split
  next h _ => exact absurd h hd
  next h _ => exact absurd h hd
  next h _ => simp [he] at h
  next => dsimp only; rw [rx]

end TableWrite

theorem recordsOn_map (l : LaneId) (ds : List DescId) : recordsOn l (ds.map fun d => (l, d)) = ds := by
  simp [recordsOn, List.filter_map, Function.comp_def]

/-- Settles O43, by the image's legality and then the branches of the commit. -/
theorem tableWriteLane : Obligations.TableWriteLane := by
  intro s l done hr ha hdone
  have ends : ∀ x : State, x.cmd = s.cmd → x.events = s.events → ∀ r, x.endCommand r = done x r := fun x hc he r => by
    rw [State.endCommand_eq, hdone, hc, he]
  refine ⟨fun hz => ?_, fun e hz h1 h2 h3 h4 h5 h6 => ?_⟩
  · rw [exec_tableWrite_lane hr ha, State.doTableWrite_lane_refused (laneOfImage_refused hz), ends s rfl rfl]
  have commit : exec .tableWrite s = .next ((s.commitLaneEntry l e).endCommand .ok) := by
    rw [exec_tableWrite_lane hr ha, State.doTableWrite_lane_legal (laneOfImage_legal hz h1 h2 h3 h4 h5 h6)]
  refine ⟨fun hd he => ?_, fun h => ?_, fun hd he apart => ?_⟩
  · rw [commit, State.commitLaneEntry_enabled hd he]
    exact congrArg _ (ends (s.setLane l _) rfl rfl .ok)
  · rw [commit, State.commitLaneEntry_kept h]
    exact congrArg _ (ends (s.setEntry l e) rfl rfl .ok)
  · rw [State.commitLaneEntry_disabled hd he] at commit
    have cuts := State.Cuts.cutAll s l apart
    obtain ⟨counts, latches⟩ := State.cutAll_counts s l [(l, .recordsCut)] (by simp)
    have empty := State.cutAll_list s l
    have others : ∀ m, m ≠ l → (s.cutAll l).lane m = s.lane m := fun m hm => by simp [hm]
    generalize s.cutAll l = t at cuts counts latches empty others commit
    obtain ⟨-, -, unit, cells, free, descs, streams, count, -, drop, -, frame⟩ := cuts
    have unit := unit l
    have count := count l
    simp only [recordsOn_map, List.flatMap_map, List.filter_map, List.map_map, Function.comp_def, List.map_id', List.isEmpty_map]
      at unit cells free descs streams count drop
    have lane (m) := t.lane_setEntry_setRx l m (s.lane l).rx.disabled e
    have self := (lane l).trans (if_pos rfl)
    have lane_unit : (((t.setRx l (s.lane l).rx.disabled).setEntry l e).lane l).unit = (t.lane l).unit := by rw [self]
    refine ⟨_, commit, ⟨?_, State.latched_latch_self _ _⟩, congrArg Lane.entry self, congrArg Lane.rx self,
      (congrArg Reception.list lane_unit).trans empty, ?_, cells.congr rfl rfl rfl rfl, free, descs, streams,
      fun m hm => (lane m).trans ((if_neg hm).trans (others m hm)), count, counts, ?_, fun ev hev => ?_, ?_⟩
    · exact congrArg (fun x : State => { x.cmd with phase := .idle, result := .ok }) frame
    · exact lane_unit ▸ unit
    · exact (State.latched_endCommand_ne _ _ (by decide)).trans drop
    · simp only [List.mem_cons, List.not_mem_nil, or_false, not_or] at hev
      exact (State.latched_endCommand_ne _ _ hev.2).trans (latches ev (by simpa using hev.1))
    · have rest (lanes cmd latches) := congrArg
        (fun x : State => { x with lanes := lanes, cmd := cmd, events := { x.events with latches := latches } }) frame
      exact rest _ _ _

end Sys2Proof.Machine
end

section
/-! CELL_WRITE_COMPLETE (R32, R38, R59, R134): the bytes in the cell, the port and the staging cell, and what follows for a
retiring cell or for the record at the head of the list. -/

namespace Sys2Proof.Machine

/-! ### The bytes (R59) -/

theorem State.byteAt_storeCell_in (s : State) (k : CellId) (bs : List Byte) {j : Nat} (hj : j < bs.length) :
    (s.storeCell k bs).byteAt (k.val * 64 + j) = bs.getD j 0 := by
  have look : Tab.look (s.storeCell k bs).memory (k.val * 64 + j) = some bs[j] := by
    rw [State.storeCell, Memory.look_write, if_pos (by simp only [cellBase, Config.cellBytes]; omega)]
    simp [cellBase, Config.cellBytes, hj]
  rw [State.byteAt, look]
  simp [hj]

theorem State.byteAt_storeCell_out (s : State) (k : CellId) (bs : List Byte) {a : Nat}
    (ha : a < k.val * 64 ∨ k.val * 64 + bs.length ≤ a) : (s.storeCell k bs).byteAt a = s.byteAt a := by
  have look : Tab.look (s.storeCell k bs).memory a = Tab.look s.memory a := by
    rw [State.storeCell, Memory.look_write, if_neg (by simp only [cellBase, Config.cellBytes]; omega)]
  rw [State.byteAt, look]
  rfl

/-- A byte is a matter of the memory and of the free values alone. -/
theorem State.byteAt_congr {s t : State} (hm : t.memory = s.memory) (he : t.epoch = s.epoch) (a : Nat) :
    t.byteAt a = s.byteAt a := by
  unfold State.byteAt; rw [hm, he]

theorem Staged.image_of_full {c : Staged} (h : c.bytes.length = 64) : c.image = c.bytes := by
  simp [Staged.image, padCell, Config.cellBytes, h]

/-! ### The state the write leaves before a cell returns or a record completes -/

/-- The bytes stored, the port free, the staging cell FREE and no cell retiring (R32). -/
def State.written (s : State) (l : LaneId) (i : Fin 4) (c : Staged) : State :=
  (s.freePort.storeCell c.cell c.image).setUnit l { (s.lane l).unit with
    staging := (s.lane l).unit.staging.set i.val .free, retiring := none }

section Written

variable (s : State) (l : LaneId) (i : Fin 4) (c : Staged)

@[simp] theorem State.lane_written_self : (s.written l i c).lane l = { s.lane l with
    unit := { (s.lane l).unit with staging := (s.lane l).unit.staging.set i.val .free, retiring := none } } := by
  simp [State.written]

theorem State.port_written : (s.written l i c).port = s.port.freed := rfl

theorem State.byteAt_written_in (h : c.bytes.length = 64) {j : Nat} (hj : j < 64) :
    (s.written l i c).byteAt (c.cell.val * 64 + j) = c.bytes.getD j 0 := by
  have stored := s.freePort.byteAt_storeCell_in c.cell c.bytes (h ▸ hj)
  rw [← stored, ← congrArg (s.freePort.storeCell c.cell) (Staged.image_of_full h)]
  rfl

theorem State.byteAt_written_out (h : c.bytes.length = 64) {a : Nat}
    (ha : a < c.cell.val * 64 ∨ c.cell.val * 64 + 64 ≤ a) : (s.written l i c).byteAt a = s.byteAt a :=
  s.freePort.byteAt_storeCell_out c.cell c.image (by rwa [Staged.image_of_full h, h])

end Written

theorem exec_cellWriteComplete {s : State} {l : LaneId} (hr : s.host.resetHigh = true) (ho : s.port.op = some (.write l))
    (he : s.opMayEnd) : exec .cellWriteComplete s = .next (s.finishWrite l) := by
  have lane : s.writingLane = some l := by rw [State.writingLane, ho]
  have ends : s.portEnds = true :=
    Bool.and_eq_true_iff.mpr ⟨decide_eq_true he.2, decide_eq_true he.1⟩
  show execCellWriteComplete s = _
  rw [execCellWriteComplete, lane]
  exact act_of_enabled hr ends

/-! ### The record at the head of the list (R32, R36) -/

/-- The head record goes on waiting while it is not COMPLETING or has a write outstanding. -/
theorem State.tryComplete_of_waits {s : State} {l : LaneId} (h : ∀ d, (s.lane l).unit.list.head? = some d →
      (s.desc d).state ≠ .completing ∨ ∃ i : Fin 4, (s.lane l).unit.staging[i.val].busyFor d = true) :
    s.tryComplete l = s := by
  obtain same | ⟨d, -, head⟩ := s.tryComplete_cases l
  · exact same
  · rw [State.tryComplete_eq s l d head, if_neg]
    rintro ⟨completing, idle⟩
    obtain waits | ⟨i, busy⟩ := h d head
    · exact waits completing
    · exact Bool.false_ne_true ((idle i).symm.trans busy)

/-- A completion takes the record off the list and leaves the rest of the reception unit. -/
theorem State.unit_tryComplete (s : State) (l : LaneId) : ((s.tryComplete l).lane l).unit
    = { (s.lane l).unit with list := ((s.tryComplete l).lane l).unit.list } := by
  obtain same | ⟨d, completed, -⟩ := s.tryComplete_cases l
  · rw [same]
  · rw [completed, State.complete_eq]
    simp [State.lane_completedRaw]

/-- What a completed write does, whatever follows it (R32, R134). -/
theorem State.finishWrite_written {s : State} {l : LaneId} {i : Fin 4} {c : Staged}
    (hw : (s.lane l).unit.staging[i.val] = .writing c)
    (hn : ∀ j : Fin 4, j ≠ i → (s.lane l).unit.staging[j.val].isWriting = false) :
    ((s.finishWrite l).lane l).unit.staging = (s.lane l).unit.staging.set i.val .free
      ∧ ((s.finishWrite l).lane l).unit.retiring = none ∧ (s.finishWrite l).port = s.port.freed
      ∧ ∀ a, (s.finishWrite l).byteAt a = (s.written l i c).byteAt a := by
  obtain ⟨returns, completes⟩ := s.finishWrite_eq l i c hw hn (s.written l i c) rfl
  cases hr : (s.lane l).unit.retiring with
  | some k =>
    rw [returns k hr]
    exact ⟨by simp, by simp, rfl, fun a => rfl⟩
  | none =>
    rw [completes hr, State.unit_tryComplete]
    exact ⟨by simp, by simp, by simp [State.port_written], fun a => State.byteAt_congr (by simp) (by simp) a⟩

/-- Settles O19: what every write does (`State.finishWrite_written`), then the retiring cell, then the waiting record. -/
theorem cellWriteStores : Obligations.CellWriteStores := by
  intro s l i c hr ho he hw hn hlen
  obtain ⟨staging, retiring, port, bytes⟩ := State.finishWrite_written hw hn
  obtain ⟨returns, completes⟩ := s.finishWrite_eq l i c hw hn (s.written l i c) rfl
  refine ⟨s.finishWrite l, exec_cellWriteComplete hr ho he,
    fun j hj => (bytes _).trans (s.byteAt_written_in l i c hlen hj), fun a ha => (bytes a).trans (s.byteAt_written_out l i c hlen ha),
    staging, retiring, by simp, by simp, fun m hm => by simp [hm], port, fun k hk => ?_, fun hk waits => ?_⟩
  · rw [returns k hk]
    exact ⟨(State.cellsReturned_returnCells (s.written l i c) [k]).congr rfl rfl rfl rfl, by simp, rfl⟩
  · have same : (s.written l i c).tryComplete l = s.written l i c := State.tryComplete_of_waits fun d hd => by
      refine (waits d (by simpa using hd)).imp id ?_
      rintro ⟨j, hj, busy⟩
      exact ⟨j, by simpa [staging_set_get, hj] using busy⟩
    rw [completes hk, same]
    exact ⟨by simp [hk], rfl⟩

end Sys2Proof.Machine
end

section
/-! Classification (R44 to R46): the matching route entry of lowest index, or else the lane's defaults. -/

namespace Sys2Proof.Machine

section Classify

variable {s : State} {l : LaneId} {tag : Byte}

theorem State.decidingRoute_of_lowest {i : RouteId} (hi : (s.route i).matchesHeader l tag = true)
    (lowest : ∀ j, j < i → (s.route j).matchesHeader l tag = false) : s.decidingRoute l tag = some i :=
  finRange_find_first hi lowest

theorem State.decidingRoute_eq_none (h : ∀ j, (s.route j).matchesHeader l tag = false) : s.decidingRoute l tag = none :=
  List.find?_eq_none.mpr fun j _ => by simp [h j]

/-- A deciding entry gives its action, and a Store its stream with the entry's index and Edition (R45). -/
theorem State.classify_of_decidingRoute {i : RouteId} (h : s.decidingRoute l tag = some i) : s.classify l tag
    = if (s.route i).action = .store then some ((s.route i).stream, some (i, (s.route i).edition)) else none := by
  rw [State.classify, h]
  dsimp only
  cases (s.route i).action <;> rfl

/-- Without a deciding entry the lane's defaults decide (R46). -/
theorem State.classify_of_no_route (h : s.decidingRoute l tag = none) : s.classify l tag
    = if (s.lane l).entry.defaultAction = .store then some ((s.lane l).entry.defaultStream, none) else none := by
  rw [State.classify, h]
  dsimp only
  cases (s.lane l).entry.defaultAction <;> rfl

end Classify

/-- Settles O10: the statement's condition on an entry is `RouteEntry.matchesHeader_iff`. -/
theorem classification : Obligations.Classification := by
  intro s l tag
  simp only [← RouteEntry.matchesHeader_iff, Bool.not_eq_true]
  exact ⟨fun i hi lowest => State.classify_of_decidingRoute (State.decidingRoute_of_lowest hi lowest),
    fun h => State.classify_of_no_route (State.decidingRoute_eq_none h)⟩

end Sys2Proof.Machine
end

section
/-! Sequence tracking (R51 to R54, Table 3-4). -/

namespace Sys2Proof.Machine

/-- The outcomes of tracking a record that is checked: Unchecked, or one of the four of Table 3-4. -/
theorem State.track_of_tracked {s : State} {d : DescId} {i : RouteId} {edition : Byte} {q : Word}
    (undamaged : (s.desc d).damaged = false) (decided : (s.desc d).route = some (i, edition))
    (check : (s.route i).seqCheck = true) (sequence : (s.desc d).sequence = some q) : s.track d
      = if edition = (s.route i).edition then
          if (s.route i).expectedKnown = false ∨ q - (s.route i).expected = 0 then
            s.setRoute i { s.route i with expected := q + 1, expectedKnown := true }
          else if (q - (s.route i).expected).toNat ≤ 32767 then
            ((s.setDesc d { s.desc d with gapBefore := true, gapSize := some (q - (s.route i).expected) }).setRoute i
              { s.route i with expected := q + 1 }).bumpStream (s.desc d).stream .gapEvents
          else (s.setDesc d { s.desc d with outOfOrder := true }).bumpStream (s.desc d).stream .sequenceErrors
        else s.setDesc d { s.desc d with unchecked := true } := by
  simp [State.track, undamaged, decided, check, sequence]

/-- Settles O17, outcome by outcome of `State.track_of_tracked`. -/
theorem sequenceCheck : Obligations.SequenceCheck := by
  refine ⟨fun s d => s.track_of_untracked d, fun s d i edition x e q gap hx undamaged decided he check sequence hgap => ?_⟩
  subst hx he hgap
  rw [State.track_of_tracked undamaged decided check sequence]
  refine ⟨fun differ => if_neg differ, fun same unknown => ?_, fun same known zero => ?_, fun same known low high => ?_,
    fun same known low => ?_⟩
  · rw [if_pos same, if_pos (.inl unknown)]
  · rw [if_pos same, if_pos (.inr zero), known]
  · have later : q - (s.route i).expected ≠ 0 := fun zero => by simp [zero] at low
    rw [if_pos same, if_neg (not_or.mpr ⟨by simp [known], later⟩), if_pos high]
  · have earlier : q - (s.route i).expected ≠ 0 := fun zero => by simp [zero] at low
    rw [if_pos same, if_neg (not_or.mpr ⟨by simp [known], earlier⟩), if_neg (by omega)]

end Sys2Proof.Machine
end

section
/-! CELL_WRITE_COMPLETE of the last cell of the COMPLETING record at the head of its list (R32, R36). -/

namespace Sys2Proof.Machine

@[simp] theorem State.lane_written_ne (s : State) {l m : LaneId} (i : Fin 4) (c : Staged) (hm : m ≠ l) :
    (s.written l i c).lane m = s.lane m := by
  simp [State.written, hm]

/-- The end of the last write of the COMPLETING head record completes it. -/
theorem State.finishWrite_completes {s : State} {l : LaneId} {i : Fin 4} {c : Staged} {d : DescId}
    (hw : (s.lane l).unit.staging[i.val] = .writing c)
    (others : ∀ j : Fin 4, j ≠ i → (s.lane l).unit.staging[j.val].isWriting = false
      ∧ (s.lane l).unit.staging[j.val].busyFor d = false)
    (hr : (s.lane l).unit.retiring = none) (head : (s.lane l).unit.list.head? = some d)
    (completing : (s.desc d).state = .completing) :
    s.finishWrite l = ((s.written l i c).completedRaw l d).settlePurge := by
  obtain ⟨-, completes⟩ := s.finishWrite_eq l i c hw (fun j hj => (others j hj).1) (s.written l i c) rfl
  have idle : ∀ j : Fin 4, ((s.written l i c).lane l).unit.staging[j.val].busyFor d = false := fun j => by
    rw [State.lane_written_self, staging_set_get]
    split
    next => rfl
    next hj => exact (others j hj).2
  rw [completes hr, State.tryComplete_eq _ l d (by simpa using head), if_pos ⟨completing, idle⟩, State.complete_eq]

/-- Settles O20: the write leaves `State.written`, in which the record completes (`State.completed_completedRaw`). -/
theorem lastWriteCompletesTheRecord : Obligations.LastWriteCompletesTheRecord := by
  intro s l i c d hreset hop hend hw others hr head completing
  refine ⟨(s.written l i c).completedRaw l d, ?_, ?_, ?_, ?_, ?_⟩
  · rw [exec_cellWriteComplete hreset hop hend, State.finishWrite_completes hw others hr head completing]
  · exact State.completed_completedRaw (state := (s.desc d).state) rfl (fun _ _ => rfl) (hr := rfl) (hs := rfl) (hc := rfl)
  · simp [State.lane_completedRaw, hr]
  · simp [State.lane_completedRaw]
  · have only := (s.written l i c).completedRaw_only l d
    generalize (s.written l i c).completedRaw l d = t at only
    rw [only]
    rfl

end Sys2Proof.Machine
end

section
/-! TABLE_WRITE of a route or a stream entry (R153): which images are legal (R48, R88), and what a legal one commits (R49,
R89). -/

namespace Sys2Proof.Machine

section TableWrite

variable {s : State}

theorem exec_tableWrite {entry : TableEntry} (hr : s.running .tableWrite) (ha : argTable s.cmd.arg = some entry) :
    exec .tableWrite s = .next (s.doTableWrite entry) := by
  have work : s.onTable s.doTableWrite = s.doTableWrite entry := by rw [State.onTable, ha]
  exact (act_of_enabled hr.1 (State.awaits_of_running hr)).trans (congrArg _ work)

theorem State.doTableWrite_refused {entry : TableEntry} (h : s.commit entry = none) :
    s.doTableWrite entry = s.endCommand .refused := by
  rw [State.doTableWrite, h]

theorem State.doTableWrite_committed {entry : TableEntry} {t : State} (h : s.commit entry = some t) :
    s.doTableWrite entry = t.endCommand .ok := by
  rw [State.doTableWrite, h]

/-! ### Route entries (R48, R49) -/

theorem State.commit_route (i : RouteId) :
    s.commit (.route i) = (routeOfImage s.cmd.taken (s.route i).edition).map (s.setRoute i) := rfl

/-! ### Stream entries (R88, R89) -/

/-- The stream entry an image holds (Table 11-6). -/
def streamFields (img : Vector Word 8) : StreamEntry where
  enable := img[0].getLsbD 15
  quota := img[1].toNat
  policy := if img[0].getLsbD 14 then .evictOldest else .refuseNewest
  watermark := img[2].toNat
  ageLimit := img[3].toNat

theorem streamOfImage_eq (img : Vector Word 8) : streamOfImage img
    = if img[1].toNat ≤ 16384 ∧ img[2].toNat ≤ 16384 then some (streamFields img) else none := rfl

/-- Which stream images are refused: a Quota or Watermark above 16384, or a Quota below the charge (R88). -/
theorem State.commit_stream_refused {u : StreamId} (h : 16384 < s.cmd.taken[1].toNat ∨ 16384 < s.cmd.taken[2].toNat
    ∨ s.cmd.taken[1].toNat < (s.stream u).charge) : s.commit (.stream u) = none := by
  rw [State.commit, State.commitStream, streamOfImage_eq]
  by_cases codes : s.cmd.taken[1].toNat ≤ 16384 ∧ s.cmd.taken[2].toNat ≤ 16384
  · have below : (streamFields s.cmd.taken).quota < (s.stream u).charge := by
      simp only [streamFields]; omega
    rw [if_pos codes]
    exact if_pos below
  · rw [if_neg codes]

/-- Every other stream image replaces the stream's entry (R89). -/
theorem State.commit_stream_legal {u : StreamId} (quota : s.cmd.taken[1].toNat ≤ 16384)
    (watermark : s.cmd.taken[2].toNat ≤ 16384) (charge : (s.stream u).charge ≤ s.cmd.taken[1].toNat) :
    s.commit (.stream u) = some (s.setStream u { s.stream u with entry := streamFields s.cmd.taken }) := by
  rw [State.commit, State.commitStream, streamOfImage_eq, if_pos ⟨quota, watermark⟩]
  exact if_neg charge.not_gt

end TableWrite

/-- Settles O42, by the legality of the image (`routeOfImage_refused`, `routeOfImage_legal`, `State.commit_stream_refused`,
`State.commit_stream_legal`). -/
theorem tableWriteRouteAndStream : Obligations.TableWriteRouteAndStream := by
  intro s done hr hdone
  have ends : ∀ x : State, x.cmd = s.cmd → x.events = s.events → ∀ r, x.endCommand r = done x r := fun x hc he r => by
    rw [State.endCommand_eq, hdone, hc, he]
  have refused : ∀ entry, argTable s.cmd.arg = some entry → s.commit entry = none →
      exec .tableWrite s = .next (done s .refused) := fun entry ha h => by
    rw [exec_tableWrite hr ha, State.doTableWrite_refused h, ends s rfl rfl]
  refine ⟨fun i img code ha himg hcode => ⟨fun illegal => ?_, fun value check => ?_⟩,
    fun u img ha himg => ⟨fun illegal => ?_, fun quota watermark charge => ?_⟩⟩
  all_goals subst himg
  · exact refused _ ha (by rw [State.commit_route, routeOfImage_refused hcode illegal, Option.map_none])
  · obtain ⟨e, image, fields⟩ := routeOfImage_legal (edition := (s.route i).edition) hcode value check
    have commit : s.commit (.route i) = some (s.setRoute i e) := by rw [State.commit_route, image, Option.map_some]
    exact ⟨e, by rw [exec_tableWrite hr ha, State.doTableWrite_committed commit, ends (s.setRoute i e) rfl rfl], fields⟩
  · exact refused _ ha (State.commit_stream_refused illegal)
  · rw [exec_tableWrite hr ha, State.doTableWrite_committed (State.commit_stream_legal quota watermark charge)]
    exact congrArg _ (ends (s.setStream u _) rfl rfl .ok)

end Sys2Proof.Machine
end

section
/-! The end of the pool's build (R70, R71): when it is due, and what it leaves of every link and descriptor. -/

namespace Sys2Proof.Machine

/-- 200 µs after the build began its end is due, unless a CLEAR is running (R70, R71). -/
theorem State.buildDue_of_elapsed {s : State} (building : s.pool.ready = false)
    (elapsed : 200 ≤ (s.time.count - s.pool.buildStart).toNat) (unclear : ∀ n, s.cmd.phase ≠ .clearing n) :
    s.buildDue = true := by
  by_contra hdue
  obtain ready | early | ⟨n, clearing⟩ := s.buildDue_eq_false_iff.mp (Bool.eq_false_of_not_eq_true hdue)
  · exact Bool.false_ne_true (building.symm.trans ready)
  · exact early.not_ge elapsed
  · exact unclear n clearing

/-- Every link is End (R71). -/
theorem State.linkOf_finishBuild (s : State) (k : CellId) : linkOf s.finishBuild.pool.links k = none := by
  simp only [State.finishBuild]
  rfl

/-- Every descriptor is FREE, its other fields as they were (R62, R71). -/
theorem State.desc_finishBuild (s : State) (d : DescId) : s.finishBuild.desc d = { s.desc d with state := .free } := by
  simp only [State.desc, State.finishBuild]
  exact Tab.get_mapValues Desc.blank (fun x => { x with state := .free }) rfl s.pool.descs d.val

theorem State.finishBuild_only (s : State) : s.finishBuild = { s with pool := { s.pool with
    ready := true, freeCells := s.finishBuild.pool.freeCells, freeDescs := s.finishBuild.pool.freeDescs
    links := s.finishBuild.pool.links, descs := s.finishBuild.pool.descs } } := by
  simp only [State.finishBuild]

/-- Settles O26, by what the build's end leaves of each list and table. -/
theorem poolBuildEnd : Obligations.PoolBuildEnd := by
  intro s high building elapsed unclear
  refine ⟨s.finishBuild, act_of_enabled high (State.buildDue_of_elapsed building elapsed unclear), s.ready_finishBuild,
    ?_, ?_, s.linkOf_finishBuild, s.desc_finishBuild, ?_⟩
  · rw [s.freeCells_finishBuild]; exact allCells_val
  · rw [s.freeDescs_finishBuild]; exact allDescs_val
  · exact s.finishBuild_only

end Sys2Proof.Machine
end

section
/-! RELEASE of a current handle (R107): the record is freed (R67), its stream's held count falls, its slot empties (R130). -/

namespace Sys2Proof.Machine

/-! ### An emptied slot and a lowered held count (R107, R130) -/

theorem State.emptySlot_only (s : State) (i : SlotId) : s.emptySlot i = { s with
    slots := (s.emptySlot i).slots, window := (s.emptySlot i).window, port := (s.emptySlot i).port
    host := (s.emptySlot i).host, counts := { s.counts with device := (s.emptySlot i).counts.device }
    events := { s.events with latches := (s.emptySlot i).events.latches } } := by
  unfold State.emptySlot State.staleWindow
  dsimp only
  (repeat' split) <;> rfl

theorem State.stream_lowerHeld (s : State) (u v : StreamId) : (s.lowerHeld u).stream v
    = if v = u then { s.stream u with heldCount := (s.stream u).heldCount - 1 } else s.stream v := by
  unfold State.lowerHeld; exact State.stream_setStream ..

section Release

variable (s : State) (i : SlotId) (d : DescId)

/-- A held record leaves the part: freed, taken from its stream's held count, its slot EMPTY (R67, R107). -/
def State.unhold : State := ((s.freeRecord d).lowerHeld (s.desc d).stream).emptySlot i

theorem State.desc_unhold (e : DescId) :
    (s.unhold i d).desc e = if e = d then { s.desc d with state := .free } else s.desc e := by
  simp [State.unhold, State.desc_freeRecord]

theorem State.slot_unhold (j : SlotId) :
    (s.unhold i d).slot j = if j = i then ⟨(s.slot i).generation + 1, none⟩ else s.slot j := by
  simp [State.unhold, State.slot_emptySlot]

theorem State.stream_unhold (v : StreamId) : (s.unhold i d).stream v = if v = (s.desc d).stream
    then { s.stream v with charge := (s.stream v).charge - (s.desc d).cellCount, heldCount := (s.stream v).heldCount - 1 }
    else s.stream v := by
  by_cases hv : v = (s.desc d).stream
  · subst hv; simp [State.unhold, State.stream_lowerHeld, State.stream_freeRecord]
  · simp [State.unhold, State.stream_lowerHeld, State.stream_freeRecord, hv]

theorem State.freeDescs_unhold : (s.unhold i d).pool.freeDescs = s.pool.freeDescs ++ [d] := by
  simp [State.unhold]

theorem State.cellsReturned_unhold : s.cellsReturned (s.unhold i d) (s.chain d) :=
  (s.cellsReturned_freeRecord d).congr rfl rfl (by simp [State.unhold]) (by simp [State.unhold])

theorem State.windowEmptied_unhold : s.windowEmptied (s.unhold i d) i :=
  State.windowEmptied_congr (((s.freeRecord d).lowerHeld (s.desc d).stream).windowEmptied_emptySlot i) (by simp)
    ⟨rfl, rfl, rfl, rfl, rfl⟩

theorem State.unhold_only : s.unhold i d = { s with
    slots := (s.unhold i d).slots, streams := (s.unhold i d).streams
    pool := { s.pool with
      freeCells := (s.unhold i d).pool.freeCells, freeDescs := (s.unhold i d).pool.freeDescs
      links := (s.unhold i d).pool.links, descs := (s.unhold i d).pool.descs }
    window := (s.unhold i d).window, port := (s.unhold i d).port, host := (s.unhold i d).host
    counts := { s.counts with device := (s.unhold i d).counts.device }
    events := { s.events with latches := (s.unhold i d).events.latches } } := by
  unfold State.unhold
  rw [State.emptySlot_only]
  rfl

end Release

/-! ### The command -/

/-- RELEASE of a current handle ends with OK after the record has left its slot (R107). -/
theorem exec_release_current {s : State} {i : SlotId} {h : Holding} (hr : s.running .release)
    (hi : i.val = s.cmd.arg.toNat % 16) (hg : (s.slot i).generation.toNat = s.cmd.arg.toNat / 16 % 16)
    (hh : (s.slot i).held = some h) : exec .release s = .next ((s.unhold i h.desc).endCommand .ok) := by
  obtain ⟨slot, current⟩ := s.currentHandle_of_held i s.cmd.arg h hi hg hh
  have work : s.doRelease (argLow s.cmd.arg) = (s.unhold i h.desc).endCommand .ok := by
    rw [State.doRelease, current, slot]; rfl
  exact (act_of_enabled hr.1 (State.awaits_of_running hr)).trans (congrArg _ work)

/-- Settles O32: what `State.unhold` changes, and its end act (R150). -/
theorem releaseFreesTheRecord : Obligations.ReleaseFreesTheRecord := by
  intro s i h u hr hi hg hh hu
  subst hu
  have slot := s.slot_unhold i h.desc
  have desc := s.desc_unhold i h.desc
  have stream := s.stream_unhold i h.desc
  have only := s.unhold_only i h.desc
  have ended := State.ended_endCommand (s.unhold i h.desc) .ok
  refine ⟨_, exec_release_current hr hi hg hh, ⟨?_, ended.2⟩, ?_, fun j hj => ?_, ?_, fun e he => ?_, ?_, ?_, ?_,
    fun v hv => ?_, ?_, fun e done error => ?_, fun k hk => ?_, ?_⟩
  · rw [ended.1]; simp [State.unhold]
  · simp [slot]
  · simp [slot, hj]
  · simp [desc]
  · simp [desc, he]
  · simp [State.freeDescs_unhold]
  · exact (s.cellsReturned_unhold i h.desc).congr
  · simp [stream]
  · simp [stream, hv]
  · exact State.windowEmptied_congr (s.windowEmptied_unhold i h.desc) ⟨rfl, rfl, rfl, rfl, rfl⟩
      ⟨rfl, rfl, rfl, State.latched_endCommand_ne _ _ (by decide), rfl⟩
  · rw [State.latched_endCommand_ne _ _ done]
    simp [State.unhold, error]
  · simp [State.unhold, hk]
  · generalize s.unhold i h.desc = t at only
    rw [only]
    rfl

end Sys2Proof.Machine
end

section
/-! PURGE_REMOVAL on a target at the head (R96), and the end of a running purge (R96, R156). -/

namespace Sys2Proof.Machine

/-! ### A target at the head (R95) -/

section Target

variable {s : State} {u : StreamId} {boundary : BitVec 32}

theorem State.purgeHead_of_target {d : DescId} {ds : List DescId} (hq : (s.stream u).queue = d :: ds)
    (target : (s.counts.completions - boundary).toNat < s.age d) : s.purgeHead u boundary = some d := by
  rw [State.purgeHead, hq]
  exact if_pos (decide_eq_true target)

theorem State.purgeHead_eq_none
    (h : ∀ d, (s.stream u).queue.head? = some d → s.age d ≤ (s.counts.completions - boundary).toNat) :
    s.purgeHead u boundary = none := by
  cases hq : (s.stream u).queue with
  | nil => rw [State.purgeHead, hq]
  | cons d ds =>
    rw [State.purgeHead, hq]
    exact if_neg fun target => (of_decide_eq_true target).not_ge (h d (by rw [hq]; rfl))

/-! ### The end of a purge (R96, R156) -/

theorem State.settlePurge_ends (hp : s.cmd.phase = .purging u boundary) (h : s.purgeHead u boundary = none) :
    s.settlePurge = s.endCommand .ok := by
  simp [State.settlePurge, hp, h]

theorem State.settlePurge_runs {d : DescId} (hp : s.cmd.phase = .purging u boundary) (h : s.purgeHead u boundary = some d) :
    s.settlePurge = s := by
  simp [State.settlePurge, hp, h]

theorem State.settlePurge_of_not_purging (h : ∀ u boundary, s.cmd.phase ≠ .purging u boundary) : s.settlePurge = s := by
  unfold State.settlePurge
  split
  next u boundary hp => exact absurd hp (h u boundary)
  next => rfl

end Target

/-! ### One removal (R96) -/

section Purged

variable (s : State) (u : StreamId) (d : DescId)

/-- A removal, before the purge ends where no target is left at the head (R96). -/
def State.purgedRaw : State := ((s.dequeue u d).freeRecord d).bumpStream u .recordsPurged

/-- PURGE_REMOVAL on a target at the head is its removal (R96). -/
theorem exec_purgeRemoval_target {boundary : BitVec 32} (high : s.host.resetHigh = true)
    (hp : s.cmd.phase = .purging u boundary) (head : s.purgeHead u boundary = some d) :
    exec .purgeRemoval s = .next (s.purgedRaw u d).settlePurge := by
  have next : s.purgeNext = some (s.purgedRaw u d).settlePurge := by
    simp only [State.purgeNext, hp, State.purgeStep, head]
    rfl
  exact (act_of_enabled high (by rw [next]; rfl)).trans (by rw [next]; rfl)

theorem State.desc_purgedRaw (e : DescId) :
    (s.purgedRaw u d).desc e = if e = d then { s.desc d with state := .free } else s.desc e := by
  simp [State.purgedRaw, State.desc_freeRecord]

theorem State.cellsReturned_purgedRaw : s.cellsReturned (s.purgedRaw u d) (s.chain d) :=
  (State.cellsReturned_freeRecord (s.dequeue u d) d).congr rfl rfl rfl rfl

variable {s u d}

theorem State.stream_purgedRaw {ds : List DescId} (hq : (s.stream u).queue = d :: ds) (hd : (s.desc d).stream = u)
    (v : StreamId) : (s.purgedRaw u d).stream v = if v = u
      then { s.stream u with queue := ds, charge := (s.stream u).charge - (s.desc d).cellCount } else s.stream v := by
  by_cases hv : v = u
  · subst hv; simp [State.purgedRaw, State.stream_freeRecord, State.stream_dequeue, hd, hq]
  · simp [State.purgedRaw, State.stream_freeRecord, State.stream_dequeue, hd, hv]

/-- Records Purged of the stream rises, and no other counter moves (R96). -/
theorem State.countsOnly_purgedRaw : s.countsOnly (s.purgedRaw u d) [] [(u, .recordsPurged)] [] := by
  refine ⟨by simp [State.purgedRaw], fun v k hk => ?_, by simp [State.purgedRaw]⟩
  simp only [List.mem_singleton, Prod.mk.injEq, not_and_or] at hk
  simp [State.purgedRaw, hk]

end Purged

/-- Settles O36: one removal (`State.purgedRaw`), and the end of a purge by its head (`State.settlePurge_ends`,
`State.settlePurge_runs`). -/
theorem purgeRemovesTheHead : Obligations.PurgeRemovesTheHead := by
  refine ⟨fun s u boundary d ds high hp hq hd target => ?_,
    fun s => ⟨fun u boundary hp => ⟨fun spent => ?_, fun d head target => ?_⟩,
      State.settlePurge_of_not_purging⟩⟩
  · have stream := State.stream_purgedRaw hq hd
    have desc := s.desc_purgedRaw u d
    exact ⟨_, exec_purgeRemoval_target s u d high hp (State.purgeHead_of_target hq target), by simp [stream],
      fun v hv => by simp [stream, hv], by simp [desc], fun e he => by simp [desc, he], by simp [State.purgedRaw],
      s.cellsReturned_purgedRaw u d, by simp [State.purgedRaw], State.countsOnly_purgedRaw, rfl⟩
  · rw [State.settlePurge_ends hp (State.purgeHead_eq_none spent), State.endCommand_eq]
  · obtain ⟨ds, hq⟩ := List.head?_eq_some_iff.mp head
    exact State.settlePurge_runs hp (State.purgeHead_of_target hq target)

end Sys2Proof.Machine
end

section
/-! The charge and the quota (R78): a charge rises only where admission has found room under the quota, and a quota is committed
only at or above the charge, so every act keeps `ChargeInv`. -/

namespace Sys2Proof.Machine

/-! ### Acts that raise no charge -/

/-- Acts that leave every stream's entry and raise no stream's charge. -/
theorem ChargeInv.falls {s t : State} (h : ChargeInv s)
    (entry : ∀ u, (t.stream u).entry = (s.stream u).entry := by simp)
    (charge : ∀ u, (t.stream u).charge ≤ (s.stream u).charge := by simp) : ChargeInv t := fun u => by
  rw [entry u]; exact (charge u).trans (h u)

section Falls

variable {s : State} {l : LaneId}

/-- One stream's charge is lowered (Table 5-2). -/
theorem ChargeInv.lowered {t : State} {u : StreamId} {n : Nat} (h : ChargeInv s) (stream : ∀ v, t.stream v
    = if v = u then { s.stream v with charge := (s.stream v).charge - n } else s.stream v) : ChargeInv t := fun v => by
  rw [stream v]; split
  · exact (Nat.sub_le _ _).trans (h v)
  · exact h v

theorem ChargeInv.freeRecord (h : ChargeInv s) (d : DescId) : ChargeInv (s.freeRecord d) := h.lowered (s.stream_freeRecord d)

/-- A record that is evicted, removed by a purge or aged out leaves its queue and is freed (R67). -/
theorem ChargeInv.dequeueFreed (h : ChargeInv s) (u : StreamId) (d : DescId) : ChargeInv ((s.dequeue u d).freeRecord d) :=
  ChargeInv.freeRecord h.falls d

theorem ChargeInv.abort (h : ChargeInv s) (l : LaneId) (d : DescId) : ChargeInv (s.abort l d) := h.lowered (s.stream_abort l d)

theorem ChargeInv.cut (h : ChargeInv s) (l : LaneId) (d : DescId) : ChargeInv (s.cut l d) := h.abort l d

theorem ChargeInv.cutAll (h : ChargeInv s) (l : LaneId) : ChargeInv (s.cutAll l) := by
  unfold State.cutAll
  generalize (s.lane l).unit.list = ds
  induction ds generalizing s with
  | nil => exact h
  | cons d ds ih => exact ih (h.cut l d)

/-! ### Admission and acceptance: the one rise (R28, R84) -/

theorem ChargeInv.evict (h : ChargeInv s) (u : StreamId) (d : DescId) : ChargeInv (s.evict u d) := by
  unfold State.evict; exact (h.dequeueFreed u d).falls

theorem ChargeInv.evictUntil (h : ChargeInv s) (u : StreamId) (n : Nat) (ds : List DescId) :
    ChargeInv (s.evictUntil u n ds) := by
  induction ds generalizing s with
  | nil => exact h
  | cons d ds ih =>
    unfold State.evictUntil; split
    · exact h
    · exact ih (h.evict u d)

theorem ChargeInv.admission (h : ChargeInv s) (u : StreamId) (n : Nat) : ChargeInv (s.admission u n).1 := by
  unfold State.admission; split
  · exact h
  · split
    · exact (h.evictUntil u n (s.stream u).queue).falls
    · exact h

/-- A grant finds the three conditions of R84 in the state it leaves. -/
theorem State.roomFailure_of_granted {u : StreamId} {n : Nat} (granted : (s.admission u n).2 = none) :
    (s.admission u n).1.roomFailure u n = none := by
  revert granted
  unfold State.admission; split
  next room => exact fun _ => room
  next => split
          · exact id
          · exact fun granted => by cases granted

/-- An acceptance with room for the record under the quota keeps the charge under it (R28, R84). -/
theorem ChargeInv.accept (h : ChargeInv s) {x : Header} {u : StreamId} (r : Option (RouteId × Byte)) (d : DescId)
    (room : (s.stream u).charge + cellsFor x.length ≤ (s.stream u).entry.quota) : ChargeInv (s.accept l x u r d) := by
  intro v
  rw [State.stream_accept]; split
  · exact room
  · exact h v

theorem ChargeInv.refuse (h : ChargeInv s) (x : Header) (c : Option StreamId) : ChargeInv (s.refuse l x c) := h.falls

theorem ChargeInv.offer (h : ChargeInv s) (x : Header) : ChargeInv (s.offer l x) := by
  unfold State.offer; split
  · exact h.refuse x _
  · split
    · exact h.refuse x _
    · split
      · dsimp only; split
        next granted _ =>
          exact (h.admission _ _).accept _ _
            ((State.roomFailure_eq_none_iff _ _ _).mp (State.roomFailure_of_granted granted)).1
        next => exact (h.admission _ _).refuse x _
      · exact h.refuse x _

/-! ### An edge -/

theorem ChargeInv.actOnHeader (h : ChargeInv s) (x : Header) : ChargeInv (s.actOnHeader l x) := by
  unfold State.actOnHeader; dsimp only
  split
  · exact h.falls
  · split
    · exact h.falls
    · exact ChargeInv.offer h.falls x

theorem ChargeInv.provisionalEdge (h : ChargeInv s) (b : Bool) : ChargeInv (s.provisionalEdge l b) := by
  have confirm : ∀ x, ChargeInv (s.confirmHeader l x) := fun x => by
    unfold State.confirmHeader; dsimp only
    split
    · exact h.falls
    · split
      · exact h.falls
      · exact ChargeInv.actOnHeader h.falls x
  unfold State.provisionalEdge; dsimp only
  split
  · split <;> exact h.falls
  · split
    · exact confirm _
    · exact h.falls

theorem ChargeInv.bodyByte (h : ChargeInv s) (x : Byte) : ChargeInv (s.bodyByte l x) := by
  unfold State.bodyByte
  split
  · exact h.falls
  next d _ =>
    split
    · unfold State.overrun; exact (h.abort l d).falls
    · exact h.falls

/-- A completion moves a record to its queue, and no charge (R36, R81). -/
theorem ChargeInv.toCompleting (h : ChargeInv s) (d : DescId) (damaged : Bool) : ChargeInv (s.toCompleting l d damaged) := h.falls

theorem ChargeInv.checkTrailer (h : ChargeInv s) : ChargeInv (s.checkTrailer l) := by
  have bumped : ChargeInv (s.bumpLane l .recordsDamaged) := h
  unfold State.checkTrailer; dsimp only
  split
  · exact h
  · split
    · exact h.toCompleting _ _
    · split
      · exact bumped.toCompleting _ _
      · exact bumped.abort l _

theorem ChargeInv.lockedByte (h : ChargeInv s) (x : Byte) : ChargeInv (s.lockedByte l x) := by
  unfold State.lockedByte
  split
  · exact h.bodyByte x
  · unfold State.trailerByte; dsimp only; split
    · exact ChargeInv.checkTrailer h.falls
    · exact h.falls
  · exact h.falls

theorem ChargeInv.lockedEdge (h : ChargeInv s) (b : Bool) : ChargeInv (s.lockedEdge l b) := by
  unfold State.lockedEdge; dsimp only
  split
  · split
    · unfold State.lockedHeader; split
      · exact h.actOnHeader _
      · exact h.falls
    · exact h.falls
  · split
    · exact h.lockedByte _
    · exact h.falls

theorem ChargeInv.takeEdge (h : ChargeInv s) (b : Bool) : ChargeInv (s.takeEdge l b) := by
  have noted : ChargeInv (s.noteEdge l) := h.falls
  unfold State.takeEdge
  split
  · exact h
  · exact noted.falls
  · exact noted.provisionalEdge b
  · exact noted.lockedEdge b

theorem ChargeInv.fallSilent (h : ChargeInv s) : ChargeInv (s.fallSilent l) := by
  have cut : ChargeInv ((s.latch .laneSilent).cutReceiving l) := by
    unfold State.cutReceiving; dsimp only
    split
    · split
      · exact ChargeInv.cut h l _
      · exact h
    · exact h
  unfold State.fallSilent
  exact cut.falls

/-! ### Commands -/

theorem ChargeInv.clearFirst (h : ChargeInv s) : ChargeInv s.clearFirst := by
  have lanes : ∀ (ls : List LaneId) (s : State), ChargeInv s → ChargeInv (ls.foldl State.clearLane s) := by
    intro ls
    induction ls with
    | nil => exact fun _ h => h
    | cons l ls ih =>
      refine fun s h => ih _ ?_
      unfold State.clearLane; dsimp only; split
      · exact (h.cutAll l).falls
      · exact h.cutAll l
  unfold State.clearFirst
  exact (lanes (List.finRange 8) s h).falls

theorem ChargeInv.writeCmd (h : ChargeInv s) (code : Word) : ChargeInv (s.writeCmd code) := by
  have takes : ∀ p, ChargeInv (s.takeCommand code p) := fun _ => h
  unfold State.writeCmd
  split
  · exact h
  · unfold State.acceptCommand
    split
    · exact takes _
    · rename_i c _ _
      cases c
      case clear => exact (takes _).clearFirst
      case purge =>
        simp only [State.beginCommand]
        split <;> exact takes _
      all_goals exact takes _
    · exact takes _

theorem ChargeInv.writeWord (h : ChargeInv s) (a : BitVec 7) (v : Word) : ChargeInv (s.writeWord a v) := by
  unfold State.writeWord
  split
  case h_4 => exact h.writeCmd v
  all_goals exact h.falls

theorem ChargeInv.commitLaneEntry (h : ChargeInv s) (e : LaneEntry) : ChargeInv (s.commitLaneEntry l e) := by
  unfold State.commitLaneEntry
  split
  · exact h
  · exact h
  · exact h
  · exact h.cutAll l

/-- A stream entry is committed with a Quota at or above the charge (R88). -/
theorem ChargeInv.commitStream {t : State} (h : ChargeInv s) {u : StreamId} {img : Vector Word 8}
    (ht : s.commitStream u img = some t) : ChargeInv t := by
  unfold State.commitStream at ht
  split at ht
  · split at ht
    · cases ht
    · rename_i e _ above
      cases ht
      intro v
      rw [State.stream_setStream]; split
      · exact Nat.le_of_not_lt above
      · exact h v
  · cases ht

theorem ChargeInv.tableWrite (h : ChargeInv s) (e : TableEntry) : ChargeInv (s.doTableWrite e) := by
  unfold State.doTableWrite
  split
  · rename_i t ht
    suffices ChargeInv t from this.falls
    cases e with
    | route i =>
      simp only [State.commit, State.commitRoute, Option.map_eq_some_iff] at ht
      obtain ⟨_, _, rfl⟩ := ht
      exact h.falls
    | stream u => exact h.commitStream ht
    | lane l =>
      simp only [State.commit, State.commitLane, Option.map_eq_some_iff] at ht
      obtain ⟨_, _, rfl⟩ := ht
      exact h.commitLaneEntry _
  · exact h.falls

theorem ChargeInv.release (h : ChargeInv s) (x : Byte) : ChargeInv (s.doRelease x) := by
  unfold State.doRelease
  split
  · exact h.falls
  next held _ => exact (h.freeRecord held.desc).falls

theorem ChargeInv.purgeStep (h : ChargeInv s) (u : StreamId) (b : BitVec 32) : ChargeInv (s.purgeStep u b) := by
  unfold State.purgeStep
  split
  next d _ => unfold State.purgeRecord; exact (h.dequeueFreed u d).falls
  next => exact h.falls

/-- CLEAR's second step leaves no charge (R99). -/
theorem ChargeInv.clearSecond : ChargeInv s.clearSecond := fun u => by
  have emptied : s.clearSecond.stream u = (s.clearHolds.stream u).emptied := by
    simp [State.clearSecond, State.emptyQueues, State.stream, State.startBuild, State.setPhase]
  rw [emptied]
  exact Nat.zero_le _

end Falls

/-! ### Every act -/

theorem ChargeInv.act {s t : State} (h : ChargeInv s) (ha : State.Act s t) : ChargeInv t := by
  cases ha
  case readsZero _ => exact h
  case hardReset => exact chargeInv_reset
  case takeEdge l b => exact h.takeEdge b
  case silence l _ => exact h.fallSilent
  case ageOut u d _ => unfold State.ageOut; exact (h.dequeueFreed u d).falls
  case release x _ => exact h.release x
  case purgeStep u b _ => exact h.purgeStep u b
  case clearSecond _ _ => exact ChargeInv.clearSecond
  case tableWrite e _ => exact h.tableWrite e
  case writeCmd code _ => exact h.writeCmd code
  case writeWord a v _ => exact h.writeWord a v
  all_goals exact h.falls

/-- Settles O59: every act of the part keeps every charge at or below its quota, so every step does. -/
theorem stepKeepsChargeBelowQuota : Obligations.StepKeepsChargeBelowQuota :=
  State.Act.invariant (fun _ _ h => h) fun _ _ h ha => h.act ha

end Sys2Proof.Machine
end

section
/-! AGE_EXPIRY (R92): the examination of a stream's queue, and the removal of the first record found expired. -/

namespace Sys2Proof.Machine

/-! ### The examination (R92) -/

/-- The records of a stream that the present tick finds expired and that are still to be removed: what its examination found,
or will find where it is still to come (R92; entry 7). -/
def State.foundExpired (s : State) (u : StreamId) : List DescId :=
  if (s.stream u).examine = 0 then (s.stream u).expired else (s.stream u).queue.filter (s.expired u)

theorem State.stream_examined (s : State) (u v : StreamId) : (s.examined u).stream v
    = if v = u then { s.stream u with examine := 0, expired := s.foundExpired u } else s.stream v := by
  unfold State.examined State.foundExpired
  split
  next done =>
    split
    next here => subst here; rw [← done]
    next => rfl
  next => exact State.stream_setStream ..

/-- The first record of the queue found expired is the next to be removed (R92). -/
theorem State.expiredRecord_examined {s : State} {u : StreamId} {d : DescId} {before after : List DescId}
    (queue : (s.stream u).queue = before ++ d :: after) (found : d ∈ s.foundExpired u)
    (first : ∀ e ∈ before, e ∉ s.foundExpired u) : (s.examined u).expiredRecord u = some d := by
  rw [State.expiredRecord, State.stream_examined, if_pos rfl]
  exact List.find?_eq_some_iff_append.mpr
    ⟨decide_eq_true found, before, after, queue, fun e he => by simpa using first e he⟩

theorem exec_ageExpiry {s : State} {u : StreamId} (high : s.host.resetHigh = true) (due : s.ageDue u = true) :
    exec (.ageExpiry u) s = .next ((s.examined u).ageStep u) := act_of_enabled high due

/-- What is to be removed after the examination was to come before it (R92). -/
theorem State.ageDue_of_expiredRecord {s : State} {u : StreamId} {d : DescId}
    (record : (s.examined u).expiredRecord u = some d) : s.ageDue u = true := by
  by_cases done : (s.stream u).examine = 0
  · rw [State.examined, if_pos done] at record
    simp [State.ageDue, record]
  · simp [State.ageDue, done]

/-! ### One removal (R92, R67) -/

section Aged

variable (s : State) (u : StreamId) (d : DescId)

/-- The examination where it is still to come and the removal of record d, before a purge whose head goes ends (R92). -/
def State.agedRaw : State :=
  ((((s.examined u).dequeue u d).freeRecord d).bumpStream u .recordsAgedOut).latch .recordDrop

theorem State.desc_agedRaw (e : DescId) :
    (s.agedRaw u d).desc e = if e = d then { s.desc d with state := .free } else s.desc e := by
  simp [State.agedRaw, State.desc_freeRecord]

theorem State.cellsReturned_agedRaw : s.cellsReturned (s.agedRaw u d) (s.chain d) := by
  have chain : ((s.examined u).dequeue u d).chain d = s.chain d := by unfold State.chain; simp
  rw [← chain]
  exact (State.cellsReturned_freeRecord ((s.examined u).dequeue u d) d).congr (by simp) (by simp) rfl rfl

/-- Records Aged Out of the stream rises, and no other counter moves (R92). -/
theorem State.countsOnly_agedRaw : s.countsOnly (s.agedRaw u d) [] [(u, .recordsAgedOut)] [] := by
  refine ⟨by simp [State.agedRaw], fun v k hk => ?_, by simp [State.agedRaw]⟩
  simp only [List.mem_singleton, Prod.mk.injEq, not_and_or] at hk
  simp [State.agedRaw, hk]

theorem State.events_agedRaw :
    (s.agedRaw u d).events = { s.events with latches := s.events.latches ||| 0x0004 } := by
  simp [State.agedRaw, State.latch, Event.position]

/-- Nothing changes but the streams, the pool's books, Records Aged Out and RECORD_DROP (R92). -/
theorem State.agedRaw_only : s.agedRaw u d = { s with
    streams := (s.agedRaw u d).streams, counts := { s.counts with streams := (s.agedRaw u d).counts.streams }
    events := (s.agedRaw u d).events
    pool := { s.pool with
      freeCells := (s.agedRaw u d).pool.freeCells, freeDescs := (s.agedRaw u d).pool.freeDescs
      links := (s.agedRaw u d).pool.links, descs := (s.agedRaw u d).pool.descs } } := by
  unfold State.agedRaw State.examined
  split <;> rfl

variable {s u d}

/-- AGE_EXPIRY on a stream with a record found expired is its removal (R92). -/
theorem exec_ageExpiry_removes (high : s.host.resetHigh = true) (record : (s.examined u).expiredRecord u = some d) :
    exec (.ageExpiry u) s = .next (s.agedRaw u d).settlePurge := by
  have step : (s.examined u).ageStep u = (s.agedRaw u d).settlePurge := by
    rw [State.ageStep, record]; rfl
  rw [exec_ageExpiry high (State.ageDue_of_expiredRecord record), step]

theorem State.stream_agedRaw {before after : List DescId} (queue : (s.stream u).queue = before ++ d :: after)
    (first : d ∉ before) (own : (s.desc d).stream = u) (v : StreamId) : (s.agedRaw u d).stream v = if v = u
      then { s.stream u with
        queue := before ++ after, charge := (s.stream u).charge - (s.desc d).cellCount, examine := 0
        expired := s.foundExpired u }
      else s.stream v := by
  have erased : (s.stream u).queue.erase d = before ++ after := by
    rw [queue, List.erase_append_right _ first, List.erase_cons_head]
  by_cases hv : v = u
  · subst hv; simp [State.agedRaw, State.stream_freeRecord, State.stream_dequeue, State.stream_examined, own, erased]
  · simp [State.agedRaw, State.stream_freeRecord, State.stream_dequeue, State.stream_examined, own, hv]

end Aged

/-- An examination that finds none removes none (R92; entry 7). -/
theorem exec_ageExpiry_none {s : State} {u : StreamId} (high : s.host.resetHigh = true)
    (coming : (s.stream u).examine ≠ 0) (found : s.foundExpired u = []) : exec (.ageExpiry u) s
      = .next (s.setStream u { s.stream u with examine := 0, expired := [] }) := by
  have spent : (s.examined u).expiredRecord u = none := by
    rw [State.expiredRecord, State.stream_examined, if_pos rfl, found]
    exact List.find?_eq_none.mpr fun e _ => by simp
  have filtered : (s.stream u).queue.filter (s.expired u) = [] := by
    rwa [State.foundExpired, if_neg coming] at found
  rw [exec_ageExpiry high (by simp [State.ageDue, coming]), State.ageStep, spent, State.examined, if_neg coming,
    State.examination, filtered]

/-- Settles O24: the first record found expired (`State.foundExpired`) leaves as `State.agedRaw` says, and an examination that
finds none is `exec_ageExpiry_none`. -/
theorem ageExpiry : Obligations.AgeExpiry := by
  intro s u found high hfound
  have hfound : found = s.foundExpired u := hfound
  subst hfound
  refine ⟨fun d before after queue expired first own => ?_, exec_ageExpiry_none high⟩
  have stream := State.stream_agedRaw queue (fun h => first d h expired) own
  have desc := s.desc_agedRaw u d
  exact ⟨_, exec_ageExpiry_removes high (State.expiredRecord_examined queue expired first), by simp [stream],
    fun v hv => by simp [stream, hv], by simp [desc], fun e he => by simp [desc, he], by simp [State.agedRaw],
    s.cellsReturned_agedRaw u d, by simp [State.agedRaw], s.countsOnly_agedRaw u d, s.events_agedRaw u d,
    s.agedRaw_only u d⟩

end Sys2Proof.Machine
end

section
/-! Admission under Evict Oldest (R84 to R86): the least number of head records that makes room leaves the queue, and HEADER
completes as on the state the evictions leave (R87). -/

namespace Sys2Proof.Machine

/-! ### Head records (R86) -/

/-- The cells of the first j records of a stream's queue (R86). -/
def State.headCells (s : State) (u : StreamId) (j : Nat) : Nat :=
  (((s.stream u).queue.take j).map fun d => (s.desc d).cellCount).sum

/-- The conditions of R84 for n cells, once the first j records of the queue are gone (R86). -/
def State.roomWithout (s : State) (u : StreamId) (n j : Nat) : Prop :=
  (s.stream u).charge - s.headCells u j + n ≤ (s.stream u).entry.quota ∧ n ≤ s.pool.freeCells.length + s.headCells u j
    ∧ 1 ≤ s.pool.freeDescs.length + j

/-- Eviction is enough when the conditions hold without the whole queue (R86). -/
theorem State.evictionEnough_iff (s : State) (u : StreamId) (n : Nat) :
    s.evictionEnough u n = true ↔ s.roomWithout u n (s.stream u).queue.length := by
  have all : s.headCells u (s.stream u).queue.length = s.queuedCells u := by
    rw [State.headCells, List.take_length, State.queuedCells]
  rw [State.roomWithout, all]
  simp only [State.evictionEnough, Bool.and_eq_true, decide_eq_true_eq, and_assoc]

theorem State.apart.take {s : State} {ds : List DescId} (apart : s.apart ds) (j : Nat) : s.apart (ds.take j) :=
  ⟨apart.1.sublist (List.take_sublist j ds), apart.2.sublist ((List.take_sublist j ds).flatMap s.chain)⟩

/-- A stream's queue holds its own records, each once, with whole chains that share no cell (R65, R66). -/
structure State.WholeQueue (s : State) (u : StreamId) : Prop where
  apart : s.apart (s.stream u).queue
  own : ∀ d ∈ (s.stream u).queue, (s.desc d).stream = u
  whole : ∀ d ∈ (s.stream u).queue, (s.chain d).length = (s.desc d).cellCount

section Heads

variable {s : State} {u : StreamId} {n : Nat}

/-- What the evictions of the first j records leave (R86, R67). -/
theorem State.WholeQueue.evicted (h : s.WholeQueue u) (j : Nat) :
    s.Evicted u ((s.stream u).queue.take j) (s.evicts u ((s.stream u).queue.take j)) :=
  State.evicted_evicts _ s u _ (List.take_append_drop j _).symm (h.apart.take j) fun d hd => h.own d (List.mem_of_mem_take hd)

theorem State.WholeQueue.length_cells (h : s.WholeQueue u) (j : Nat) :
    (((s.stream u).queue.take j).flatMap s.chain).length = s.headCells u j := by
  rw [List.length_flatMap, State.headCells]
  exact congrArg List.sum (List.map_congr_left fun d hd => h.whole d (List.mem_of_mem_take hd))

/-- Room after evictions is room without the evicted records (R84, R86). -/
theorem State.WholeQueue.roomFailure_evicts (h : s.WholeQueue u) {j : Nat} (hj : j ≤ (s.stream u).queue.length) :
    (s.evicts u ((s.stream u).queue.take j)).roomFailure u n = none ↔ s.roomWithout u n j := by
  have evicted := h.evicted j
  rw [State.roomFailure_eq_none_iff, evicted.stream, evicted.cells.1, evicted.descs, List.length_append,
    List.length_append, h.length_cells, List.length_take_of_le hj]
  rfl

/-! ### Admission (R86) -/

theorem State.roomFailure_settlePurge (s : State) (u : StreamId) (n : Nat) :
    s.settlePurge.roomFailure u n = s.roomFailure u n := by
  simp [State.roomFailure]

/-- Where eviction is enough and a condition of R84 fails, the least number of head records that makes room is evicted, and the
answer is the grant (R86). -/
theorem State.admission_evicts (policy : (s.stream u).entry.policy = .evictOldest) (full : s.roomFailure u n ≠ none)
    (enough : s.evictionEnough u n = true) (h : s.WholeQueue u) : ∃ k, k ≤ (s.stream u).queue.length ∧ 0 < k
      ∧ s.admission u n = ((s.evicts u ((s.stream u).queue.take k)).settlePurge, none)
      ∧ s.roomWithout u n k ∧ ∀ j, j < k → ¬s.roomWithout u n j := by
  obtain ⟨k, hk, until_eq, stops, least⟩ := State.evictUntil_eq (s.stream u).queue s u n
  have room : (s.evicts u ((s.stream u).queue.take k)).roomFailure u n = none := by
    rcases stops with room | rfl
    · exact room
    · exact (h.roomFailure_evicts le_rfl).mpr ((State.evictionEnough_iff s u n).mp enough)
  refine ⟨k, hk, Nat.pos_of_ne_zero ?_, ?_, (h.roomFailure_evicts hk).mp room, fun j hj without =>
    least j hj ((h.roomFailure_evicts (hj.le.trans hk)).mpr without)⟩
  · rintro rfl
    exact full room
  · obtain ⟨cause, hcause⟩ := Option.ne_none_iff_exists'.mp full
    rw [State.admission, hcause]
    dsimp only
    rw [if_pos ⟨policy, enough⟩, until_eq, State.roomFailure_settlePurge, room]

end Heads

/-! ### The header (R27, R87) -/

section Header

variable {s t : State} {l : LaneId} {b : Bool} {h : Header} {u : StreamId} {r : Option (RouteId × Byte)} {d : DescId}
  {ds : List DescId}

/-- A header that is admitted is accepted on the state admission leaves (R27, R87). -/
theorem State.offer_admitted (ready : s.notReady = false) (chosen : s.classify l h.tag = some (u, r))
    (enabled : (s.stream u).entry.enable = true) (admitted : s.admission u (cellsFor h.length) = (t, none))
    (hd : t.pool.freeDescs = d :: ds) : s.offer l h = t.accept l h u r d := by
  simp [State.offer, ready, chosen, enabled, admitted, hd]

/-- Admission leaves every lane and the time, so the edge that offers the header may come before it or after it. -/
theorem State.admission_offered (s : State) (l : LaneId) (u : StreamId) (n : Nat) :
    (s.offered l).admission u n = ((s.admission u n).1.offered l, (s.admission u n).2) := by
  rw [State.offered, State.admission_setRx, State.offered]
  simp

theorem State.endsHeader_admission (ends : s.endsHeader l b h) (u : StreamId) (n : Nat) :
    (s.admission u n).1.endsHeader l b h := by
  simpa [State.endsHeader, State.heardInTime] using ends

theorem State.classify_admission (s : State) (u : StreamId) (n : Nat) (l : LaneId) (tag : Byte) :
    (s.admission u n).1.classify l tag = s.classify l tag := by
  simp [State.classify, State.decidingRoute]

/-- HEADER on a stream that grants room by eviction is HEADER on the state the evictions leave, and the record is accepted
(R27, R86, R87). -/
theorem exec_header_admitted (ends : s.endsHeader l b h) (passes : h.passes = true) (long : 2 ≤ h.length.toNat)
    (ready : s.pool.ready = true) (phase : s.cmd.phase ≠ .clearing .second) (chosen : s.classify l h.tag = some (u, r))
    (enabled : (s.stream u).entry.enable = true) (admitted : s.admission u (cellsFor h.length) = (t, none))
    (room : t.roomFailure u (cellsFor h.length) = none) :
    exec (.header l b) s = exec (.header l b) t
      ∧ ∃ t' : State, exec (.header l b) s = .next t' ∧ (t'.lane l).rx.sub = .body := by
  have left : (s.admission u (cellsFor h.length)).1 = t := by rw [admitted]
  obtain ⟨d, ds, hd⟩ := List.exists_cons_of_length_pos ((State.roomFailure_eq_none_iff _ _ _).mp room).2.2
  have before : (s.offered l).offer l h = (t.offered l).accept l h u r d :=
    State.offer_admitted (State.notReady_eq_false ready phase) (by simpa using chosen) enabled
      (by rw [State.admission_offered, admitted]) hd
  have readyAfter : t.pool.ready = true := by simpa [← left] using ready
  have phaseAfter : t.cmd.phase ≠ .clearing .second := fun second =>
    phase ((PlacesKept.admission s u (cellsFor h.length)).c (by rw [left]; exact second)).1
  have chosenAfter : t.classify l h.tag = some (u, r) := by rw [← left, State.classify_admission, chosen]
  have enabledAfter : (t.stream u).entry.enable = true := by simpa [← left] using enabled
  have after : (t.offered l).offer l h = (t.offered l).accept l h u r d :=
    State.offer_accepted (State.notReady_eq_false readyAfter phaseAfter) (by simpa using chosenAfter) enabledAfter
      (State.admission_granted room) hd
  have here := exec_header_record ends passes long
  refine ⟨?_, _, here, ?_⟩
  · rw [here, exec_header_record (left ▸ State.endsHeader_admission ends u _) passes long, before, after]
  · rw [before, State.rx_accept]

end Header

/-- Settles O13: the evictions (`State.admission_evicts`) leave what `State.Evicted` says, and HEADER is then
`exec_header_admitted`. -/
theorem evictionOldestFirst : Obligations.EvictionOldestFirst := by
  intro s u n cells policy full hcells
  obtain rfl : cells = s.headCells u := funext hcells
  rw [← State.roomFailure_eq_none_iff] at full
  refine ⟨fun short => ?_, fun enough apart records _ => ?_⟩
  · obtain ⟨cause, refused⟩ := State.admission_refused full (.inr short)
    simp [refused]
  · have whole : s.WholeQueue u := ⟨apart, fun d hd => (records d hd).1, fun d hd => (records d hd).2⟩
    obtain ⟨k, hk, pos, admitted, room, least⟩ := State.admission_evicts policy full enough whole
    have evicted := whole.evicted k
    have gone : ((s.stream u).queue.take k).length = k := List.length_take_of_le hk
    refine ⟨⟨k, _, _, hk, pos, rfl, admitted, ?_, evicted.others, room, least, evicted.cells, whole.length_cells k,
      evicted.descs, evicted.freed, evicted.kept, ?_, evicted.counts, evicted.drop ?_, evicted.latches, evicted.frame⟩,
      fun l b h r ends passes long ready phase chosen enabled hn => ?_⟩
    · have stream := evicted.stream
      rw [gone] at stream
      exact stream
    · have count := evicted.count
      rwa [gone] at count
    · exact List.ne_nil_of_length_pos (by rwa [gone])
    · subst hn
      have granted := (State.roomFailure_settlePurge _ u _).trans ((whole.roomFailure_evicts hk).mpr room)
      have header := exec_header_admitted ends passes long ready phase chosen enabled admitted granted
      rwa [admitted]

end Sys2Proof.Machine
end

section
/-! TAKE and PEEK (R104 to R106, R110, R112): which slot a TAKE fills, and what a record at the head of a queue brings. -/

namespace Sys2Proof.Machine

/-! ### The lowest EMPTY slot (R104) -/

theorem State.emptySlotIndex_eq_some {s : State} {i : SlotId} (empty : (s.slot i).held = none)
    (lowest : ∀ j, j < i → (s.slot j).held ≠ none) : s.emptySlotIndex = some i :=
  finRange_find_first (by simp [empty]) fun j hj =>
    Option.isNone_eq_false_iff.mpr (Option.isSome_iff_ne_none.mpr (lowest j hj))

theorem State.emptySlotIndex_eq_none {s : State} (full : ∀ i, (s.slot i).held ≠ none) : s.emptySlotIndex = none :=
  List.find?_eq_none.mpr fun i _ => by simpa using full i

/-! ### The commands by what they find (R104 to R106) -/

section Commands

variable {s : State} {u : StreamId} {d : DescId} {ds : List DescId}

theorem State.onStream_eq (hu : s.cmd.arg.toNat % 256 = u.val) (work : StreamId → State) : s.onStream work = work u := by
  rw [State.onStream, argStream_eq s.cmd.arg u hu]

/-- An accepted TAKE does its work on the stream its argument names (R103, R150). -/
theorem exec_take (hr : s.running .take) (hu : s.cmd.arg.toNat % 256 = u.val) : exec .take s = .next (s.doTake u) :=
  (act_of_enabled hr.1 (State.awaits_of_running hr)).trans (congrArg _ (State.onStream_eq hu _))

/-- So does an accepted PEEK (R103, R150). -/
theorem exec_peek (hr : s.running .peek) (hu : s.cmd.arg.toNat % 256 = u.val) : exec .peek s = .next (s.doPeek u) :=
  (act_of_enabled hr.1 (State.awaits_of_running hr)).trans (congrArg _ (State.onStream_eq hu _))

theorem State.doTake_empty (hq : (s.stream u).queue = []) : s.doTake u = s.endCommand .empty := by
  rw [State.doTake, hq]

theorem State.doTake_noSlot (hq : (s.stream u).queue ≠ []) (full : s.emptySlotIndex = none) :
    s.doTake u = s.endCommand .noSlot := by
  obtain ⟨d, ds, hq⟩ := List.exists_cons_of_ne_nil hq
  rw [State.doTake, hq]
  dsimp only
  rw [full]

theorem State.doTake_holds {i : SlotId} (hq : (s.stream u).queue = d :: ds) (slot : s.emptySlotIndex = some i) :
    s.doTake u = (s.hold u d i).endCommand .ok := by
  rw [State.doTake, hq]
  dsimp only
  rw [slot]

theorem State.doPeek_empty (hq : (s.stream u).queue = []) : s.doPeek u = s.endCommand .empty := by
  rw [State.doPeek, hq]

theorem State.doPeek_head (hq : (s.stream u).queue = d :: ds) :
    s.doPeek u = (s.setView (viewOf (s.desc d) 0 false)).endCommand .ok := by
  rw [State.doPeek, hq]

end Commands

/-! ### The record that is held (R104, R112) -/

/-- The Delivery Count stops at 15 (R112). -/
theorem raiseDelivery_eq (n : BitVec 4) : raiseDelivery n = if n = 15 then 15 else n + 1 := by
  unfold raiseDelivery; split
  · assumption
  · rfl

section Hold

variable (s : State) (u : StreamId) (d : DescId) (i : SlotId)

theorem State.stream_hold (v : StreamId) : (s.hold u d i).stream v = if v = u
    then { s.stream u with queue := (s.stream u).queue.tail, heldCount := (s.stream u).heldCount + 1 }
    else s.stream v :=
  s.stream_setStream ..

theorem State.slot_hold_self : (s.hold u d i).slot i = ⟨(s.slot i).generation, some ⟨d, s.time.count⟩⟩ :=
  State.slot_setSlot_self ..

theorem State.slot_hold_ne {j : SlotId} (hj : j ≠ i) : (s.hold u d i).slot j = s.slot j :=
  State.slot_setSlot_ne s _ hj

theorem State.desc_hold (e : DescId) : (s.hold u d i).desc e = if e = d then (s.desc d).taken else s.desc e :=
  State.desc_setDesc ..

theorem State.view_hold : (s.hold u d i).view = viewOf (s.desc d).taken (handleOf (s.slot i).generation i) true := rfl

theorem State.streamCount_hold_self :
    (s.hold u d i).streamCount u .recordsDelivered = bump (s.streamCount u .recordsDelivered) :=
  State.streamCount_bumpStream_self ..

/-- Records Delivered of the stream is the only counter that moves (R104). -/
theorem State.countsOnly_hold : s.countsOnly (s.hold u d i) [] [(u, .recordsDelivered)] [] := by
  refine ⟨fun _ _ _ => rfl, fun v k hk => ?_, fun _ _ => rfl⟩
  simp only [List.mem_singleton, Prod.mk.injEq, not_and_or] at hk
  exact State.streamCount_bumpStream_ne _ hk

theorem State.hold_only : s.hold u d i = { s with
    streams := (s.hold u d i).streams, slots := (s.hold u d i).slots
    pool := { s.pool with descs := (s.hold u d i).pool.descs }
    counts := { s.counts with streams := (s.hold u d i).counts.streams }, view := (s.hold u d i).view } := rfl

end Hold

/-- Settles O30: TAKE of a head record with a slot for it is `State.hold` and its end act (R104, R150). -/
theorem takeDelivers : Obligations.TakeDelivers := by
  intro s u d ds i hr hu hq empty lowest
  have slot := State.emptySlotIndex_eq_some empty lowest
  have took : exec .take s = .next ((s.hold u d i).endCommand .ok) := by rw [exec_take hr hu, State.doTake_holds hq slot]
  have stream := s.stream_hold u d i
  have desc := s.desc_hold u d i
  have ended := State.ended_endCommand (s.hold u d i) .ok
  refine ⟨_, took, ended, ?_, fun v hv => ?_, ?_, fun j hj => ?_, ?_, fun e he => ?_, ?_, ?_, ?_, ?_⟩
  · simp [stream, hq]
  · simp [stream, hv]
  · exact s.slot_hold_self u d i
  · exact s.slot_hold_ne u d i hj
  · simp [desc, Desc.taken, raiseDelivery_eq]
  · simp [desc, he]
  · exact s.streamCount_hold_self u d i
  · exact s.countsOnly_hold u d i
  · have taken : ((s.hold u d i).endCommand .ok).desc d = (s.desc d).taken := by simp [desc]
    rw [taken]
    exact s.view_hold u d i
  · rw [State.endCommand_eq]; rfl

/-- Settles O31: the end act alone where nothing is found, and for PEEK of a head record its view (R105, R106). -/
theorem takeAndPeekWithoutHolding : Obligations.TakeAndPeekWithoutHolding := by
  refine ⟨fun s u done hu hdone => ?_, fun s u d ds hr hu hq => ?_⟩
  · have ends (r : Result) : s.endCommand r = done r := (State.endCommand_eq s r).trans (hdone r).symm
    refine ⟨fun hr hq => ?_, fun hr hq full => ?_, fun hr hq => ?_⟩
    · rw [exec_take hr hu, State.doTake_empty hq, ends]
    · rw [exec_take hr hu, State.doTake_noSlot hq (State.emptySlotIndex_eq_none full), ends]
    · rw [exec_peek hr hu, State.doPeek_empty hq, ends]
  · rw [exec_peek hr hu, State.doPeek_head hq, State.endCommand_eq]; rfl

end Sys2Proof.Machine
end

section
/-! RETURN and HOLD_EXPIRY (R108, R109, R114): a held record goes back to its place in its stream's queue and its slot empties;
a stale handle moves nothing. -/

namespace Sys2Proof.Machine

/-! ### A held record put back (R82, R108, R130) -/

section PutBack

variable (s : State) (i : SlotId) (d : DescId)

/-- Record d of slot i goes back to its stream's queue, and the slot is EMPTY (R108, R130). -/
def State.putBack : State := (s.requeue d).emptySlot i

theorem State.desc_putBack (e : DescId) :
    (s.putBack i d).desc e = if e = d then { s.desc d with state := .queued } else s.desc e := by
  simp [State.putBack, State.desc_requeue]

theorem State.slot_putBack (j : SlotId) :
    (s.putBack i d).slot j = if j = i then ⟨(s.slot i).generation + 1, none⟩ else s.slot j := by
  simp [State.putBack, State.slot_emptySlot]

theorem State.stream_putBack (v : StreamId) : (s.putBack i d).stream v = if v = (s.desc d).stream
    then { s.stream v with
      queue := insertByAge s.age d (s.stream v).queue, heldCount := (s.stream v).heldCount - 1
      expired := (s.stream v).unexamined d }
    else s.stream v := by
  simp [State.putBack, State.stream_requeue]

theorem State.latched_putBack {e : Event} (he : e ≠ .windowError) : (s.putBack i d).latched e = s.latched e := by
  simp [State.putBack, he]

theorem State.deviceCount_putBack {k : DeviceCounter} (hk : k ≠ .windowErrors) :
    (s.putBack i d).deviceCount k = s.deviceCount k := by
  simp [State.putBack, hk]

theorem State.windowEmptied_putBack : s.windowEmptied (s.putBack i d) i :=
  State.windowEmptied_congr ((s.requeue d).windowEmptied_emptySlot i) (by simp) ⟨rfl, rfl, rfl, rfl, rfl⟩

theorem State.putBack_only : s.putBack i d = { s with
    slots := (s.putBack i d).slots, streams := (s.putBack i d).streams
    pool := { s.pool with descs := (s.putBack i d).pool.descs }
    window := (s.putBack i d).window, port := (s.putBack i d).port, host := (s.putBack i d).host
    counts := { s.counts with device := (s.putBack i d).counts.device }
    events := { s.events with latches := (s.putBack i d).events.latches } } := by
  unfold State.putBack
  rw [State.emptySlot_only]
  rfl

/-- The slots, the descriptors and the streams of t are as after record d of slot i went back to stream u's queue, in the words
of the statements (R82, R94, R108). -/
structure State.PutBack (s t : State) (i : SlotId) (d : DescId) (u : StreamId) : Prop where
  slot : t.slot i = ⟨(s.slot i).generation + 1, none⟩
  slots : ∀ j, j ≠ i → t.slot j = s.slot j
  desc : t.desc d = { s.desc d with state := .queued }
  descs : ∀ e, e ≠ d → t.desc e = s.desc e
  queue : ∃ front back, (s.stream u).queue = front ++ back ∧ (t.stream u).queue = front ++ d :: back
    ∧ (∀ e ∈ front, s.age d < s.age e) ∧ ∀ e, back.head? = some e → s.age e ≤ s.age d
  stream : t.stream u = { s.stream u with
    queue := (t.stream u).queue, heldCount := (s.stream u).heldCount - 1
    expired := (s.stream u).expired.filter fun e => e != d }
  streams : ∀ v, v ≠ u → t.stream v = s.stream v

variable {s i d}

/-- Every state with the slots, descriptors and streams that `State.putBack` leaves is such a state. -/
theorem State.putBack_spec {t : State} (slots : ∀ j, t.slot j = (s.putBack i d).slot j := by simp)
    (descs : ∀ e, t.desc e = (s.putBack i d).desc e := by simp)
    (streams : ∀ v, t.stream v = (s.putBack i d).stream v := by simp) : s.PutBack t i d (s.desc d).stream where
  slot := by simp [slots, State.slot_putBack]
  slots j hj := by simp [slots, State.slot_putBack, hj]
  desc := by simp [descs, State.desc_putBack]
  descs e he := by simp [descs, State.desc_putBack, he]
  queue := by
    obtain ⟨front, back, queue, inserted, older, younger⟩ := insertByAge_split s.age d (s.stream (s.desc d).stream).queue
    exact ⟨front, back, queue, by simpa [streams, State.stream_putBack] using inserted, older, younger⟩
  stream := by simp [streams, State.stream_putBack, Stream.unexamined]
  streams v hv := by simp [streams, State.stream_putBack, hv]

end PutBack

/-! ### The commands (R108, R109) -/

section Commands

variable {s : State} {i : SlotId}

/-- RETURN of a current handle ends with OK after the record is put back (R108). -/
theorem exec_returnRecord_current {h : Holding} (hr : s.running .returnRecord) (hi : i.val = s.cmd.arg.toNat % 16)
    (hg : (s.slot i).generation.toNat = s.cmd.arg.toNat / 16 % 16) (hh : (s.slot i).held = some h) :
    exec .returnRecord s = .next ((s.putBack i h.desc).endCommand .ok) := by
  obtain ⟨slot, current⟩ := s.currentHandle_of_held i s.cmd.arg h hi hg hh
  have work : s.doReturn (argLow s.cmd.arg) = (s.putBack i h.desc).endCommand .ok := by
    rw [State.doReturn, current, slot]; rfl
  exact (act_of_enabled hr.1 (State.awaits_of_running hr)).trans (congrArg _ work)

/-- A handle whose slot is EMPTY or at another Generation is stale (R101). -/
theorem State.currentHandle_eq_none (hi : i.val = s.cmd.arg.toNat % 16)
    (stale : (s.slot i).held = none ∨ (s.slot i).generation.toNat ≠ s.cmd.arg.toNat / 16 % 16) :
    s.currentHandle (argLow s.cmd.arg) = none := by
  have slot : handleSlot (argLow s.cmd.arg) = i := Fin.ext (by rw [handleSlot_nat, hi])
  unfold State.currentHandle
  dsimp only
  rw [slot]
  split
  next same =>
    refine stale.resolve_right fun other => other ?_
    rw [same, handleGeneration_nat]
  next => rfl

end Commands

/-- Settles O33: what `State.putBack` changes, and its end act (R150). -/
theorem returnRequeuesTheRecord : Obligations.ReturnRequeuesTheRecord := by
  intro s i h u hr hi hg hh hu
  subst hu
  have spec : s.PutBack ((s.putBack i h.desc).endCommand .ok) i h.desc (s.desc h.desc).stream := State.putBack_spec
  have only := s.putBack_only i h.desc
  have ended := State.ended_endCommand (s.putBack i h.desc) .ok
  refine ⟨_, exec_returnRecord_current hr hi hg hh, ⟨?_, ended.2⟩, spec.slot, spec.slots, spec.desc, spec.descs, spec.queue,
    spec.stream, spec.streams, ?_, fun e done error => ?_, fun k hk => ?_, ?_⟩
  · rw [ended.1]; simp [State.putBack]
  · exact State.windowEmptied_congr (s.windowEmptied_putBack i h.desc) ⟨rfl, rfl, rfl, rfl, rfl⟩
      ⟨rfl, rfl, rfl, State.latched_endCommand_ne _ _ (by decide), rfl⟩
  · rw [State.latched_endCommand_ne _ _ done, State.latched_putBack _ _ _ error]
  · simpa using State.deviceCount_putBack s i h.desc hk
  · generalize s.putBack i h.desc = t at only
    rw [only]
    rfl

/-- Settles O34: neither command finds a holding, so each is its end act alone (R109, R150). -/
theorem staleHandleChangesNothing : Obligations.StaleHandleChangesNothing := by
  intro s i done hi stale hdone
  have none := State.currentHandle_eq_none hi stale
  have ends : s.endCommand .stale = done := (State.endCommand_eq s .stale).trans hdone.symm
  refine ⟨fun hr => ?_, fun hr => ?_⟩
  · have work : s.doRelease (argLow s.cmd.arg) = done := by rw [State.doRelease, none]; exact ends
    exact (act_of_enabled hr.1 (State.awaits_of_running hr)).trans (congrArg _ work)
  · have work : s.doReturn (argLow s.cmd.arg) = done := by rw [State.doReturn, none]; exact ends
    exact (act_of_enabled hr.1 (State.awaits_of_running hr)).trans (congrArg _ work)

/-! ### The lowest expired hold (R114) -/

section Expiry

variable {s : State} {i : SlotId} {h : Holding}

theorem State.holdExpired_iff (s : State) (h : Holding) : s.holdExpired h = true ↔
    s.time.judging ≠ 0 ∧ s.time.judging.toNat * 1000 ≤ (s.time.count - h.start).toNat := by
  rw [State.holdExpired, Bool.and_eq_true, bne_iff_ne, decide_eq_true_eq]
  rfl

theorem State.holdExpired_of_expiredHold (first : s.expiredHold = some (i, h)) : s.holdExpired h = true := by
  obtain ⟨j, _, found⟩ := List.exists_of_findSome?_eq_some first
  split at found
  · split at found
    next ends => cases found; exact ends
    next => cases found
  · cases found

/-- Some hold ends at the present tick exactly when some slot's hold has lasted its limit (R114). -/
theorem State.expiredHold_isSome_iff (s : State) :
    s.expiredHold.isSome = true ↔ ∃ i h, (s.slot i).held = some h ∧ s.holdExpired h = true := by
  constructor
  · intro isSome
    obtain ⟨⟨i, h⟩, first⟩ := Option.isSome_iff_exists.mp isSome
    exact ⟨i, h, State.held_expiredHold first, State.holdExpired_of_expiredHold first⟩
  · rintro ⟨i, h, held, ends⟩
    refine Option.isSome_iff_ne_none.mpr fun none => ?_
    have missed := List.findSome?_eq_none_iff.mp none i (List.mem_finRange i)
    simp [held, ends] at missed

theorem State.expiredHold_eq_some (held : (s.slot i).held = some h) (ends : s.holdExpired h = true)
    (lowest : ∀ j, j < i → ∀ g, (s.slot j).held = some g → s.holdExpired g = false) : s.expiredHold = some (i, h) := by
  obtain ⟨before, after, all, below⟩ := finRange_before i
  rw [State.expiredHold, List.findSome?_eq_some_iff]
  refine ⟨before, i, after, all, by simp [held, ends], fun j hj => ?_⟩
  split
  next g slot => rw [lowest j (below j hj) g slot]; rfl
  next => rfl

end Expiry

/-! ### The command (R114) -/

section Expires

variable (s : State) (i : SlotId) (h : Holding)

/-- The expiry of a hold, before a purge whose head is then no target ends (R114, R97). -/
def State.expireRaw : State := ((s.putBack i h.desc).latch .holdExpired).bumpDevice .holdExpiries

theorem exec_holdExpiry_first {s : State} {i : SlotId} {h : Holding} (high : s.host.resetHigh = true)
    (first : s.expiredHold = some (i, h)) : exec .holdExpiry s = .next (s.expireRaw i h).settlePurge := by
  have step : s.holdStep = (s.expireRaw i h).settlePurge := by rw [State.holdStep, first]; rfl
  exact (act_of_enabled high (by rw [first]; rfl)).trans (congrArg _ step)

theorem State.latched_expireRaw_self : (s.expireRaw i h).latched .holdExpired = true :=
  State.latched_latch_self _ _

theorem State.latched_expireRaw_ne {e : Event} (he : e ≠ .holdExpired) :
    (s.expireRaw i h).latched e = (s.putBack i h.desc).latched e :=
  State.latched_latch_ne _ he

theorem State.deviceCount_expireRaw_self :
    (s.expireRaw i h).deviceCount .holdExpiries = bump (s.deviceCount .holdExpiries) :=
  (State.deviceCount_bumpDevice_self _ _).trans (congrArg bump (s.deviceCount_putBack i h.desc (by decide)))

theorem State.deviceCount_expireRaw_ne {k : DeviceCounter} (hk : k ≠ .holdExpiries) :
    (s.expireRaw i h).deviceCount k = (s.putBack i h.desc).deviceCount k :=
  State.deviceCount_bumpDevice_ne _ hk

theorem State.windowEmptied_expireRaw : s.windowEmptied (s.expireRaw i h) i :=
  State.windowEmptied_congr (s.windowEmptied_putBack i h.desc) ⟨rfl, rfl, rfl, rfl, rfl⟩
    ⟨rfl, rfl, rfl, s.latched_expireRaw_ne i h (by decide), s.deviceCount_expireRaw_ne i h (by decide)⟩

theorem State.expireRaw_only : s.expireRaw i h = { s with
    slots := (s.expireRaw i h).slots, streams := (s.expireRaw i h).streams
    pool := { s.pool with descs := (s.expireRaw i h).pool.descs }
    window := (s.expireRaw i h).window, port := (s.expireRaw i h).port, host := (s.expireRaw i h).host
    counts := { s.counts with device := (s.expireRaw i h).counts.device }
    events := { s.events with latches := (s.expireRaw i h).events.latches } } := by
  have only := s.putBack_only i h.desc
  unfold State.expireRaw
  generalize s.putBack i h.desc = t at only
  rw [only]
  rfl

end Expires

/-- Settles O25: the lowest hold that has lasted the tick's limit ends (`State.expiredHold_eq_some`), as `State.expireRaw`
says. -/
theorem holdExpiry : Obligations.HoldExpiry := by
  intro s i h u high judged held lasted lower hu
  subst hu
  have ends : s.holdExpired h = true := (s.holdExpired_iff h).mpr ⟨judged, lasted⟩
  have lowest : ∀ j, j < i → ∀ g, (s.slot j).held = some g → s.holdExpired g = false := fun j hj g hg =>
    Bool.eq_false_iff.mpr fun more => (lower j hj g hg).not_ge ((s.holdExpired_iff g).mp more).2
  have spec : s.PutBack (s.expireRaw i h) i h.desc (s.desc h.desc).stream :=
    State.putBack_spec (fun _ => rfl) (fun _ => rfl) fun _ => rfl
  exact ⟨_, exec_holdExpiry_first high (State.expiredHold_eq_some held ends lowest), spec.slot, spec.slots, spec.desc,
    spec.descs, spec.queue, spec.stream, spec.streams, s.latched_expireRaw_self i h, s.deviceCount_expireRaw_self i h,
    s.windowEmptied_expireRaw i h,
    fun e expired error => (s.latched_expireRaw_ne i h expired).trans (s.latched_putBack i h.desc error),
    fun k expiries errors => (s.deviceCount_expireRaw_ne i h expiries).trans (s.deviceCount_putBack i h.desc errors),
    s.expireRaw_only i h⟩

end Sys2Proof.Machine
end

section
/-! HOLD_LIMIT (R113): a write of the Hold Limit, the tick that latches it, and what it then ends (R114). -/

namespace Sys2Proof.Machine

/-- A tick's count judges the holds by the Hold Limit as it stands (R113). -/
theorem State.judging_nextMicrosecond {s : State} (tick : s.tickDue = true) :
    s.nextMicrosecond.time.judging = s.holdLimit := by
  have due : s.finishMicrosecond.tickDue = true := by simpa [State.tickDue] using tick
  rw [State.nextMicrosecond, State.countMicrosecond, if_pos due]
  simp [State.tick]

/-- HOLD_EXPIRY happens exactly when some hold has lasted the limit the tick judges by (R114). -/
theorem exec_holdExpiry_next_iff {s : State} (high : s.host.resetHigh = true) :
    (∃ t, exec .holdExpiry s = .next t) ↔ ∃ i h, (s.slot i).held = some h ∧ s.holdExpired h = true := by
  rw [← State.expiredHold_isSome_iff]
  exact ⟨fun ⟨_, next⟩ => (act_next_iff.mp next).2.1, fun some => ⟨_, act_of_enabled high some⟩⟩

/-- Settles O51: the write takes every value, the tick latches it (`State.judging_nextMicrosecond`), and a hold then ends as
`exec_holdExpiry_next_iff` says. -/
theorem holdLimitWrite : Obligations.HoldLimitWrite := by
  refine ⟨fun s v takes => ⟨hostAccess_of_takes takes, ?_⟩, fun s t _ next => ?_, fun s high => ?_⟩
  · simp [State.busWord, takes.1, State.readWord]
  · obtain ⟨_, tick, taken⟩ := act_next_iff.mp next
    rw [taken, State.judging_nextMicrosecond tick]
  · rw [exec_holdExpiry_next_iff high]
    constructor
    · rintro ⟨i, h, held, ends⟩
      obtain ⟨judged, lasted⟩ := (s.holdExpired_iff h).mp ends
      exact ⟨judged, i, h, held, lasted⟩
    · rintro ⟨judged, i, h, held, lasted⟩
      exact ⟨i, h, held, (s.holdExpired_iff h).mpr ⟨judged, lasted⟩⟩

end Sys2Proof.Machine
end

section
/-! Who changes the Record View (R111), the buffer memory (R59), the round-robin position (R137) and the time count (R161): one
case for each command, from what its operation leaves alone. -/

namespace Sys2Proof.Machine

/-- What PURGE does next is a removal, or its end act where it found no target at its acceptance (R96, R156). -/
theorem State.purgeNext_cases {s x : State} (next : s.purgeNext = some x) :
    (∃ u boundary, x = s.purgeStep u boundary) ∨ x = s.endCommand .ok := by
  rw [State.purgeNext] at next
  cases phase : s.cmd.phase with
  | purging u boundary =>
    rw [phase] at next
    exact .inl ⟨u, boundary, (Option.some.inj next).symm⟩
  | purged =>
    rw [phase] at next
    exact .inr (Option.some.inj next).symm
  | idle | running | failed | clearing =>
    rw [phase] at next
    cases next

/-- Command c, which leads from s to t, leaves the parts that it does not own (R111, R59, R137, R161). -/
structure PartsKept (c : Instr) (s t : State) : Prop where
  view : c ≠ .take → c ≠ .peek → c ≠ .hardReset → t.view = s.view := by simp
  memory : c ≠ .cellWriteComplete → c ≠ .hardReset → t.memory = s.memory := by simp
  position : c ≠ .portGrant → c ≠ .hardReset → t.port.position = s.port.position := by simp
  count : c ≠ .timebaseCount → c ≠ .millisecondTick → c ≠ .hardReset → t.time.count = s.time.count := by simp

namespace PartsKept

variable {c : Instr} {s t x : State}

theorem refl (c : Instr) (s : State) : PartsKept c s s := {}

theorem ofAct {n : String} {b : Bool} (h : act n s b x = .next t) (k : PartsKept c s x) : PartsKept c s t :=
  act_next h ▸ k

/-- A write that leaves the parts leaves them too where the part is in reset or a read is held (R127, R176). -/
theorem ofAccess (h : hostAccess s x = .next t) (k : PartsKept c s x) : PartsKept c s t := by
  rcases hostAccess_next h with ⟨_, rfl⟩ | ⟨_, _, rfl⟩ | ⟨_, _, rfl⟩
  · exact refl c t
  · exact ⟨k.view, k.memory, k.position, k.count⟩
  · exact {}

/-- So does a read. -/
theorem ofRead (h : hostRead s x = .next t) (k : PartsKept c s x) : PartsKept c s t := by
  rcases hostRead_next h with ⟨_, rfl⟩ | ⟨_, _, rfl⟩ | ⟨_, _, rfl⟩
  · exact refl c t
  · exact k
  · exact {}

/-- A command whose argument names nothing is its end act alone (entry 16). -/
theorem onStream {work : StreamId → State} (k : ∀ u, PartsKept c s (work u)) : PartsKept c s (s.onStream work) := by
  unfold State.onStream; split
  · exact k _
  · exact {}

theorem onTable {work : TableEntry → State} (k : ∀ e, PartsKept c s (work e)) : PartsKept c s (s.onTable work) := by
  unfold State.onTable; split
  · exact k _
  · exact {}

theorem onGroup {work : CounterGroup → State} (k : ∀ g, PartsKept c s (work g)) : PartsKept c s (s.onGroup work) := by
  unfold State.onGroup; split
  · exact k _
  · exact {}

/-- Every command but its owners leaves a part. -/
theorem of_exec (h : exec c s = .next t) : PartsKept c s t := by
  cases c
  case hardReset => cases h; exact {}
  case resetRelease =>
    cases h; split
    · exact refl _ s
    · exact {}
  case candidate | provisionalHeader | header | bodyByte | trailerCheck | laneClockEdge => cases h; exact {}
  case cellWriteComplete =>
    simp only [exec, execCellWriteComplete] at h
    split at h <;> exact ofAct h {}
  case timebaseCount =>
    cases h; split
    · exact {}
    · exact refl _ s
  case ageExpiry u => exact ofAct h {}
  case take => exact ofAct h (onStream fun _ => {})
  case peek => exact ofAct h (onStream fun _ => {})
  case purgeRemoval =>
    refine execPurgeRemoval_next h fun x next => ?_
    obtain ⟨u, boundary, rfl⟩ | rfl := State.purgeNext_cases next
    · exact {}
    · exact {}
  case capture => exact ofAct h (onGroup fun _ => {})
  case tableRead | tableWrite => exact ofAct h (onTable fun _ => {})
  case failedTestEndAct =>
    simp only [exec, execFailedTestEndAct] at h
    split at h <;> exact ofAct h {}
  case heldReadAbandon => cases h; exact {}
  case winDataRead | timeLoRead => exact ofRead h {}
  case purge | clear | collision | commandAcceptance | pointing | winHandleWrite | eventLatchWrite | eventEnableWrite
      | wmarkWrite | wmarkEnWrite | readyEnWrite | refreshCfgWrite | poolLowWrite | holdLimitWrite | registerWrite =>
    exact ofAccess h {}
  case silence | portGrant | cellReadComplete | refreshComplete | intervalExpiry | millisecondTick | holdExpiry
      | poolBuildEnd | release | returnRecord | clearSecondStep | clearThirdStep | clearFourthStep => exact ofAct h {}

end PartsKept

/-- Settles O53: the four parts of `PartsKept`. -/
theorem ownersOfViewMemoryPositionAndTime : Obligations.OwnersOfViewMemoryPositionAndTime :=
  ⟨fun _ _ _ h => (PartsKept.of_exec h).view, fun _ _ _ h reset =>
    ⟨fun write => (PartsKept.of_exec h).memory write reset, fun grant => (PartsKept.of_exec h).position grant reset,
      fun count tick => (PartsKept.of_exec h).count count tick reset⟩⟩

end Sys2Proof.Machine
end

section
/-! The Data Window's cell fetch and its states (R121, R123, R125, R126): what pointing, a completed cell read and an answered
read leave of the window, and what the emptying of a slot does to a handle. -/

namespace Sys2Proof.Machine

/-! ### Handles (R101) -/

theorem State.currentHandle_congr {s t : State} {x : Byte} (h : t.slot (handleSlot x) = s.slot (handleSlot x)) :
    t.currentHandle x = s.currentHandle x := by
  unfold State.currentHandle; rw [h]

/-! ### The read in flight (R125) -/

/-- A read with the discard mark is not one without (R123, R130). -/
theorem discardRead_ne (op : Option PortOp) (k : CellId) (p : Nat) (d : DescId) :
    discardRead op ≠ some (.read k p d false) := by
  unfold discardRead
  split
  · simp
  next plain => exact plain k p d false

theorem State.readInFlight_cases {s : State} (h : s.readInFlight = true) :
    ∃ k p d discard, s.port.op = some (.read k p d discard) := by
  unfold State.readInFlight at h
  cases op : s.port.op with
  | none => rw [op] at h; cases h
  | some o =>
    rw [op] at h
    cases o with
    | read k p d discard => exact ⟨k, p, d, discard, rfl⟩
    | write | refresh => cases h

section Fetch

variable {s : State} {k : CellId} {p : Nat} {d : DescId}

/-- The window READY with the bytes of the cell read in its buffer, the port free; the epoch moves on where the bytes were free
ones (R125, R143, entry 10). -/
def State.filled (s : State) (k : CellId) (p : Nat) (d : DescId) : State := { s with
  port := s.port.freed
  window := { s.window with mode := .ready, buffer := some (p, s.readCell k (s.desc d).suspect) }
  epoch := if (s.desc d).suspect then s.epoch + 1 else s.epoch }

theorem State.finishRead_discarded (op : s.port.op = some (.read k p d true)) :
    s.finishRead = { s with port := s.port.freed } := by
  rw [State.finishRead, op]; rfl

theorem State.finishRead_filled (op : s.port.op = some (.read k p d false)) :
    s.finishRead = if s.host.heldRead then (s.filled k p d).answerReady else s.filled k p d := by
  have filled : (if (s.desc d).suspect then (s.freePort.fillBuffer p (s.readCell k (s.desc d).suspect)).nextEpoch
      else s.freePort.fillBuffer p (s.readCell k (s.desc d).suspect)) = s.filled k p d := by
    unfold State.filled
    split <;> rfl
  rw [State.finishRead, op]
  dsimp only
  rw [filled]
  rfl

end Fetch

/-! ### Pointing (R123) -/

section Pointing

variable {s : State} {x : Byte}

theorem State.pointedMode_stale (stale : s.currentHandle x = none) (o : Word) : s.pointedMode x o = (.stale, none) := by
  rw [State.pointedMode, stale]

theorem State.pointedMode_current {h : Holding} (current : s.currentHandle x = some h) (o : Word) :
    s.pointedMode x o = if o.toNat < (s.desc h.desc).length.toNat then (.fetching, some (o.toNat / 64))
      else (.ready, none) := by
  rw [State.pointedMode, current]; rfl

end Pointing

end Sys2Proof.Machine
end

section
/-! The invariant of the Data Window (R121, R125, R127): every act keeps `WindowInv`. -/

namespace Sys2Proof.Machine

/-! ### What `WindowInv` says -/

section Clauses

variable {s : State}

theorem WindowInv.fetching_of_held (h : WindowInv s) (held : s.host.heldRead = true) : s.window.mode = .fetching := h.1 held

theorem WindowInv.current (h : WindowInv s) (serves : s.window.mode = .fetching ∨ s.window.mode = .ready) :
    (s.currentHandle s.window.pointed).isSome = true := h.2.1 serves

theorem WindowInv.fetching_of_request (h : WindowInv s) (request : s.window.request ≠ none) :
    s.window.mode = .fetching := h.2.2.1 request

theorem WindowInv.fetching_of_read (h : WindowInv s) {k : CellId} {p : Nat} {d : DescId}
    (op : s.port.op = some (.read k p d false)) : s.window.mode = .fetching ∧ s.window.request = none := h.2.2.2 k p d op

/-- An act that leaves the window, the slot it is pointed at, a held read and a read in flight keeps it. -/
theorem WindowInv.same {t : State} (h : WindowInv s) (held : t.host.heldRead = true → s.host.heldRead = true := by simp)
    (mode : t.window.mode = s.window.mode := by simp) (pointed : t.window.pointed = s.window.pointed := by simp)
    (request : t.window.request = s.window.request := by simp)
    (op : ∀ k p d, t.port.op = some (.read k p d false) → s.port.op = some (.read k p d false) := by simp)
    (current : s.window.mode = .fetching ∨ s.window.mode = .ready → (s.currentHandle s.window.pointed).isSome = true →
      (t.currentHandle s.window.pointed).isSome = true := by simp [State.currentHandle]) : WindowInv t := by
  unfold WindowInv
  rw [mode, pointed, request]
  exact ⟨fun hh => h.fetching_of_held (held hh), fun serves => current serves (h.current serves), h.fetching_of_request,
    fun k p d hop => h.fetching_of_read (op k p d hop)⟩

/-- The window serves nothing: it is IDLE or STALE, with no request, no held read and no read in flight that it waits for
(R130, R131). -/
structure State.WindowClosed (s : State) : Prop where
  mode : s.window.mode = .idle ∨ s.window.mode = .stale
  request : s.window.request = none
  held : s.host.heldRead = false
  op : ∀ k p d, s.port.op ≠ some (.read k p d false)

theorem State.WindowClosed.inv (h : s.WindowClosed) : WindowInv s := by
  refine ⟨fun held => ?_, fun serves => ?_, fun request => absurd h.request request, fun k p d op => absurd op (h.op k p d)⟩
  · rw [h.held] at held; cases held
  · rcases h.mode with mode | mode <;> rw [mode] at serves <;> rcases serves with e | e <;> cases e

/-- The window is READY on a current handle, with no request and no read in flight that it waits for (R125). -/
structure State.WindowReady (s : State) : Prop where
  mode : s.window.mode = .ready
  current : (s.currentHandle s.window.pointed).isSome = true
  request : s.window.request = none
  op : ∀ k p d, s.port.op ≠ some (.read k p d false)

theorem State.WindowReady.inv (h : s.WindowReady) (free : s.host.heldRead = false) : WindowInv s := by
  refine ⟨fun held => ?_, fun _ => h.current, fun request => absurd h.request request, fun k p d op => absurd op (h.op k p d)⟩
  rw [free] at held; cases held

theorem WindowInv.windowReady (h : WindowInv s) (mode : s.window.mode = .ready) : s.WindowReady where
  mode := mode
  current := h.current (.inr mode)
  request := by
    by_contra request
    have fetching := h.fetching_of_request request
    rw [mode] at fetching; cases fetching
  op k p d op := by
    obtain ⟨fetching, -⟩ := h.fetching_of_read op
    rw [mode] at fetching; cases fetching

/-- A read in READY is answered, and the window goes on with the next cell's request or with none (R126, R128). -/
theorem State.WindowReady.answerReady (h : s.WindowReady) : WindowInv s.answerReady := by
  unfold State.answerReady
  split
  · refine ⟨nofun, fun _ => h.current, fun request => ?_, fun k p d op => absurd op (h.op k p d)⟩
    unfold State.readBody at request ⊢
    dsimp only at request ⊢
    split
    · rfl
    next inside => rw [if_neg inside] at request; exact absurd h.request request
  · exact State.WindowReady.inv ⟨h.mode, h.current, h.request, h.op⟩ rfl

end Clauses

/-! ### The port's acts (R125, R136) -/

section PortActs

variable {s : State}

theorem WindowInv.grantWrite (h : WindowInv s) (l : LaneId) : WindowInv (s.grantWrite l) := by
  unfold State.grantWrite
  dsimp only
  split
  · exact h
  · exact h.same

/-- The request becomes the read in flight that FETCHING waits for (R125). -/
theorem WindowInv.grantRead (h : WindowInv s) (free : s.port.op = none) : WindowInv s.grantRead := by
  have dropped : WindowInv s.dropRequest :=
    ⟨h.fetching_of_held, h.current, nofun, fun k p d op => by rw [State.dropRequest, free] at op; cases op⟩
  unfold State.grantRead
  split
  next p x request _ =>
    exact ⟨h.fetching_of_held, h.current, nofun, fun _ _ _ _ => ⟨h.fetching_of_request (by simp [request]), rfl⟩⟩
  next => exact dropped

theorem WindowInv.arbitrate (h : WindowInv s) (free : s.port.op = none) : WindowInv s.arbitrate := by
  unfold State.arbitrate
  split
  · exact h.same
  · split
    next r _ =>
      unfold State.grantRequester
      split
      · exact (h.grantWrite ⟨r.val, ‹_›⟩).same
      · exact (h.grantRead free).same
    next =>
      split
      · exact h.same
      · exact h

/-- A cell write that ends leaves the port free. -/
theorem State.op_finishWrite (s : State) (l : LaneId) : (s.finishWrite l).port.op = none := by
  unfold State.finishWrite
  dsimp only
  split
  · rfl
  · split
    · rfl
    · split <;> simp

/-- A read that fills the buffer leaves FETCHING, and a read held meanwhile is answered (R125, R127). -/
theorem WindowInv.finishRead (h : WindowInv s) (inFlight : s.readInFlight = true) : WindowInv s.finishRead := by
  obtain ⟨k, p, d, discard, op⟩ := State.readInFlight_cases inFlight
  cases discard with
  | true =>
    rw [State.finishRead_discarded op]
    exact h.same (t := s.freePort)
  | false =>
    obtain ⟨fetching, request⟩ := h.fetching_of_read op
    have ready : (s.filled k p d).WindowReady := ⟨rfl, h.current (.inl fetching), request, nofun⟩
    rw [State.finishRead_filled op]
    split
    · exact ready.answerReady
    next free => exact ready.inv (show s.host.heldRead = false by simpa using free)

end PortActs

/-! ### Hold slots and CLEAR (R130, R131) -/

section Slots

variable {s : State}

theorem State.windowClosed_staleWindow (s : State) : s.staleWindow.WindowClosed := by
  have marked := discardRead_ne s.port.op
  unfold State.staleWindow
  dsimp only
  split
  · exact ⟨.inr rfl, rfl, rfl, marked⟩
  next free => exact ⟨.inr rfl, rfl, by simpa using free, marked⟩

theorem WindowInv.endCommand (h : WindowInv s) (r : Result) : WindowInv (s.endCommand r) := h.same

/-- A window that serves the slot is STALE; any other is pointed at another slot (R130). -/
theorem WindowInv.emptySlot (h : WindowInv s) (i : SlotId) : WindowInv (s.emptySlot i) := by
  unfold State.emptySlot
  dsimp only
  split
  · exact (State.windowClosed_staleWindow _).inv
  next other =>
    refine h.same (current := fun serves current => ?_)
    have apart : handleSlot s.window.pointed ≠ i := fun e => other (by
      simpa [State.windowServes, e] using serves)
    rwa [State.currentHandle_congr (State.slot_setSlot_ne s _ apart)]

/-- A TAKE leaves the Generation of the slot it fills, so no current handle becomes stale (R101, R104). -/
theorem WindowInv.hold (h : WindowInv s) (u : StreamId) (d : DescId) (i : SlotId) : WindowInv (s.hold u d i) := by
  refine h.same (current := fun _ current => ?_)
  by_cases same : handleSlot s.window.pointed = i
  · unfold State.currentHandle at current ⊢
    dsimp only at current ⊢
    rw [same] at current ⊢
    rw [State.slot_hold_self]
    dsimp only
    split
    · rfl
    next stale => rw [if_neg stale] at current; exact current
  · rwa [State.currentHandle_congr (State.slot_hold_ne s u d i same)]

theorem WindowInv.doTake (h : WindowInv s) (u : StreamId) : WindowInv (s.doTake u) := by
  unfold State.doTake
  split
  · exact h.same
  · split
    · exact h.same
    next i _ => exact (h.hold u _ i).endCommand .ok

theorem WindowInv.doRelease (h : WindowInv s) (x : Byte) : WindowInv (s.doRelease x) := by
  unfold State.doRelease
  split
  · exact h.same
  next g _ =>
    have freed : WindowInv ((s.freeRecord g.desc).lowerHeld (s.desc g.desc).stream) := h.same
    exact (freed.emptySlot _).endCommand .ok

theorem WindowInv.doReturn (h : WindowInv s) (x : Byte) : WindowInv (s.doReturn x) := by
  unfold State.doReturn
  split
  · exact h.same
  next g _ =>
    have queued : WindowInv (s.requeue g.desc) := h.same
    exact (queued.emptySlot _).endCommand .ok

theorem WindowInv.expireHold (h : WindowInv s) (i : SlotId) (x : Holding) : WindowInv (s.expireHold i x) := by
  have queued : WindowInv (s.requeue x.desc) := h.same
  unfold State.expireHold
  exact (queued.emptySlot i).same

/-- CLEAR's second step closes the window before it empties the slots (R131, R158). -/
theorem WindowInv.windowClosed_clearHolds (h : WindowInv s) : s.clearHolds.WindowClosed := by
  unfold State.clearHolds
  split
  · exact s.windowClosed_staleWindow
  next closed =>
    rw [not_or] at closed
    obtain ⟨fetching, ready⟩ := closed
    refine ⟨?_, ?_, ?_, fun k p d op => fetching (h.fetching_of_read op).1⟩
    · cases mode : s.window.mode <;> simp_all
    · by_contra request; exact fetching (h.fetching_of_request request)
    · by_contra held; exact fetching (h.fetching_of_held (by simpa using held))

theorem WindowInv.clearSecond (h : WindowInv s) : WindowInv s.clearSecond := by
  obtain ⟨mode, request, held, op⟩ := h.windowClosed_clearHolds
  exact State.WindowClosed.inv ⟨mode, request, held, op⟩

/-- CLEAR ends with the window IDLE (R131, R159). -/
theorem windowInv_clearFourth (s : State) : WindowInv s.clearFourth := by
  have closed : ∀ x : State, x.host.heldRead = false → x.idleWindow.WindowClosed :=
    fun x held => ⟨.inl rfl, rfl, held, discardRead_ne x.port.op⟩
  unfold State.clearFourth
  split
  · exact (closed s.answerError rfl).inv.endCommand .ok
  next held => exact (closed s (by simpa using held)).inv.endCommand .ok

end Slots

/-! ### The host's accesses (R123, R126, R127) -/

section Accesses

variable {s : State}

theorem WindowInv.readWindow (h : WindowInv s) : WindowInv s.readWindow := by
  unfold State.readWindow
  split
  · exact h.same (held := nofun)
  · exact h.same (held := nofun)
  next ready => exact (h.windowReady ready).answerReady
  next fetching => exact ⟨fun _ => fetching, h.current, h.fetching_of_request, fun _ _ _ => h.fetching_of_read⟩

/-- A pointing leaves FETCHING with the request or READY on a current handle, and STALE otherwise (R123). -/
theorem windowInv_point (free : s.host.heldRead = false) (o : Word) : WindowInv (s.point o) := by
  have discarded := discardRead_ne s.port.op
  cases handle : s.currentHandle s.window.handleReg with
  | none =>
    have mode : s.pointedMode s.window.handleReg o = (.stale, none) := State.pointedMode_stale handle o
    exact State.WindowClosed.inv ⟨.inr (congrArg Prod.fst mode), congrArg Prod.snd mode, free, discarded⟩
  | some x =>
    have mode := State.pointedMode_current handle o
    have current : (s.currentHandle s.window.handleReg).isSome = true := by rw [handle]; rfl
    split at mode
    · refine ⟨fun _ => congrArg Prod.fst mode, fun _ => current, fun _ => congrArg Prod.fst mode,
        fun k p d op => absurd op (discarded k p d)⟩
    · exact State.WindowReady.inv ⟨congrArg Prod.fst mode, current, congrArg Prod.snd mode, discarded⟩ free

theorem WindowInv.writeWinOffset (h : WindowInv s) (free : s.host.heldRead = false) (v : Word) :
    WindowInv (s.writeWinOffset v) := by
  unfold State.writeWinOffset
  split
  · exact h.same
  · split
    · exact windowInv_point (by simpa using free) _
    · exact windowInv_point free _

theorem WindowInv.writeWord (h : WindowInv s) (free : s.host.heldRead = false) (a : BitVec 7) (v : Word) :
    WindowInv (s.writeWord a v) := by
  unfold State.writeWord
  split
  case h_15 => exact h.writeWinOffset free v
  all_goals exact h.same

end Accesses

/-! ### Every act -/

theorem WindowInv.act {s t : State} (h : WindowInv s) (ha : State.Act s t) : WindowInv t := by
  cases ha
  case readsZero _ => exact h
  case hardReset => exact windowInv_reset
  case arbitrate free => exact h.arbitrate free
  case finishWrite l _ _ => exact h.same (op := by simp [State.op_finishWrite])
  case finishRead inFlight _ => exact h.finishRead inFlight
  case expireHold i x _ => exact h.expireHold i x
  case take u _ => exact h.doTake u
  case release x _ => exact h.doRelease x
  case returnRecord x _ => exact h.doReturn x
  case clearSecond _ _ => exact h.clearSecond
  case clearFourth _ => exact windowInv_clearFourth s
  case readWindow _ => exact h.readWindow
  case abandonRead => exact h.same (held := nofun)
  case writeWord a v free => exact h.writeWord free a v
  all_goals exact h.same

/-- Settles O58: every act of the part keeps the window as `WindowInv` says, so every step does. -/
theorem stepKeepsWindow : Obligations.StepKeepsWindow :=
  State.Act.invariant (fun _ _ h => h) fun _ _ h ha => h.act ha

end Sys2Proof.Machine
end

section
/-! CELL_READ_COMPLETE, POINTING, WIN_HANDLE_WRITE and WIN_DATA_READ (R122 to R129, R173, R175): what each does to the Data Window
and to the lines, and what it leaves. -/

namespace Sys2Proof.Machine

/-! ### A read that is answered in READY (R126, R128) -/

section Answers

variable {s : State}

/-- The two body bytes at the offset, 00h for the low one beyond the last (R126). -/
theorem State.windowWord_eq {p : Nat} {bytes : List Byte} (buffer : s.window.buffer = some (p, bytes)) :
    s.windowWord = bytes.getD (s.window.offset.toNat % 64) 0
      ++ (if s.window.offset.toNat + 1 = s.windowLength then 0 else bytes.getD ((s.window.offset.toNat + 1) % 64) 0) := by
  have byte : ∀ o, s.window.byteAt o = bytes.getD (o % 64) 0 := fun o => by rw [Window.byteAt, buffer]; rfl
  rw [State.windowWord, byte, byte]
  rfl

/-- The read stands at a cell boundary below the Length once it has moved on (R126). -/
abbrev State.crossesCell (s : State) : Prop :=
  (s.window.offset.toNat + 2) % 64 = 0 ∧ s.window.offset.toNat + 2 < s.windowLength

theorem State.answerReady_below (below : s.window.offset.toNat < s.windowLength) : s.answerReady = { s with
    window := { s.window with
      offset := s.window.offset + 2
      mode := if s.crossesCell then .fetching else .ready
      request := if s.crossesCell then some ((s.window.offset.toNat + 2) / 64) else s.window.request }
    host := { s.host with driven := some s.windowWord, heldRead := false } } := by
  rw [State.answerReady, if_pos below]
  rfl

theorem State.answerReady_pastEnd (beyond : s.windowLength ≤ s.window.offset.toNat) : s.answerReady = { s with
    window := { s.window with pastEnd := true }, host := { s.host with driven := some 0, heldRead := false } } := by
  rw [State.answerReady, if_neg (Nat.not_lt.mpr beyond)]
  rfl

theorem State.answerReady_only (s : State) :
    s.answerReady = { s with window := s.answerReady.window, host := s.answerReady.host } := by
  unfold State.answerReady
  split <;> rfl

end Answers

/-! ### CELL_READ_COMPLETE (R125, R127) -/

section CellRead

variable {s : State} {k : CellId} {p : Nat} {d : DescId}

theorem State.length_readCell (s : State) (k : CellId) (suspect : Bool) : (s.readCell k suspect).length = 64 := by
  simp [State.readCell, Config.cellBytes]

theorem exec_cellReadComplete {discard : Bool} (high : s.host.resetHigh = true) (ends : s.opMayEnd)
    (op : s.port.op = some (.read k p d discard)) : exec .cellReadComplete s = .next s.finishRead := by
  have inFlight : s.readInFlight = true := by rw [State.readInFlight, op]; rfl
  exact act_of_enabled high (by rw [inFlight, s.portEnds_iff.mpr ends]; rfl)

theorem State.finishRead_unheld (op : s.port.op = some (.read k p d false)) (free : s.host.heldRead = false) :
    s.finishRead = s.filled k p d := by
  rw [State.finishRead_filled op, free]; rfl

theorem State.finishRead_held (op : s.port.op = some (.read k p d false)) (held : s.host.heldRead = true) :
    s.finishRead = (s.filled k p d).answerReady := by
  rw [State.finishRead_filled op, held]; rfl

/-- A completed read changes the window, a held read, the port and the epoch of free values, and nothing else. -/
theorem State.finishRead_only (op : s.port.op = some (.read k p d false)) : s.finishRead = { s with
    window := s.finishRead.window, host := s.finishRead.host, port := s.port.freed, epoch := s.finishRead.epoch } := by
  cases held : s.host.heldRead with
  | false => rw [State.finishRead_unheld op held]; rfl
  | true => rw [State.finishRead_held op held, State.answerReady_only]; rfl

theorem State.epoch_finishRead (op : s.port.op = some (.read k p d false)) :
    s.finishRead.epoch = if (s.desc d).suspect then s.epoch + 1 else s.epoch := by
  cases held : s.host.heldRead with
  | false => rw [State.finishRead_unheld op held]; rfl
  | true => rw [State.finishRead_held op held, State.answerReady_only]; rfl

end CellRead

/-- Settles O21: the read fills the buffer (`State.filled`), and a held read is answered from it (`State.answerReady_below`). -/
theorem cellReadFillsTheBuffer : Obligations.CellReadFillsTheBuffer := by
  intro s k p d discard high ends op
  refine ⟨fun discarded => ?_, fun kept => ?_⟩
  · subst discarded
    rw [exec_cellReadComplete high ends op, State.finishRead_discarded op]
  · subst kept
    refine ⟨s.finishRead, s.readCell k (s.desc d).suspect, exec_cellReadComplete high ends op, s.length_readCell _ _,
      fun clear => ?_, fun free => ?_, fun held below => ?_, State.finishRead_only op⟩
    · rw [State.epoch_finishRead op, clear]
      exact ⟨s.readCell_clear k, rfl⟩
    · rw [State.finishRead_unheld op free]
      exact ⟨rfl, rfl⟩
    · have word := State.windowWord_eq (s := s.filled k p d) rfl
      rw [State.finishRead_held op held, State.answerReady_below (s := s.filled k p d) below, word]
      refine ⟨rfl, rfl, ?_⟩
      by_cases crosses : s.crossesCell
      · rw [if_pos crosses]
        exact ⟨if_pos crosses, if_pos crosses⟩
      · rw [if_neg crosses]
        exact ⟨if_neg crosses, if_neg crosses⟩

/-! ### POINTING (R123) -/

section Pointing

variable {s : State}

/-- A handle is current where its slot is HELD at its Generation (R101). -/
theorem State.currentHandle_eq {x : Byte} {i : SlotId} (hi : i.val = x.toNat % 16) : s.currentHandle x
    = if (s.slot i).generation.toNat = x.toNat / 16 then (s.slot i).held else none := by
  have slot : handleSlot x = i := Fin.ext (by simp [handleSlot, BitVec.extractLsb'_toNat, hi])
  have generation : (handleGeneration x).toNat = x.toNat / 16 := by
    have := x.isLt
    simp [handleGeneration, BitVec.extractLsb'_toNat, Nat.shiftRight_eq_div_pow]
    omega
  unfold State.currentHandle
  rw [slot, ← generation]
  simp only [BitVec.toNat_inj]

theorem State.writeWinOffset_ignored {v : Word} (large : 4096 ≤ v.toNat) : s.writeWinOffset v = s.configError := by
  rw [State.writeWinOffset, if_pos large]

/-- A write below 4096 points at the even offset, after a CONFIG_ERROR where it is odd (R123). -/
theorem State.writeWinOffset_points {v : Word} (small : v.toNat < 4096) : ∃ events counts o,
    s.writeWinOffset v = ({ s with events := events, counts := counts } : State).point o ∧ o.toNat = v.toNat / 2 * 2
      ∧ (v.toNat % 2 = 0 → events = s.events ∧ counts = s.counts)
      ∧ (v.toNat % 2 = 1 → events = s.configError.events ∧ counts = s.configError.counts) := by
  have bit : v.getLsbD 0 = decide (v.toNat % 2 = 1) := by simp [BitVec.getLsbD, Nat.testBit_zero]
  rw [State.writeWinOffset, if_neg (Nat.not_le.mpr small), bit]
  by_cases odd : v.toNat % 2 = 1
  · rw [decide_eq_true odd]
    refine ⟨s.configError.events, s.configError.counts, v - 1, rfl, ?_, fun even => by omega, fun _ => ⟨rfl, rfl⟩⟩
    bv_omega
  · rw [decide_eq_false odd]
    exact ⟨s.events, s.counts, v, rfl, by omega, fun _ => ⟨rfl, rfl⟩, fun h => absurd h odd⟩

/-- The window and the port's operation are as after a pointing at the even offset at or below n, in the words of the statement
(R123). -/
structure State.Pointed (s t : State) (n : Nat) : Prop where
  handleReg : t.window.handleReg = s.window.handleReg
  pointed : t.window.pointed = s.window.handleReg
  offset : t.window.offset.toNat = n / 2 * 2
  pastEnd : t.window.pastEnd = false
  buffer : t.window.buffer = none
  stale : ∀ i : SlotId, i.val = s.window.handleReg.toNat % 16 →
    (s.slot i).held = none ∨ (s.slot i).generation.toNat ≠ s.window.handleReg.toNat / 16 →
    t.window.mode = .stale ∧ t.window.request = none
  current : ∀ i : SlotId, i.val = s.window.handleReg.toNat % 16 →
    ∀ h, (s.slot i).held = some h → (s.slot i).generation.toNat = s.window.handleReg.toNat / 16 →
    if n / 2 * 2 < (s.desc h.desc).length.toNat then t.window.mode = .fetching ∧ t.window.request = some (n / 64)
      else t.window.mode = .ready ∧ t.window.request = none
  op : t.port.op = discardRead s.port.op

/-- A pointing leaves the window so whatever the event latches and the counters are. -/
theorem State.pointed_point (s : State) (events : Events) (counts : Counters) {o : Word} {n : Nat}
    (even : o.toNat = n / 2 * 2) : s.Pointed (({ s with events := events, counts := counts } : State).point o) n where
  handleReg := rfl
  pointed := rfl
  offset := even
  pastEnd := rfl
  buffer := rfl
  stale i hi holding := by
    have stale : s.currentHandle s.window.handleReg = none := by
      rw [State.currentHandle_eq hi]
      rcases holding with empty | other
      · rw [empty, ite_self]
      · rw [if_neg other]
    have mode := State.pointedMode_stale stale o
    exact ⟨congrArg Prod.fst mode, congrArg Prod.snd mode⟩
  current i hi h held same := by
    have current : s.currentHandle s.window.handleReg = some h := by rw [State.currentHandle_eq hi, if_pos same, held]
    have mode := State.pointedMode_current current o
    have cell : o.toNat / 64 = n / 64 := by omega
    rw [cell, even] at mode
    split
    next below => rw [if_pos below] at mode; exact ⟨congrArg Prod.fst mode, congrArg Prod.snd mode⟩
    next beyond => rw [if_neg beyond] at mode; exact ⟨congrArg Prod.fst mode, congrArg Prod.snd mode⟩
  op := rfl

end Pointing

/-- Settles O44: a large offset is ignored, and any other is pointed at, the accounts by its parity. -/
theorem pointingTheWindow : Obligations.PointingTheWindow := by
  intro s v error takes herror
  subst herror
  have written : exec (.pointing v) s = .next (s.writeWinOffset v) := hostAccess_of_takes takes
  rw [written]
  refine ⟨fun large => congrArg _ (State.writeWinOffset_ignored large), fun small => ?_⟩
  obtain ⟨events, counts, o, points, even, unchanged, error⟩ := State.writeWinOffset_points (s := s) small
  have pointed := s.pointed_point events counts even
  exact ⟨_, congrArg _ points, pointed.handleReg, pointed.pointed, pointed.offset, pointed.pastEnd, pointed.buffer,
    fun i hi => ⟨pointed.stale i hi, pointed.current i hi⟩, pointed.op, unchanged, error, rfl⟩

/-! ### WIN_HANDLE_WRITE (R122) -/

/-- Settles O45: the write, and what the register reads. -/
theorem winHandleWrite : Obligations.WinHandleWrite := by
  intro s v takes
  refine ⟨hostAccess_of_takes takes, ?_⟩
  obtain ⟨high, -, -⟩ := takes
  rw [State.busWord, if_pos high]
  show s.window.handleReg.setWidth 16 = _
  exact BitVec.setWidth_eq_append (by decide)

/-! ### WIN_DATA_READ (R126 to R129, R175) -/

section DataRead

variable {s : State}

theorem exec_winDataRead (takes : s.takesAccess) : exec .winDataRead s = .next s.readWindow := hostRead_of_takes takes

/-- With no read held, an answer drives the lines and does nothing else to the Host Port (R173). -/
theorem HostPort.answered {x : HostPort} (free : x.heldRead = false) (word : Option Word) :
    { x with driven := word, heldRead := false } = { x with driven := word } :=
  HostPort.ext_fields rfl free.symm rfl

theorem State.readWindow_ready (mode : s.window.mode = .ready) : s.readWindow = s.answerReady := by
  rw [State.readWindow, mode]

theorem State.readWindow_error (mode : s.window.mode = .idle ∨ s.window.mode = .stale) : s.readWindow = s.answerError := by
  rcases mode with mode | mode <;> rw [State.readWindow, mode]

theorem State.readWindow_fetching (mode : s.window.mode = .fetching) :
    s.readWindow = { s with host := { s.host with heldRead := true, driven := none } } := by
  rw [State.readWindow, mode]

end DataRead

/-- Settles O46: one case for each state of the window. -/
theorem winDataRead : Obligations.WinDataRead := by
  refine ⟨fun s n takes mode length => ?_, fun s => ⟨fun takes mode => ?_, fun takes mode => ?_, fun held => ?_, rfl⟩⟩
  · subst length
    rw [exec_winDataRead takes, State.readWindow_ready mode]
    obtain ⟨-, free, -⟩ := takes
    refine ⟨fun p bytes buffer below => ?_, fun beyond => ?_⟩
    · rw [State.answerReady_below below, State.windowWord_eq buffer, HostPort.answered free]
    · rw [State.answerReady_pastEnd beyond, HostPort.answered free]
  · rw [exec_winDataRead takes, State.readWindow_error mode]
    obtain ⟨-, free, -⟩ := takes
    rw [← HostPort.answered free]
    rfl
  · rw [exec_winDataRead takes, State.readWindow_fetching mode]
    obtain ⟨-, -, released⟩ := takes
    rw [← released]
  · rw [State.rdyHigh, held]
    rfl

end Sys2Proof.Machine
end

section
/-! PORT_GRANT (R136, R137), REFRESH_COMPLETE and INTERVAL_EXPIRY (R134, R138 to R141), and the writes of REFRESH_CFG and POOL_LOW
(R140, R75). -/

namespace Sys2Proof.Machine

/-! ### The arbiter's choice (R136) -/

section Grants

variable {s : State}

theorem exec_portGrant (high : s.host.resetHigh = true) (free : s.port.op = none) :
    exec .portGrant s = .next s.arbitrate :=
  act_of_enabled high (by rw [State.portFree, free]; rfl)

/-- A refresh is begun, and the balance falls by 1 (R134, R138). -/
theorem State.grantRefresh_eq (s : State) : s.grantRefresh = { s with
    port := { s.port.started .refresh 64 with balance := s.port.balance - 1 } } := rfl

theorem State.arbitrate_owed (owed : 6 ≤ s.port.balance) : s.arbitrate = s.grantRefresh := by
  rw [State.arbitrate, if_pos owed]

theorem State.nextRequester_none (idle : ∀ r, s.requesterWaiting r = false) : s.nextRequester = none := by
  rw [State.nextRequester, List.find?_eq_none]
  exact fun r _ waiting => Bool.false_ne_true ((idle r).symm.trans waiting)

theorem State.arbitrate_idle (below : s.port.balance < 6) (idle : ∀ r, s.requesterWaiting r = false) :
    s.arbitrate = if -8 < s.port.balance then s.grantRefresh else s := by
  rw [State.arbitrate, if_neg (not_le.mpr below), State.nextRequester_none idle]

theorem State.arbitrate_requester {r : Requester} (below : s.port.balance < 6) (next : s.nextRequester = some r) :
    s.arbitrate = s.grantRequester r := by
  rw [State.arbitrate, if_neg (not_le.mpr below), next]

/-- A lane's oldest PENDING cell becomes WRITING (R32). -/
theorem State.grantRequester_lane {r : Requester} {l : LaneId} {i : Fin 4} {c : Staged} (lane : r.val = l.val)
    (oldest : (s.lane l).unit.order.head? = some i) (pending : (s.lane l).unit.staging[i.val] = .pending c) :
    s.grantRequester r = { s.setUnit l { (s.lane l).unit with
        order := (s.lane l).unit.order.tail, staging := (s.lane l).unit.staging.set i.val (.writing c) } with
      port := { s.port.started (.write l) 16 with position := r } } := by
  have next : (s.lane l).unit.nextWrite = some (i, c) := by
    obtain ⟨rest, order⟩ := List.head?_eq_some_iff.mp oldest
    rw [Reception.nextWrite, order]
    dsimp only
    rw [pending]
  have inRange : r.val < 8 := lane ▸ l.isLt
  have named : (⟨r.val, inRange⟩ : LaneId) = l := Fin.ext lane
  rw [State.grantRequester, dif_pos inRange, named, State.grantWrite, next]
  rfl

/-- The window's request becomes the read of the cell its chain position names (R125, R60). -/
theorem State.grantRequester_window {p : Nat} {h : Holding} (request : s.window.request = some p)
    (holding : s.pointedHolding = some h) : s.grantRequester 8 = { s with
      window := { s.window with request := none }
      port := { s.port.started (.read (s.chainCellAt h.desc p) p h.desc false) 16 with position := 8 } } := by
  rw [State.grantRequester, dif_neg (by decide), State.grantRead, request, holding]
  rfl

end Grants

/-- Settles O18: a refresh that is owed, the first requester waiting (`State.nextRequester_first`), a refresh ahead of time, or
nothing. -/
theorem portGrant : Obligations.PortGrant := by
  refine ⟨fun s high free => ⟨fun owed => ?_, fun below idle => ⟨fun above => ?_, fun full => ?_⟩⟩,
    fun s k r high free below place earlier waiting =>
      ⟨fun l i c lane oldest pending => ?_, fun p h window request holding => ?_⟩⟩
  · rw [exec_portGrant high free, State.arbitrate_owed owed, State.grantRefresh_eq]
  · rw [exec_portGrant high free, State.arbitrate_idle below idle, if_pos above, State.grantRefresh_eq]
  · rw [exec_portGrant high free, State.arbitrate_idle below idle, if_neg (not_lt.mpr full)]
  · have next := s.nextRequester_first k r place earlier waiting
    rw [exec_portGrant high free, State.arbitrate_requester below next, State.grantRequester_lane lane oldest pending]
  · have next := s.nextRequester_first k r place earlier waiting
    subst window
    rw [exec_portGrant high free, State.arbitrate_requester below next, State.grantRequester_window request holding]

/-! ### The end of a refresh and the expiry of the interval (R134, R138 to R141) -/

section Expiry

variable {s : State}

theorem exec_refreshComplete (high : s.host.resetHigh = true) (op : s.port.op = some .refresh) (ends : s.opMayEnd) :
    exec .refreshComplete s = .next s.finishRefresh :=
  act_of_enabled high (by rw [op, s.portEnds_iff.mpr ends]; rfl)

theorem exec_intervalExpiry (high : s.host.resetHigh = true) (due : s.port.left ≤ 4) :
    exec .intervalExpiry s = .next s.intervalExpiry :=
  act_of_enabled high (decide_eq_true due)

/-- One of the part's own acts is refused by name where its rule does not let it happen (entry 4). -/
theorem act_of_not_enabled {n : String} {b : Bool} {x : State} (disabled : b = false) :
    act n s b x = .refused (.notEnabled n) := by
  rw [act, disabled, Bool.and_false]
  rfl

/-- No operation of the port ends before its time (R134). -/
theorem exec_completions_early (early : ¬ s.opMayEnd) :
    exec .cellWriteComplete s = .refused (.notEnabled "CELL_WRITE_COMPLETE")
      ∧ exec .cellReadComplete s = .refused (.notEnabled "CELL_READ_COMPLETE")
      ∧ exec .refreshComplete s = .refused (.notEnabled "REFRESH_COMPLETE") := by
  have never := State.portEnds_eq_false early
  have both : ∀ b, (b && s.portEnds) = false := fun b => by rw [never, Bool.and_false]
  refine ⟨?_, act_of_not_enabled (both _), act_of_not_enabled (both _)⟩
  show execCellWriteComplete s = _
  unfold execCellWriteComplete
  split
  · exact act_of_not_enabled never
  · exact act_of_not_enabled rfl

/-- Below +8 an expiry owes one more refresh (R138). -/
theorem State.intervalExpiry_owes (below : s.port.balance < 8) : s.intervalExpiry = { s with
    port := { s.port.nextInterval with balance := s.port.balance + 1 } } := by
  rw [State.intervalExpiry, if_pos below]
  rfl

/-- At +8 it is a Late refresh (R141). -/
theorem State.intervalExpiry_late (full : 8 ≤ s.port.balance) :
    s.intervalExpiry = s.lateRefresh.startInterval := by
  rw [State.intervalExpiry, if_neg (not_lt.mpr full)]

/-! ### A Late refresh (R141) -/

/-- While the pool is INITIALIZING there is none to mark (entry 13). -/
theorem State.markSuspects_building (building : s.pool.ready = false) : s.markSuspects = s := by
  rw [State.markSuspects, building]
  rfl

/-- The Late refresh itself, in the words of the statement (R141). -/
theorem State.lateRefresh_eq (s : State) : s.lateRefresh = { s with
    pool := { s.pool with descs := s.markSuspects.pool.descs }
    counts := (s.bumpDevice .refreshLate).counts
    events := { s.events with latches := s.events.latches ||| 0x0020 }
    epoch := s.epoch + 1 } := by
  unfold State.lateRefresh State.markSuspects
  split
  next ready => rw [if_pos (show s.pool.ready = true from ready)]; rfl
  next building => rw [if_neg (show ¬ s.pool.ready = true from building)]; rfl

end Expiry

/-- Settles O22: the port once the refresh has ended, and the expiry below +8 and at +8 (`State.lateRefresh_eq`). -/
theorem refreshCompletionAndIntervalExpiry : Obligations.RefreshCompletionAndIntervalExpiry := by
  refine ⟨fun s high op ends => exec_refreshComplete high op ends,
    fun s high due => ⟨fun below => ?_, fun full => ?_⟩,
    fun s later => act_of_not_enabled (decide_eq_false (not_le.mpr later)), fun s early => exec_completions_early early⟩
  · rw [exec_intervalExpiry high due, State.intervalExpiry_owes below]
  · rw [exec_intervalExpiry high due, State.intervalExpiry_late full, State.startInterval_eq, State.lateRefresh_eq]
    refine ⟨_, rfl, rfl, s.desc_markSuspects, fun building => ?_,
      s.deviceCount_bumpDevice_self .refreshLate,
      ⟨fun _ _ _ => rfl, fun _ _ _ => rfl, fun k other => s.deviceCount_bumpDevice_ne (by simpa using other)⟩, rfl, rfl⟩
    rw [State.markSuspects_building building]

/-! ### The writes of REFRESH_CFG and POOL_LOW (R140, R75) -/

/-- A low byte of 00h is illegal, every other is the Refresh Interval (R140). -/
theorem State.writeRefreshCfg_eq (s : State) (v : Word) : s.writeRefreshCfg v
    = if v.toNat % 256 = 0 then s.configError else { s with port := { s.port with interval := v.extractLsb' 0 8 } } := by
  have low : argLow v = 0 ↔ v.toNat % 256 = 0 := by
    rw [← BitVec.toNat_inj, argLow, BitVec.extractLsb'_toNat]
    rfl
  rw [State.writeRefreshCfg]
  simp only [low]
  rfl

/-- Settles O50: each write by its legality. -/
theorem refreshCfgAndPoolLowWrites : Obligations.RefreshCfgAndPoolLowWrites := by
  intro s v error takes herror
  subst herror
  have refresh : exec (.refreshCfgWrite v) s = .next (s.writeRefreshCfg v) := hostAccess_of_takes takes
  have pool : exec (.poolLowWrite v) s = .next (s.writePoolLow v) := hostAccess_of_takes takes
  rw [refresh, pool, State.writeRefreshCfg_eq]
  exact ⟨rfl, rfl⟩

end Sys2Proof.Machine
end

section
/-! The account of refresh (R138) and a starved port (R144): what each act of the memory port does to the balance and to the port's
times, and that every other act leaves both. -/

namespace Sys2Proof.Machine

/-! ### What an operation that ends leaves of the port (R134) -/

/-- However a cell write ends, it frees the port. -/
theorem State.port_finishWrite (s : State) (l : LaneId) : (s.finishWrite l).port = s.port.freed := by
  unfold State.finishWrite
  dsimp only
  split
  · rfl
  · split
    · rfl
    · split
      · rfl
      · simp [State.freePort_eq]

theorem State.port_finishRead {s : State} (inFlight : s.readInFlight = true) : s.finishRead.port = s.port.freed := by
  obtain ⟨k, p, d, discard, op⟩ := State.readInFlight_cases inFlight
  cases discard with
  | true => rw [State.finishRead_discarded op]
  | false => rw [State.finishRead_only op]

theorem State.port_countMicrosecond (s : State) : s.countMicrosecond.port = s.port.nextMicrosecond := by
  unfold State.countMicrosecond
  split <;> rfl

/-- An expiry starts the next interval, and owes a refresh below +8 (R138, R139). -/
theorem State.port_intervalExpiry (s : State) : s.intervalExpiry.port = { s.port.nextInterval with
    balance := if s.port.balance < 8 then s.port.balance + 1 else s.port.balance } := by
  split
  next below => rw [State.intervalExpiry_owes below]
  next full => rw [State.intervalExpiry_late (not_lt.mp full), State.startInterval_eq, State.lateRefresh_eq]; rfl

/-! ### The balance lies between -8 and +8 (R138) -/

namespace RefreshInv

variable {s t : State}

theorem same (h : RefreshInv s) (balance : t.port.balance = s.port.balance := by simp)
    (reached : t.port.times.reached = s.port.times.reached := by simp) : RefreshInv t := by
  unfold RefreshInv
  rw [balance, reached]
  exact h

/-- An operation that ends when it may ends within the microsecond (R134). -/
theorem freed (h : RefreshInv s) (ends : s.portEnds = true) (balance : t.port.balance = s.port.balance := by simp)
    (times : t.port.times = s.port.freed.times) : RefreshInv t := by
  obtain ⟨low, high, reached⟩ := h
  obtain ⟨inTime, -⟩ := s.portEnds_iff.mp ends
  unfold RefreshInv
  rw [balance, times]
  exact ⟨low, high, max_le reached inTime⟩

/-- A refresh is granted at a balance above -8 only, and no other grant moves it (R136, R138). -/
theorem arbitrate (h : RefreshInv s) : RefreshInv s.arbitrate := by
  obtain ⟨low, high, reached⟩ := h
  have refreshed : -8 < s.port.balance → RefreshInv s.grantRefresh := fun above =>
    ⟨by rw [State.balance_grantRefresh]; omega, by rw [State.balance_grantRefresh]; omega, reached⟩
  unfold State.arbitrate
  split
  next owed => exact refreshed (by omega)
  next =>
    split
    · exact same ⟨low, high, reached⟩
    · split
      next above => exact refreshed above
      next => exact ⟨low, high, reached⟩

/-- An expiry raises the balance below +8 only, and one that is due falls within the microsecond (R138, R139). -/
theorem intervalExpiry (h : RefreshInv s) (due : s.port.left ≤ unitsPerMicrosecond) : RefreshInv s.intervalExpiry := by
  obtain ⟨low, high, reached⟩ := h
  unfold unitsPerMicrosecond at due
  unfold RefreshInv
  rw [State.port_intervalExpiry]
  dsimp only [Port.nextInterval]
  refine ⟨?_, ?_, by omega⟩
  · split <;> omega
  · split <;> omega

theorem countMicrosecond (h : RefreshInv s) : RefreshInv s.countMicrosecond := by
  obtain ⟨low, high, -⟩ := h
  unfold RefreshInv
  rw [State.port_countMicrosecond]
  exact ⟨low, high, Nat.zero_le _⟩

theorem act (h : RefreshInv s) (ha : State.Act s t) : RefreshInv t := by
  cases ha
  case readsZero _ => exact h
  case hardReset => exact refreshInv_reset
  case arbitrate _ => exact h.arbitrate
  case finishWrite l _ ends => exact h.freed ends (times := congrArg Port.times (s.port_finishWrite l))
  case finishRead inFlight ends => exact h.freed ends (times := congrArg Port.times (State.port_finishRead inFlight))
  case finishRefresh _ ends => exact h.freed ends (times := rfl)
  case intervalExpiry due => exact h.intervalExpiry due
  case countMicrosecond _ => exact h.countMicrosecond
  all_goals exact h.same

end RefreshInv

/-! ### Commands that leave the account alone -/

namespace AccountKept

variable {s : State}

theorem doRelease (s : State) (x : Byte) : AccountKept s (s.doRelease x) := by
  unfold State.doRelease
  split
  · exact .of_port
  next g _ =>
    have freed : AccountKept s ((s.freeRecord g.desc).lowerHeld (s.desc g.desc).stream) := .of_port
    exact (freed.trans (.emptySlot _ (handleSlot x))).trans .of_port

theorem doReturn (s : State) (x : Byte) : AccountKept s (s.doReturn x) := by
  unfold State.doReturn
  split
  · exact .of_port
  next g _ =>
    have queued : AccountKept s (s.requeue g.desc) := .of_port
    exact (queued.trans (.emptySlot _ (handleSlot x))).trans .of_port

theorem clearSecond (s : State) : AccountKept s s.clearSecond := by
  have closed : AccountKept s s.clearHolds := by
    unfold State.clearHolds
    split
    · exact .staleWindow s
    · exact .refl s
  exact closed.trans (.of_port rfl rfl)

theorem clearFourth (s : State) : AccountKept s s.clearFourth := by
  have idle : ∀ x : State, AccountKept x (x.idleWindow.endCommand .ok) := fun x =>
    AccountKept.trans (t := x.idleWindow) (.discard x Window.reset) .of_port
  unfold State.clearFourth
  split
  · exact AccountKept.trans .of_port (idle s.answerError)
  · exact idle s

theorem holdStep (s : State) : AccountKept s s.holdStep := .holdSteps s 1

/-- A command whose argument names nothing is its end act alone (entry 16). -/
theorem onStream {work : StreamId → State} (k : ∀ u, AccountKept s (work u)) : AccountKept s (s.onStream work) := by
  unfold State.onStream; split
  · exact k _
  · exact .of_port

theorem onTable {work : TableEntry → State} (k : ∀ e, AccountKept s (work e)) : AccountKept s (s.onTable work) := by
  unfold State.onTable; split
  · exact k _
  · exact .of_port

theorem onGroup {work : CounterGroup → State} (k : ∀ g, AccountKept s (work g)) : AccountKept s (s.onGroup work) := by
  unfold State.onGroup; split
  · exact k _
  · exact .of_port

end AccountKept

/-! ### A starved port (R144) -/

namespace StarvedInv

variable {s t x : State}

/-- A refresh granted at +6 leaves +5, and an expiry before it can end (R134, R144). -/
theorem grantRefresh (h : StarvedInv s) (free : s.port.op = none) : StarvedInv s.grantRefresh := by
  obtain ⟨high, interval, reached, near, owed, -⟩ := h
  have balance : 6 ≤ s.port.balance := owed (by rw [free]; exact nofun)
  refine ⟨high, interval, reached, near, fun other => absurd s.op_grantRefresh other, fun _ => ⟨?_, fun _ => ?_⟩⟩
  · rw [State.balance_grantRefresh]; omega
  · show 25 * s.port.left < s.port.times.reached + 64
    omega

theorem ofAct {n : String} {b : Bool} (h : StarvedInv s) (next : act n s b x = .next t) (k : AccountKept s x) :
    StarvedInv t := by
  rw [act_next next]
  exact h.kept k

/-- An operation of the port that is ended leaves it starved (R134, R144). -/
theorem ended (h : StarvedInv s) (ends : s.portEnds = true) (op : t.port.op = none) (times : t.port.times = s.port.freed.times)
    (reset : t.host.resetHigh = s.host.resetHigh := by simp) (balance : t.port.balance = s.port.balance := by simp)
    (interval : t.port.interval = s.port.interval := by simp) (left : t.port.left = s.port.left := by simp) :
    StarvedInv t :=
  h.freed (s.portEnds_iff.mp ends) reset balance interval left op times

/-- A read of a register leaves a port starved (R173). -/
theorem hostRead (h : StarvedInv s) (next : hostRead s x = .next t) (k : AccountKept s x) : StarvedInv t := by
  rcases hostRead_next next with ⟨_, rfl⟩ | ⟨_, _, rfl⟩ | ⟨_, _, rfl⟩
  · exact h
  · exact h.kept k
  · exact h.kept .of_port

end StarvedInv

/-- A write by the host is the write of its word, at the word's address (R173). -/
theorem exec_of_isHostWrite {c : Instr} (write : c.isHostWrite = true) (s : State) :
    ∃ a v, exec c s = hostAccess s (s.writeWord a v) := by
  cases c
  case purge => exact ⟨0x0C, 0x0005, rfl⟩
  case clear => exact ⟨0x0C, 0x0006, rfl⟩
  case collision v | commandAcceptance v => exact ⟨0x0C, v, rfl⟩
  case pointing v => exact ⟨0x29, v, rfl⟩
  case winHandleWrite v => exact ⟨0x28, v, rfl⟩
  case eventLatchWrite v => exact ⟨0x30, v, rfl⟩
  case eventEnableWrite v => exact ⟨0x31, v, rfl⟩
  case wmarkWrite half v =>
    cases half
    · exact ⟨0x36, v, rfl⟩
    · exact ⟨0x37, v, rfl⟩
  case wmarkEnWrite half v =>
    cases half
    · exact ⟨0x3C, v, rfl⟩
    · exact ⟨0x3D, v, rfl⟩
  case readyEnWrite half v =>
    cases half
    · exact ⟨0x34, v, rfl⟩
    · exact ⟨0x35, v, rfl⟩
  case refreshCfgWrite v => exact ⟨0x07, v, rfl⟩
  case poolLowWrite v => exact ⟨0x08, v, rfl⟩
  case holdLimitWrite v => exact ⟨0x09, v, rfl⟩
  case registerWrite a v => exact ⟨a, v, rfl⟩
  all_goals cases write

theorem StarvedInv.ofWrite {c : Instr} {s t : State} (h : StarvedInv s) (next : exec c s = .next t)
    (interval : t.port.interval = 1 ∨ t.port.interval = 2) (write : c.isHostWrite = true) : StarvedInv t := by
  obtain ⟨a, v, word⟩ := exec_of_isHostWrite write s
  exact h.hostWrite (word ▸ next) interval

/-- Every command that leaves the Refresh Interval at 1 or 2 units leaves a starved port starved (R144). -/
theorem StarvedInv.exec {c : Instr} {s t : State} (h : StarvedInv s) (next : exec c s = .next t)
    (interval : t.port.interval = 1 ∨ t.port.interval = 2) : StarvedInv t := by
  cases c
  case hardReset =>
    cases next
    have reset : Config.resetInterval = 1 ∨ Config.resetInterval = 2 := interval
    exact absurd reset (by decide)
  case resetRelease =>
    cases next
    rw [if_pos h.1]
    exact h
  case candidate | provisionalHeader | header | bodyByte | trailerCheck | laneClockEdge =>
    cases next; exact h.kept .of_port
  case portGrant =>
    obtain ⟨_, free, rfl⟩ := act_next_iff.mp next
    have free : s.port.op = none := by simpa [State.portFree] using free
    rw [h.arbitrate free]
    exact h.grantRefresh free
  case cellWriteComplete =>
    simp only [Machine.exec, execCellWriteComplete] at next
    split at next
    next l _ =>
      obtain ⟨_, ends, rfl⟩ := act_next_iff.mp next
      exact h.ended ends (congrArg Port.op (s.port_finishWrite l)) (congrArg Port.times (s.port_finishWrite l))
    next =>
      obtain ⟨_, never, _⟩ := act_next_iff.mp next
      cases never
  case cellReadComplete =>
    obtain ⟨_, enabled, rfl⟩ := act_next_iff.mp next
    obtain ⟨inFlight, ends⟩ := Bool.and_eq_true_iff.mp enabled
    have port := State.port_finishRead inFlight
    exact h.ended ends (congrArg Port.op port) (congrArg Port.times port)
  case refreshComplete =>
    obtain ⟨_, enabled, rfl⟩ := act_next_iff.mp next
    exact h.ended (Bool.and_eq_true_iff.mp enabled).2 rfl rfl
  case intervalExpiry =>
    obtain ⟨_, due, rfl⟩ := act_next_iff.mp next
    exact h.intervalExpiry (of_decide_eq_true due)
  case millisecondTick =>
    rw [act_next next]
    exact h.nextMicrosecond
  case timebaseCount =>
    cases next
    rw [if_pos h.1]
    exact h.nextMicrosecond
  case silence | ageExpiry | poolBuildEnd | clearThirdStep => exact h.ofAct next .of_port
  case holdExpiry => exact h.ofAct next (.holdStep s)
  case release => exact h.ofAct next (.doRelease s _)
  case returnRecord => exact h.ofAct next (.doReturn s _)
  case clearSecondStep => exact h.ofAct next (.clearSecond s)
  case clearFourthStep => exact h.ofAct next (.clearFourth s)
  case take | peek => exact h.ofAct next (.onStream fun _ => .of_port)
  case capture => exact h.ofAct next (.onGroup fun _ => .of_port)
  case tableRead | tableWrite => exact h.ofAct next (.onTable fun _ => .of_port)
  case purgeRemoval =>
    refine execPurgeRemoval_next next fun x purged => ?_
    obtain ⟨u, boundary, rfl⟩ | rfl := State.purgeNext_cases purged
    · exact h.kept .of_port
    · exact h.kept .of_port
  case failedTestEndAct =>
    simp only [Machine.exec, execFailedTestEndAct] at next
    split at next <;> exact h.ofAct next .of_port
  case heldReadAbandon => cases next; exact h.kept .of_port
  case winDataRead | timeLoRead => exact h.hostRead next .of_port
  case purge | clear | collision | commandAcceptance | pointing | winHandleWrite | eventLatchWrite | eventEnableWrite
      | wmarkWrite | wmarkEnWrite | readyEnWrite | refreshCfgWrite | poolLowWrite | holdLimitWrite | registerWrite =>
    exact h.ofWrite next interval rfl

theorem StarvedInv.step {s t : State} (h : StarvedInv s) (next : step s = .next t)
    (interval : t.port.interval = 1 ∨ t.port.interval = 2) : StarvedInv t := by
  unfold Machine.step at next
  split at next
  · cases next; exact h
  next c rest _ => exact StarvedInv.exec (s := { s with pending := rest }) h next interval

/-- Settles O55: `RefreshInv` act by act; an expiry starves the port (`StarvedInv.ofExpiry`), every command keeps it starved
(`StarvedInv.exec`), and a starved port grants a refresh (`StarvedInv.arbitrate`). -/
theorem stepKeepsRefreshBalance : Obligations.StepKeepsRefreshBalance := by
  refine ⟨State.Act.invariant (fun _ _ h => h) fun _ _ h ha => h.act ha, fun s high inv interval due owed => ?_,
    fun s t h next interval => h.step next interval, fun s h free => ?_⟩
  · obtain ⟨-, -, reached⟩ := inv
    exact ⟨_, exec_intervalExpiry high due, StarvedInv.ofExpiry high interval due reached owed⟩
  · rw [exec_portGrant h.1 free, h.arbitrate free, State.grantRefresh_eq]

end Sys2Proof.Machine
end

section
/-! The settings stay legal (R139, R75, Table 5-1, R48, Table 11-10, R162) and the sparse data canonical (R59): every act keeps
`SettingsInv` and `MemoryInv`. -/

namespace Sys2Proof.Machine

/-! ### Route entries that check sequences (R48) -/

/-- A route entry may check sequences: it does not, or it names one lane and one tag (R48). -/
def RouteEntry.MayCheck (e : RouteEntry) : Prop := e.seqCheck = true → e.laneMatch ≠ none ∧ e.tagMask = 0xFF

/-- Every route entry is as R48 allows: the clause of `SettingsInv` on routes. -/
def State.RoutesLegal (s : State) : Prop := ∀ i, (s.route i).MayCheck

/-- A legal image holds an entry that R48 allows. -/
theorem mayCheck_of_routeOfImage {img : Vector Word 8} {edition : Byte} {e : RouteEntry}
    (legal : routeOfImage img edition = some e) : e.MayCheck := by
  unfold routeOfImage at legal
  split at legal
  · cases legal
  · dsimp only at legal
    split at legal
    · cases legal
    next m _ allowed =>
      cases legal
      intro check
      dsimp only at check ⊢
      rw [check, Bool.true_and, Bool.or_eq_true, not_or] at allowed
      obtain ⟨named, whole⟩ := allowed
      exact ⟨fun any => named (by rw [any]; rfl), by simpa using whole⟩

namespace State.RoutesLegal

variable {s t : State} {l : LaneId}

theorem same (h : s.RoutesLegal) (routes : ∀ i, t.route i = s.route i := by simp) : t.RoutesLegal :=
  fun i => by rw [routes i]; exact h i

theorem setRoute (h : s.RoutesLegal) {i : RouteId} {e : RouteEntry} (legal : e.MayCheck) :
    (s.setRoute i e).RoutesLegal := by
  intro j
  by_cases hj : j = i
  · subst hj; rw [State.route_setRoute_self]; exact legal
  · rw [State.route_setRoute_ne s e hj]; exact h j

theorem bumpStream (h : s.RoutesLegal) (u : StreamId) (k : StreamCounter) : (s.bumpStream u k).RoutesLegal := h.same

/-- Sequence tracking moves what an entry expects, and not what it matches (R51). -/
theorem track (h : s.RoutesLegal) (d : DescId) : (s.track d).RoutesLegal := by
  have expects : ∀ {x : State}, x.RoutesLegal → ∀ i n known,
      (x.setRoute i { s.route i with expected := n, expectedKnown := known }).RoutesLegal :=
    fun hx i _ _ => hx.setRoute (h i)
  unfold State.track
  dsimp only
  split
  next i _ _ =>
    split
    · split
      · split
        · exact expects h _ _ _
        · split
          · exact bumpStream (expects h.same _ _ _) _ _
          · exact h.same
      · exact h.same
    · exact h
  · exact h

theorem complete (h : s.RoutesLegal) (d : DescId) : (s.complete l d).RoutesLegal := by
  have tracked : (((s.setUnit l { (s.lane l).unit with list := (s.lane l).unit.list.tail }).number d).track d).RoutesLegal :=
    track h.same d
  unfold State.complete
  exact tracked.same

theorem tryComplete (h : s.RoutesLegal) : (s.tryComplete l).RoutesLegal := by
  rcases s.tryComplete_cases l with waits | ⟨d, completes, -⟩
  · rw [waits]; exact h
  · rw [completes]; exact h.complete d

theorem toCompleting (h : s.RoutesLegal) (d : DescId) (damaged : Bool) : (s.toCompleting l d damaged).RoutesLegal := by
  unfold State.toCompleting
  dsimp only
  split
  · exact tryComplete h.same
  · exact h.same

theorem checkTrailer (h : s.RoutesLegal) : (s.checkTrailer l).RoutesLegal := by
  unfold State.checkTrailer
  split
  · exact h
  · dsimp only
    split
    · exact h.toCompleting _ _
    · split
      · exact toCompleting h.same _ _
      · exact h.same

/-- The second trailer byte is the one that may complete a record (R34). -/
theorem lockedEdge (h : s.RoutesLegal) (bit : Bool) : (s.lockedEdge l bit).RoutesLegal := by
  unfold State.lockedEdge
  dsimp only
  split
  · split
    · exact h.same
    · exact h.same
  · split
    · unfold State.lockedByte
      split
      · exact h.same
      · unfold State.trailerByte
        dsimp only
        split
        · exact checkTrailer h.same
        · exact h.same
      · exact h.same
    · exact h.same

theorem takeEdge (h : s.RoutesLegal) (bit : Bool) : (s.takeEdge l bit).RoutesLegal := by
  have noted : (s.noteEdge l).RoutesLegal := h.same
  unfold State.takeEdge
  split
  · exact h
  · exact noted.same
  · exact noted.same
  · exact noted.lockedEdge bit

theorem finishWrite (h : s.RoutesLegal) : (s.finishWrite l).RoutesLegal := by
  unfold State.finishWrite
  dsimp only
  split
  · exact h.same
  · split
    · exact h.same
    · split
      · exact h.same
      · exact tryComplete h.same

/-- CLEAR forgets what every entry expects, and not what it matches (R58). -/
theorem restartWatches (h : s.RoutesLegal) : s.restartWatches.RoutesLegal := by
  intro i
  have entry : s.restartWatches.route i = { s.route i with expectedKnown := false } := by
    simp [State.restartWatches, State.route]
  rw [entry]
  exact h i

theorem clearFirst (h : s.RoutesLegal) : s.clearFirst.RoutesLegal := by
  have lanes : ∀ (ls : List LaneId) (s : State), s.RoutesLegal → (ls.foldl State.clearLane s).RoutesLegal := by
    intro ls
    induction ls with
    | nil => exact fun _ h => h
    | cons l ls ih => exact fun s h => ih _ h.same
  unfold State.clearFirst
  exact (lanes (List.finRange 8) s h).restartWatches

theorem writeCmd (h : s.RoutesLegal) (code : Word) : (s.writeCmd code).RoutesLegal := by
  have takes : ∀ p, (s.takeCommand code p).RoutesLegal := fun _ => h
  unfold State.writeCmd
  split
  · exact h
  · unfold State.acceptCommand
    split
    · exact takes _
    · rename_i c _ _
      cases c
      case clear => exact (takes _).clearFirst
      case purge =>
        simp only [State.beginCommand]
        split <;> exact takes _
      all_goals exact takes _
    · exact takes _

end State.RoutesLegal

/-! ### Stream entries (Table 5-1) -/

/-- A stream entry holds values Table 5-1 gives its fields. -/
def StreamEntry.Legal (e : StreamEntry) : Prop := e.quota ≤ 16384 ∧ e.watermark ≤ 16384 ∧ e.ageLimit ≤ 65535

theorem legal_of_streamOfImage {img : Vector Word 8} {e : StreamEntry} (legal : streamOfImage img = some e) : e.Legal := by
  rw [streamOfImage_eq] at legal
  split at legal
  next codes =>
    obtain ⟨quota, watermark⟩ := codes
    cases legal
    exact ⟨quota, watermark, Nat.le_of_lt_succ (img[3]).isLt⟩
  · cases legal

/-! ### Every act keeps the settings -/

namespace SettingsInv

variable {s t : State}

/-- What an act has to keep, setting by setting; what it does not touch is found by the frames. -/
theorem kept (h : SettingsInv s) (interval : s.port.interval ≠ 0 → t.port.interval ≠ 0 := by simp)
    (low : s.pool.lowThreshold ≤ 16384 → t.pool.lowThreshold ≤ 16384 := by simp)
    (entries : (∀ u, (s.stream u).entry.Legal) → ∀ u, (t.stream u).entry.Legal := by simp)
    (routes : s.RoutesLegal → t.RoutesLegal := by exact fun legal => legal.same)
    (latches : s.events.latches &&& 0xFC08 = 0 → t.events.latches &&& 0xFC08 = 0 := by simp)
    (enables : s.events.enables &&& 0xFC00 = 0 → t.events.enables &&& 0xFC00 = 0 := by simp)
    (sub : s.time.sub ≤ 999 → t.time.sub ≤ 999 := by simp) : SettingsInv t := by
  obtain ⟨nonzero, threshold, legal, checks, latched, enabled, counted⟩ := h
  exact ⟨interval nonzero, low threshold, entries legal, routes checks, latches latched, enables enabled, sub counted⟩

/-- The sub-count runs from 0 to 999 (R162). -/
theorem countMicrosecond (h : SettingsInv s) : SettingsInv s.countMicrosecond := by
  refine h.kept (sub := fun inRange => ?_)
  have sub : s.countMicrosecond.time.sub = if 999 ≤ s.time.sub then 0 else s.time.sub + 1 := by
    unfold State.countMicrosecond
    split <;> simp [State.tickDue, State.advance, State.tick]
  rw [sub]
  split <;> omega

theorem tableWrite (h : SettingsInv s) (e : TableEntry) : SettingsInv (s.doTableWrite e) := by
  unfold State.doTableWrite
  split
  · rename_i t committed
    suffices SettingsInv t from this.kept
    cases e with
    | route i =>
      simp only [State.commit, State.commitRoute, Option.map_eq_some_iff] at committed
      obtain ⟨entry, legal, rfl⟩ := committed
      exact h.kept (routes := fun routes => routes.setRoute (mayCheck_of_routeOfImage legal))
    | stream u =>
      simp only [State.commit, State.commitStream] at committed
      split at committed
      next entry legal =>
        split at committed
        · cases committed
        · cases committed
          refine h.kept (entries := fun entries v => ?_)
          rw [State.stream_setStream]
          split
          · exact legal_of_streamOfImage legal
          · exact entries v
      · cases committed
    | lane l =>
      simp only [State.commit, State.commitLane, Option.map_eq_some_iff] at committed
      obtain ⟨_, _, rfl⟩ := committed
      exact h.kept
  · exact h.kept

theorem writeRefreshCfg (h : SettingsInv s) (v : Word) : SettingsInv (s.writeRefreshCfg v) := by
  unfold State.writeRefreshCfg
  split
  · exact h.kept
  next legal => exact h.kept (interval := fun _ => legal) (entries := id) (routes := id)

theorem writePoolLow (h : SettingsInv s) (v : Word) : SettingsInv (s.writePoolLow v) := by
  unfold State.writePoolLow
  split
  · exact h.kept
  next legal => exact h.kept (low := fun _ => Nat.le_of_not_lt legal) (entries := id) (routes := id)

/-- Clearing latches sets none (R167). -/
theorem writeEventLatch (h : SettingsInv s) (v : Word) : SettingsInv (s.writeEventLatch v) := by
  refine h.kept (latches := fun clear => ?_)
  show s.events.latches &&& ~~~v &&& 0xFC08 = 0
  rw [BitVec.and_assoc, BitVec.and_comm (~~~v), ← BitVec.and_assoc, clear]
  exact BitVec.zero_and

/-- Only the ten enables are written (R169). -/
theorem writeEventEnable (h : SettingsInv s) (v : Word) : SettingsInv (s.writeEventEnable v) := by
  refine h.kept (enables := fun _ => ?_)
  show v &&& eventPositions &&& 0xFC00 = 0
  rw [BitVec.and_assoc, show eventPositions &&& 0xFC00 = 0 from rfl]
  exact BitVec.and_zero

theorem writeCmd (h : SettingsInv s) (code : Word) : SettingsInv (s.writeCmd code) :=
  h.kept (routes := fun routes => routes.writeCmd code)

theorem writeWord (h : SettingsInv s) (a : BitVec 7) (v : Word) : SettingsInv (s.writeWord a v) := by
  unfold State.writeWord
  split
  case h_1 => exact h.writeRefreshCfg v
  case h_2 => exact h.writePoolLow v
  case h_4 => exact h.writeCmd v
  case h_16 => exact h.writeEventLatch v
  case h_17 => exact h.writeEventEnable v
  all_goals exact h.kept

theorem act (h : SettingsInv s) (ha : State.Act s t) : SettingsInv t := by
  cases ha
  case readsZero _ => exact h
  case hardReset => exact settingsInv_reset
  case takeEdge l b => exact h.kept (routes := fun routes => routes.takeEdge b)
  case finishWrite l _ _ => exact h.kept (routes := fun routes => routes.finishWrite)
  case countMicrosecond _ => exact h.countMicrosecond
  case tableWrite e _ => exact h.tableWrite e
  case writeCmd code _ => exact h.writeCmd code
  case writeWord a v _ => exact h.writeWord a v
  all_goals exact h.kept

end SettingsInv

/-! ### Every act keeps the canonical forms (R59) -/

namespace State.TablesWf

variable {s : State}

/-- A Late refresh writes every live descriptor, another expiry none (R141). -/
theorem intervalExpiry (h : s.TablesWf) : s.intervalExpiry.TablesWf := by
  have marked : s.lateRefresh.TablesWf := by
    unfold State.lateRefresh State.markSuspects
    split
    · exact ⟨h.1, Tab.wf_mapValues _ _ _⟩
    · exact h
  unfold State.intervalExpiry
  split
  · exact h
  · exact marked

theorem requeue (h : s.TablesWf) (d : DescId) : (s.requeue d).TablesWf := h.setDesc

theorem ageOut (h : s.TablesWf) (u : StreamId) (d : DescId) : (s.ageOut u d).TablesWf := by
  unfold State.ageOut
  exact h.dequeue.freeRecord.bumpStream.latch.settlePurge

theorem purgeStep (h : s.TablesWf) (u : StreamId) (b : BitVec 32) : (s.purgeStep u b).TablesWf := by
  unfold State.purgeStep
  split
  · unfold State.purgeRecord
    exact h.dequeue.freeRecord.bumpStream.settlePurge
  · exact h.settlePurge

theorem expireHold (h : s.TablesWf) (i : SlotId) (x : Holding) : (s.expireHold i x).TablesWf := by
  unfold State.expireHold
  exact (h.requeue x.desc).emptySlot.latch.bumpDevice.settlePurge

theorem hold (h : s.TablesWf) (u : StreamId) (d : DescId) (i : SlotId) : (s.hold u d i).TablesWf :=
  (h.setDesc (d := d) (x := (s.desc d).taken)).congr rfl rfl

theorem doTake (h : s.TablesWf) (u : StreamId) : (s.doTake u).TablesWf := by
  unfold State.doTake
  split
  · exact h.endCommand
  · split
    · exact h.endCommand
    · exact (h.hold u _ _).endCommand

theorem doRelease (h : s.TablesWf) (x : Byte) : (s.doRelease x).TablesWf := by
  unfold State.doRelease
  split
  · exact h.endCommand
  · unfold State.lowerHeld
    exact h.freeRecord.setStream.emptySlot.endCommand

theorem doReturn (h : s.TablesWf) (x : Byte) : (s.doReturn x).TablesWf := by
  unfold State.doReturn
  split
  · exact h.endCommand
  next g _ => exact (h.requeue g.desc).emptySlot.endCommand

/-- The end of the build lists no link, and every descriptor anew (R71). -/
theorem finishBuild (s : State) : s.finishBuild.TablesWf := ⟨rfl, Tab.wf_mapValues _ _ _⟩

end State.TablesWf

namespace MemoryInv

variable {s t : State}

/-- An act that leaves the buffer memory and keeps the form of the tables. -/
theorem kept (h : MemoryInv s) (tables : s.TablesWf → t.TablesWf := by exact fun tables => tables.congr (by simp) (by simp))
    (memory : t.memory = s.memory := by simp) : MemoryInv t := by
  obtain ⟨bytes, links, descs⟩ := h
  exact ⟨by rw [memory]; exact bytes, tables ⟨links, descs⟩⟩

/-- A cell write ends inside the buffer memory (R59). -/
theorem finishWrite (h : MemoryInv s) (l : LaneId) : MemoryInv (s.finishWrite l) := by
  obtain ⟨bytes, links, descs⟩ := h
  exact ⟨State.finishWrite_memory_wf bytes, State.TablesWf.finishWrite ⟨links, descs⟩⟩

theorem act (h : MemoryInv s) (ha : State.Act s t) : MemoryInv t := by
  cases ha
  case readsZero _ => exact h
  case hardReset => exact memoryInv_reset
  case finishWrite l _ _ => exact h.finishWrite l
  case takeEdge l b => exact h.kept (tables := .takeEdge)
  case silence l _ => exact h.kept (tables := .fallSilent)
  case intervalExpiry _ => exact h.kept (tables := .intervalExpiry)
  case ageOut u d _ => exact h.kept (tables := fun tables => tables.ageOut u d)
  case expireHold i x _ => exact h.kept (tables := fun tables => tables.expireHold i x)
  case finishBuild _ => exact h.kept (tables := fun _ => .finishBuild s)
  case take u _ => exact h.kept (tables := fun tables => tables.doTake u)
  case release x _ => exact h.kept (tables := fun tables => tables.doRelease x)
  case returnRecord x _ => exact h.kept (tables := fun tables => tables.doReturn x)
  case purgeStep u b _ => exact h.kept (tables := fun tables => tables.purgeStep u b)
  case tableWrite e _ => exact h.kept (tables := .commit)
  case writeCmd code _ => exact h.kept (tables := .writeCmd)
  case writeWord a v _ => exact h.kept (tables := .writeWord)
  all_goals exact h.kept

end MemoryInv

/-- Settles O56: every act of the part keeps both invariants, so every step does. -/
theorem stepKeepsSettingsAndForm : Obligations.StepKeepsSettingsAndForm :=
  ⟨State.Act.invariant (fun _ _ h => h) fun _ _ h ha => h.act ha,
    State.Act.invariant (fun _ _ h => h) fun _ _ h ha => h.act ha⟩

end Sys2Proof.Machine
end

section
/-! Command codes and the ranges of the arguments (Tables 11-3 and 9-2): each range as a condition on the argument's bytes. -/

namespace Sys2Proof.Machine

theorem commandOf_isSome_iff (code : Word) : (commandOf code).isSome = true ↔ 1 ≤ code.toNat ∧ code.toNat ≤ 9 := by
  rw [commandOf]
  match code.toNat with
  | 0 => simp
  | 1 | 2 | 3 | 4 | 5 | 6 | 7 | 8 | 9 => simp
  | _ + 10 => simp

section Ranges

variable (arg : Word)

theorem argStream_isSome_iff : (argStream arg).isSome = true ↔ arg.toNat % 256 ≤ 31 := by
  rw [argStream, Option.isSome_dite, argLow_nat, Nat.lt_succ_iff]

/-- The groups 0 to 7, 8 to 39 and 40 leave no gap (R154). -/
theorem argGroup_isSome_iff : (argGroup arg).isSome = true ↔ arg.toNat % 256 ≤ 40 := by
  simp only [argGroup, argLow_nat]
  split
  next lane => exact iff_of_true rfl (by omega)
  · split
    next stream => exact iff_of_true rfl (by omega)
    · split
      next device => exact iff_of_true rfl device.le
      next => exact iff_of_false nofun (by omega)

/-- The table in the high byte bounds the index in the low byte (Table 9-2). -/
theorem argTable_isSome_iff : (argTable arg).isSome = true ↔ arg.toNat / 256 = 0 ∧ arg.toNat % 256 ≤ 63
    ∨ arg.toNat / 256 = 1 ∧ arg.toNat % 256 ≤ 31 ∨ arg.toNat / 256 = 2 ∧ arg.toNat % 256 ≤ 7 := by
  simp only [argTable, argLow_nat, argHigh_nat]
  match arg.toNat / 256 with
  | 0 => simp [Option.isSome_dite, Nat.lt_succ_iff]
  | 1 => simp [Option.isSome_dite, Nat.lt_succ_iff]
  | 2 => simp [Option.isSome_dite, Nat.lt_succ_iff]
  | _ + 3 => simp

end Ranges

/-- Settles O27: the codes one by one, and the range of each kind of argument. -/
theorem commandCodesAndRanges : Obligations.CommandCodesAndRanges := by
  refine ⟨commandOf_isSome_iff, rfl, fun arg low high hlow hhigh => ?_⟩
  subst hlow hhigh
  have stream := Bool.eq_iff_iff.mpr ((argStream_isSome_iff arg).trans decide_eq_true_iff.symm)
  have group := Bool.eq_iff_iff.mpr ((argGroup_isSome_iff arg).trans decide_eq_true_iff.symm)
  have entry := Bool.eq_iff_iff.mpr ((argTable_isSome_iff arg).trans decide_eq_true_iff.symm)
  simp only [List.forall_mem_cons, List.not_mem_nil, false_imp_iff, implies_true, and_true, true_and, argLegal]
  exact ⟨⟨stream, stream, stream⟩, group, entry, entry⟩

end Sys2Proof.Machine
end

section
/-! A write of CMD (R148, R149, R151): the first test that fails decides how the command begins. -/

namespace Sys2Proof.Machine

section Acceptance

variable {s : State} {code arg : Word} {c : Command}

/-! ### The tests, in their order (R149) -/

theorem State.failedTest_unknown (hc : commandOf code = none) : s.failedTest code arg = some .badArgument := by
  rw [State.failedTest, hc]

theorem State.failedTest_illegal (hc : commandOf code = some c) (illegal : argLegal c arg = false) :
    s.failedTest code arg = some .badArgument := by
  rw [State.failedTest, hc]
  exact if_pos illegal

theorem State.failedTest_initializing (hc : commandOf code = some c) (legal : argLegal c arg = true)
    (needs : needsReady c = true) (building : s.pool.ready = false) : s.failedTest code arg = some .notReady := by
  rw [State.failedTest, hc]
  exact (if_neg (by simp [legal])).trans (if_pos ⟨needs, building⟩)

theorem State.failedTest_none (hc : commandOf code = some c) (legal : argLegal c arg = true)
    (ready : needsReady c = false ∨ s.pool.ready = true) : s.failedTest code arg = none := by
  rw [State.failedTest, hc]
  refine (if_neg (by simp [legal])).trans (if_neg fun ⟨needs, building⟩ => ?_)
  obtain free | built := ready
  · exact Bool.false_ne_true (free.symm.trans needs)
  · exact Bool.false_ne_true (building.symm.trans built)

/-! ### Acceptance in IDLE (R148) -/

theorem State.acceptCommand_failed {r : Result} (h : s.failedTest code s.cmd.argReg = some r) :
    s.acceptCommand code = s.takeCommand code (.failed r) := by
  rw [State.acceptCommand, h]

theorem State.acceptCommand_passed (hc : commandOf code = some c) (h : s.failedTest code s.cmd.argReg = none) :
    s.acceptCommand code = s.beginCommand code c := by
  rw [State.acceptCommand, h, hc]

/-- Every command but PURGE and CLEAR awaits its end act (R150). -/
theorem State.beginCommand_running (purge : c ≠ .purge) (clear : c ≠ .clear) :
    s.beginCommand code c = s.takeCommand code .running := by
  cases c
  case purge => exact absurd rfl purge
  case clear => exact absurd rfl clear
  all_goals rfl

/-- PURGE begins in the phase its stream gives it (R95, R156). -/
theorem State.beginCommand_purge {u : StreamId} (hu : argStream s.cmd.argReg = some u) :
    s.beginCommand code .purge = s.takeCommand code (s.purgePhase u) := by
  rw [State.beginCommand, hu]

/-- A write of CMD that is taken in IDLE accepts the command. -/
theorem hostAccess_writeCmd_idle (takes : s.takesAccess) (idle : s.cmd.phase = .idle) :
    hostAccess s (s.writeCmd code) = .next (s.acceptCommand code) := by
  have accepts : s.writeCmd code = s.acceptCommand code := if_neg (by simp [State.busy, idle])
  rw [accepts]
  exact hostAccess_of_takes takes

/-- A write of CMD that is taken in BUSY is a collision (R151). -/
theorem hostAccess_writeCmd_busy (takes : s.takesAccess) (busy : s.cmd.phase ≠ .idle) :
    hostAccess s (s.writeCmd code) = .next s.collide := by
  have collides : s.writeCmd code = s.collide := if_pos (by simp [State.busy, busy])
  rw [collides]
  exact hostAccess_of_takes takes

end Acceptance

/-- Settles O28: the first test that fails, or the start of a command that passes them all. -/
theorem commandAcceptance : Obligations.CommandAcceptance := by
  intro s code busy takes idle hbusy
  have accepted : exec (.commandAcceptance code) s = .next (s.acceptCommand code) := hostAccess_writeCmd_idle takes idle
  have failed : ∀ {r}, s.failedTest code s.cmd.argReg = some r →
      exec (.commandAcceptance code) s = .next (busy (.failed r)) := fun {r} h => by
    rw [accepted, State.acceptCommand_failed h, hbusy]
    rfl
  refine ⟨fun unknown => failed (State.failedTest_unknown unknown), fun c hc => ⟨fun illegal => ?_,
    fun legal needs building => ?_, fun legal ready purge clear => ?_⟩⟩
  · exact failed (State.failedTest_illegal hc illegal)
  · exact failed (State.failedTest_initializing hc legal needs building)
  · rw [accepted, State.acceptCommand_passed hc (State.failedTest_none hc legal ready),
      State.beginCommand_running purge clear, hbusy]
    rfl

/-- Settles O29: the end act with the result the failed test gave, and the collision. -/
theorem failedTestEndActAndCollision : Obligations.FailedTestEndActAndCollision := by
  refine ⟨fun s r high failed => ?_, fun s code takes busy => hostAccess_writeCmd_busy takes busy⟩
  have waits : s.failedResult = some r := by rw [State.failedResult, failed]
  have ends : execFailedTestEndAct s = act "FAILED_TEST_END_ACT" s true (s.endCommand r) := by
    rw [execFailedTestEndAct, waits]
  rw [← State.endCommand_eq]
  exact ends.trans (act_of_enabled high rfl)

/-! ### PURGE (R95, R156) -/

section Purge

variable {s : State} {u : StreamId}

/-- At its acceptance no completion counts against a PURGE, so every record of an age above 0 is a target (R95). -/
theorem State.purgePhase_target {d : DescId} {ds : List DescId} (queue : (s.stream u).queue = d :: ds) (age : 0 < s.age d) :
    s.purgePhase u = .purging u s.counts.completions := by
  have target : (s.counts.completions - s.counts.completions).toNat < s.age d := by simpa using age
  exact if_pos (by rw [State.purgeHead_of_target queue target]; rfl)

theorem State.purgePhase_none (spent : ∀ d, (s.stream u).queue.head? = some d → s.age d = 0) :
    s.purgePhase u = .purged := by
  have none : s.purgeHead u s.counts.completions = none :=
    State.purgeHead_eq_none fun d head => by simp [spent d head]
  exact if_neg (by simp [none])

/-- A PURGE that is accepted with the pool READY begins in the phase its stream gives it (R148, R95). -/
theorem exec_purge_accepted (takes : s.takesAccess) (idle : s.cmd.phase = .idle) (hu : s.cmd.argReg.toNat % 256 = u.val)
    (ready : s.pool.ready = true) : exec .purge s = .next (s.takeCommand purgeCode (s.purgePhase u)) := by
  have stream := argStream_eq s.cmd.argReg u hu
  have legal : argLegal .purge s.cmd.argReg = true := congrArg Option.isSome stream
  have passes : s.failedTest purgeCode s.cmd.argReg = none := State.failedTest_none rfl legal (.inr ready)
  rw [← State.beginCommand_purge stream, ← State.acceptCommand_passed rfl passes]
  exact hostAccess_writeCmd_idle takes idle

/-- The end act of a PURGE that found no target at its acceptance (R156). -/
theorem exec_purgeRemoval_purged (high : s.host.resetHigh = true) (purged : s.cmd.phase = .purged) :
    exec .purgeRemoval s = .next (s.endCommand .ok) := by
  have next : s.purgeNext = some (s.endCommand .ok) := by rw [State.purgeNext, purged]
  exact (act_of_enabled high (by rw [next]; rfl)).trans (by rw [next]; rfl)

end Purge

/-- Settles O35: the phase an accepted PURGE begins in (`State.purgePhase_target`, `State.purgePhase_none`), and the end act. -/
theorem purgeTakesItsBoundary : Obligations.PurgeTakesItsBoundary := by
  refine ⟨fun s u busy takes idle hu ready hbusy => ?_, fun s high purged => ?_⟩
  · have accepted := exec_purge_accepted takes idle hu ready
    refine ⟨fun d ds queue age => ?_, fun spent => ?_⟩
    · rw [accepted, State.purgePhase_target queue age, hbusy]
      rfl
    · rw [accepted, State.purgePhase_none spent, hbusy]
      rfl
  · rw [exec_purgeRemoval_purged high purged, State.endCommand_eq]

end Sys2Proof.Machine
end

section
/-! The later steps of CLEAR (R158, R159): what the second leaves of the window (R131), the queues and the hold slots, the
counters after the third and the end of the fourth. -/

namespace Sys2Proof.Machine

section SecondStep

variable (s : State)

/-! ### A window that becomes STALE (R130, R129) -/

theorem State.window_staleWindow :
    s.staleWindow.window = { s.window with mode := .stale, buffer := none, request := none } := by
  unfold State.staleWindow
  dsimp only
  split <;> rfl

theorem State.port_staleWindow : s.staleWindow.port = { s.port with op := discardRead s.port.op } := by
  unfold State.staleWindow
  dsimp only
  split <;> rfl

/-- A held read ends with 0000h, WINDOW_ERROR and Window Errors (R129). -/
theorem State.staleWindow_held (held : s.host.heldRead = true) :
    s.staleWindow.host = { s.host with heldRead := false, driven := some 0 } ∧ s.staleWindow.latched .windowError = true
      ∧ s.staleWindow.deviceCount .windowErrors = bump (s.deviceCount .windowErrors) := by
  unfold State.staleWindow
  dsimp only
  rw [if_pos held]
  exact ⟨rfl, State.latched_latch_self _ _, State.deviceCount_bumpDevice_self _ _⟩

theorem State.staleWindow_free (free : s.host.heldRead = false) : s.staleWindow = { s with
    window := { s.window with mode := .stale, buffer := none, request := none }
    port := { s.port with op := discardRead s.port.op } } := by
  unfold State.staleWindow
  dsimp only
  rw [if_neg (by simp [free])]

theorem State.staleWindow_only : s.staleWindow = { s with
    window := s.staleWindow.window, port := s.staleWindow.port, host := s.staleWindow.host
    counts := { s.counts with device := s.staleWindow.counts.device }
    events := { s.events with latches := s.staleWindow.events.latches } } := by
  unfold State.staleWindow
  dsimp only
  split <;> rfl

/-! ### The window at CLEAR's second step (R131) -/

variable {s}

theorem State.clearHolds_serving (serving : s.window.mode = .fetching ∨ s.window.mode = .ready) :
    s.clearHolds = s.staleWindow := if_pos serving

theorem State.clearHolds_closed (closed : ¬(s.window.mode = .fetching ∨ s.window.mode = .ready)) : s.clearHolds = s :=
  if_neg closed

variable (s)

theorem State.clearHolds_cases : s.clearHolds = s.staleWindow ∨ s.clearHolds = s :=
  ite_eq_or_eq ..

theorem State.clearHolds_only : s.clearHolds = { s with
    window := s.clearHolds.window, port := s.clearHolds.port, host := s.clearHolds.host
    counts := { s.counts with device := s.clearHolds.counts.device }
    events := { s.events with latches := s.clearHolds.events.latches } } := by
  obtain stale | same := s.clearHolds_cases
  · rw [stale]; exact s.staleWindow_only
  · rw [same]

theorem State.deviceCount_clearHolds {k : DeviceCounter} (hk : k ≠ .windowErrors) :
    s.clearHolds.deviceCount k = s.deviceCount k := by
  obtain stale | same := s.clearHolds_cases
  · rw [stale]; exact s.counters_staleWindow k hk
  · rw [same]

theorem State.latched_clearHolds {e : Event} (he : e ≠ .windowError) : s.clearHolds.latched e = s.latched e := by
  obtain stale | same := s.clearHolds_cases
  · rw [stale]; exact s.latched_staleWindow_ne he
  · rw [same]

/-- With no read held the accounts and the host port stay (R130). -/
theorem State.clearHolds_free (free : s.host.heldRead = false) :
    s.clearHolds.counts = s.counts ∧ s.clearHolds.events = s.events ∧ s.clearHolds.host = s.host := by
  obtain stale | same := s.clearHolds_cases
  · rw [stale, s.staleWindow_free free]; exact ⟨rfl, rfl, rfl⟩
  · rw [same]; exact ⟨rfl, rfl, rfl⟩

/-! ### Queues and hold slots (R158, R99, R120) -/

theorem State.stream_clearSecond (u : StreamId) :
    s.clearSecond.stream u = { s.stream u with queue := [], heldCount := 0, charge := 0 } := by
  have emptied : s.clearSecond.stream u = (s.clearHolds.stream u).emptied := Vector.getElem_map ..
  rw [emptied, s.clearHolds_only]
  rfl

theorem HoldSlot.emptied_eq (h : HoldSlot) : h.emptied = if h.held = none then h else ⟨h.generation + 1, none⟩ := by
  unfold HoldSlot.emptied
  split
  next held => simp [held]
  next held => simp [held]

theorem State.slot_clearSecond (i : SlotId) : s.clearSecond.slot i
    = if (s.slot i).held = none then s.slot i else ⟨(s.slot i).generation + 1, none⟩ := by
  have emptied : s.clearSecond.slot i = (s.clearHolds.slot i).emptied := Vector.getElem_map ..
  rw [emptied, HoldSlot.emptied_eq, s.clearHolds_only]
  rfl

/-- The pool is INITIALIZING, its lists are empty, and the build begins now (R70, R71). -/
theorem State.pool_clearSecond : s.clearSecond.pool
    = { s.pool with ready := false, buildStart := s.time.count, freeCells := [], freeDescs := [] } := by
  rw [State.clearSecond, s.clearHolds_only]
  rfl

theorem State.cmd_clearSecond : s.clearSecond.cmd = { s.cmd with phase := .clearing .third } := by
  rw [State.clearSecond, s.clearHolds_only]
  rfl

theorem State.clearSecond_only : s.clearSecond = { s with
    streams := s.clearSecond.streams, slots := s.clearSecond.slots, pool := s.clearSecond.pool, cmd := s.clearSecond.cmd
    host := s.clearSecond.host, window := s.clearSecond.window, port := s.clearSecond.port
    counts := { s.counts with device := s.clearSecond.counts.device }
    events := { s.events with latches := s.clearSecond.events.latches } } := by
  unfold State.clearSecond
  rw [s.clearHolds_only]
  rfl

end SecondStep

theorem State.noWriteInFlight_of_ne {s : State} (h : ∀ l, s.port.op ≠ some (.write l)) : s.noWriteInFlight = true := by
  unfold State.noWriteInFlight
  cases hop : s.port.op with
  | none => rfl
  | some op =>
    cases op with
    | write l => exact absurd hop (h l)
    | read => rfl
    | refresh => rfl

/-- Settles O38: the window (`State.clearHolds`), then the queues, the hold slots and the pool. -/
theorem clearSecondStep : Obligations.ClearSecondStep := by
  intro s high second writes
  have enabled : (s.cmd.phase == .clearing .second && s.noWriteInFlight) = true := by
    simp [second, State.noWriteInFlight_of_ne writes]
  refine ⟨s.clearSecond, act_of_enabled high enabled, s.stream_clearSecond, s.slot_clearSecond, s.pool_clearSecond,
    fun serving => ?_, s.cmd_clearSecond, fun held fetching => ?_, s.clearHolds_free,
    fun closed => ?_, ⟨fun l k _ => ?_, fun u k _ => ?_, fun k hk => ?_⟩, fun e he => ?_, s.clearSecond_only⟩
  · have stale := State.clearHolds_serving serving
    exact ⟨(congrArg State.window stale).trans s.window_staleWindow, (congrArg State.port stale).trans s.port_staleWindow⟩
  · have stale := State.clearHolds_serving (.inl fetching)
    obtain ⟨host, latched, count⟩ := s.staleWindow_held held
    exact ⟨(congrArg State.host stale).trans host, (congrArg (State.latched · .windowError) stale).trans latched,
      (congrArg (State.deviceCount · .windowErrors) stale).trans count⟩
  · have same : s.clearHolds = s := State.clearHolds_closed (by rcases closed with mode | mode <;> simp [mode])
    have window : s.clearHolds.window = s.window := congrArg State.window same
    have port : s.clearHolds.port = s.port := congrArg State.port same
    exact ⟨window, port⟩
  · simp
  · simp
  · exact s.deviceCount_clearHolds (by simpa using hk)
  · exact s.latched_clearHolds (by simpa using he)

/-! ### The third and the fourth step (R159, R131) -/

/-- Every counter is 0 in the reset bank (R172). -/
theorem State.clearThird_zero (s : State) : (∀ l k, s.clearThird.laneCount l k = 0)
    ∧ (∀ u k, s.clearThird.streamCount u k = 0) ∧ ∀ k, s.clearThird.deviceCount k = 0 := by
  refine ⟨fun l k => ?_, fun u k => ?_, fun k => ?_⟩
  · simp [State.laneCount, State.clearThird, Counters.reset]
  · simp [State.streamCount, State.clearThird, Counters.reset]
  · simp [State.deviceCount, State.clearThird, Counters.reset]

theorem State.clearFourth_free {s : State} (free : s.host.heldRead = false) :
    s.clearFourth = s.idleWindow.endCommand .ok := by
  rw [State.clearFourth, if_neg (by simp [free])]

/-- Settles O39: the third step's counters, and the fourth with no read held. -/
theorem clearThirdAndFourthStep : Obligations.ClearThirdAndFourthStep := by
  refine fun s high => ⟨fun third => ?_, fun fourth free => ?_⟩
  · obtain ⟨lanes, streams, device⟩ := s.clearThird_zero
    exact ⟨s.clearThird, act_of_enabled high (by simp [third]), lanes, streams, device, rfl, rfl⟩
  · have taken : exec .clearFourthStep s = .next s.clearFourth := act_of_enabled high (by simp [fourth])
    rw [taken, State.clearFourth_free free, State.endCommand_eq]
    rfl

end Sys2Proof.Machine
end

section
/-! CAPTURE of a counter group (R154, R155) and TABLE_READ with the entry images (R152, R180). -/

namespace Sys2Proof.Machine

/-! ### CAPTURE (R154, R166) -/

/-- A group's number is 0 to 7 for a lane, 8 to 39 for a stream and 40 for the device (R154). -/
def CounterGroup.number : CounterGroup → Nat
  | .lane l => l.val
  | .stream u => 8 + u.val
  | .device => 40

theorem argGroup_eq {arg : Word} {g : CounterGroup} (h : arg.toNat % 256 = g.number) : argGroup arg = some g := by
  simp only [argGroup, argLow_nat, h]
  cases g with
  | lane l => simp [CounterGroup.number]
  | stream u => simp [CounterGroup.number]
  | device => simp [CounterGroup.number]

/-- CAPTURE copies the group's counters and sets them to 0, and ends with OK (R154, R150). -/
theorem exec_capture {s : State} {g : CounterGroup} (hr : s.running .capture) (hg : s.cmd.arg.toNat % 256 = g.number) :
    exec .capture s = .next ((s.captureGroup g).endCommand .ok) := by
  have work : s.onGroup s.doCapture = (s.captureGroup g).endCommand .ok := by
    rw [State.onGroup, argGroup_eq hg]
    rfl
  exact (act_of_enabled hr.1 (State.awaits_of_running hr)).trans (congrArg _ work)

/-- The state after a capture of a group: the bank, the counters and the end act (R154). -/
theorem State.endCommand_captureGroup (s : State) (g : CounterGroup) : (s.captureGroup g).endCommand .ok = { s with
    cmd := { s.cmd with phase := .idle, result := .ok, capture := s.groupWords g }
    counts := s.counts.zeroGroup g
    events := { s.events with latches := s.events.latches ||| 0x0080 } } := by
  rw [State.endCommand_eq]
  rfl

/-- Behind the device counters come the two halves of the completion count (Table 10-1, R166). -/
theorem State.groupWords_completions (s : State) : (s.groupWords .device)[6] = s.counts.completions.extractLsb' 0 16
    ∧ (s.groupWords .device)[7] = s.counts.completions.extractLsb' 16 16 :=
  ⟨Vector.getElem_append_right (by decide) (by decide), Vector.getElem_append_right (by decide) (by decide)⟩

/-- Settles O40: one capture for each kind of group, and the eight words of the device's. -/
theorem captureCopiesAndZeroes : Obligations.CaptureCopiesAndZeroes := by
  intro s g hr hg
  have captured : ∀ k : CounterGroup, g = k.number → exec .capture s = .next { s with
      cmd := { s.cmd with phase := .idle, result := .ok, capture := s.groupWords k }
      counts := s.counts.zeroGroup k
      events := { s.events with latches := s.events.latches ||| 0x0080 } } := fun k hk => by
    rw [exec_capture hr (hg.symm.trans hk), State.endCommand_captureGroup]
  refine ⟨fun l hl => ⟨_, captured (.lane l) hl, rfl, rfl, rfl⟩, fun u hu => ⟨_, captured (.stream u) hu, rfl, rfl, rfl⟩,
    fun device => ⟨_, captured .device device, fun k => ?_, s.groupWords_completions.1, s.groupWords_completions.2, rfl, rfl,
      rfl⟩⟩
  exact Vector.getElem_append_left k.isLt

/-! ### TABLE_READ (R152) -/

/-- TABLE_READ fills the image from the entry its argument names, and ends with OK (R152, R150). -/
theorem exec_tableRead {s : State} {e : TableEntry} (hr : s.running .tableRead) (he : argTable s.cmd.arg = some e) :
    exec .tableRead s = .next ((s.setImage (s.imageOf e)).endCommand .ok) := by
  have work : s.onTable s.doTableRead = (s.setImage (s.imageOf e)).endCommand .ok := by
    rw [State.onTable, he]
    rfl
  exact (act_of_enabled hr.1 (State.awaits_of_running hr)).trans (congrArg _ work)

/-! ### The items of an image's words -/

theorem getLsbD_itemAt (v n k : Nat) :
    (itemAt v n).getLsbD k = (decide (k < 16) && decide (n ≤ k) && v.testBit (k - n)) := by
  simp only [itemAt, BitVec.getLsbD_shiftLeft, BitVec.getLsbD_ofNat]
  grind

theorem bitAt_eq_itemAt (b : Bool) (n : Nat) : bitAt b n = itemAt b.toNat n := by
  cases b
  · exact (BitVec.zero_shiftLeft n).symm
  · rfl

theorem getLsbD_bitAt (b : Bool) (n k : Nat) : (bitAt b n).getLsbD k = (decide (k < 16) && decide (k = n) && b) := by
  rw [bitAt_eq_itemAt, getLsbD_itemAt, Nat.testBit_bool_toNat]
  grind

/-- A field is a number whose bits it holds. -/
theorem fieldOf_eq_of_bits {v : Word} {n w x : Nat} (high : ∀ {k}, w ≤ k → x.testBit k = false)
    (low : ∀ k < w, v.getLsbD (n + k) = x.testBit k) : fieldOf v n w = x := by
  refine Nat.eq_of_testBit_eq fun k => ?_
  rw [fieldOf, BitVec.testBit_toNat, BitVec.getLsbD_extractLsb']
  by_cases h : k < w
  · simp [-BitVec.getLsbD_eq_getElem, h, low k h]
  · simp [h, high (Nat.le_of_not_lt h)]

theorem toNat_itemAt_zero {v : Nat} (h : v < 65536) : (itemAt v 0).toNat = v := by
  simp [itemAt, Nat.mod_eq_of_lt h]

theorem testBit_high {x w k : Nat} (small : x < 2 ^ w) (h : w ≤ k) : x.testBit k = false :=
  Nat.testBit_lt_two_pow (small.trans_le (Nat.pow_le_pow_right (by decide) h))

theorem testBit_streamId (u : StreamId) {k : Nat} (h : 5 ≤ k) : u.val.testBit k = false := testBit_high u.isLt h

theorem testBit_count (x : BitVec 2) {k : Nat} (h : 2 ≤ k) : x.toNat.testBit k = false := testBit_high x.isLt h

theorem testBit_laneMatchCode (m : Option LaneId) {k : Nat} (h : 4 ≤ k) : (laneMatchCode m).testBit k = false := by
  refine testBit_high (w := 4) ?_ h
  cases m with
  | none => decide
  | some l => exact l.isLt.trans (by decide)

theorem laneMatchOf_laneMatchCode (m : Option LaneId) : laneMatchOf (laneMatchCode m) = some m := by
  cases m with
  | none => rfl
  | some l => exact dif_pos l.isLt

theorem actionOf_isStore (a : Action) : actionOf a.isStore = a := by cases a <;> rfl

theorem policyOf_isEvict (p : Policy) : (if p.isEvict then Policy.evictOldest else .refuseNewest) = p := by cases p <;> rfl

section RouteImage

variable (e : RouteEntry)

theorem RouteEntry.image_flags : e.image[0].getLsbD 15 = e.valid ∧ e.image[0].getLsbD 14 = e.action.isStore
    ∧ e.image[0].getLsbD 13 = e.seqCheck := by
  simp [-BitVec.getLsbD_eq_getElem, RouteEntry.image, getLsbD_bitAt, getLsbD_itemAt, testBit_streamId,
    testBit_laneMatchCode]

theorem RouteEntry.image_laneMatch : fieldOf e.image[0] 8 4 = laneMatchCode e.laneMatch := by
  refine fieldOf_eq_of_bits (testBit_laneMatchCode e.laneMatch) fun k hk => ?_
  interval_cases k <;>
    simp [-BitVec.getLsbD_eq_getElem, RouteEntry.image, getLsbD_bitAt, getLsbD_itemAt, testBit_streamId]

theorem RouteEntry.image_stream : streamOfWord e.image[0] = e.stream := by
  refine Fin.ext (fieldOf_eq_of_bits (testBit_streamId e.stream) fun k hk => ?_)
  interval_cases k <;> simp [-BitVec.getLsbD_eq_getElem, RouteEntry.image, getLsbD_bitAt, getLsbD_itemAt]

theorem RouteEntry.image_tag : e.image[1].extractLsb' 8 8 = e.tag := BitVec.extractLsb'_append_eq_left

theorem RouteEntry.image_tagMask : e.image[1].extractLsb' 0 8 = e.tagMask := BitVec.extractLsb'_append_eq_right

/-- An image read from a route entry is legal where the entry is, and commits it with Expected and Expected Known 0 and the
Edition raised (R49, R180). -/
theorem routeOfImage_image (check : e.seqCheck = true → e.laneMatch ≠ none ∧ e.tagMask = 0xFF) :
    routeOfImage e.image e.edition = some { e with expected := 0, expectedKnown := false, edition := e.edition + 1 } := by
  obtain ⟨valid, action, seqCheck⟩ := e.image_flags
  have legal : (e.seqCheck && (e.laneMatch.isNone || e.tagMask != 0xFF)) = false := by
    cases h : e.seqCheck with
    | false => rfl
    | true =>
      obtain ⟨lane, mask⟩ := check h
      simp [mask, Option.isNone_eq_false_iff, Option.isSome_iff_ne_none, lane]
  rw [routeOfImage, e.image_laneMatch, laneMatchOf_laneMatchCode]
  simp only [valid, action, seqCheck, e.image_stream, e.image_tag, e.image_tagMask, actionOf_isStore, legal]
  rfl

end RouteImage

/-- An image read from a stream whose entry is in the ranges of Table 5-1 commits the entry (R180). -/
theorem streamOfImage_streamImage {s : State} {u : StreamId} (quota : (s.stream u).entry.quota ≤ 16384)
    (watermark : (s.stream u).entry.watermark ≤ 16384) (ageLimit : (s.stream u).entry.ageLimit ≤ 65535) :
    streamOfImage (s.streamImage u) = some (s.stream u).entry := by
  have quotaWord : (s.streamImage u)[1].toNat = (s.stream u).entry.quota := toNat_itemAt_zero (by omega)
  have watermarkWord : (s.streamImage u)[2].toNat = (s.stream u).entry.watermark := toNat_itemAt_zero (by omega)
  have ageLimitWord : (s.streamImage u)[3].toNat = (s.stream u).entry.ageLimit := toNat_itemAt_zero (by omega)
  have enable : (s.streamImage u)[0].getLsbD 15 = (s.stream u).entry.enable := by
    simp [-BitVec.getLsbD_eq_getElem, State.streamImage, getLsbD_bitAt]
  have policy : (s.streamImage u)[0].getLsbD 14 = (s.stream u).entry.policy.isEvict := by
    simp [-BitVec.getLsbD_eq_getElem, State.streamImage, getLsbD_bitAt]
  have fields : streamFields (s.streamImage u) = (s.stream u).entry := by
    simp only [streamFields, quotaWord, watermarkWord, ageLimitWord, enable, policy, policyOf_isEvict]
  rw [streamOfImage_eq, quotaWord, watermarkWord, if_pos ⟨quota, watermark⟩, fields]

section LaneImage

variable (e : LaneEntry)

theorem LaneEntry.image_flags : e.image[0].getLsbD 15 = e.enable ∧ e.image[0].getLsbD 7 = e.keepDamaged
    ∧ e.image[0].getLsbD 6 = e.defaultAction.isStore := by
  simp [-BitVec.getLsbD_eq_getElem, LaneEntry.image, getLsbD_bitAt, getLsbD_itemAt, testBit_count,
      testBit_streamId]

theorem LaneEntry.image_confirmCount : e.image[0].extractLsb' 12 2 = e.confirmCount := by
  refine BitVec.eq_of_toNat_eq (fieldOf_eq_of_bits (testBit_count _) fun k hk => ?_)
  interval_cases k <;>
    simp [-BitVec.getLsbD_eq_getElem, LaneEntry.image, getLsbD_bitAt, getLsbD_itemAt, testBit_count,
      testBit_streamId]

theorem LaneEntry.image_missTolerance : e.image[0].extractLsb' 8 2 = e.missTolerance := by
  refine BitVec.eq_of_toNat_eq (fieldOf_eq_of_bits (testBit_count _) fun k hk => ?_)
  interval_cases k <;>
    simp [-BitVec.getLsbD_eq_getElem, LaneEntry.image, getLsbD_bitAt, getLsbD_itemAt, testBit_streamId]

theorem LaneEntry.image_defaultStream : streamOfWord e.image[0] = e.defaultStream := by
  refine Fin.ext (fieldOf_eq_of_bits (testBit_streamId e.defaultStream) fun k hk => ?_)
  interval_cases k <;> simp [-BitVec.getLsbD_eq_getElem, LaneEntry.image, getLsbD_bitAt, getLsbD_itemAt]

/-- An image read from a legal lane entry commits it (R180). -/
theorem laneOfImage_image (legal : e.confirmCount ≠ 0) : laneOfImage e.image = some e := by
  obtain ⟨enable, keepDamaged, action⟩ := e.image_flags
  rw [laneOfImage, e.image_confirmCount, if_neg legal]
  simp only [enable, keepDamaged, action, e.image_missTolerance, e.image_defaultStream, actionOf_isStore]

end LaneImage

/-- Settles O41: TABLE_READ, and the image of each table written back. -/
theorem tableReadAndImages : Obligations.TableReadAndImages := by
  refine ⟨fun s hr e he => ?_, routeOfImage_image, fun s u => streamOfImage_streamImage, laneOfImage_image⟩
  rw [exec_tableRead hr he, State.endCommand_eq]
  rfl

end Sys2Proof.Machine
end

section
/-! The Timebase (R161, R162): the count and its tick, and what a microsecond still has to bring before the next count whether
its own act takes it or the count does (R92, R114, R15, R71, R139; entries 7, 22 and 24). -/

namespace Sys2Proof.Machine

variable {s t x : State}

/-- While RESET_n is low the count does not advance (R161). -/
theorem exec_timebaseCount_low (low : s.host.resetHigh = false) : exec .timebaseCount s = .next s := by
  show execTimebaseCount s = _
  rw [execTimebaseCount, low, if_neg Bool.false_ne_true]

theorem exec_timebaseCount_high (high : s.host.resetHigh = true) : exec .timebaseCount s = .next s.nextMicrosecond := by
  show execTimebaseCount s = _
  rw [execTimebaseCount, if_pos high]

/-- MILLISECOND_TICK is the count in which the sub-count passes from 999 to 0 (R162). -/
theorem exec_millisecondTick (high : s.host.resetHigh = true) (tick : s.time.sub = 999) :
    exec .millisecondTick s = exec .timebaseCount s := by
  have due : s.tickDue = true := decide_eq_true (by omega)
  rw [exec_timebaseCount_high high]
  exact act_of_enabled high due

/-- A count below the tick (R161, R139). -/
theorem State.countMicrosecond_below (below : s.time.sub < 999) : s.countMicrosecond = { s with
    time := { s.time with count := s.time.count + 1, sub := s.time.sub + 1, judging := 0 }
    port := s.port.nextMicrosecond } := by
  have notDue : s.tickDue = false := decide_eq_false (by omega)
  rw [State.countMicrosecond, State.advance, notDue]
  rfl

/-- A count with the tick: it latches nothing and moves no counter (R162, R92, R113, R114). -/
theorem State.countMicrosecond_tick (tick : 999 ≤ s.time.sub) : s.countMicrosecond = { s with
    time := { s.time with count := s.time.count + 1, sub := 0, judging := s.holdLimit }
    port := s.port.nextMicrosecond
    streams := s.streams.map fun x => { x with examine := x.entry.ageLimit, expired := [] } } := by
  have due : s.tickDue = true := decide_eq_true tick
  rw [State.countMicrosecond, State.advance, due]
  rfl

theorem exec_timebaseCount_settled (high : s.host.resetHigh = true) (settled : s.settledMicrosecond) :
    exec .timebaseCount s = .next s.countMicrosecond := by
  rw [exec_timebaseCount_high high, State.nextMicrosecond, State.finishMicrosecond_of_settled settled]

/-- An act of the part that the count would bring first leaves the count after it as it was (entries 7, 22 and 24). -/
theorem exec_timebaseCount_act {n : String} {due : Bool} (taken : act n s due x = .next t)
    (kept : x.host.resetHigh = s.host.resetHigh)
    (brought : due = true → x.nextMicrosecond = s.nextMicrosecond) : exec .timebaseCount s = exec .timebaseCount t := by
  obtain ⟨high, isDue, rfl⟩ := act_next_iff.mp taken
  rw [exec_timebaseCount_high high, exec_timebaseCount_high (kept.trans high), brought isDue]

theorem exec_timebaseCount_ageExpiry {u : StreamId} (earlier : ∀ v, v < u → s.ageDue v = false)
    (taken : exec (.ageExpiry u) s = .next t) : exec .timebaseCount s = exec .timebaseCount t :=
  exec_timebaseCount_act taken (by simp) fun _ => State.nextMicrosecond_ageStep s u earlier

theorem exec_timebaseCount_holdExpiry (ages : ∀ v, s.ageDue v = false) (taken : exec .holdExpiry s = .next t) :
    exec .timebaseCount s = exec .timebaseCount t :=
  exec_timebaseCount_act taken (by simp) fun due => by
    obtain ⟨⟨i, h⟩, first⟩ := Option.isSome_iff_exists.mp due
    exact State.nextMicrosecond_holdStep s i h ages first

/-- Where HOLD_EXPIRY does not complete, no hold is to end (R114). -/
theorem State.expiredHold_eq_none_of_exec (high : s.host.resetHigh = true) (never : ∀ u, exec .holdExpiry s ≠ .next u) :
    s.expiredHold = none :=
  Option.not_isSome_iff_eq_none.mp fun due => never _ (act_of_enabled high due)

theorem exec_timebaseCount_silence {l : LaneId} (ages : ∀ v, s.ageDue v = false) (holds : s.expiredHold = none)
    (earlier : ∀ m, m < l → s.heardInTime m) (taken : exec (.silence l) s = .next t) :
    exec .timebaseCount s = exec .timebaseCount t :=
  exec_timebaseCount_act taken (by simp)
    (State.nextMicrosecond_fallSilent s l ages holds fun m hm => (s.silenceDue_eq_false_iff m).mpr (earlier m hm))

theorem exec_timebaseCount_poolBuildEnd (ages : ∀ v, s.ageDue v = false) (holds : s.expiredHold = none)
    (heard : ∀ l, s.heardInTime l) (taken : exec .poolBuildEnd s = .next t) :
    exec .timebaseCount s = exec .timebaseCount t :=
  exec_timebaseCount_act taken (by simp)
    (State.nextMicrosecond_finishBuild s ages holds fun l => (s.silenceDue_eq_false_iff l).mpr (heard l))

theorem exec_timebaseCount_intervalExpiry (ages : ∀ v, s.ageDue v = false) (holds : s.expiredHold = none)
    (heard : ∀ l, s.heardInTime l) (build : s.buildNotDue) (interval : s.port.interval ≠ 0) (left : s.port.left < 4)
    (taken : exec .intervalExpiry s = .next t) : exec .timebaseCount s = exec .timebaseCount t :=
  exec_timebaseCount_act taken (by simp) fun _ =>
    State.nextMicrosecond_intervalExpiry s ages holds (fun l => (s.silenceDue_eq_false_iff l).mpr (heard l))
      (s.buildDue_eq_false_iff.mpr build) interval left

/-- Settles O23: the count of a settled microsecond below the tick and at it, and for each act that may be outstanding that the
count comes out the same after it. -/
theorem timebaseCountsAndTicks : Obligations.TimebaseCountsAndTicks := by
  refine ⟨fun s => ⟨exec_timebaseCount_low, exec_millisecondTick, fun high => ⟨_, exec_timebaseCount_high high⟩,
    fun high settled => ⟨fun below => ?_, fun tick => ?_⟩⟩, fun s t high => ⟨fun u => exec_timebaseCount_ageExpiry,
    exec_timebaseCount_holdExpiry, fun ages never => ?_⟩⟩
  · rw [exec_timebaseCount_settled high settled, State.countMicrosecond_below below]
  · rw [exec_timebaseCount_settled high settled, State.countMicrosecond_tick tick]
  · have holds := State.expiredHold_eq_none_of_exec high never
    exact ⟨fun l => exec_timebaseCount_silence ages holds, fun heard => ⟨exec_timebaseCount_poolBuildEnd ages holds heard,
      exec_timebaseCount_intervalExpiry ages holds heard⟩⟩

end Sys2Proof.Machine
end

section
/-! TIME_LO and TIME_HI (R163): who changes the TIME_HI hold, one case for each command, from what its operation leaves alone. -/

namespace Sys2Proof.Machine

/-- Command c, which leads from s to t, leaves the TIME_HI hold unless it is the read of TIME_LO or hard reset (R163). -/
def HiHoldKept (c : Instr) (s t : State) : Prop := c ≠ .timeLoRead → c ≠ .hardReset → t.time.hiHold = s.time.hiHold

namespace HiHoldKept

variable {c : Instr} {s t x : State}

theorem of_eq (k : t.time.hiHold = s.time.hiHold) : HiHoldKept c s t := fun _ _ => k

theorem ofAct {n : String} {b : Bool} (h : act n s b x = .next t) (k : x.time.hiHold = s.time.hiHold) :
    HiHoldKept c s t := by
  rw [act_next h]
  exact of_eq k

/-- A write that leaves the hold leaves it too where the part is in reset or a read is held (R127, R176). -/
theorem ofAccess (h : hostAccess s x = .next t) (k : x.time.hiHold = s.time.hiHold) : HiHoldKept c s t := by
  rcases hostAccess_next h with ⟨_, rfl⟩ | ⟨_, _, rfl⟩ | ⟨_, _, rfl⟩
  · exact of_eq rfl
  · exact of_eq k
  · exact of_eq rfl

theorem ofRead (h : hostRead s x = .next t) (k : x.time.hiHold = s.time.hiHold) : HiHoldKept c s t := by
  rcases hostRead_next h with ⟨_, rfl⟩ | ⟨_, _, rfl⟩ | ⟨_, _, rfl⟩
  · exact of_eq rfl
  · exact of_eq k
  · exact of_eq rfl

/-- A command whose argument names nothing is its end act alone (entry 16). -/
theorem onStream {work : StreamId → State} (k : ∀ u, (work u).time.hiHold = s.time.hiHold) :
    (s.onStream work).time.hiHold = s.time.hiHold := by
  unfold State.onStream; split
  · exact k _
  · simp

theorem onTable {work : TableEntry → State} (k : ∀ e, (work e).time.hiHold = s.time.hiHold) :
    (s.onTable work).time.hiHold = s.time.hiHold := by
  unfold State.onTable; split
  · exact k _
  · simp

theorem onGroup {work : CounterGroup → State} (k : ∀ g, (work g).time.hiHold = s.time.hiHold) :
    (s.onGroup work).time.hiHold = s.time.hiHold := by
  unfold State.onGroup; split
  · exact k _
  · simp

/-- Every command but the read of TIME_LO and hard reset leaves the hold. -/
theorem of_exec (h : exec c s = .next t) : HiHoldKept c s t := by
  cases c
  case hardReset => exact fun _ reset => absurd rfl reset
  case timeLoRead => exact fun read => absurd rfl read
  case resetRelease =>
    cases h; split <;> exact of_eq rfl
  case candidate | provisionalHeader | header | bodyByte | trailerCheck | laneClockEdge => cases h; exact of_eq (by simp)
  case timebaseCount =>
    cases h; split
    · exact of_eq (by simp)
    · exact of_eq rfl
  case cellWriteComplete =>
    simp only [exec, execCellWriteComplete] at h
    split at h <;> exact ofAct h (by simp)
  case failedTestEndAct =>
    simp only [exec, execFailedTestEndAct] at h
    split at h <;> exact ofAct h (by simp)
  case take | peek => exact ofAct h (onStream fun _ => by simp)
  case capture => exact ofAct h (onGroup fun _ => by simp)
  case tableRead | tableWrite => exact ofAct h (onTable fun _ => by simp)
  case purgeRemoval =>
    refine execPurgeRemoval_next h fun x next => ?_
    obtain ⟨u, boundary, rfl⟩ | rfl := State.purgeNext_cases next
    · exact of_eq (by simp)
    · exact of_eq (by simp)
  case heldReadAbandon => cases h; exact of_eq (by simp)
  case winDataRead => exact ofRead h (by simp)
  case purge | clear | collision | commandAcceptance | pointing | winHandleWrite | eventLatchWrite | eventEnableWrite
      | wmarkWrite | wmarkEnWrite | readyEnWrite | refreshCfgWrite | poolLowWrite | holdLimitWrite | registerWrite =>
    exact ofAccess h (by simp)
  case silence | portGrant | cellReadComplete | refreshComplete | intervalExpiry | millisecondTick | ageExpiry | holdExpiry
      | poolBuildEnd | release | returnRecord | clearSecondStep | clearThirdStep | clearFourthStep =>
    exact ofAct h (by simp)

end HiHoldKept

/-- Settles O47: the read takes both halves of one count, and `HiHoldKept` holds of every command. -/
theorem timeLoRead : Obligations.TimeLoRead := by
  refine ⟨fun s takes => ⟨hostRead_of_takes takes, ?_⟩, fun _ _ _ h => HiHoldKept.of_exec h⟩
  rw [State.busWord, if_pos takes.1]
  rfl

end Sys2Proof.Machine
end

section
/-! Events and the interrupt output (R167 to R171, R90, R83): the writes of EVENT_LATCH, EVENT_ENABLE and the per-stream words
bit by bit, and INT_n. -/

namespace Sys2Proof.Machine

/-! ### Positions (Table 11-10) -/

theorem Event.position_lt (e : Event) : e.position < 16 := by cases e <;> decide

/-- Every position is an event's, the WATERMARK item's, or one of those that read 0. -/
theorem Event.position_cases : ∀ k < 16, (0xFC08 : Word).getLsbD k = false →
    ∃ e ∈ [laneSync, laneSilent, recordDrop, poolLow, refreshLate, holdExpired, commandDone, windowError, configError],
      e.position = k := by decide

/-- A latch bit that is set is an event's, where none is set outside the nine positions. -/
theorem State.latched_of_bit {s : State} (nine : s.events.latches &&& 0xFC08 = 0) {k : Nat} (hk : k < 16)
    (bit : s.events.latches.getLsbD k = true) : ∃ e : Event, e.position = k ∧ s.latched e = true := by
  have outside : (0xFC08 : Word).getLsbD k = false := by
    have both : (s.events.latches &&& 0xFC08).getLsbD k = false := by rw [nine]; exact BitVec.getLsbD_zero
    rwa [BitVec.getLsbD_and, bit, Bool.true_and] at both
  obtain ⟨e, -, position⟩ := Event.position_cases k hk outside
  exact ⟨e, position, by rw [State.latched, position, bit]⟩

/-! ### The writes (R167, R169, R90, R170) -/

theorem State.latched_writeEventLatch (s : State) (v : Word) (e : Event) :
    (s.writeEventLatch v).latched e = (s.latched e && !v.getLsbD e.position) := by
  show (s.events.latches &&& ~~~v).getLsbD e.position = _
  rw [BitVec.getLsbD_and, BitVec.getLsbD_not, decide_eq_true e.position_lt, Bool.true_and]
  rfl

/-- The first stream of a half's word (R170). -/
def firstStream : Half → Nat
  | .lo => 0
  | .hi => 16

/-- One half replaced: stream u's bit is bit u less the half's first stream of the word (R170). -/
theorem getLsbD_withHalf (w : BitVec 32) (h : Half) (v : Word) {k : Nat} (hk : k < 32) : (withHalf w h v).getLsbD k
    = if firstStream h ≤ k ∧ k < firstStream h + 16 then v.getLsbD (k - firstStream h) else w.getLsbD k :=
  withHalf_bits w h v k hk

/-- A word at one half of the per-stream bits, the others 0. -/
theorem getLsbD_withHalf_zero (h : Half) (v : Word) {k : Nat} (hk : k < 32) :
    (withHalf 0 h v).getLsbD k = (decide (firstStream h ≤ k) && v.getLsbD (k - firstStream h)) := by
  rw [getLsbD_withHalf 0 h v hk]
  by_cases low : firstStream h ≤ k
  · by_cases high : k < firstStream h + 16
    · rw [if_pos ⟨low, high⟩, decide_eq_true low, Bool.true_and]
    · rw [if_neg fun both => high both.2, BitVec.getLsbD_of_ge v _ (by omega), Bool.and_false]
      exact BitVec.getLsbD_zero
  · rw [if_neg fun both => low both.1, decide_eq_false low, Bool.false_and]
    exact BitVec.getLsbD_zero

theorem State.getLsbD_writeWmark (s : State) (h : Half) (v : Word) {k : Nat} (hk : k < 32) :
    (s.writeWmark h v).events.watermarks.getLsbD k
      = (s.events.watermarks.getLsbD k && !(decide (firstStream h ≤ k) && v.getLsbD (k - firstStream h))) := by
  show (s.events.watermarks &&& ~~~(withHalf 0 h v)).getLsbD k = _
  rw [BitVec.getLsbD_and, BitVec.getLsbD_not, decide_eq_true hk, Bool.true_and, getLsbD_withHalf_zero h v hk]

/-- Settles O48: each write is taken, and its word bit by bit. -/
theorem eventAndPerStreamWordWrites : Obligations.EventAndPerStreamWordWrites := by
  refine ⟨fun s v takes => ⟨⟨s.writeEventLatch v, hostAccess_of_takes takes rfl, s.latched_writeEventLatch v, rfl⟩,
    hostAccess_of_takes takes rfl⟩, fun s h v base takes hbase => ?_⟩
  obtain rfl : base = firstStream h := hbase
  exact ⟨⟨s.writeWmark h v, hostAccess_of_takes takes rfl, fun k hk => s.getLsbD_writeWmark h v hk, rfl⟩,
    ⟨s.writeWmarkEn h v, hostAccess_of_takes takes rfl, fun k hk => getLsbD_withHalf s.events.watermarkEnables h v hk, rfl⟩,
    s.writeReadyEn h v, hostAccess_of_takes takes rfl, fun k hk => getLsbD_withHalf s.events.readyEnables h v hk, rfl⟩

/-! ### INT_n (R171, R168, R83) -/

/-- A bit of EVENT_LATCH is the latch, and at position 3 the WATERMARK item (R167, R168). -/
theorem State.getLsbD_eventLatchWord (s : State) {k : Nat} (hk : k < 16) : s.eventLatchWord.getLsbD k = true
    ↔ s.events.latches.getLsbD k = true ∨ k = watermarkPosition ∧ s.watermarkItem = true := by
  have item : (if s.watermarkItem then (1 : Word) <<< watermarkPosition else 0).getLsbD k = true
      ↔ k = watermarkPosition ∧ s.watermarkItem = true := by
    have one : ∀ k < 16, ((1 : Word) <<< watermarkPosition).getLsbD k = true ↔ k = watermarkPosition := by decide
    cases s.watermarkItem with
    | false => simp
    | true => simpa using one k hk
  rw [State.eventLatchWord, BitVec.getLsbD_or, Bool.or_eq_true, item]

/-- An enabled bit of EVENT_LATCH is 1 exactly when an enabled latch or the enabled WATERMARK item is (R171). -/
theorem State.enabledLatch_iff {s : State} (nine : s.events.latches &&& 0xFC08 = 0) :
    s.eventLatchWord &&& s.events.enables ≠ 0
      ↔ (∃ e : Event, s.latched e = true ∧ s.events.enables.getLsbD e.position = true)
        ∨ s.watermarkItem = true ∧ s.events.enables.getLsbD watermarkPosition = true := by
  simp only [ne_zero_iff_bit, BitVec.getLsbD_and, Bool.and_eq_true]
  constructor
  · rintro ⟨k, hk, bit, enabled⟩
    rcases (s.getLsbD_eventLatchWord hk).mp bit with latch | ⟨rfl, item⟩
    · obtain ⟨e, rfl, latched⟩ := State.latched_of_bit nine hk latch
      exact .inl ⟨e, latched, enabled⟩
    · exact .inr ⟨item, enabled⟩
  · rintro (⟨e, latched, enabled⟩ | ⟨item, enabled⟩)
    · exact ⟨e.position, e.position_lt, (s.getLsbD_eventLatchWord e.position_lt).mpr (.inl latched), enabled⟩
    · exact ⟨watermarkPosition, by decide, (s.getLsbD_eventLatchWord (by decide)).mpr (.inr ⟨rfl, item⟩), enabled⟩

theorem State.readyBit_iff (s : State) (u : StreamId) : s.readyBit u = true ↔ (s.stream u).queue ≠ [] := by
  simp [State.readyBit, State.stream]

/-- An enabled Ready bit is 1 (R83, R171). -/
theorem State.enabledReady_iff (s : State) :
    ((List.finRange 32).any fun t => s.readyBit t && s.events.readyEnables.getLsbD t.val) = true
      ↔ ∃ u : StreamId, (s.stream u).queue ≠ [] ∧ s.events.readyEnables.getLsbD u.val = true := by
  simp only [List.any_eq_true, List.mem_finRange, true_and, Bool.and_eq_true, s.readyBit_iff]

/-- Settles O49: INT_n by its enabled latches and WATERMARK item (`State.enabledLatch_iff`) and its enabled Ready bits. -/
theorem interruptOutput : Obligations.InterruptOutput := by
  intro s nine
  rw [State.intLow, Bool.and_eq_true, Bool.or_eq_true, bne_iff_ne, State.enabledLatch_iff nine, s.enabledReady_iff,
    s.watermarkItem_iff, or_assoc]
  rfl

end Sys2Proof.Machine
end

section
/-! The host port (R173, R174, R176): every write by the host is a write of some word of the window and every read a read of
one, so that what an access does in reset, during a held read and after the cycle before it is said once for all rows. -/

namespace Sys2Proof.Machine

section Accesses

variable {c : Instr} {s x y : State}

/-! ### Every row of the host's is an access to a word of the window (entry 19) -/

theorem exec_hostWrite (write : c.isHostWrite = true) :
    ∃ (a : BitVec 7) (v : Word), ∀ s, exec c s = hostAccess s (s.writeWord a v) := by
  cases c
  case purge => exact ⟨0x0C, purgeCode, fun _ => rfl⟩
  case clear => exact ⟨0x0C, clearCode, fun _ => rfl⟩
  case collision v => exact ⟨0x0C, v, fun _ => rfl⟩
  case commandAcceptance v => exact ⟨0x0C, v, fun _ => rfl⟩
  case pointing v => exact ⟨0x29, v, fun _ => rfl⟩
  case winHandleWrite v => exact ⟨0x28, v, fun _ => rfl⟩
  case eventLatchWrite v => exact ⟨0x30, v, fun _ => rfl⟩
  case eventEnableWrite v => exact ⟨0x31, v, fun _ => rfl⟩
  case readyEnWrite h v => cases h; exacts [⟨0x34, v, fun _ => rfl⟩, ⟨0x35, v, fun _ => rfl⟩]
  case wmarkWrite h v => cases h; exacts [⟨0x36, v, fun _ => rfl⟩, ⟨0x37, v, fun _ => rfl⟩]
  case wmarkEnWrite h v => cases h; exacts [⟨0x3C, v, fun _ => rfl⟩, ⟨0x3D, v, fun _ => rfl⟩]
  case refreshCfgWrite v => exact ⟨0x07, v, fun _ => rfl⟩
  case poolLowWrite v => exact ⟨0x08, v, fun _ => rfl⟩
  case holdLimitWrite v => exact ⟨0x09, v, fun _ => rfl⟩
  case registerWrite a v => exact ⟨a, v, fun _ => rfl⟩
  all_goals cases write

theorem exec_hostRead (read : c.isHostRead = true) :
    ∃ a : BitVec 7, ∀ s, exec c s = hostRead s (s.readAccess a) := by
  cases c
  case timeLoRead => exact ⟨0x0A, fun _ => rfl⟩
  case winDataRead => exact ⟨0x2A, fun _ => rfl⟩
  all_goals cases read

/-! ### An access in reset, and one during a held read (R176, R127) -/

theorem hostAccess_low (low : s.host.resetHigh = false) (free : s.host.heldRead = false) :
    hostAccess s x = .next s.released := by
  simp [hostAccess, low, free]

theorem hostRead_low (low : s.host.resetHigh = false) (free : s.host.heldRead = false) :
    hostRead s x = .next { s with host := { s.host with driven := some 0 } } := by
  simp [hostRead, low, free]

theorem hostAccess_held (held : s.host.heldRead = true) : hostAccess s x = .next s := if_pos held

theorem hostRead_held (held : s.host.heldRead = true) : hostRead s x = .next s := if_pos held

/-! ### An access ends the cycle before it (R173) -/

/-- Whether the lines are still driven decides nothing about a write whose effect does not read them. -/
theorem hostAccess_released (free : s.host.heldRead = false) (same : y.released = x.released) :
    hostAccess s.released y = hostAccess s x := by
  simp only [hostAccess, State.released_frame, free, same]
  rfl

/-- Nor about a read that fixes a word of its own. -/
theorem hostRead_released (free : s.host.heldRead = false) : hostRead s.released x = hostRead s x := by
  simp only [hostRead, State.released_frame, free]
  rfl

theorem State.released_readWindow (s : State) : s.released.readWindow = s.readWindow := by
  unfold State.readWindow
  rw [show s.released.window.mode = s.window.mode from rfl]
  cases s.window.mode with
  | idle => rfl
  | stale => rfl
  | fetching => rfl
  | ready =>
    show s.released.answerReady = s.answerReady
    unfold State.answerReady
    rw [show s.released.window = s.window from rfl, show s.released.windowLength = s.windowLength from rfl]
    split <;> rfl

/-- No word but WIN_DATA's reads what is driven. -/
theorem State.released_readWord (s : State) {a : BitVec 7} (other : a ≠ 0x2A) : s.released.readWord a = s.readWord a := by
  unfold State.readWord
  split
  case h_42 data => exact absurd (BitVec.toNat_eq_nat.mp data).2 other
  all_goals rfl

theorem State.released_readAccess (s : State) (a : BitVec 7) : s.released.readAccess a = s.readAccess a := by
  unfold State.readAccess
  split
  · rfl
  · split
    · exact s.released_readWindow
    · next other => rw [s.released_readWord other]; rfl

/-! ### An edge on a DISABLED lane (R1, R7) -/

theorem State.clockEdge_disabled {l : LaneId} (b : Bool) (disabled : (s.lane l).rx.delin = .disabled) :
    s.clockEdge l b = s := by
  unfold State.clockEdge
  split
  · rw [State.silenceStep_of_heard (.inl disabled), State.takeEdge, disabled]
  · rfl

end Accesses

/-- Settles O5: an access by `exec_hostWrite` and `exec_hostRead`, an edge by `exec_edge`. -/
theorem inputsThatAreIgnored : Obligations.InputsThatAreIgnored := by
  refine ⟨⟨fun c s low free => ⟨fun write => ?_, fun read => ?_⟩, fun c s held access => ?_, fun c s free access => ?_⟩,
    fun c s l b edge disabled => ?_⟩
  · obtain ⟨a, v, h⟩ := exec_hostWrite write
    rw [h, hostAccess_low low free]
    rfl
  · obtain ⟨a, h⟩ := exec_hostRead read
    rw [h, hostRead_low low free]
  · rcases access with write | read
    · obtain ⟨a, v, h⟩ := exec_hostWrite write
      rw [h, hostAccess_held held]
    · obtain ⟨a, h⟩ := exec_hostRead read
      rw [h, hostRead_held held]
  · show exec c s = exec c s.released
    rcases access with write | read
    · obtain ⟨a, v, h⟩ := exec_hostWrite write
      rw [h, h, hostAccess_released free (s.released_writeWord a v)]
    · obtain ⟨a, h⟩ := exec_hostRead read
      rw [h, h, s.released_readAccess, hostRead_released free]
  · rw [exec_edge edge, State.clockEdge_disabled b disabled]

end Sys2Proof.Machine
end

section
/-! The register window (Table 11-1, R174): the words that ignore a write and those that read 0000h, the bus cycle (R173), and
what every word reads right after reset (R179). -/

namespace Sys2Proof.Machine

/-! ### Words that ignore a write, and words that read 0000h (R174) -/

/-- The addresses of Table 11-1 at which a write has an effect: those with a row of their own, CMD_ARG and the entry image. -/
def writtenAddresses : List (BitVec 7) := ownRowAddresses ++ [0x0D, 0x10, 0x11, 0x12, 0x13, 0x14, 0x15, 0x16, 0x17]

/-- An address that Table 11-1 does not assign (R174). -/
abbrev Unassigned (a : BitVec 7) : Prop :=
  a = 0x0F ∨ 0x2C ≤ a.toNat ∧ a.toNat ≤ 0x2F ∨ 0x38 ≤ a.toNat ∧ a.toNat ≤ 0x3B ∨ a = 0x3E ∨ a = 0x3F ∨ 0x48 ≤ a.toNat

theorem State.writeWord_ignored (s : State) {a : BitVec 7} (v : Word) (h : a ∉ writtenAddresses) :
    s.writeWord a v = s := by
  unfold State.writeWord
  split
  case h_24 => rfl
  all_goals
    next here =>
      obtain ⟨-, rfl⟩ := BitVec.toNat_eq_nat.mp here
      exact absurd (by decide) h

theorem State.writeWord_image (s : State) (i : Fin 8) (v : Word) :
    s.writeWord (0x10 + BitVec.ofNat 7 i.val) v = s.writeImage i v := by
  fin_cases i <;> rfl

theorem State.readWord_unassigned (s : State) {a : BitVec 7} (h : Unassigned a) : s.readWord a = 0 := by
  unfold State.readWord
  split
  case h_62 => rfl
  all_goals
    next here =>
      obtain ⟨-, rfl⟩ := BitVec.toNat_eq_nat.mp here
      exact absurd h (by decide)

/-! ### REGISTER_WRITE and the bus cycle (R173, R174) -/

theorem exec_registerWrite {s : State} (a : BitVec 7) (v : Word) (takes : s.takesAccess) :
    exec (.registerWrite a v) s = .next (s.writeWord a v) := hostAccess_of_takes takes

theorem State.busCycle_read {s : State} {a : BitVec 7} (v : Word) (takes : s.takesAccess) (timeLo : a ≠ 0x0A)
    (data : a ≠ 0x2A) :
    s.busCycle true false a v = .next { s with host := { s.host with driven := some (s.busWord a) } } := by
  have word : s.busWord a = s.readWord a := if_pos takes.1
  have read : s.readAccess a = { s with host := { s.host with driven := some (s.readWord a) } } := by
    rw [State.readAccess, if_neg timeLo, if_neg data]
  rw [word, ← read]
  exact hostRead_of_takes takes

theorem State.busCycle_bothLow {s : State} (a : BitVec 7) (v : Word) (free : s.host.heldRead = false) :
    s.busCycle true true a v = .next s.released := by
  simp [State.busCycle, free]

/-- Settles O52: a write by its address, a read by its word; the rows of their own are the same write by definition. -/
theorem registerWrite : Obligations.RegisterWrite := by
  refine ⟨fun s v takes => ⟨exec_registerWrite 0x0D v takes, fun i => ?_, fun a ignored => ?_, fun a unassigned => ?_⟩,
    fun s a v => ⟨State.busCycle_read v, rfl, rfl, rfl, by and_intros <;> rfl, State.busCycle_bothLow a v⟩⟩
  · rw [exec_registerWrite _ v takes, s.writeWord_image]
    rfl
  · have noEffect : a ∉ writtenAddresses := by revert a; decide
    rw [exec_registerWrite a v takes, s.writeWord_ignored v noEffect]
  · rw [State.busWord, if_pos takes.1, s.readWord_unassigned unassigned]

/-! ### The window right after reset (Table 11-1, R179) -/

/-- An unassigned word reads 0000h in every state; the words of the table are read one by one from the reset values. -/
theorem State.readWord_reset {a : BitVec 7} (notData : a ≠ 0x2A) : State.reset.readWord a
    = if a = 0x00 then 0x3620 else if a = 0x01 then 0x0001 else if a = 0x07 then 0x001F else 0x0000 := by
  by_cases unassigned : Unassigned a
  · have notGiven : ∀ a : BitVec 7, Unassigned a → a ≠ 0x00 ∧ a ≠ 0x01 ∧ a ≠ 0x07 := by decide
    obtain ⟨notId, notRev, notRefresh⟩ := notGiven a unassigned
    rw [State.reset.readWord_unassigned unassigned, if_neg notId, if_neg notRev, if_neg notRefresh]
  · have table : ∀ a : BitVec 7, ¬ Unassigned a → a ≠ 0x2A → State.reset.readWord a
        = if a = 0x00 then 0x3620 else if a = 0x01 then 0x0001 else if a = 0x07 then 0x001F else 0x0000 := by decide
    exact table a unassigned notData

/-- Settles O3: RESET_n is high at reset, and every word is `State.readWord_reset`. -/
theorem registersAfterReset : Obligations.RegistersAfterReset :=
  ⟨fun _ notData => State.readWord_reset notData, by decide, rfl⟩

end Sys2Proof.Machine
end

section
/-! HARD_RESET and RESET_RELEASE (R176, R69, R139): what the host sees while RESET_n is low, and the state
the two together leave. -/

namespace Sys2Proof.Machine

theorem exec_resetRelease_low {s : State} (low : s.host.resetHigh = false) :
    exec .resetRelease s = .next s.releaseReset := by
  simp [exec, execResetRelease, low]

/-- While RESET_n is low every word reads 0000h (R176). -/
theorem State.busWord_low {s : State} (low : s.host.resetHigh = false) (a : BitVec 7) : s.busWord a = 0 := by
  simp [State.busWord, low]

/-- While RESET_n is low INT_n is high (R176). -/
theorem State.intLow_low {s : State} (low : s.host.resetHigh = false) : s.intLow = false := by
  simp [State.intLow, low]

/-- The release undoes what hard reset leaves unlike `State.reset`, but for the epoch, the driven lines and the queue. -/
theorem State.releaseReset_hardReset (s : State) : s.hardReset.releaseReset = { State.reset with
    host := { State.reset.host with driven := s.hardReset.host.driven }, epoch := s.epoch + 1, pending := s.pending } := rfl

/-- Settles O4: hard reset leaves RESET_n low, and the release from there is `State.releaseReset_hardReset`. -/
theorem hardResetAndRelease : Obligations.HardResetAndRelease := by
  refine ⟨fun s => ⟨s.hardReset, rfl, rfl, State.busWord_low rfl, State.intLow_low rfl, rfl⟩,
    fun s low => exec_resetRelease_low low, fun s t u reset release => ?_⟩
  obtain rfl : s.hardReset = t := Host.Outcome.next.inj reset
  rw [exec_resetRelease_low (s := s.hardReset) rfl] at release
  obtain rfl : s.hardReset.releaseReset = u := Host.Outcome.next.inj release
  exact s.releaseReset_hardReset

end Sys2Proof.Machine
end

section
/-! The queue of the commands that wait (entries 1 and 2): a step takes the command at its front, and no act of the part
touches it. -/

namespace Sys2Proof.Machine

/-! ### What a step does with the queue -/

theorem step_of_front {s : State} {c : Instr} {rest : List Instr} (front : s.pending = c :: rest) :
    step s = exec c { s with pending := rest } := by
  simp only [step, front]

theorem step_of_empty {s : State} (empty : s.pending = []) : step s = .next s := by
  simp only [step, empty]

/-- Settles O1: `step_of_front` is the statement. -/
theorem stepRunsFrontCommand : Obligations.StepRunsFrontCommand :=
  fun _ _ _ front => step_of_front front

/-! ### The queue under the acts -/

/-- Each operation of the part by its frame lemma (Laws/Frames); hard reset keeps the commands that wait. -/
theorem State.Act.pending_eq {s t : State} (act : State.Act s t) : t.pending = s.pending := by
  cases act
  case same | readsZero | hardReset => rfl
  all_goals simp

theorem State.Acts.pending_eq {s t : State} (acts : State.Acts s t) : t.pending = s.pending :=
  acts.keep (P := fun x => x.pending = s.pending) (fun _ _ kept act => act.pending_eq.trans kept) rfl

/-- Settles O2: every next state of a command is made of acts (`State.Acts.of_exec`), and none of them touches the queue. -/
theorem execKeepsQueue : Obligations.ExecKeepsQueue :=
  ⟨fun _ _ _ next => (State.Acts.of_exec next).pending_eq, fun _ empty => step_of_empty empty⟩

end Sys2Proof.Machine
end
